-- ==== Sys2Proof/Machine/Assoc.lean ====
section
/-! DEFINITION. Sparse data by number: lists of key and value pairs in one canonical form (keys strictly rising, no
value equal to what an unlisted key reads as), so that equal contents are equal lists. Memory, slots, cores and every
other sparse part of the state are held so. -/

namespace Sys2Proof.Machine

/-- Sparse data: key and value pairs. -/
abbrev Assoc (β : Type) := List (Nat × β)

/-- The value at a key: what an unlisted key reads as is `d`. -/
def aget {β : Type} (d : β) : Assoc β → Nat → β
  | [], _ => d
  | (k, v) :: m, i => if k = i then v else aget d m i

/-- Removes the entry of a key. -/
def aerase {β : Type} (m : Assoc β) (i : Nat) : Assoc β := m.filter fun e => e.1 != i

/-- Puts an entry at its place. -/
def aput {β : Type} : Assoc β → Nat → β → Assoc β
  | [], i, x => [(i, x)]
  | (k, v) :: m, i, x =>
    if k = i then (i, x) :: m else if i < k then (i, x) :: (k, v) :: m else (k, v) :: aput m i x

/-- Sets the value at a key; setting what an unlisted key reads as removes the entry. -/
def aset {β : Type} [DecidableEq β] (d : β) (m : Assoc β) (i : Nat) (x : β) : Assoc β :=
  if x = d then aerase m i else aput m i x

/-- Whether every key of the data lies above `lo` and the keys rise strictly. -/
def risesFrom {β : Type} : Nat → Assoc β → Bool
  | _, [] => true
  | lo, (k, _) :: m => lo ≤ k && risesFrom (k + 1) m

/-- The canonical form. -/
def awf {β : Type} [DecidableEq β] (d : β) (m : Assoc β) : Bool := risesFrom 0 m && m.all (fun e => e.2 ≠ d)

/-- Replaces the element at an index; out of range changes nothing. -/
def lset {α : Type} : List α → Nat → α → List α
  | [], _, _ => []
  | _ :: xs, 0, y => y :: xs
  | x :: xs, n + 1, y => x :: lset xs n y

/-- Removes the element at an index. -/
def ldel {α : Type} : List α → Nat → List α
  | [], _ => []
  | _ :: xs, 0 => xs
  | x :: xs, n + 1 => x :: ldel xs n

/-- Whether two byte ranges `[a, a + n)` and `[b, b + m)` meet. -/
def rangesMeet (a n b m : Nat) : Bool := a < b + m && b < a + n

/-- Inserts into a list sorted by an order. -/
def insertBy {α : Type} (le : α → α → Bool) (x : α) : List α → List α
  | [] => [x]
  | y :: ys => if le x y then x :: y :: ys else y :: insertBy le x ys

/-- Sorts a list, keeping equal elements in order. -/
def sortBy {α : Type} (le : α → α → Bool) : List α → List α
  | [] => []
  | x :: xs => insertBy le x (sortBy le xs)

/-- Adds a number to a strictly rising list. -/
def nput : List Nat → Nat → List Nat
  | [], i => [i]
  | k :: m, i => if k = i then k :: m else if i < k then i :: k :: m else k :: nput m i

/-- Removes a number from a strictly rising list. -/
def ndel (m : List Nat) (i : Nat) : List Nat := m.filter fun k => k != i

end Sys2Proof.Machine
end

