-- ==== Sys2Proof/Word.lean ====
section
/-! DEFINITION. The word types of the Ranfy, and the plain types that instruction operands and events are made of
(spec/03_instruction_words.md, spec/24_lanthorn.md). -/

namespace Sys2Proof

/-- A 64-bit register value. -/
abbrev W64 := BitVec 64
/-- A 48-bit virtual address (R345). -/
abbrev VA := BitVec 48
/-- A halfword of the instruction stream (R36). -/
abbrev Half := BitVec 16
/-- The number of a pointer register P0–P7 (R38). -/
abbrev PReg := BitVec 3
/-- A row: tile in [7:6], row in [5:0] (R34). -/
abbrev RowRef := BitVec 8

/-- The addressing modes of R24. -/
inductive AMode where
  | plain | post | pre | circ
  deriving DecidableEq, Repr

/-- The access widths of R38. -/
inductive Width where
  | w8 | w16 | w32 | w64
  deriving DecidableEq, Repr

/-- Bits in an access of a width. -/
def Width.bits : Width → Nat
  | .w8 => 8 | .w16 => 16 | .w32 => 32 | .w64 => 64

/-- Bytes in an access of a width. -/
def Width.bytes : Width → Nat
  | .w8 => 1 | .w16 => 2 | .w32 => 4 | .w64 => 8

/-- The two wide widths: .I32 and .I64 of atomics and futures, .F32 and .F64 of major 2. -/
inductive LongWidth where
  | l32 | l64
  deriving DecidableEq, Repr

/-- The width of a long width. -/
def LongWidth.width : LongWidth → Width
  | .l32 => .w32 | .l64 => .w64

/-- A memory operand: pointer and addressing mode (R24). -/
structure MemOp where
  p  : PReg
  am : AMode
  deriving DecidableEq, Repr

/-- The ordering field MD[8:7] (R44). -/
inductive Ordering where
  | default | acquire | release | sc
  deriving DecidableEq, Repr

/-- The scopes of R44 and R314. -/
inductive Scope where
  | thread | core | octet | cluster | die | package | system
  deriving DecidableEq, Repr

/-- The rounding modes of R74, and `none` for an MD that overrides nothing. -/
inductive RndSel where
  | none | rne | rtz | rdn | rup | rna
  deriving DecidableEq, Repr

/-- The MD prefix's fields (R44). No MD prefix is the MD with every field zero. -/
structure MD where
  sync  : Bool := false
  ord   : Ordering := .default
  scope : Scope := .thread
  sat   : Bool := false
  rnd   : RndSel := .none
  deriving DecidableEq, Repr

/-- The MD with every field zero. -/
def MD.zero : MD := {}

/-- The integer lane types of R53. -/
inductive IntTy where
  | i16 | i32 | i64
  deriving DecidableEq, Repr

/-- The floating-point lane types of R53. -/
inductive FpTy where
  | f16 | bf16 | f32 | f64
  deriving DecidableEq, Repr

/-- The lane types of R53. -/
inductive LaneTy where
  | int (t : IntTy)
  | fp  (t : FpTy)
  deriving DecidableEq, Repr

/-- The source and destination types of CVT (R115). -/
inductive CvtTy where
  | i8 | i16 | i32 | i64 | f16 | bf16 | f32 | f64
  deriving DecidableEq, Repr

/-- The element size of a tile (R174). -/
inductive ElemSize where
  | e16 | e32 | e64
  deriving DecidableEq, Repr

/-- The lane widths of VPERM (R193). -/
inductive PermWidth where
  | w16 | w32 | w64
  deriving DecidableEq, Repr

/-- The block formats of VQMX and VQNT (R194). -/
inductive QFmt where
  | e4m3 | e5m2 | e3m2 | e2m3 | i8b | k4f | k4i | k4h
  deriving DecidableEq, Repr

/-- The conditions of VCMP (R188). -/
inductive VCond where
  | eq | ne | lt | le | ltu | leu | uo
  deriving DecidableEq, Repr

/-- The special functions of R169. -/
inductive SfuFn where
  | exp2 | log2 | rcp | rsqrt | sin | cos | tanh | erf
  deriving DecidableEq, Repr

/-- What CST and PLD move: a scalar of a width, or a row (R273). -/
inductive FormeSel where
  | scalar (w : Width)
  | row (r : RowRef)
  deriving DecidableEq, Repr

/-- The value that TIME reads (R137). -/
inductive TimeSel where
  | now | t0 | rem
  deriving DecidableEq, Repr

/-- The owner that TCFG names in its OPX (R176). -/
inductive TileOwner where
  | shared
  | slot (n : BitVec 4)
  deriving DecidableEq, Repr

/-- The page-3 integer atomics' functions, which the host's atomics and the fabric's use too (R329). -/
inductive AmoFn where
  | add | and | or | xor | min | max | minu | maxu | swap | cas | fadd | fmin | fmax
  deriving DecidableEq, Repr

/-- A unit whose failure R262 and R407 give an extent. -/
inductive FailUnit where
  | scratchpad (core : Nat)
  | coreUnit (core : Nat)
  | fusedL1 (cluster : Nat)
  | operandLink (core : Nat)
  | barrierTree (cluster tree : Nat)
  | formeTable (cluster : Nat)
  | sfu (octet : Nat)
  | copyHart (octet : Nat)
  | lamplighter (die : Nat)
  | l2Slice (die slice : Nat)
  | directory (die slice : Nat)
  | vault (v : Nat)
  | packageTorus
  | hostLink
  | fabricLink (port : Nat)
  | packageWide
  deriving DecidableEq, Repr

/-- The rounding modes of R74. -/
inductive RMode where
  | rne | rtz | rdn | rup | rna
  deriving DecidableEq, Repr

/-- A request that crosses the scale-up fabric to the home package (R413). -/
inductive FabricOp where
  | read (n : Nat)
  | write (bytes : List (BitVec 8))
  | invalidate
  | atomic (fn : AmoFn) (w : LongWidth) (rnd : RMode) (x y : W64)
  deriving DecidableEq, Repr

/-- One fabric request: sender, 16-bit tag, key identifier, package-local address and operation (R418, R422). -/
structure FabricReq where
  src  : Nat
  tag  : Nat
  key  : BitVec 8
  addr : Nat
  op   : FabricOp
  deriving DecidableEq, Repr

/-- A forme transition that travels as an order event once G = 1 (R277). -/
inductive FormeChange where
  | locked | pied | freed
  deriving DecidableEq, Repr

/-- What one hold of the order plane carries (R434, R437, R441, R277). -/
inductive OrderBody where
  | post (tenant : BitVec 4) (channel : BitVec 16) (pay : BitVec 384)
  | reduce (tenant : BitVec 4) (id : BitVec 16) (ty : BitVec 4) (lanes : BitVec 384)
  | transfer (handle : W64) (target : Nat)
  | forme (pkg cluster entry gen : Nat) (c : FormeChange)
  deriving DecidableEq, Repr

/-- A unit of a bulk plane (R440): offset and bytes. -/
structure BulkBody where
  off   : Nat
  bytes : List (BitVec 8)
  deriving DecidableEq, Repr

/-- A management request (R410). -/
inductive MgmtReq where
  | readStatus
  | stageImage (image : Nat)
  | attest
  deriving DecidableEq, Repr

end Sys2Proof
end

