-- ==== Sys2Proof/Machine/Bits.lean ====
section
/-! DEFINITION. Bit fields, sign extension, byte order and the lanes of a row (R5, R58, R87). -/

namespace Sys2Proof.Machine
open Sys2Proof

/-- Sext(x, n): the low n bits sign-extended to 64 (R58). -/
def sext64 (n : Nat) (x : Nat) : W64 := (BitVec.ofNat n x).signExtend 64

/-- Zext(x, n): the low n bits zero-extended to 64 (R58). -/
def zext64 (n : Nat) (x : Nat) : W64 := BitVec.ofNat 64 (x % 2 ^ n)

/-- The signed reading of an n-bit number. -/
def signed (n : Nat) (x : Nat) : Int :=
  let y := x % 2 ^ n
  if 2 * y < 2 ^ n then (y : Int) else (y : Int) - (2 ^ n : Nat)

/-- The n-bit pattern of an integer. -/
def wrapNat (n : Nat) (x : Int) : Nat := (x % ((2 ^ n : Nat) : Int)).toNat

/-- Field `[hi:lo]` of a number. -/
def field (x hi lo : Nat) : Nat := x / 2 ^ lo % 2 ^ (hi - lo + 1)

/-- Bit `i` of a number. -/
def bit (x i : Nat) : Bool := x.testBit i

/-- One as a number when a flag is set. -/
def bnat (b : Bool) : Nat := if b then 1 else 0

/-- The low `k` bytes of a number, least significant first (R5). -/
def toBytes : Nat → Nat → List (BitVec 8)
  | 0, _ => []
  | k + 1, x => BitVec.ofNat 8 x :: toBytes k (x / 256)

/-- The little-endian number of bytes (R5). -/
def ofBytes : List (BitVec 8) → Nat
  | [] => 0
  | b :: bs => b.toNat + 256 * ofBytes bs

/-- `k` consecutive numbers from `a`. -/
def span : Nat → Nat → List Nat
  | _, 0 => []
  | a, k + 1 => a :: span (a + 1) k

/-- The numbers 0 to n − 1. -/
def upto (n : Nat) : List Nat := span 0 n

/-- Lane `i` of `n` bits of a row's element bytes (R87: lane i of s bytes stands at element byte s × i). -/
def laneAt (n : Nat) (e : BitVec 2048) (i : Nat) : Nat := e.toNat / 2 ^ (n * i) % 2 ^ n

/-- The number whose lanes of `n` bits are the list, the first lane lowest. -/
def packNat (n : Nat) : List Nat → Nat
  | [] => 0
  | x :: xs => x % 2 ^ n + 2 ^ n * packNat n xs

/-- The element bytes with the given lanes. -/
def packLanes (n : Nat) (xs : List Nat) : BitVec 2048 := BitVec.ofNat 2048 (packNat n xs)

/-- Every lane of `n` bits of a row. -/
def lanesOf (n : Nat) (e : BitVec 2048) : List Nat := (upto (2048 / n)).map (laneAt n e)

/-- The number of set bits. -/
def popCount : Nat → Nat → Nat
  | 0, _ => 0
  | k + 1, x => x % 2 + popCount k (x / 2)

/-- The number of leading zero bits of an n-bit number. -/
def leadingZeros (n : Nat) (x : Nat) : Nat :=
  let y := x % 2 ^ n
  if y = 0 then n else n - 1 - Nat.log2 y

/-- The number of trailing zero bits, looking at `k` bits. -/
def trailingZeros : Nat → Nat → Nat
  | 0, _ => 0
  | k + 1, x => if x % 2 = 1 then 0 else 1 + trailingZeros k (x / 2)

end Sys2Proof.Machine
end

