-- ==== Sys2Proof/Machine/Fp.lean ====
section
/-! DEFINITION. Floating point (R70 to R75): formats, exact values, RoundTo, and the arithmetic of each operation on
exact values with one rounding. -/

namespace Sys2Proof.Machine
open Sys2Proof

/-- A binary format: exponent and fraction widths (R70). -/
structure FFmt where
  ebits : Nat
  fbits : Nat
  deriving DecidableEq, Repr

/-- F16 (R70). -/
def FFmt.f16 : FFmt := ⟨5, 10⟩
/-- BF16 (R70). -/
def FFmt.bf16 : FFmt := ⟨8, 7⟩
/-- F32 (R70). -/
def FFmt.f32 : FFmt := ⟨8, 23⟩
/-- F64 (R70). -/
def FFmt.f64 : FFmt := ⟨11, 52⟩

/-- Width in bits. -/
def FFmt.width (f : FFmt) : Nat := 1 + f.ebits + f.fbits
/-- Exponent bias. -/
def FFmt.bias (f : FFmt) : Nat := 2 ^ (f.ebits - 1) - 1
/-- The least exponent of a normal number. -/
def FFmt.emin (f : FFmt) : Int := 1 - (f.bias : Int)
/-- The bits of an infinity. -/
def FFmt.inf (f : FFmt) (neg : Bool) : Nat := bnat neg * 2 ^ (f.ebits + f.fbits) + (2 ^ f.ebits - 1) * 2 ^ f.fbits
/-- The bits of the largest finite magnitude. -/
def FFmt.largest (f : FFmt) (neg : Bool) : Nat := f.inf neg - 1
/-- The bits of a zero. -/
def FFmt.zero (f : FFmt) (neg : Bool) : Nat := bnat neg * 2 ^ (f.ebits + f.fbits)
/-- The canonical quiet NaN (R71). -/
def FFmt.qnan (f : FFmt) : Nat := (2 ^ f.ebits - 1) * 2 ^ f.fbits + 2 ^ (f.fbits - 1)

/-- The raised exceptions in the bit order of ST[8:4]: NV, DZ, OF, UF, NX (R73). -/
abbrev Flags := BitVec 5
/-- NV. -/
def flagNV : Flags := 16
/-- DZ. -/
def flagDZ : Flags := 8
/-- OF. -/
def flagOF : Flags := 4
/-- UF. -/
def flagUF : Flags := 2
/-- NX. -/
def flagNX : Flags := 1

/-- What a floating-point datum is: a NaN, an infinity, or (−1)^neg × m × 2^e. -/
inductive FVal where
  | nan (signalling : Bool)
  | inf (neg : Bool)
  | fin (neg : Bool) (m : Nat) (e : Int)
  deriving DecidableEq, Repr

/-- Reads a datum of a format (R70). -/
def unpackF (f : FFmt) (x : Nat) : FVal :=
  let neg := bit x (f.ebits + f.fbits)
  let e := field x (f.ebits + f.fbits - 1) f.fbits
  let m := x % 2 ^ f.fbits
  if e = 2 ^ f.ebits - 1 then
    if m = 0 then .inf neg else .nan (!(bit m (f.fbits - 1)))
  else if e = 0 then .fin neg m (f.emin - f.fbits)
  else .fin neg (2 ^ f.fbits + m) ((e : Int) - f.bias - f.fbits)

/-- Whether a rounding step goes away from zero: `odd` is the low bit kept, `rem` the part dropped out of `2 × half`,
`sticky` a further part below it. -/
def roundsUp (mode : RMode) (neg odd : Bool) (rem half : Nat) (sticky : Bool) : Bool :=
  match mode with
  | .rne => rem > half || (rem == half && half != 0 && (sticky || odd))
  | .rna => rem ≥ half && half != 0
  | .rtz => false
  | .rdn => neg && (rem != 0 || sticky)
  | .rup => !neg && (rem != 0 || sticky)

/-- Rounds m × 2^e (and a further part below it when sticky) to a multiple of 2^q: the multiple and whether inexact. -/
def roundAt (mode : RMode) (neg : Bool) (m : Nat) (e q : Int) (sticky : Bool) : Nat × Bool :=
  let d := (q - e).toNat
  if e ≥ q then
    let k := m * 2 ^ (e - q).toNat
    (k + bnat (sticky && roundsUp mode neg false 0 0 true), sticky)
  else
    let k := m / 2 ^ d
    let rem := m % 2 ^ d
    (k + bnat (roundsUp mode neg (k % 2 = 1) rem (2 ^ (d - 1)) sticky), rem != 0 || sticky)

/-- RoundTo: the exact value (−1)^neg × m × 2^e, and a further part below its last bit when sticky, in a format and
mode, with the exceptions it raises (R58, R73, R74). -/
def roundTo (f : FFmt) (mode : RMode) (neg : Bool) (m : Nat) (e : Int) (sticky : Bool := false) : Nat × Flags :=
  if m = 0 && !sticky then (f.zero neg, 0) else
  let top := e + (Nat.log2 m : Int)
  let qn := top - f.fbits
  let qs := f.emin - f.fbits
  let q := if qn < qs then qs else qn
  let (k, inexact) := roundAt mode neg m e q sticky
  let nx : Flags := if inexact then flagNX else 0
  let tiny :=
    if top ≥ f.emin then false
    else
      let (u, _) := roundAt mode neg m e qn sticky
      qn + (Nat.log2 u : Int) < f.emin
  let uf : Flags := if tiny && inexact then flagUF else 0
  let sgn := bnat neg * 2 ^ (f.ebits + f.fbits)
  if k < 2 ^ f.fbits then (sgn + k, nx ||| uf)
  else
    let ef := q + f.fbits + f.bias
    let (ef, k) := if k = 2 ^ (f.fbits + 1) then (ef + 1, 2 ^ f.fbits) else (ef, k)
    if ef ≥ (2 ^ f.ebits - 1 : Nat) then
      let toInf := match mode with
        | .rne | .rna => true
        | .rtz => false
        | .rdn => neg
        | .rup => !neg
      (if toInf then f.inf neg else f.largest neg, flagOF ||| flagNX)
    else (sgn + ef.toNat * 2 ^ f.fbits + (k - 2 ^ f.fbits), nx ||| uf)

/-- The exact signed sum of two finite values, as numerator and exponent. -/
def exactSum (n1 : Bool) (m1 : Nat) (e1 : Int) (n2 : Bool) (m2 : Nat) (e2 : Int) : Int × Int :=
  let e := if e1 ≤ e2 then e1 else e2
  let a : Int := m1 * 2 ^ (e1 - e).toNat
  let b : Int := m2 * 2 ^ (e2 - e).toNat
  ((if n1 then -a else a) + (if n2 then -b else b), e)

/-- NV when an operand is a signalling NaN (R71). -/
def snanFlags (xs : List FVal) : Flags := if xs.any (fun x => x == .nan true) then flagNV else 0

/-- Whether a value is a NaN. -/
def FVal.isNan : FVal → Bool
  | .nan _ => true
  | .inf _ => false
  | .fin _ _ _ => false

/-- The negated value; a NaN is unchanged. -/
def FVal.neg : FVal → FVal
  | .nan s => .nan s
  | .inf n => .inf (!n)
  | .fin n m e => .fin (!n) m e

/-- The sum of two values, rounded once (R71, R73, R74). -/
def addF (f : FFmt) (mode : RMode) (x y : FVal) : Nat × Flags :=
  match x, y with
  | .nan _, _ | _, .nan _ => (f.qnan, snanFlags [x, y])
  | .inf a, .inf b => if a = b then (f.inf a, 0) else (f.qnan, flagNV)
  | .inf a, .fin _ _ _ => (f.inf a, 0)
  | .fin _ _ _, .inf b => (f.inf b, 0)
  | .fin n1 m1 e1, .fin n2 m2 e2 =>
    let (s, e) := exactSum n1 m1 e1 n2 m2 e2
    if s = 0 then
      let neg := if n1 = n2 && m1 = 0 && m2 = 0 then n1 else mode == .rdn
      (f.zero neg, 0)
    else roundTo f mode (s < 0) s.natAbs e

/-- The exact product of two values that are no NaN; none for 0 × ∞. -/
def exactMul : FVal → FVal → Option FVal
  | .fin n1 m1 e1, .fin n2 m2 e2 => some (.fin (n1 != n2) (m1 * m2) (e1 + e2))
  | .inf a, .inf b => some (.inf (a != b))
  | .inf a, .fin n m _ => if m = 0 then none else some (.inf (a != n))
  | .fin n m _, .inf b => if m = 0 then none else some (.inf (n != b))
  | _, _ => none

/-- The product of two values, rounded once. -/
def mulF (f : FFmt) (mode : RMode) (x y : FVal) : Nat × Flags :=
  if x.isNan || y.isNan then (f.qnan, snanFlags [x, y]) else
  match exactMul x y with
  | none => (f.qnan, flagNV)
  | some (.fin n m e) => roundTo f mode n m e
  | some (.inf n) => (f.inf n, 0)
  | some (.nan _) => (f.qnan, flagNV)

/-- x × y + z with one rounding (R108, R185). 0 × ∞ raises NV whatever the addend. -/
def fmaF (f : FFmt) (mode : RMode) (x y z : FVal) : Nat × Flags :=
  if x.isNan || y.isNan then (f.qnan, snanFlags [x, y, z]) else
  match exactMul x y with
  | none => (f.qnan, flagNV)
  | some p => if z.isNan then (f.qnan, snanFlags [z]) else addF f mode p z

/-- The quotient of two values, rounded once (R108). -/
def divF (f : FFmt) (mode : RMode) (x y : FVal) : Nat × Flags :=
  match x, y with
  | .nan _, _ | _, .nan _ => (f.qnan, snanFlags [x, y])
  | .inf _, .inf _ => (f.qnan, flagNV)
  | .inf a, .fin n _ _ => (f.inf (a != n), 0)
  | .fin n _ _, .inf b => (f.zero (n != b), 0)
  | .fin n1 m1 e1, .fin n2 m2 e2 =>
    if m2 = 0 then if m1 = 0 then (f.qnan, flagNV) else (f.inf (n1 != n2), flagDZ)
    else if m1 = 0 then (f.zero (n1 != n2), 0)
    else
      let s := f.fbits + 4 + Nat.log2 m2
      let num := m1 * 2 ^ s
      roundTo f mode (n1 != n2) (num / m2) (e1 - e2 - s) (num % m2 != 0)

/-- The integer square root, bit by bit from bit `k − 1` down. -/
def isqrtBits : Nat → Nat → Nat → Nat
  | 0, _, r => r
  | k + 1, n, r => isqrtBits k n (if (r + 2 ^ k) * (r + 2 ^ k) ≤ n then r + 2 ^ k else r)

/-- The integer square root. -/
def isqrt (n : Nat) : Nat := isqrtBits (Nat.log2 n / 2 + 1) n 0

/-- The square root of a value, rounded once (R108). -/
def sqrtF (f : FFmt) (mode : RMode) (x : FVal) : Nat × Flags :=
  match x with
  | .nan s => (f.qnan, snanFlags [.nan s])
  | .inf true => (f.qnan, flagNV)
  | .inf false => (f.inf false, 0)
  | .fin n m e =>
    if m = 0 then (f.zero n, 0)
    else if n then (f.qnan, flagNV)
    else
      let s := 2 * (f.fbits + 4)
      let m' := if (e - s) % 2 = 0 then m * 2 ^ s else m * 2 ^ (s + 1)
      let e' := if (e - s) % 2 = 0 then e - s else e - s - 1
      let r := isqrt m'
      roundTo f mode false r (e' / 2) (r * r != m')

/-- Whether one non-NaN value lies below another; zeros compare equal. -/
def ltF (x y : FVal) : Bool :=
  match x, y with
  | .nan _, _ | _, .nan _ => false
  | .inf a, .inf b => a && !b
  | .inf a, .fin _ _ _ => a
  | .fin _ _ _, .inf b => !b
  | .fin n1 m1 e1, .fin n2 m2 e2 => (exactSum n1 m1 e1 (!n2) m2 e2).1 < 0

/-- Whether two non-NaN values are equal; zeros compare equal. -/
def eqF (x y : FVal) : Bool := !x.isNan && !y.isNan && !ltF x y && !ltF y x

/-- The sign of a datum. -/
def signF (f : FFmt) (x : Nat) : Bool := bit x (f.ebits + f.fbits)

/-- minimumNumber and maximumNumber (R72): the bits of the chosen operand, −0 below +0. -/
def minmaxF (f : FFmt) (isMax : Bool) (x y : Nat) : Nat × Flags :=
  let a := unpackF f x
  let b := unpackF f y
  let fl := snanFlags [a, b]
  if a.isNan && b.isNan then (f.qnan, fl)
  else if a.isNan then (y, fl)
  else if b.isNan then (x, fl)
  else
    let xLess := ltF a b || (!ltF b a && signF f x && !signF f y)
    (if xLess = isMax then y else x, fl)

/-- A value rounded to a format (conversions between formats, R75). -/
def cvtF (f : FFmt) (mode : RMode) (x : FVal) : Nat × Flags :=
  match x with
  | .nan s => (f.qnan, snanFlags [.nan s])
  | .inf n => (f.inf n, 0)
  | .fin n m e => roundTo f mode n m e

/-- An integer rounded to a format (R75). -/
def intToF (f : FFmt) (mode : RMode) (x : Int) : Nat × Flags := roundTo f mode (x < 0) x.natAbs 0

/-- A value rounded to an integer and clamped to a range (R75): the integer and the exceptions. -/
def fToInt (mode : RMode) (lo hi : Int) (x : FVal) : Int × Flags :=
  match x with
  | .nan _ => (0, flagNV)
  | .inf n => (if n then lo else hi, flagNV)
  | .fin n m e =>
    let (k, inexact) := roundAt mode n m e 0 false
    let v : Int := if n then -(k : Int) else k
    if v < lo then (lo, flagNV) else if v > hi then (hi, flagNV)
    else (v, if inexact then flagNX else 0)

end Sys2Proof.Machine
end

