-- ==== Sys2Proof/Machine/Block.lean ====
section
/-! DEFINITION. Block-scaled formats (R76 to R90): element values, scales, packing of 6-bit elements, quantisation. -/

namespace Sys2Proof.Machine
open Sys2Proof

/-- The element formats of R76 and R78. K4 types are numbered as in the scale byte's [7:6]. -/
inductive ElemFmt where
  | e4m3 | e5m2 | e3m2 | e2m3 | i8b
  | k4 (ty : BitVec 2)
  deriving DecidableEq, Repr

/-- The element format of a row tag 9 to 14; the K4 type comes from the scale byte (R66, R78). -/
def elemFmtOf (tag : BitVec 4) (scale : BitVec 8) : ElemFmt :=
  match tag.toNat with
  | 9 => .e4m3 | 10 => .e5m2 | 11 => .e3m2 | 12 => .e2m3 | 14 => .i8b
  | _ => .k4 (scale.extractLsb' 6 2)

/-- Exponent and mantissa widths and bias of the sign–exponent–mantissa element formats (R76, R78). -/
def ElemFmt.shape : ElemFmt → Option (Nat × Nat × Nat)
  | .e4m3 => some (4, 3, 7) | .e5m2 => some (5, 2, 15) | .e3m2 => some (3, 2, 3) | .e2m3 => some (2, 3, 1)
  | .i8b => none
  | .k4 t => if t = 1 then some (2, 1, 1) else none

/-- emax (R76, R78). -/
def ElemFmt.emax : ElemFmt → Int
  | .e4m3 => 8 | .e5m2 => 15 | .e3m2 => 4 | .e2m3 => 2 | .i8b => 0
  | .k4 t => match t.toNat with | 0 => 2 | 1 => 2 | 2 => 3 | _ => 5

/-- The magnitudes of K4 type 11 (R78). -/
def hybridMag (i : Nat) : Nat := match i with | 0 => 0 | 1 => 1 | 2 => 2 | 3 => 3 | 4 => 4 | 5 => 8 | 6 => 16 | _ => 32

/-- The value of an element code (R76, R78, R90). NaN codes decode to a quiet NaN. -/
def elemValue (f : ElemFmt) (code : Nat) : FVal :=
  match f.shape with
  | some (eb, mb, bias) =>
    let neg := bit code (eb + mb)
    let e := field code (eb + mb - 1) mb
    let m := code % 2 ^ mb
    if f = .e4m3 && e = 15 && m = 7 then .nan false
    else if f = .e5m2 && e = 31 then if m = 0 then .inf neg else .nan false
    else if e = 0 then .fin neg m (1 - (bias : Int) - mb)
    else .fin neg (2 ^ mb + m) ((e : Int) - bias - mb)
  | none =>
    match f with
    | .i8b => let i := signed 8 code; .fin (i < 0) i.natAbs (-6)
    | .k4 t =>
      match t.toNat with
      | 0 => let i := signed 4 code; .fin (i < 0) i.natAbs 0
      | 2 => let k := code % 8; if k = 0 then .fin (bit code 3) 0 0 else .fin (bit code 3) 1 ((k : Int) - 4)
      | _ => .fin (bit code 3) (hybridMag (code % 8)) 0
    | _ => .nan false

/-- The exponent of a scale byte, none for a NaN block (R77, R78). -/
def scaleExp (tag : BitVec 4) (s : BitVec 8) : Option Int :=
  if tag = 13 then
    let e := s.toNat % 64
    if e = 63 then none else some ((e : Int) - 31)
  else if s.toNat = 255 then none else some ((s.toNat : Int) - 127)

/-- The neutral scale of unscaled geometry (R83). -/
def neutralScale (tag : BitVec 4) : BitVec 8 := if tag = 13 then 0x5F else 127

/-- An element as VDQ and the matrix unit read it: scale × value (R90). -/
def scaledValue (tag : BitVec 4) (scale : BitVec 8) (code : Nat) : FVal :=
  match scaleExp tag scale with
  | none => .nan false
  | some x =>
    match elemValue (elemFmtOf tag scale) code with
    | .fin n m e => .fin n m (e + x)
    | v => v

/-- Splits a number into `k` fields of `n` bits, lowest first. -/
def splitNat (n : Nat) : Nat → Nat → List Nat
  | 0, _ => []
  | k + 1, x => x % 2 ^ n :: splitNat n k (x / 2 ^ n)

/-- Elements per block of a block format (R76, R78). -/
def blockElems (tag : BitVec 4) : Nat := if tag = 13 then 64 else 32
/-- Whether a tag is a 6-bit format. -/
def sixBit (tag : BitVec 4) : Bool := tag == 11 || tag == 12
/-- Whether a tag is a block format. -/
def blockTag (tag : BitVec 4) : Bool := 9 ≤ tag.toNat && tag.toNat ≤ 14
/-- Stored element bytes of a block (R80). -/
def blockBody (tag : BitVec 4) : Nat := if sixBit tag then 24 else 32

/-- The 32 granule bytes of a block's stored element bytes: 6-bit elements one to a byte (R79, R86). -/
def unpackBody (tag : BitVec 4) (bs : List (BitVec 8)) : List (BitVec 8) :=
  if sixBit tag then (splitNat 6 32 (ofBytes bs)).map (BitVec.ofNat 8) else bs

/-- The stored element bytes of a block's 32 granule bytes (R86). -/
def packBody (tag : BitVec 4) (bs : List (BitVec 8)) : List (BitVec 8) :=
  if sixBit tag then toBytes 24 (packNat 6 (bs.map (·.toNat))) else bs

/-- The magnitudes that a format without exponent field holds, as multiples of 2^u with their codes' low three bits,
rising (R78). -/
def memberMags (f : ElemFmt) (neg : Bool) : List Nat :=
  match f with
  | .i8b => upto (if neg then 129 else 128)
  | .k4 t =>
    match t.toNat with
    | 0 => upto (if neg then 9 else 8)
    | 2 => [0, 1, 2, 4, 8, 16, 32, 64]
    | _ => [0, 1, 2, 3, 4, 8, 16, 32]
  | _ => []

/-- The unit exponent of those magnitudes. -/
def memberUnit (f : ElemFmt) : Int :=
  match f with
  | .i8b => -6
  | .k4 t => if t = 2 then -3 else 0
  | _ => 0

/-- The magnitude that follows the last one when the range is not bounded, in the same multiples (R89). -/
def memberNext (f : ElemFmt) (neg : Bool) : Nat :=
  match f with
  | .i8b => if neg then 129 else 128
  | .k4 t => match t.toNat with | 0 => if neg then 9 else 8 | 2 => 128 | _ => 64
  | _ => 0

/-- Whether a value of K4 type 10, whose members are 0 and the powers of two from 2^-3 to 2^3, is tiny after rounding to a
power of two (R58, R78, R89). -/
def tinyPower (mode : RMode) (neg : Bool) (m : Nat) (e : Int) : Bool :=
  let top := e + (Nat.log2 m : Int)
  m != 0 && top + (Nat.log2 (roundAt mode neg m e top false).1 : Int) < -3

/-- Rounds |x| = m × 2^e to a member of a rising list of magnitudes × 2^u: the index chosen, whether inexact, and
whether |x| lies beyond the last member (R89). -/
def roundMember (mode : RMode) (neg : Bool) (m : Nat) (e u : Int) : List Nat → Nat → Nat × Bool × Bool
  | [], i => (i - 1, true, true)
  | [a], i =>
    let d := (exactSum false m e true a u).1
    (i, d != 0, d > 0)
  | a :: b :: rest, i =>
    if (exactSum false m e true b u).1 ≥ 0 then roundMember mode neg m e u (b :: rest) (i + 1)
    else if (exactSum false m e true a u).1 = 0 then (i, false, false)
    else
      -- twice the value against the sum of the two neighbours
      let c := (exactSum false (2 * m) e true (a + b) u).1
      let up := match mode with
        | .rne => c > 0 || (c == 0 && i % 2 = 1)
        | .rna => c ≥ 0
        | .rtz => false
        | .rdn => neg
        | .rup => !neg
      (if up then i + 1 else i, true, false)

/-- The largest magnitude of an element format, as m × 2^e (R76, R89). -/
def ElemFmt.largest (f : ElemFmt) (neg : Bool) : Nat × Int :=
  match f with
  | .e4m3 => (7, 6) | .e5m2 => (7, 13) | .e3m2 => (7, 2) | .e2m3 => (15, -1)
  | .i8b => if neg then (2, 0) else (127, -6)
  | .k4 t => match t.toNat with | 0 => if neg then (8, 0) else (7, 0) | 1 => (6, 0) | 2 => (8, 0) | _ => (32, 0)

/-- The code of the largest magnitude. -/
def ElemFmt.largestCode (f : ElemFmt) (neg : Bool) : Nat :=
  match f with
  | .e4m3 => bnat neg * 128 + 0x7E | .e5m2 => bnat neg * 128 + 0x7B
  | .e3m2 => bnat neg * 32 + 0x1F | .e2m3 => bnat neg * 32 + 0x1F
  | .i8b => if neg then 0x80 else 0x7F
  | .k4 t => if t = 0 then (if neg then 8 else 7) else bnat neg * 8 + 7

/-- The code of member `i` of a format without exponent field. -/
def memberCode (f : ElemFmt) (neg : Bool) (i : Nat) : Nat :=
  match f with
  | .i8b => if neg then (256 - i) % 256 else i
  | .k4 t => if t = 0 then (if neg then (16 - i) % 16 else i) else bnat neg * 8 + i
  | _ => 0

/-- Quantises a finite value already divided by the block's scale (R89): code and exceptions; a result overflows when its
rounding in an unbounded range lies beyond the largest magnitude. I8B and the K4 types 00 and 11 have no exponent field, and
their results raise no UF (DESIGN CHOICE, log 7). -/
def quantFinite (f : ElemFmt) (mode : RMode) (neg : Bool) (m : Nat) (e : Int) : Nat × Flags :=
  match f.shape with
  | some (eb, mb, bias) =>
    if m = 0 then (bnat neg * 2 ^ (eb + mb), 0) else
    let emin : Int := 1 - (bias : Int)
    let top := e + (Nat.log2 m : Int)
    let qn := top - mb
    let qs := emin - mb
    let q := if qn < qs then qs else qn
    let (k, inexact) := roundAt mode neg m e q false
    let (lm, le) := f.largest neg
    let nx : Flags := if inexact then flagNX else 0
    if (exactSum false k q true lm le).1 > 0 then (f.largestCode neg, flagOF ||| flagNX)
    else
      let tiny :=
        if top ≥ emin then false
        else let (u, _) := roundAt mode neg m e qn false; qn + (Nat.log2 u : Int) < emin
      let uf : Flags := if tiny && inexact then flagUF else 0
      let sgn := bnat neg * 2 ^ (eb + mb)
      if k < 2 ^ mb then (sgn + k, nx ||| uf)
      else
        let ef := (q + mb + bias).toNat
        let (ef, k) := if k = 2 ^ (mb + 1) then (ef + 1, 2 ^ mb) else (ef, k)
        (sgn + ef * 2 ^ mb + (k - 2 ^ mb), nx ||| uf)
  | none =>
    let (i, inexact, beyond) := roundMember mode neg m e (memberUnit f) (memberMags f neg ++ [memberNext f neg]) 0
    if beyond || (memberMags f neg).length ≤ i then (f.largestCode neg, flagOF ||| flagNX)
    else
      let uf : Flags := if f == .k4 2 && inexact && tinyPower mode neg m e then flagUF else 0
      (memberCode f neg i, if inexact then flagNX ||| uf else 0)

/-- Quantises one value with the block's exponent (R89). -/
def quantValue (f : ElemFmt) (mode : RMode) (x : FVal) (E : Int) : Nat × Flags :=
  match x with
  | .nan _ => (0, 0)
  | .inf n => if f = .e5m2 then (bnat n * 128 + 0x7C, 0) else (f.largestCode n, flagOF ||| flagNX)
  | .fin n m e => quantFinite f mode n m (e - E)

/-- The larger of two finite magnitudes (m, e). -/
def maxMag (a b : Nat × Int) : Nat × Int := if (exactSum false a.1 a.2 true b.1 b.2).1 < 0 then b else a

/-- The largest finite magnitude of a block (R89). -/
def blockMax (xs : List FVal) : Nat × Int :=
  xs.foldl (fun acc x => match x with | .fin _ m e => maxMag acc (m, e) | _ => acc) (0, 0)

/-- Quantise (R89): scale byte, codes and exceptions. `agreed` is the maximum that VQMX agreed on. -/
def quantise (f : ElemFmt) (mode : RMode) (agreed : Option (Nat × Int)) (xs : List FVal) :
    BitVec 8 × List Nat × Flags :=
  let (lo, hi, bias, top) : Int × Int × Int × Nat :=
    match f with
    | .k4 t => (-31, 31, 31, t.toNat * 64)
    | _ => (-127, 127, 127, 0)
  if xs.any FVal.isNan then
    let nanScale : BitVec 8 := match f with | .k4 t => BitVec.ofNat 8 (t.toNat * 64 + 63) | _ => 255
    (nanScale, xs.map (fun _ => 0), snanFlags xs)
  else
    let (m, e) := agreed.getD (blockMax xs)
    let E0 : Int := if m = 0 then lo else e + (Nat.log2 m : Int) - f.emax
    let E := if E0 < lo then lo else if E0 > hi then hi else E0
    let rs := xs.map (fun x => quantValue f mode x E)
    (BitVec.ofNat 8 (top + (E + bias).toNat), rs.map (·.1), rs.foldl (fun acc r => acc ||| r.2) 0)

end Sys2Proof.Machine
end

