-- ==== Sys2Proof/Config.lean ====
section
/-! DEFINITION. What the spec leaves open: constants without a body. No proof can see their value, so a statement that
holds in the model holds whatever they are. Each is applied to the counter State.nd, which the step advances at every
use, or to the place it belongs to. -/

namespace Sys2Proof.Config

/-- Free choice of a write among those a weak load may return (R319); of the old or the new halfword at fetch (R49);
of the old or the new word of overlapping transfers (R212, R258) and of stores cut off by a kill (R231). -/
opaque pick : Nat → Nat

/-- Free choice between a cached translation and the one a walk gives now (R235, R352), and of a slot of a 64 KiB block
whose slots differ (R350). -/
opaque pickTranslation : Nat → Nat

/-- Byte of a location of host or peer memory that this package has not written, in an era (State.content). -/
opaque outsideByte : Nat → Nat → BitVec 8

/-- Byte `i` of a copy-hart microcode image (R253: not architectural). -/
opaque microcode : Nat → Nat → BitVec 8

/-- The version number of a firmware image that management reads (R410). -/
opaque firmwareVersion : Nat → BitVec 64

/-- The SHA-512 digest of a firmware image in the attestation report (R409). -/
opaque imageDigest : Nat → BitVec 512

/-- The signature of an attestation report of some images by the device's P-521 identity key (R409): two integers of 528 bits. -/
opaque imageSignature : List Nat → BitVec 1056

/-- The identifier of a failed unit in a machine-check event (R401). -/
opaque unitId : FailUnit → BitVec 64

/-- Whether another package is a member of this package's Lanthorn group: the host gives the group its members (R426), and
no register of the package names their packages. -/
opaque lanthornMember : Nat → Bool

end Sys2Proof.Config
end

