-- ==== Sys2Proof/Syntax.lean ====
section
/-! DEFINITION. The instructions of Varza and the events of the other agents: one constructor for each row of
spec/opcode_table.json, in the table's order. Operands are the decoded fields: an immediate stands as the 64-bit value
of R41, an MD prefix as its fields (R44), an optional OPX as an Option. Event operands name the place or the data of
the event: `t` is a slot number 16 * core + slot with the core number 192 * (4 * die + cluster) + c, `c` a core number,
`o` an octet number 24 * (4 * die + cluster) + o, `cl` a cluster number 4 * die + cluster, `d` a die, `l` a launch and
`g` a group. -/

namespace Sys2Proof

/-- One instruction or event. -/
inductive Instr where
  /-- LD (R104). -/
  | ld (w : Width) (o : MemOp) (md : MD)
  /-- ST (R104). -/
  | st (w : Width) (o : MemOp) (md : MD)
  /-- ADD (R104). -/
  | add (w : Width) (o : MemOp) (md : MD)
  /-- SUB (R104). -/
  | sub (w : Width) (o : MemOp) (md : MD)
  /-- RSUB (R104). -/
  | rsub (w : Width) (o : MemOp) (md : MD)
  /-- AND (R104). -/
  | and (w : Width) (o : MemOp) (md : MD)
  /-- OR (R104). -/
  | or (w : Width) (o : MemOp) (md : MD)
  /-- XOR (R104). -/
  | xor (w : Width) (o : MemOp) (md : MD)
  /-- MIN (R104). -/
  | min (w : Width) (o : MemOp) (md : MD)
  /-- MAX (R104). -/
  | max (w : Width) (o : MemOp) (md : MD)
  /-- MINU (R104). -/
  | minu (w : Width) (o : MemOp) (md : MD)
  /-- MAXU (R104). -/
  | maxu (w : Width) (o : MemOp) (md : MD)
  /-- CMP (R104). -/
  | cmp (w : Width) (o : MemOp) (md : MD)
  /-- MUL (R104). -/
  | mul (w : Width) (o : MemOp) (md : MD)
  /-- MULH (R104). -/
  | mulh (w : Width) (o : MemOp) (md : MD)
  /-- MULHU (R104). -/
  | mulhu (w : Width) (o : MemOp) (md : MD)
  /-- DIV (R104). -/
  | div (w : Width) (o : MemOp) (md : MD)
  /-- DIVU (R104). -/
  | divu (w : Width) (o : MemOp) (md : MD)
  /-- REM (R104). -/
  | rem (w : Width) (o : MemOp) (md : MD)
  /-- FADD (R108). -/
  | fadd (w : LongWidth) (o : MemOp) (md : MD)
  /-- FSUB (R108). -/
  | fsub (w : LongWidth) (o : MemOp) (md : MD)
  /-- FMUL (R108). -/
  | fmul (w : LongWidth) (o : MemOp) (md : MD)
  /-- FMA (R109). -/
  | fma (w : LongWidth) (o : MemOp) (q : Option MemOp) (md : MD)
  /-- FDIV (R108). -/
  | fdiv (w : LongWidth) (o : MemOp) (md : MD)
  /-- FSQRT (R108). -/
  | fsqrt (w : LongWidth) (o : MemOp) (md : MD)
  /-- FMIN (R108). -/
  | fmin (w : LongWidth) (o : MemOp) (md : MD)
  /-- FMAX (R108). -/
  | fmax (w : LongWidth) (o : MemOp) (md : MD)
  /-- FCMP (R108). -/
  | fcmp (w : LongWidth) (o : MemOp) (md : MD)
  /-- LDI (R111). -/
  | ldi (imm : W64)
  /-- LDIH (R111). -/
  | ldih (imm : W64)
  /-- ADDI (R111). -/
  | addi (imm : W64)
  /-- ANDI (R111). -/
  | andi (imm : W64)
  /-- ORI (R111). -/
  | ori (imm : W64)
  /-- XORI (R111). -/
  | xori (imm : W64)
  /-- SHL (R113). -/
  | shl (k : BitVec 6)
  /-- SHR (R113). -/
  | shr (k : BitVec 6)
  /-- SAR (R113). -/
  | sar (k : BitVec 6)
  /-- ROL (R113). -/
  | rol (k : BitVec 6)
  /-- PSET (R118). -/
  | pset (p : PReg) (imm : W64)
  /-- PSTEP (R118). -/
  | pstep (p : PReg) (imm : W64)
  /-- PADDI (R118). -/
  | paddi (p : PReg) (imm : W64)
  /-- PADDA (R118). -/
  | padda (p : PReg) (k : BitVec 5)
  /-- MOVAP (R118, R265). -/
  | movap (p : PReg)
  /-- MOVPA (R118, R265). -/
  | movpa (p : PReg)
  /-- PCMP (R118). -/
  | pcmp (p q : PReg)
  /-- CLZ (R114). -/
  | clz (w : Width)
  /-- CTZ (R114). -/
  | ctz (w : Width)
  /-- POPC (R114). -/
  | popc (w : Width)
  /-- BSWAP (R114). -/
  | bswap (w : Width)
  /-- CVT (R115, R116). -/
  | cvt (mode : BitVec 3) (su du : Bool) (src dst : CvtTy)
  /-- B (R120). -/
  | b (off : W64)
  /-- BZ (R120). -/
  | bz (off : W64)
  /-- BNZ (R120). -/
  | bnz (off : W64)
  /-- BLT (R120). -/
  | blt (off : W64)
  /-- BGE (R120). -/
  | bge (off : W64)
  /-- BLTU (R120). -/
  | bltu (off : W64)
  /-- BGEU (R120). -/
  | bgeu (off : W64)
  /-- LOOP (R121). -/
  | loop (off : W64)
  /-- CALL (R122). -/
  | call (off : W64)
  /-- RET (R122). -/
  | ret
  /-- JMPA (R122). -/
  | jmpa
  /-- NOP (R122). -/
  | nop
  /-- YIELD (R172). -/
  | yield
  /-- HALT (R173). -/
  | halt
  /-- WAIT (R156). -/
  | wait (l s : BitVec 3) (c : BitVec 2) (t : BitVec 3)
  /-- REP (R162, R163). -/
  | rep (n : BitVec 5) (stagger : BitVec 2) (len : BitVec 4)
  /-- SFU_EXP2 (R169, R170). -/
  | sfuExp2 (row : RowRef)
  /-- SFU_LOG2 (R169, R170). -/
  | sfuLog2 (row : RowRef)
  /-- SFU_RCP (R169, R170). -/
  | sfuRcp (row : RowRef)
  /-- SFU_RSQRT (R169, R170). -/
  | sfuRsqrt (row : RowRef)
  /-- SFU_SIN (R169, R170). -/
  | sfuSin (row : RowRef)
  /-- SFU_COS (R169, R170). -/
  | sfuCos (row : RowRef)
  /-- SFU_TANH (R169, R170). -/
  | sfuTanh (row : RowRef)
  /-- SFU_ERF (R169, R170). -/
  | sfuErf (row : RowRef)
  /-- TAGE (R161). -/
  | tage (p : PReg)
  /-- TAGF (R161). -/
  | tagf (p : PReg)
  /-- TCFG (R176). -/
  | tcfg (t : BitVec 2) (e : ElemSize) (mask : BitVec 4) (owner : Option TileOwner)
  /-- TREL (R177). -/
  | trel (t : BitVec 2)
  /-- VLD (R181, R182). -/
  | vld (p : PReg) (row : RowRef) (md : MD)
  /-- VST (R181, R183). -/
  | vst (p : PReg) (row : RowRef) (md : MD)
  /-- VADD (R185). -/
  | vadd (ty : LaneTy) (d : RowRef) (a b : Option RowRef) (md : MD)
  /-- VSUB (R185). -/
  | vsub (ty : LaneTy) (d : RowRef) (a b : Option RowRef) (md : MD)
  /-- VMUL (R185). -/
  | vmul (ty : LaneTy) (d : RowRef) (a b : Option RowRef) (md : MD)
  /-- VFMA (R185). -/
  | vfma (ty : FpTy) (d : RowRef) (a b : Option RowRef) (md : MD)
  /-- VFMS (R185). -/
  | vfms (ty : FpTy) (d : RowRef) (a b : Option RowRef) (md : MD)
  /-- VMIN (R185). -/
  | vmin (ty : LaneTy) (d : RowRef) (a b : Option RowRef)
  /-- VMAX (R185). -/
  | vmax (ty : LaneTy) (d : RowRef) (a b : Option RowRef)
  /-- VABS (R185). -/
  | vabs (ty : LaneTy) (d : RowRef) (md : MD)
  /-- VNEG (R185). -/
  | vneg (ty : LaneTy) (d : RowRef) (md : MD)
  /-- VAND (R187). -/
  | vand (ty : IntTy) (d : RowRef) (a : Option RowRef)
  /-- VOR (R187). -/
  | vor (ty : IntTy) (d : RowRef) (a : Option RowRef)
  /-- VXOR (R187). -/
  | vxor (ty : IntTy) (d : RowRef) (a : Option RowRef)
  /-- VSHL (R187). -/
  | vshl (ty : IntTy) (d : RowRef) (k : Option (BitVec 6))
  /-- VSHR (R187). -/
  | vshr (ty : IntTy) (d : RowRef) (k : Option (BitVec 6))
  /-- VSAR (R187). -/
  | vsar (ty : IntTy) (d : RowRef) (k : Option (BitVec 6))
  /-- VCMP (R188). -/
  | vcmp (ty : LaneTy) (d : RowRef) (a : Option RowRef) (c : Option VCond)
  /-- VSEL (R189). -/
  | vsel (ty : LaneTy) (d : RowRef) (a m : Option RowRef)
  /-- VCVT (R190). -/
  | vcvt (ty : LaneTy) (d : RowRef) (a : Option RowRef) (md : MD)
  /-- VRED (R191). -/
  | vred (ty : LaneTy) (d : RowRef) (md : MD)
  /-- VBCA (R192). -/
  | vbca (ty : LaneTy) (d : RowRef)
  /-- VGETA (R192). -/
  | vgeta (ty : LaneTy) (d : RowRef) (k : Option (BitVec 7))
  /-- VPERM (R193). -/
  | vperm (w : PermWidth) (d : RowRef) (a x : Option RowRef)
  /-- VQMX (R195). -/
  | vqmx (f : QFmt) (d : RowRef)
  /-- VQNT (R196). -/
  | vqnt (f : QFmt) (d : RowRef) (x : Option RowRef) (md : MD)
  /-- VDQ (R197). -/
  | vdq (ty : FpTy) (d : RowRef) (a : Option RowRef)
  /-- MLDB (R206). -/
  | mldb (p : PReg)
  /-- MMA (R207). -/
  | mma (p : PReg)
  /-- MMROT (R213). -/
  | mmrot (p : PReg)
  /-- MZERO (R216). -/
  | mzero (d : RowRef) (n : Option (BitVec 6))
  /-- MDRAIN (R217). -/
  | mdrain (d : RowRef) (p : Option PReg)
  /-- MSTAT (R218). -/
  | mstat (t : BitVec 2) (clr : Bool)
  /-- MROT (R214). -/
  | mrot (skew : Bool) (row : BitVec 6) (p : Option PReg)
  /-- FNEW (R271). -/
  | fnew (p : PReg) (s : Option (BitVec 10))
  /-- FPRF (R272). -/
  | fprf (p : PReg) (src : Option PReg)
  /-- CST (R273). -/
  | cst (p : PReg) (sel : FormeSel)
  /-- PLD (R273). -/
  | pld (p : PReg) (sel : FormeSel)
  /-- FLOCK (R274). -/
  | flock (p : PReg)
  /-- FDROP (R278). -/
  | fdrop (p : PReg)
  /-- FDROP_RETIRE (R278). -/
  | fdropRetire (p : PReg)
  /-- FSEND (R276, R277). -/
  | fsend (p : PReg) (o : Option MemOp)
  /-- FTAKE (R276). -/
  | ftake (p : PReg) (o : Option MemOp)
  /-- CANDLE (R133). -/
  | candle (lo hi : Option (BitVec 10)) (off : W64)
  /-- SNUFF (R134). -/
  | snuff
  /-- DOUSE (R136). -/
  | douse
  /-- GUTRET (R142). -/
  | gutret (off : W64)
  /-- TIME (R137). -/
  | time (sel : TimeSel)
  /-- PACE (R138). -/
  | pace (imm : W64)
  /-- TRAP (R232). -/
  | trap (imm : W64)
  /-- RTT (R233). -/
  | rtt
  /-- MFS (R234). -/
  | mfs (r : BitVec 6)
  /-- MTS (R234). -/
  | mts (r : BitVec 6)
  /-- TLBI_PAGE (R235, R355). -/
  | tlbiPage
  /-- TLBI_SPACE (R355). -/
  | tlbiSpace
  /-- GOHOME (R307). -/
  | gohome
  /-- BARM (R249). -/
  | barm
  /-- ARRIVE (R250). -/
  | arrive (b : BitVec 4)
  /-- BWAIT (R251). -/
  | bwait (b : BitVec 4)
  /-- WPTR (R260). -/
  | wptr (c : BitVec 2)
  /-- CWAIT (R260). -/
  | cwait (c : BitVec 2)
  /-- COPY (R257). -/
  | copy (p : PReg) (c : BitVec 2)
  /-- WBACK (R336, R337). -/
  | wback (p : PReg) (scope : Option Scope)
  /-- DISCARD (R336, R337). -/
  | discard (p : PReg)
  /-- FENCE (R325). -/
  | fence (scope : Scope)
  /-- AMOADD (R329). -/
  | amoadd (w : LongWidth) (o : MemOp) (md : MD)
  /-- AMOAND (R329). -/
  | amoand (w : LongWidth) (o : MemOp) (md : MD)
  /-- AMOOR (R329). -/
  | amoor (w : LongWidth) (o : MemOp) (md : MD)
  /-- AMOXOR (R329). -/
  | amoxor (w : LongWidth) (o : MemOp) (md : MD)
  /-- AMOMIN (R329). -/
  | amomin (w : LongWidth) (o : MemOp) (md : MD)
  /-- AMOMAX (R329). -/
  | amomax (w : LongWidth) (o : MemOp) (md : MD)
  /-- AMOMINU (R329). -/
  | amominu (w : LongWidth) (o : MemOp) (md : MD)
  /-- AMOMAXU (R329). -/
  | amomaxu (w : LongWidth) (o : MemOp) (md : MD)
  /-- AMOSWAP (R329). -/
  | amoswap (w : LongWidth) (o : MemOp) (md : MD)
  /-- AMOCAS (R329). -/
  | amocas (w : LongWidth) (o : MemOp) (q : Option MemOp) (md : MD)
  /-- AFADD (R329, R330). -/
  | afadd (w : LongWidth) (o : MemOp) (md : MD)
  /-- AFMIN (R329, R330). -/
  | afmin (w : LongWidth) (o : MemOp) (md : MD)
  /-- AFMAX (R329, R330). -/
  | afmax (w : LongWidth) (o : MemOp) (md : MD)
  /-- LDFUT (R333). -/
  | ldfut (w : LongWidth) (o : MemOp) (md : MD)
  /-- STFUT (R333). -/
  | stfut (w : LongWidth) (o : MemOp) (md : MD)
  /-- LPOST (R437). -/
  | lpost (p : PReg)
  /-- LWAIT (R438). -/
  | lwait
  /-- LSEQ (R439). -/
  | lseq
  /-- LCAST (R440). -/
  | lcast (p : PReg) (plane : Option (BitVec 5))
  /-- LBRED (R441). -/
  | lbred (p : PReg)
  /-- GBIND (R374). -/
  | gbind (p : PReg)
  /-- GEMIT (R375). -/
  | gemit (p : PReg)
  /-- GDONE (R376). -/
  | gdone
  /-- CASEADD (R377). -/
  | caseadd (p : PReg)
  /-- CASEGET (R378). -/
  | caseget (p : PReg) (val : Bool)
  /-- CASENXT (R379). -/
  | casenxt (p : PReg) (first : Bool)
  /-- GCLOSE (R380). -/
  | gclose
  /-- GFRONT (R380). -/
  | gfront
  /-- PARK_RESUME (R58). -/
  | parkResume (t : Nat)
  /-- GUTTER_TRAP (R139). -/
  | gutterTrap (t : Nat)
  /-- PUBLISH_ENTRY (R135). -/
  | publishEntry (t : Nat)
  /-- SEQUENCE_STEP (R164). -/
  | sequenceStep (c i : Nat)
  /-- SEQUENCE_RETIRE (R164). -/
  | sequenceRetire (c i : Nat)
  /-- VLD_COMPLETE (R182). -/
  | vldComplete (c i : Nat)
  /-- STORE_PERFORMED (R155). -/
  | storePerformed (c i : Nat)
  /-- MLDB_COMPLETE (R206). -/
  | mldbComplete (c : Nat)
  /-- MATRIX_OP_COMPLETE (R207). -/
  | matrixOpComplete (c : Nat)
  /-- OPERAND_ROUND_TRANSFER (R212). -/
  | operandRoundTransfer (c : Nat)
  /-- SFU_RESULT (R171). -/
  | sfuResult (o : Nat)
  /-- VQMX_AGREEMENT (R195). -/
  | vqmxAgreement (t : Nat)
  /-- BARRIER_RELEASE (R247). -/
  | barrierRelease (cl b : Nat)
  /-- COPY_BEAT (R258). -/
  | copyBeat (o ch : Nat)
  /-- COPY_DISCARD (R261). -/
  | copyDiscard (o ch : Nat)
  /-- MIGRATION_ARRIVAL (R307). -/
  | migrationArrival (i : Nat)
  /-- RCB_SNOOP_WALK (R294). -/
  | rcbSnoopWalk (d : Nat) (rcb : VA)
  /-- LAMPLIGHTER_DECIDE (R296). -/
  | lamplighterDecide (d : Nat)
  /-- BUDGET_EXPIRY (R299). -/
  | budgetExpiry (l g : Nat)
  /-- OIL_EXHAUSTED (R298). -/
  | oilExhausted (l : Nat)
  /-- PREEMPTION_TRAP (R303). -/
  | preemptionTrap (t : Nat)
  /-- WATCHDOG_EXPIRY (R301). -/
  | watchdogExpiry (l g : Nat)
  /-- SLICE_SAVE (R305). -/
  | sliceSave (l g : Nat)
  /-- SLICE_RESTORE (R305). -/
  | sliceRestore (l g : Nat)
  /-- DEADLINE_PASSED (R302). -/
  | deadlinePassed (l : Nat)
  /-- LIGHTS_OUT_SWEEP (R309). -/
  | lightsOutSweep (d : Nat)
  /-- SLUG_ARRIVAL (R365). -/
  | slugArrival (i : Nat)
  /-- STAGE_DISPATCH (R370). -/
  | stageDispatch (c : Nat)
  /-- REPLAY_RETRY (R327). -/
  | replayRetry (t : Nat)
  /-- REPLAY_TIMEOUT (R327). -/
  | replayTimeout (t : Nat)
  /-- LDFUT_RETRY (R333). -/
  | ldfutRetry (t : Nat)
  /-- INVALIDATION_COMPLETE (R354). -/
  | invalidationComplete (i : Nat)
  /-- ENERGY_CHARGE (R404). -/
  | energyCharge (shares : List (Nat × Nat)) (unatt : Nat)
  /-- EVENT_RECORD (R400). -/
  | eventRecord (i : Nat)
  /-- MACHINE_CHECK (R407). -/
  | machineCheck (u : FailUnit) (kind addr : Nat)
  /-- THERMAL_THROTTLE (R408). -/
  | thermalThrottle (d temp : Nat)
  /-- THERMAL_TRIP (R408). -/
  | thermalTrip (d temp : Nat)
  /-- RESET (R394). -/
  | reset
  /-- BRINGUP_COMPLETE (R409). -/
  | bringupComplete (ok : Bool)
  /-- ROOT_WRITE (R393). -/
  | rootWrite (d : Nat) (v : W64)
  /-- LLROOT_WRITE (R450). -/
  | llrootWrite (v : W64)
  /-- S2REQ_PAGE (R399). -/
  | s2reqPage (tenant : BitVec 4) (page : BitVec 40)
  /-- S2REQ_ALL (R399). -/
  | s2reqAll (tenant : BitVec 4)
  /-- OMAP_WRITE (R398). -/
  | omapWrite (q : Nat) (v : BitVec 8)
  /-- KCTL_WRITE (R418). -/
  | kctlWrite (k : Nat) (v : W64)
  /-- LGRP_WRITE (R433). -/
  | lgrpWrite (v : W64)
  /-- HOST_REGISTER_WRITE (R391). -/
  | hostRegisterWrite (bar off : Nat) (v : W64)
  /-- HOST_MEM_READ (R396). -/
  | hostMemRead (a n : Nat)
  /-- HOST_MEM_WRITE (R396). -/
  | hostMemWrite (a : Nat) (bytes : List (BitVec 8))
  /-- HOST_ATOMIC (R397). -/
  | hostAtomic (a : Nat) (fn : AmoFn) (w : LongWidth) (x y : W64)
  /-- HOST_SNOOP (R395). -/
  | hostSnoop (a : Nat) (inv : Bool)
  /-- FABRIC_REQUEST (R413). -/
  | fabricRequest (r : FabricReq)
  /-- FABRIC_RESEND (R422). -/
  | fabricResend (i : Nat)
  /-- STOMPED_PACKET (R422). -/
  | stompedPacket (port : Nat)
  /-- FABRIC_AUTH_FAIL (R420). -/
  | fabricAuthFail (i : Option Nat)
  /-- RATE_DECREASE (R423). -/
  | rateDecrease (t : Nat)
  /-- RATE_INCREASE (R423). -/
  | rateIncrease (t : Nat)
  /-- PORT_STATE_CHANGE (R417). -/
  | portStateChange (port : Nat) (up : Bool)
  /-- FLAME_HOLD (R426). -/
  | flameHold (plane : Nat) (order : Option OrderBody) (bulk : Option BulkBody)
  /-- ORDER_EVENT_APPLY (R428). -/
  | orderEventApply
  /-- BULK_HOLD_APPLY (R440). -/
  | bulkHoldApply (plane : Nat)
  /-- FLAME_TIMEOUT (R430). -/
  | flameTimeout (plane : Nat)
  /-- LANTHORN_LEAVE (R429). -/
  | lanthornLeave
  /-- TIMEBASE_ALIGN (R432). -/
  | timebaseAlign (target : W64)
  /-- MEMORY_ACCESS_COMPLETE (R153). -/
  | memoryAccessComplete (t : Nat)
  /-- WEAK_WRITE_PROPAGATION (R320): a write of the history, and the number of an agent (R313). -/
  | weakWritePropagation (w agent : Nat)
  /-- THERMAL_RECOVERY (R408). -/
  | thermalRecovery (d temp : Nat)
  /-- CORRECTABLE_ERROR (R406). -/
  | correctableError
  /-- MANAGEMENT_REQUEST (R410). -/
  | managementRequest (r : MgmtReq)
  deriving DecidableEq, Repr

end Sys2Proof
end

