-- ==== Sys2Proof/WellFormed.lean ====
section
/-! DEFINITION. Which instructions an encoding can hold: the immediate widths of R41, the MD fields each instruction
accepts (R107, R184, R198, R328, R333), the ranges of field-form operands and the reserved encodings of R57. An event
is not an instruction and is well formed as it stands. -/

namespace Sys2Proof

/-- The MD fields that an instruction accepts (R44). `scopeAlone` says that a scope may stand without an ordering. -/
structure MdMask where
  sync : Bool := false
  acq : Bool := false
  rel : Bool := false
  sc : Bool := false
  scopeAlone : Bool := false
  sat : Bool := false
  rnd : Bool := false
  deriving DecidableEq, Repr

/-- Whether every set field of an MD is accepted (R57). A scope with the default ordering is refused but where `scopeAlone` says
otherwise, as R107 says of page 0; that VLD and VST refuse it as well is the model's reading of R198 (DESIGN CHOICE, log 118). -/
def MdMask.ok (k : MdMask) (m : MD) : Bool :=
  (k.sync || !m.sync)
    && (match m.ord with
        | .default => k.scopeAlone || m.scope == .thread
        | .acquire => k.acq
        | .release => k.rel
        | .sc => k.sc)
    && (k.sat || !m.sat) && (k.rnd || m.rnd == .none)

/-- LD (R107). -/
def MdMask.load : MdMask := { sync := true, acq := true, sc := true }
/-- ST (R107). -/
def MdMask.store : MdMask := { sync := true, rel := true, sc := true }
/-- The forms that read memory and take an ordering only (R107). -/
def MdMask.read : MdMask := { acq := true, sc := true }
/-- VST (R198). -/
def MdMask.write : MdMask := { rel := true, sc := true }
/-- ADD, SUB, RSUB, MUL, DIV (R107, R105). -/
def MdMask.readSat : MdMask := { acq := true, sc := true, sat := true }
/-- The rounded major-2 forms (R107). -/
def MdMask.readRnd : MdMask := { acq := true, sc := true, rnd := true }
/-- Atomics but AFADD (R328). -/
def MdMask.atomic : MdMask := { acq := true, rel := true, sc := true, scopeAlone := true }
/-- AFADD (R328). -/
def MdMask.atomicRnd : MdMask := { acq := true, rel := true, sc := true, scopeAlone := true, rnd := true }
/-- LDFUT (R333). -/
def MdMask.ldfut : MdMask := { acq := true, sc := true, scopeAlone := true }
/-- STFUT (R333). -/
def MdMask.stfut : MdMask := { rel := true, sc := true, scopeAlone := true }
/-- VFMA, VFMS, VQNT (R198). -/
def MdMask.rounded : MdMask := { rnd := true }
/-- VADD, VSUB, VMUL, VABS, VNEG and VRED on a lane type (R198). -/
def MdMask.lane : LaneTy → MdMask
  | .int _ => { sat := true }
  | .fp _ => { rnd := true }
/-- VCVT: the fields it accepts for some type pair (R190). -/
def MdMask.convert : MdMask := { sat := true, rnd := true }
/-- VMIN and VMAX: an MD with every field zero (R198). -/
def MdMask.empty : MdMask := {}

/-- Whether `n` bits, sign-extended, yield the immediate. -/
def fitsSigned (n : Nat) (v : W64) : Bool := (v.truncate n).signExtend 64 == v

/-- Whether a field of `n` bits and at most `k` IMX prefixes yield the immediate (R41). -/
def immFits (n k : Nat) (v : W64) : Bool := fitsSigned (n + 10 * k) v

/-- TRAP's immediate: unsigned in 6 bits without IMX, R41 with up to three (R232). -/
def trapFits (v : W64) : Bool := v.toNat < 64 || immFits 6 3 v

/-- Whether a CVT type is floating point (R115). -/
def CvtTy.isFp : CvtTy → Bool
  | .i8 | .i16 | .i32 | .i64 => false
  | .f16 | .bf16 | .f32 | .f64 => true

/-- The reserved encodings of CVT (R115). -/
def cvtOk (mode : BitVec 3) (su du : Bool) (src dst : CvtTy) : Bool :=
  (!(src.isFp && su)) && (!(dst.isFp && du)) &&
  (if src.isFp || dst.isFp then mode.toNat ≤ 5 && !(src == dst)
   else mode.toNat ≤ 1 && !(src == dst && su == du))

/-- Whether a lane type admits a VCMP condition (R188). -/
def VCond.ok : VCond → LaneTy → Bool
  | .ltu, .fp _ | .leu, .fp _ | .uo, .int _ => false
  | _, _ => true

/-- A second operand only after a first (the OPX prefixes stand in order, R42). -/
def opxOrder {α β : Type} (a : Option α) (b : Option β) : Bool := a.isSome || b.isNone

/-- The instructions that some chain of halfwords encodes, and every event. -/
def wellFormed : Instr → Bool
  | .ld _ _ md => MdMask.load.ok md
  | .st _ _ md => MdMask.store.ok md
  | .add _ _ md | .sub _ _ md | .rsub _ _ md | .mul _ _ md | .div _ _ md => MdMask.readSat.ok md
  | .and _ _ md | .or _ _ md | .xor _ _ md | .min _ _ md | .max _ _ md | .minu _ _ md
  | .maxu _ _ md | .cmp _ _ md | .mulh _ _ md | .mulhu _ _ md | .divu _ _ md
  | .rem _ _ md => MdMask.read.ok md
  | .fadd _ _ md | .fsub _ _ md | .fmul _ _ md | .fdiv _ _ md | .fsqrt _ _ md => MdMask.readRnd.ok md
  | .fma _ _ _ md => MdMask.readRnd.ok md
  | .fmin _ _ md | .fmax _ _ md | .fcmp _ _ md => MdMask.read.ok md
  | .ldi imm | .ldih imm | .addi imm | .andi imm | .ori imm | .xori imm => immFits 11 3 imm
  | .pset _ imm | .paddi _ imm => immFits 5 3 imm
  | .pstep _ imm => immFits 5 2 imm
  | .cvt mode su du src dst => cvtOk mode su du src dst
  | .b off | .bz off | .bnz off | .blt off | .bge off | .bltu off | .bgeu off | .loop off => immFits 8 3 off
  | .call off => immFits 11 3 off
  | .tcfg _ _ mask _ => mask != 0#4
  | .vld _ _ md => MdMask.read.ok md
  | .vst _ _ md => MdMask.write.ok md
  | .vadd ty _ a b md | .vsub ty _ a b md | .vmul ty _ a b md => opxOrder a b && (MdMask.lane ty).ok md
  | .vfma _ _ a b md | .vfms _ _ a b md => opxOrder a b && MdMask.rounded.ok md
  | .vmin _ _ a b | .vmax _ _ a b => opxOrder a b
  | .vabs ty _ md | .vneg ty _ md | .vred ty _ md => (MdMask.lane ty).ok md
  | .vcmp ty _ a c => opxOrder a c && (match c with | some k => k.ok ty | none => true)
  | .vsel _ _ a m | .vperm _ _ a m => opxOrder a m
  | .vcvt _ _ _ md => MdMask.convert.ok md
  | .vqnt _ _ _ md => MdMask.rounded.ok md
  | .candle lo hi off => opxOrder lo hi && immFits 6 1 off
  | .gutret off | .pace off => immFits 6 3 off
  | .trap imm => trapFits imm
  | .amoadd _ _ md | .amoand _ _ md | .amoor _ _ md | .amoxor _ _ md | .amomin _ _ md | .amomax _ _ md
  | .amominu _ _ md | .amomaxu _ _ md | .amoswap _ _ md | .afmin _ _ md | .afmax _ _ md => MdMask.atomic.ok md
  | .amocas _ _ _ md => MdMask.atomic.ok md
  | .afadd _ _ md => MdMask.atomicRnd.ok md
  | .ldfut _ _ md => MdMask.ldfut.ok md
  | .stfut _ _ md => MdMask.stfut.ok md
  | .lcast _ plane => match plane with | some n => 1 ≤ n.toNat && n.toNat ≤ 23 | none => true
  | .shl .. | .shr .. | .sar .. | .rol .. | .padda .. | .movap .. | .movpa .. | .pcmp .. | .clz .. | .ctz ..
  | .popc .. | .bswap .. | .ret | .jmpa | .nop | .yield | .halt | .wait .. | .rep .. | .sfuExp2 ..
  | .sfuLog2 .. | .sfuRcp .. | .sfuRsqrt .. | .sfuSin .. | .sfuCos .. | .sfuTanh .. | .sfuErf .. | .tage ..
  | .tagf .. | .trel .. | .vand .. | .vor .. | .vxor .. | .vshl .. | .vshr .. | .vsar .. | .vbca ..
  | .vgeta .. | .vqmx .. | .vdq .. | .mldb .. | .mma .. | .mmrot .. | .mzero .. | .mdrain .. | .mstat ..
  | .mrot .. | .fnew .. | .fprf .. | .cst .. | .pld .. | .flock .. | .fdrop .. | .fdropRetire .. | .fsend ..
  | .ftake .. | .snuff | .douse | .time .. | .rtt | .mfs .. | .mts .. | .tlbiPage | .tlbiSpace | .gohome
  | .barm | .arrive .. | .bwait .. | .wptr .. | .cwait .. | .copy .. | .wback .. | .discard .. | .fence ..
  | .lpost .. | .lwait | .lseq | .lbred .. | .gbind .. | .gemit .. | .gdone | .caseadd .. | .caseget ..
  | .casenxt .. | .gclose | .gfront | .parkResume .. | .gutterTrap .. | .publishEntry .. | .sequenceStep ..
  | .sequenceRetire .. | .vldComplete .. | .storePerformed .. | .mldbComplete .. | .matrixOpComplete ..
  | .operandRoundTransfer .. | .sfuResult .. | .vqmxAgreement .. | .barrierRelease .. | .copyBeat ..
  | .copyDiscard .. | .migrationArrival .. | .rcbSnoopWalk .. | .lamplighterDecide .. | .budgetExpiry ..
  | .oilExhausted .. | .preemptionTrap .. | .watchdogExpiry .. | .sliceSave .. | .sliceRestore ..
  | .deadlinePassed .. | .lightsOutSweep .. | .slugArrival .. | .stageDispatch .. | .replayRetry ..
  | .replayTimeout .. | .ldfutRetry .. | .invalidationComplete .. | .energyCharge .. | .eventRecord ..
  | .machineCheck .. | .thermalThrottle .. | .thermalTrip .. | .reset | .bringupComplete .. | .rootWrite ..
  | .llrootWrite .. | .s2reqPage .. | .s2reqAll .. | .omapWrite .. | .kctlWrite .. | .lgrpWrite ..
  | .hostRegisterWrite .. | .hostMemRead .. | .hostMemWrite .. | .hostAtomic .. | .hostSnoop ..
  | .fabricRequest .. | .fabricResend .. | .stompedPacket .. | .fabricAuthFail .. | .rateDecrease ..
  | .rateIncrease .. | .portStateChange .. | .flameHold .. | .orderEventApply | .bulkHoldApply ..
  | .flameTimeout .. | .lanthornLeave | .timebaseAlign .. | .memoryAccessComplete ..
  | .weakWritePropagation .. | .thermalRecovery .. | .correctableError | .managementRequest .. => true

end Sys2Proof
end

