-- ==== Sys2Proof/Decode.lean ====
section
/-! DEFINITION. From halfwords to instructions and back: the chain rules of R45 and R47, the opcode maps of R52 to R56,
the fates of R57, and the encoder that emits the canonical chain PG, OPX, MD, IMX (R45, R63). -/

namespace Sys2Proof

/-! ### Fields -/

/-- Bits `[hi:lo]` of a halfword or payload. -/
def bitsAt {n : Nat} (v : BitVec n) (hi lo : Nat) : BitVec (hi - lo + 1) := v.extractLsb' lo (hi - lo + 1)

/-- The addressing mode of a 2-bit field (R24). -/
def AMode.ofBits (v : BitVec 2) : AMode :=
  match v.toNat with | 0 => .plain | 1 => .post | 2 => .pre | _ => .circ
/-- The 2-bit field of an addressing mode. -/
def AMode.bits : AMode → BitVec 2
  | .plain => 0 | .post => 1 | .pre => 2 | .circ => 3

/-- The width of a 2-bit field (R38). -/
def Width.ofBits (v : BitVec 2) : Width :=
  match v.toNat with | 0 => .w8 | 1 => .w16 | 2 => .w32 | _ => .w64
/-- The 2-bit field of a width. -/
def Width.code : Width → BitVec 2
  | .w8 => 0 | .w16 => 1 | .w32 => 2 | .w64 => 3

/-- The long width of a 2-bit field; 00 and 01 are reserved. -/
def LongWidth.ofBits (v : BitVec 2) : Option LongWidth :=
  match v.toNat with | 2 => some .l32 | 3 => some .l64 | _ => none
/-- The 2-bit field of a long width. -/
def LongWidth.code : LongWidth → BitVec 2
  | .l32 => 2 | .l64 => 3

/-- The ordering of MD[8:7] (R44). -/
def Ordering.ofBits (v : BitVec 2) : Ordering :=
  match v.toNat with | 0 => .default | 1 => .acquire | 2 => .release | _ => .sc
/-- MD[8:7] of an ordering. -/
def Ordering.bits : Ordering → BitVec 2
  | .default => 0 | .acquire => 1 | .release => 2 | .sc => 3

/-- The scope of a 3-bit field; 111 is reserved (R44). -/
def Scope.ofBits (v : BitVec 3) : Option Scope :=
  match v.toNat with
  | 0 => some .thread | 1 => some .core | 2 => some .octet | 3 => some .cluster
  | 4 => some .die | 5 => some .package | 6 => some .system | _ => none
/-- The 3-bit field of a scope. -/
def Scope.bits : Scope → BitVec 3
  | .thread => 0 | .core => 1 | .octet => 2 | .cluster => 3 | .die => 4 | .package => 5 | .system => 6

/-- The rounding override of MD[2:0]; 110 and 111 are reserved (R44). -/
def RndSel.ofBits (v : BitVec 3) : Option RndSel :=
  match v.toNat with
  | 0 => some .none | 1 => some .rne | 2 => some .rtz | 3 => some .rdn | 4 => some .rup | 5 => some .rna
  | _ => Option.none
/-- MD[2:0] of a rounding override. -/
def RndSel.bits : RndSel → BitVec 3
  | .none => 0 | .rne => 1 | .rtz => 2 | .rdn => 3 | .rup => 4 | .rna => 5

/-- The fields of an MD payload, none for a reserved scope or rounding (R44, R57). -/
def MD.ofBits (v : BitVec 10) : Option MD := do
  let sc ← Scope.ofBits (bitsAt v 6 4)
  let r ← RndSel.ofBits (bitsAt v 2 0)
  pure { sync := v.getLsbD 9, ord := Ordering.ofBits (bitsAt v 8 7), scope := sc, sat := v.getLsbD 3, rnd := r }
/-- One bit of a flag. -/
def flagBit (b : Bool) : BitVec 1 := BitVec.ofBool b
/-- The payload of an MD. -/
def MD.bits (m : MD) : BitVec 10 := flagBit m.sync ++ m.ord.bits ++ m.scope.bits ++ flagBit m.sat ++ m.rnd.bits

/-- The lane type of fn[2:0]; 111 is reserved (R53). -/
def LaneTy.ofBits (v : BitVec 3) : Option LaneTy :=
  match v.toNat with
  | 0 => some (.int .i16) | 1 => some (.int .i32) | 2 => some (.int .i64)
  | 3 => some (.fp .f16) | 4 => some (.fp .bf16) | 5 => some (.fp .f32) | 6 => some (.fp .f64) | _ => none
/-- fn[2:0] of an integer lane type. -/
def IntTy.bits : IntTy → BitVec 3
  | .i16 => 0 | .i32 => 1 | .i64 => 2
/-- fn[2:0] of a floating-point lane type. -/
def FpTy.bits : FpTy → BitVec 3
  | .f16 => 3 | .bf16 => 4 | .f32 => 5 | .f64 => 6
/-- fn[2:0] of a lane type. -/
def LaneTy.bits : LaneTy → BitVec 3
  | .int t => t.bits | .fp t => t.bits
/-- The integer lane type of fn[2:0]; FP codes are reserved where only integers are taken (R187). -/
def IntTy.ofBits (v : BitVec 3) : Option IntTy :=
  match LaneTy.ofBits v with | some (.int t) => some t | _ => none
/-- The floating-point lane type of fn[2:0]; the other codes are reserved (R185, R197). -/
def FpTy.ofBits (v : BitVec 3) : Option FpTy :=
  match LaneTy.ofBits v with | some (.fp t) => some t | _ => none

/-- The type of a 3-bit CVT code (R115). -/
def CvtTy.ofBits (v : BitVec 3) : CvtTy :=
  match v.toNat with
  | 0 => .i8 | 1 => .i16 | 2 => .i32 | 3 => .i64 | 4 => .f16 | 5 => .bf16 | 6 => .f32 | _ => .f64
/-- The 3-bit code of a CVT type. -/
def CvtTy.bits : CvtTy → BitVec 3
  | .i8 => 0 | .i16 => 1 | .i32 => 2 | .i64 => 3 | .f16 => 4 | .bf16 => 5 | .f32 => 6 | .f64 => 7

/-- The element size of TCFG's fn[8:7]; 11 is reserved (R176). -/
def ElemSize.ofBits (v : BitVec 2) : Option ElemSize :=
  match v.toNat with | 0 => some .e16 | 1 => some .e32 | 2 => some .e64 | _ => none
/-- fn[8:7] of an element size. -/
def ElemSize.bits : ElemSize → BitVec 2
  | .e16 => 0 | .e32 => 1 | .e64 => 2

/-- The lane width of VPERM's fn[2:0]; 011 to 111 are reserved (R193). -/
def PermWidth.ofBits (v : BitVec 3) : Option PermWidth :=
  match v.toNat with | 0 => some .w16 | 1 => some .w32 | 2 => some .w64 | _ => none
/-- fn[2:0] of a VPERM lane width. -/
def PermWidth.bits : PermWidth → BitVec 3
  | .w16 => 0 | .w32 => 1 | .w64 => 2

/-- The block format of fn[2:0] (R194). -/
def QFmt.ofBits (v : BitVec 3) : QFmt :=
  match v.toNat with
  | 0 => .e4m3 | 1 => .e5m2 | 2 => .e3m2 | 3 => .e2m3 | 4 => .i8b | 5 => .k4f | 6 => .k4i | _ => .k4h
/-- fn[2:0] of a block format. -/
def QFmt.bits : QFmt → BitVec 3
  | .e4m3 => 0 | .e5m2 => 1 | .e3m2 => 2 | .e2m3 => 3 | .i8b => 4 | .k4f => 5 | .k4i => 6 | .k4h => 7

/-- The VCMP condition of a 3-bit code; 111 is reserved (R188). -/
def VCond.ofBits (v : BitVec 3) : Option VCond :=
  match v.toNat with
  | 0 => some .eq | 1 => some .ne | 2 => some .lt | 3 => some .le | 4 => some .ltu | 5 => some .leu
  | 6 => some .uo | _ => none
/-- The 3-bit code of a VCMP condition. -/
def VCond.bits : VCond → BitVec 3
  | .eq => 0 | .ne => 1 | .lt => 2 | .le => 3 | .ltu => 4 | .leu => 5 | .uo => 6

/-- The value that TIME's arg selects; 3 to 63 are reserved (R137). -/
def TimeSel.ofBits (v : BitVec 6) : Option TimeSel :=
  match v.toNat with | 0 => some .now | 1 => some .t0 | 2 => some .rem | _ => none
/-- TIME's arg. -/
def TimeSel.bits : TimeSel → BitVec 6
  | .now => 0 | .t0 => 1 | .rem => 2

/-- The operand of CST and PLD in field form (R273). -/
def FormeSel.ofBits (v : BitVec 10) : Option FormeSel :=
  if v.getLsbD 9 then if v.getLsbD 0 then none else some (.row (bitsAt v 8 1))
  else if bitsAt v 8 2 = 0#7 then some (.scalar (Width.ofBits (bitsAt v 1 0))) else none
/-- The field-form payload of a CST or PLD operand. -/
def FormeSel.bits : FormeSel → BitVec 10
  | .scalar w => 0#8 ++ w.code
  | .row r => 1#1 ++ r ++ 0#1

/-- TCFG's owner OPX: [9:5] zero, S, owner slot, the slot zero when S = 1 (R176). -/
def TileOwner.ofBits (v : BitVec 10) : Option TileOwner :=
  if bitsAt v 9 5 = 0#5 then
    if v.getLsbD 4 then if bitsAt v 3 0 = 0#4 then some .shared else none else some (.slot (bitsAt v 3 0))
  else none
/-- The payload of a TCFG owner. -/
def TileOwner.bits : TileOwner → BitVec 10
  | .shared => 0x10#10
  | .slot n => 0#6 ++ n

/-- A pointer-form OPX: p, am, five zero bits (R42). -/
def MemOp.ofBits (v : BitVec 10) : Option MemOp :=
  if bitsAt v 4 0 = 0#5 then some ⟨bitsAt v 9 7, AMode.ofBits (bitsAt v 6 5)⟩ else none
/-- The pointer-form payload of a memory operand. -/
def MemOp.bits (o : MemOp) : BitVec 10 := o.p ++ o.am.bits ++ 0#5

/-- A pointer-form OPX whose addressing mode is fixed (MROT: 00, R214; MDRAIN: 01, R217). -/
def fixedPtr (am : AMode) (v : BitVec 10) : Option PReg :=
  match MemOp.ofBits v with | some o => if o.am = am then some o.p else none | none => none

/-- A row-form OPX: row, two zero bits (R42). -/
def rowOfBits (v : BitVec 10) : Option RowRef := if bitsAt v 1 0 = 0#2 then some (bitsAt v 9 2) else none
/-- The row-form payload of a row. -/
def rowBits (r : RowRef) : BitVec 10 := r ++ 0#2

/-- A field-form OPX whose bits above `n` are zero. -/
def fieldOfBits (n : Nat) (v : BitVec 10) : Option (BitVec n) :=
  if v.toNat < 2 ^ n then some (v.truncate n) else none

/-! ### Immediates (R41) -/

/-- The immediate of a field `f` of `n` bits with the IMX payloads `xs` in chain order. -/
def immValue (signed : Bool) (n : Nat) (f : Nat) (xs : List (BitVec 10)) : W64 :=
  let v := xs.foldl (fun acc x => acc * 1024 + x.toNat) 0 * 2 ^ n + f
  let m := n + 10 * xs.length
  if signed || !xs.isEmpty then (BitVec.ofNat m v).signExtend 64 else BitVec.ofNat 64 v

/-- The IMX payloads and the field for an immediate: the fewest IMX that yield it (R63). -/
def immSplit (unsignedField : Bool) (n : Nat) (v : W64) : List (BitVec 10) × Nat :=
  let field := v.toNat % 2 ^ n
  let x (i : Nat) : BitVec 10 := BitVec.ofNat 10 (v.toNat / 2 ^ (n + 10 * i))
  if (unsignedField && v.toNat < 2 ^ n) || (!unsignedField && fitsSigned n v) then ([], field)
  else if fitsSigned (n + 10) v then ([x 0], field)
  else if fitsSigned (n + 20) v then ([x 1, x 0], field)
  else ([x 2, x 1, x 0], field)

/-! ### The chain (R45, R47) -/

/-- Why a chain of halfwords is no instruction. Offsets count halfwords from the instruction's address. `more` asks for
the halfword at an offset that could not be fetched. -/
inductive DecodeError where
  | more (off : Nat)
  | illegalPrefix (off : Nat)
  | reserved (off : Nat) (len : Nat)
  deriving DecidableEq, Repr

/-- Where the parts of the instruction stand, in halfwords from its address: its length and its MD and OPX prefixes. -/
structure Chain where
  len  : Nat := 1
  md   : Nat := 0
  opx1 : Nat := 0
  opx2 : Nat := 0
  deriving DecidableEq, Repr

/-- The offset of the base word. -/
def Chain.base (c : Chain) : Nat := c.len - 1

/-- The kinds of prefix (R40). -/
inductive PrefixKind where
  | imx | opx | pg | md
  deriving DecidableEq, Repr

/-- The kind of a prefix halfword. -/
def prefixKind (h : Half) : PrefixKind :=
  match (bitsAt h 11 10).toNat with | 0 => .imx | 1 => .opx | 2 => .pg | _ => .md

/-- Whether a halfword is a prefix (R36). -/
def isPrefix (h : Half) : Bool := bitsAt h 15 12 == 0xF#4

/-- The prefixes read so far: kind and payload, in chain order. -/
abbrev Prefixes := List (PrefixKind × BitVec 10)

/-- How many prefixes of a kind stand in the chain. -/
def countKind (k : PrefixKind) (ps : Prefixes) : Nat := (ps.filter (·.1 == k)).length

/-- Reads the prefixes up to the base word, with the limits of R45 in the order of R47. -/
def readChain : List Half → Prefixes → Except DecodeError (Prefixes × Half)
  | [], ps => .error (.more ps.length)
  | h :: hs, ps =>
    if isPrefix h then
      let k := prefixKind h
      if ps.length = 4
          || (k == .pg && !ps.isEmpty)
          || (k == .md && countKind .md ps == 1)
          || (k == .opx && countKind .opx ps == 2)
          || (k == .imx && countKind .imx ps == 3)
      then .error (.illegalPrefix ps.length)
      else readChain hs (ps ++ [(k, bitsAt h 9 0)])
    else .ok (ps, h)

/-- The offset of the `n`-th prefix of a kind, from 0. -/
def nthOffset (k : PrefixKind) : Prefixes → Nat → Nat → Nat
  | [], _, i => i
  | (k', _) :: ps, n, i =>
    if k' == k then match n with | 0 => i | m + 1 => nthOffset k ps m (i + 1) else nthOffset k ps n (i + 1)

/-- The payload of the `n`-th prefix of a kind. -/
def nthPayload (k : PrefixKind) (ps : Prefixes) (n : Nat) : Option (BitVec 10) :=
  ((ps.filter (·.1 == k)).map (·.2))[n]?

/-- The offset of the first prefix beyond the counts that an instruction accepts. -/
def firstExcess (opx imx md : Nat) : Prefixes → Nat → Nat → Nat → Nat → Option Nat
  | [], _, _, _, _ => none
  | (k, _) :: ps, i, nx, ni, nm =>
    match k with
    | .pg => firstExcess opx imx md ps (i + 1) nx ni nm
    | .opx => if nx + 1 > opx then some i else firstExcess opx imx md ps (i + 1) (nx + 1) ni nm
    | .imx => if ni + 1 > imx then some i else firstExcess opx imx md ps (i + 1) nx (ni + 1) nm
    | .md => if nm + 1 > md then some i else firstExcess opx imx md ps (i + 1) nx ni (nm + 1)

/-- What an instruction's description says of its prefixes: the check of each OPX it accepts, in order, how many IMX it
accepts, the check of its MD where it accepts one, and the instruction that the checked fields make (none for a
reserved value in the base word). -/
structure Form where
  opx   : List (BitVec 10 → Bool) := []
  imx   : Nat := 0
  md    : Option (BitVec 10 → Bool) := none
  build : MD → Option MD → Option (BitVec 10) → Option (BitVec 10) → List (BitVec 10) → Option Instr

/-- The offset of the first prefix whose payload holds a reserved or non-zero must-be-zero value. -/
def firstReserved (f : Form) : Prefixes → Nat → Nat → Option Nat
  | [], _, _ => none
  | (k, v) :: ps, i, nx =>
    match k with
    | .pg => if bitsAt v 6 0 = 0#7 then firstReserved f ps (i + 1) nx else some i
    | .imx => firstReserved f ps (i + 1) nx
    | .opx =>
      match f.opx[nx]? with
      | some chk => if chk v then firstReserved f ps (i + 1) (nx + 1) else some i
      | none => firstReserved f ps (i + 1) (nx + 1)
    | .md =>
      match f.md with
      | some chk => if chk v then firstReserved f ps (i + 1) nx else some i
      | none => firstReserved f ps (i + 1) nx

/-! ### Form checks -/

/-- The MD check of a mask. -/
def mdCheck (k : MdMask) (v : BitVec 10) : Bool := match MD.ofBits v with | some m => k.ok m | none => false
/-- WBACK: a scope and nothing else (R336). -/
def scopeOnly (v : BitVec 10) : Bool :=
  match MD.ofBits v with | some m => ({ scopeAlone := true } : MdMask).ok m | none => false
/-- A pointer-form OPX. -/
def ptrForm (v : BitVec 10) : Bool := (MemOp.ofBits v).isSome
/-- A row-form OPX. -/
def rowForm (v : BitVec 10) : Bool := (rowOfBits v).isSome
/-- A field-form OPX of `n` bits. -/
def fieldForm (n : Nat) (v : BitVec 10) : Bool := (fieldOfBits n v).isSome
/-- LCAST's plane, 1 to 23 (R440). -/
def planeForm (v : BitVec 10) : Bool := 1 ≤ v.toNat && v.toNat ≤ 23

/-! ### The opcode maps -/

/-- A form that accepts no prefix but PG. -/
def bare (i : Option Instr) : Form := { build := fun _ _ _ _ _ => i }

/-- An M-format form over a memory operand and an MD. -/
def mForm (k : MdMask) (i : MD → Instr) : Form :=
  { md := some (mdCheck k), build := fun md _ _ _ _ => some (i md) }

/-- A form with an immediate of `n` field bits and up to `k` IMX. -/
def immForm (signed : Bool) (n k f : Nat) (i : W64 → Instr) : Form :=
  { imx := k, build := fun _ _ _ _ xs => some (i (immValue signed n f xs)) }

/-- Major 0 and 1 of page 0 (R52, R104, R107). -/
def integerForm (major fn : Nat) (w : Width) (o : MemOp) : Option Form :=
  match major, fn with
  | 0, 0 => some (mForm .load (.ld w o)) | 0, 1 => some (mForm .store (.st w o))
  | 0, 2 => some (mForm .readSat (.add w o)) | 0, 3 => some (mForm .readSat (.sub w o))
  | 0, 4 => some (mForm .readSat (.rsub w o)) | 0, 5 => some (mForm .read (.and w o))
  | 0, 6 => some (mForm .read (.or w o)) | 0, 7 => some (mForm .read (.xor w o))
  | 0, 8 => some (mForm .read (.min w o)) | 0, 9 => some (mForm .read (.max w o))
  | 0, 10 => some (mForm .read (.minu w o)) | 0, 11 => some (mForm .read (.maxu w o))
  | 0, 12 => some (mForm .read (.cmp w o))
  | 1, 0 => some (mForm .readSat (.mul w o)) | 1, 1 => some (mForm .read (.mulh w o))
  | 1, 2 => some (mForm .read (.mulhu w o)) | 1, 3 => some (mForm .readSat (.div w o))
  | 1, 4 => some (mForm .read (.divu w o)) | 1, 5 => some (mForm .read (.rem w o))
  | _, _ => none

/-- Major 2 of page 0 (R108, R109). -/
def floatForm (fn : Nat) (w : LongWidth) (o : MemOp) : Option Form :=
  match fn with
  | 0 => some (mForm .readRnd (.fadd w o)) | 1 => some (mForm .readRnd (.fsub w o))
  | 2 => some (mForm .readRnd (.fmul w o))
  | 3 => some { opx := [ptrForm], md := some (mdCheck .readRnd),
                build := fun md _ x _ _ => some (.fma w o (x.bind MemOp.ofBits) md) }
  | 4 => some (mForm .readRnd (.fdiv w o)) | 5 => some (mForm .readRnd (.fsqrt w o))
  | 6 => some (mForm .read (.fmin w o)) | 7 => some (mForm .read (.fmax w o))
  | 8 => some (mForm .read (.fcmp w o))
  | _ => none

/-- Major 10 of page 0 (R118). -/
def pointerForm (p : PReg) (fn : Nat) (f : BitVec 5) : Option Form :=
  match fn with
  | 0 => some (immForm true 5 3 f.toNat (.pset p))
  | 1 => some (immForm true 5 2 f.toNat (.pstep p))
  | 2 => some (immForm true 5 3 f.toNat (.paddi p))
  | 3 => some (bare (some (.padda p f)))
  | 4 => some (bare (if f = 0 then some (.movap p) else none))
  | 5 => some (bare (if f = 0 then some (.movpa p) else none))
  | 6 => some (bare (if bitsAt f 4 3 = 0#2 then some (.pcmp p (bitsAt f 2 0)) else none))
  | _ => none

/-- The special function of SFU's fn[2:0] (R169). -/
def sfuInstr (fn : Nat) (r : RowRef) : Instr :=
  match fn with
  | 0 => .sfuExp2 r | 1 => .sfuLog2 r | 2 => .sfuRcp r | 3 => .sfuRsqrt r
  | 4 => .sfuSin r | 5 => .sfuCos r | 6 => .sfuTanh r | _ => .sfuErf r

/-- Page 0 (R52). -/
def page0 (h : Half) : Option Form :=
  let p : PReg := bitsAt h 10 8
  let o : MemOp := ⟨p, AMode.ofBits (bitsAt h 7 6)⟩
  let fn4 := (bitsAt h 3 0).toNat
  let fn5 := (bitsAt h 10 6).toNat
  let arg : BitVec 6 := bitsAt h 5 0
  let i11 := (bitsAt h 10 0).toNat
  let off8 := (bitsAt h 7 0).toNat
  match (bitsAt h 15 11).toNat with
  | 0 => integerForm 0 fn4 (Width.ofBits (bitsAt h 5 4)) o
  | 1 => integerForm 1 fn4 (Width.ofBits (bitsAt h 5 4)) o
  | 2 => (LongWidth.ofBits (bitsAt h 5 4)).bind fun w => floatForm fn4 w o
  | 3 => some (immForm true 11 3 i11 .ldi) | 4 => some (immForm true 11 3 i11 .ldih)
  | 5 => some (immForm true 11 3 i11 .addi) | 6 => some (immForm true 11 3 i11 .andi)
  | 7 => some (immForm true 11 3 i11 .ori) | 8 => some (immForm true 11 3 i11 .xori)
  | 9 =>
    match fn5 with
    | 0 => some (bare (some (.shl arg))) | 1 => some (bare (some (.shr arg)))
    | 2 => some (bare (some (.sar arg))) | 3 => some (bare (some (.rol arg))) | _ => none
  | 10 => pointerForm p (bitsAt h 7 5).toNat (bitsAt h 4 0)
  | 11 =>
    let w := Width.ofBits (bitsAt h 1 0)
    let ok (i : Instr) : Option Form := some (bare (if bitsAt h 5 2 = 0#4 then some i else none))
    match fn5 with
    | 0 => ok (.clz w) | 1 => ok (.ctz w) | 2 => ok (.popc w) | 3 => ok (.bswap w) | _ => none
  | 12 =>
    let mode := bitsAt h 10 8
    let su := h.getLsbD 7
    let du := h.getLsbD 6
    let src := CvtTy.ofBits (bitsAt h 5 3)
    let dst := CvtTy.ofBits (bitsAt h 2 0)
    some (bare (if cvtOk mode su du src dst then some (.cvt mode su du src dst) else none))
  | 13 =>
    match (bitsAt h 10 8).toNat with
    | 0 => some (immForm true 8 3 off8 .b) | 1 => some (immForm true 8 3 off8 .bz)
    | 2 => some (immForm true 8 3 off8 .bnz) | 3 => some (immForm true 8 3 off8 .blt)
    | 4 => some (immForm true 8 3 off8 .bge) | 5 => some (immForm true 8 3 off8 .bltu)
    | 6 => some (immForm true 8 3 off8 .bgeu) | _ => some (immForm true 8 3 off8 .loop)
  | 14 => some (immForm true 11 3 i11 .call)
  | 15 =>
    let ok (i : Instr) : Option Form := some (bare (if arg = 0#6 then some i else none))
    match fn5 with
    | 0 => ok .ret | 1 => ok .jmpa | 2 => ok .nop | 3 => ok .yield | 4 => ok .halt | _ => none
  | 16 => some (bare (some (.wait (bitsAt h 10 8) (bitsAt h 7 5) (bitsAt h 4 3) (bitsAt h 2 0))))
  | 17 => some (bare (some (.rep (bitsAt h 10 6) (bitsAt h 5 4) (bitsAt h 3 0))))
  | 18 => some (bare (some (sfuInstr (bitsAt h 2 0).toNat (bitsAt h 10 3))))
  | 19 =>
    match off8 with
    | 0 => some (bare (some (.tage p))) | 1 => some (bare (some (.tagf p))) | _ => none
  | _ => none

/-- A form over a row with up to two row-form OPX and an MD. -/
def rows2 (k : MdMask) (i : Option RowRef → Option RowRef → MD → Instr) : Form :=
  { opx := [rowForm, rowForm], md := some (mdCheck k),
    build := fun md _ x y _ => some (i (x.bind rowOfBits) (y.bind rowOfBits) md) }

/-- Majors 4 to 28 of page 1 (R53, R185 to R197). DESIGN CHOICE: a lane-type code that the instruction does not accept, or a
width code of VPERM, names no instruction, so that it is reported before an illegal prefix (log 93). -/
def vectorForm (major : Nat) (d : RowRef) (fn : BitVec 3) : Option Form :=
  let lane := LaneTy.ofBits fn
  let fpTy := FpTy.ofBits fn
  let intTy := IntTy.ofBits fn
  match major with
  | 4 => lane.map fun t => rows2 (.lane t) fun a b md => .vadd t d a b md
  | 5 => lane.map fun t => rows2 (.lane t) fun a b md => .vsub t d a b md
  | 6 => lane.map fun t => rows2 (.lane t) fun a b md => .vmul t d a b md
  | 7 => fpTy.map fun t => rows2 .rounded fun a b md => .vfma t d a b md
  | 8 => fpTy.map fun t => rows2 .rounded fun a b md => .vfms t d a b md
  | 9 => lane.map fun t => rows2 .empty fun a b _ => .vmin t d a b
  | 10 => lane.map fun t => rows2 .empty fun a b _ => .vmax t d a b
  | 11 => lane.map fun t => mForm (.lane t) (.vabs t d)
  | 12 => lane.map fun t => mForm (.lane t) (.vneg t d)
  | 13 => intTy.map fun t => { opx := [rowForm], build := fun _ _ x _ _ => some (.vand t d (x.bind rowOfBits)) }
  | 14 => intTy.map fun t => { opx := [rowForm], build := fun _ _ x _ _ => some (.vor t d (x.bind rowOfBits)) }
  | 15 => intTy.map fun t => { opx := [rowForm], build := fun _ _ x _ _ => some (.vxor t d (x.bind rowOfBits)) }
  | 16 => intTy.map fun t =>
      { opx := [fieldForm 6], build := fun _ _ x _ _ => some (.vshl t d (x.bind (fieldOfBits 6))) }
  | 17 => intTy.map fun t =>
      { opx := [fieldForm 6], build := fun _ _ x _ _ => some (.vshr t d (x.bind (fieldOfBits 6))) }
  | 18 => intTy.map fun t =>
      { opx := [fieldForm 6], build := fun _ _ x _ _ => some (.vsar t d (x.bind (fieldOfBits 6))) }
  | 19 => lane.map fun t =>
      let cond (v : BitVec 10) : Option VCond :=
        ((fieldOfBits 3 v).bind VCond.ofBits).bind fun c => if c.ok t then some c else none
      { opx := [rowForm, fun v => (cond v).isSome],
        build := fun _ _ x y _ => some (.vcmp t d (x.bind rowOfBits) (y.bind cond)) }
  | 20 => lane.map fun t =>
      { opx := [rowForm, rowForm],
        build := fun _ _ x y _ => some (.vsel t d (x.bind rowOfBits) (y.bind rowOfBits)) }
  | 21 => lane.map fun t =>
      { opx := [rowForm], md := some (mdCheck .convert),
        build := fun md _ x _ _ => some (.vcvt t d (x.bind rowOfBits) md) }
  | 22 => lane.map fun t => mForm (.lane t) (.vred t d)
  | 23 => lane.map fun t => bare (some (.vbca t d))
  | 24 => lane.map fun t =>
      { opx := [fieldForm 7], build := fun _ _ x _ _ => some (.vgeta t d (x.bind (fieldOfBits 7))) }
  | 25 => (PermWidth.ofBits fn).map fun w =>
      { opx := [rowForm, rowForm],
        build := fun _ _ x y _ => some (.vperm w d (x.bind rowOfBits) (y.bind rowOfBits)) }
  | 26 => some (bare (some (.vqmx (QFmt.ofBits fn) d)))
  | 27 => some { opx := [rowForm], md := some (mdCheck .rounded),
                 build := fun md _ x _ _ => some (.vqnt (QFmt.ofBits fn) d (x.bind rowOfBits) md) }
  | 28 => fpTy.map fun t => { opx := [rowForm], build := fun _ _ x _ _ => some (.vdq t d (x.bind rowOfBits)) }
  | _ => none

/-- Page 1 (R53). DESIGN CHOICE: a size code that TCFG does not accept names no instruction, where the must-be-zero fields of
TCFG and TREL are base-word values, reported after the prefixes (log 93). -/
def page1 (h : Half) : Option Form :=
  let p : PReg := bitsAt h 10 8
  match (bitsAt h 15 11).toNat with
  | 0 => (ElemSize.ofBits (bitsAt h 8 7)).map fun e =>
      { opx := [fun v => (TileOwner.ofBits v).isSome],
        build := fun _ _ x _ _ =>
          if bitsAt h 6 4 = 0#3 && !(bitsAt h 3 0 == 0#4)
          then some (.tcfg (bitsAt h 10 9) e (bitsAt h 3 0) (x.bind TileOwner.ofBits)) else none }
  | 1 => some (bare (if bitsAt h 8 0 = 0#9 then some (.trel (bitsAt h 10 9)) else none))
  | 2 => some (mForm .read (.vld p (bitsAt h 7 0)))
  | 3 => some (mForm .write (.vst p (bitsAt h 7 0)))
  | m => vectorForm m (bitsAt h 10 3) (bitsAt h 2 0)

/-- Page 2 (R54). DESIGN CHOICE: an OPX of value 0 on FDROP or MSTAT, whose one listed bit is then clear, is accepted and
gives the form without the flag (log 94). -/
def page2 (h : Half) : Option Form :=
  let p : PReg := bitsAt h 10 8
  let fn8 := (bitsAt h 7 0).toNat
  let d : RowRef := bitsAt h 10 3
  match (bitsAt h 15 11).toNat with
  | 0 =>
    match fn8 with
    | 0 => some (bare (some (.mldb p))) | 1 => some (bare (some (.mma p)))
    | 2 => some (bare (some (.mmrot p))) | _ => none
  | 1 =>
    match (bitsAt h 2 0).toNat with
    | 0 => some { opx := [fieldForm 6], build := fun _ _ x _ _ => some (.mzero d (x.bind (fieldOfBits 6))) }
    | 1 => some { opx := [fun v => (fixedPtr .post v).isSome],
                  build := fun _ _ x _ _ => some (.mdrain d (x.bind (fixedPtr .post))) }
    | 2 => some { opx := [fieldForm 1],
                  build := fun _ _ x _ _ =>
                    if bitsAt d 5 0 = 0#6 then some (.mstat (bitsAt d 7 6) (x == some 1#10)) else none }
    | 3 => some { opx := [fun v => (fixedPtr .plain v).isSome],
                  build := fun _ _ x _ _ =>
                    match (bitsAt d 7 6).toNat with
                    | 0 => some (.mrot false (bitsAt d 5 0) (x.bind (fixedPtr .plain)))
                    | 1 => some (.mrot true (bitsAt d 5 0) (x.bind (fixedPtr .plain)))
                    | _ => none }
    | _ => none
  | 2 =>
    let sel (x : Option (BitVec 10)) : FormeSel := (x.bind FormeSel.ofBits).getD (.scalar .w64)
    match fn8 with
    | 0 => some { opx := [fun _ => true], build := fun _ _ x _ _ => some (.fnew p x) }
    | 1 => some { opx := [fieldForm 3], build := fun _ _ x _ _ => some (.fprf p (x.bind (fieldOfBits 3))) }
    | 2 => some { opx := [fun v => (FormeSel.ofBits v).isSome], build := fun _ _ x _ _ => some (.cst p (sel x)) }
    | 3 => some { opx := [fun v => (FormeSel.ofBits v).isSome], build := fun _ _ x _ _ => some (.pld p (sel x)) }
    | 4 => some (bare (some (.flock p)))
    | 5 => some { opx := [fieldForm 1],
                  build := fun _ _ x _ _ => some (if x = some 1#10 then .fdropRetire p else .fdrop p) }
    | 6 => some { opx := [ptrForm], build := fun _ _ x _ _ => some (.fsend p (x.bind MemOp.ofBits)) }
    | 7 => some { opx := [ptrForm], build := fun _ _ x _ _ => some (.ftake p (x.bind MemOp.ofBits)) }
    | _ => none
  | _ => none

/-- The atomics of page 3, major 6 (R328). -/
def atomicForm (fn : Nat) (w : LongWidth) (o : MemOp) : Option Form :=
  match fn with
  | 0 => some (mForm .atomic (.amoadd w o)) | 1 => some (mForm .atomic (.amoand w o))
  | 2 => some (mForm .atomic (.amoor w o)) | 3 => some (mForm .atomic (.amoxor w o))
  | 4 => some (mForm .atomic (.amomin w o)) | 5 => some (mForm .atomic (.amomax w o))
  | 6 => some (mForm .atomic (.amominu w o)) | 7 => some (mForm .atomic (.amomaxu w o))
  | 8 => some (mForm .atomic (.amoswap w o))
  | 9 => some { opx := [ptrForm], md := some (mdCheck .atomic),
                build := fun md _ x _ _ => some (.amocas w o (x.bind MemOp.ofBits) md) }
  | 10 => some (mForm .atomicRnd (.afadd w o)) | 11 => some (mForm .atomic (.afmin w o))
  | 12 => some (mForm .atomic (.afmax w o))
  | _ => none

/-- Page 3 (R55). -/
def page3 (h : Half) : Option Form :=
  let p : PReg := bitsAt h 10 8
  let o : MemOp := ⟨p, AMode.ofBits (bitsAt h 7 6)⟩
  let fn4 := (bitsAt h 3 0).toNat
  let fn5 := (bitsAt h 10 6).toNat
  let fn8 := (bitsAt h 7 0).toNat
  let arg : BitVec 6 := bitsAt h 5 0
  let noArg (i : Instr) : Option Form := some (bare (if arg = 0#6 then some i else none))
  match (bitsAt h 15 11).toNat with
  | 0 =>
    match fn5 with
    | 0 => some { opx := [fun _ => true, fun _ => true], imx := 1,
                  build := fun _ _ x y xs => some (.candle x y (immValue true 6 arg.toNat xs)) }
    | 1 => noArg .snuff | 2 => noArg .douse
    | 3 => some (immForm true 6 3 arg.toNat .gutret)
    | 4 => some (bare ((TimeSel.ofBits arg).map .time))
    | 5 => some (immForm true 6 3 arg.toNat .pace)
    | _ => none
  | 1 =>
    match fn5 with
    | 0 => some (immForm false 6 3 arg.toNat .trap)
    | 1 => noArg .rtt
    | 2 => some (bare (some (.mfs arg))) | 3 => some (bare (some (.mts arg)))
    | 4 => some (bare (match arg.toNat with | 0 => some .tlbiPage | 1 => some .tlbiSpace | _ => none))
    | 5 => noArg .gohome
    | _ => none
  | 2 =>
    let tree (i : Instr) : Option Form := some (bare (if bitsAt arg 5 4 = 0#2 then some i else none))
    let chan (i : Instr) : Option Form := some (bare (if bitsAt arg 5 2 = 0#4 then some i else none))
    match fn5 with
    | 0 => noArg .barm
    | 1 => tree (.arrive (bitsAt arg 3 0)) | 2 => tree (.bwait (bitsAt arg 3 0))
    | 3 => chan (.wptr (bitsAt arg 1 0)) | 4 => chan (.cwait (bitsAt arg 1 0))
    | _ => none
  | 3 =>
    match fn8 with
    | 0 => some { opx := [fieldForm 2],
                  build := fun _ _ x _ _ => some (.copy p ((x.bind (fieldOfBits 2)).getD 0)) }
    | _ => none
  | 4 =>
    match fn8 with
    | 0 => some { md := some scopeOnly, build := fun _ m _ _ _ => some (.wback p (m.map MD.scope)) }
    | 1 => some { md := some (fun _ => false), build := fun _ _ _ _ _ => some (.discard p) }
    | _ => none
  | 5 =>
    match fn5 with
    | 0 => some (bare (if bitsAt arg 5 3 = 0#3 then (Scope.ofBits (bitsAt arg 2 0)).map .fence else none))
    | _ => none
  | 6 => (LongWidth.ofBits (bitsAt h 5 4)).bind fun w => atomicForm fn4 w o
  | 7 => (LongWidth.ofBits (bitsAt h 5 4)).bind fun w =>
      match fn4 with
      | 0 => some (mForm .ldfut (.ldfut w o)) | 1 => some (mForm .stfut (.stfut w o)) | _ => none
  | 8 =>
    let p0 (i : Instr) : Option Form := some (bare (if p = 0 then some i else none))
    match fn8 with
    | 0 => some (bare (some (.lpost p))) | 1 => p0 .lwait | 2 => p0 .lseq
    | 3 => some { opx := [planeForm], build := fun _ _ x _ _ => some (.lcast p (x.bind (fieldOfBits 5))) }
    | 4 => some (bare (some (.lbred p)))
    | _ => none
  | _ => none

/-- Page 4 (R56). DESIGN CHOICE: an OPX of value 0 on CASEGET or CASENXT is accepted and gives the form without the flag
(log 94). -/
def page4 (h : Half) : Option Form :=
  let p : PReg := bitsAt h 10 8
  let p0 (i : Instr) : Option Form := some (bare (if p = 0 then some i else none))
  match (bitsAt h 15 11).toNat, (bitsAt h 7 0).toNat with
  | 0, 0 => some (bare (some (.gbind p)))
  | 0, 1 => some (bare (some (.gemit p)))
  | 0, 2 => p0 .gdone
  | 0, 3 => some (bare (some (.caseadd p)))
  | 0, 4 => some { opx := [fieldForm 1], build := fun _ _ x _ _ => some (.caseget p (x == some 1#10)) }
  | 0, 5 => some { opx := [fieldForm 1], build := fun _ _ x _ _ => some (.casenxt p (x == some 1#10)) }
  | 0, 6 => p0 .gclose
  | 0, 7 => p0 .gfront
  | _, _ => none

/-- The instruction that a page and a base word name (R50 to R56). -/
def lookup (page : Nat) (h : Half) : Option Form :=
  match page with
  | 0 => page0 h | 1 => page1 h | 2 => page2 h | 3 => page3 h | 4 => page4 h | _ => none

/-- Checks and builds the instruction of a chain that readChain has read (R47, from the page on). -/
def decodeChain (ps : Prefixes) (h : Half) : Except DecodeError (Instr × Chain) :=
  let len := ps.length + 1
  let page := match nthPayload .pg ps 0 with | some v => (bitsAt v 9 7).toNat | none => 0
  if page ≥ 5 then .error (.reserved 0 len) else
  match lookup page h with
  | none => .error (.reserved ps.length len)
  | some f =>
    match firstExcess f.opx.length f.imx (if f.md.isSome then 1 else 0) ps 0 0 0 0 with
    | some i => .error (.illegalPrefix i)
    | none =>
      match firstReserved f ps 0 0 with
      | some i => .error (.reserved i len)
      | none =>
        let md := (nthPayload .md ps 0).bind MD.ofBits
        match f.build (md.getD MD.zero) md (nthPayload .opx ps 0) (nthPayload .opx ps 1)
            ((ps.filter (·.1 == .imx)).map (·.2)) with
        | none => .error (.reserved ps.length len)
        | some i =>
          .ok (i, { len := len, md := nthOffset .md ps 0 0, opx1 := nthOffset .opx ps 0 0,
                    opx2 := nthOffset .opx ps 1 0 })

/-- The decoder (R47): the instruction that the halfwords begin with, or why they begin with none. -/
def decode (hs : List Half) : Except DecodeError (Instr × Chain) :=
  match readChain hs [] with
  | .error e => .error e
  | .ok (ps, h) => decodeChain ps h

/-! ### The encoder -/

/-- A prefix halfword. -/
def mkPrefix (k : PrefixKind) (v : BitVec 10) : Half :=
  let kind : BitVec 2 := match k with | .imx => 0 | .opx => 1 | .pg => 2 | .md => 3
  0xF#4 ++ kind ++ v

/-- M format. -/
def fmtM (major : BitVec 5) (o : MemOp) (w : BitVec 2) (fn : BitVec 4) : Half := major ++ o.p ++ o.am.bits ++ w ++ fn
/-- I format. -/
def fmtI (major : BitVec 5) (imm : BitVec 11) : Half := major ++ imm
/-- P format. -/
def fmtP (p : PReg) (fn : BitVec 3) (imm : BitVec 5) : Half := 10#5 ++ p ++ fn ++ imm
/-- B format. -/
def fmtB (cond : BitVec 3) (off : BitVec 8) : Half := 13#5 ++ cond ++ off
/-- S format. -/
def fmtS (major fn : BitVec 5) (arg : BitVec 6) : Half := major ++ fn ++ arg
/-- V format. -/
def fmtV (major : BitVec 5) (d : RowRef) (fn : BitVec 3) : Half := major ++ d ++ fn
/-- X format. -/
def fmtX (major : BitVec 5) (p : PReg) (fn : BitVec 8) : Half := major ++ p ++ fn

/-- A chain: page, OPX payloads, MD, IMX payloads and base word, in the order of R45. -/
def chainOf (page : Nat) (opx : List (BitVec 10)) (md : Option (BitVec 10)) (imx : List (BitVec 10)) (base : Half) :
    List Half :=
  (if page = 0 then [] else [mkPrefix .pg (BitVec.ofNat 3 page ++ 0#7)])
    ++ opx.map (mkPrefix .opx) ++ md.toList.map (mkPrefix .md) ++ imx.map (mkPrefix .imx) ++ [base]

/-- The MD prefix of an MD: none when every field is zero (R61). -/
def MD.enc (m : MD) : Option (BitVec 10) := if m = MD.zero then none else some m.bits

/-- An M-format instruction with an MD. -/
def encM (page : Nat) (major : BitVec 5) (o : MemOp) (w : BitVec 2) (fn : BitVec 4) (md : MD) : List Half :=
  chainOf page [] md.enc [] (fmtM major o w fn)
/-- An I-format instruction with an immediate. -/
def encI (major : BitVec 5) (v : W64) : List Half :=
  let x := immSplit false 11 v
  chainOf 0 [] none x.1 (fmtI major (BitVec.ofNat 11 x.2))
/-- A P-format instruction with an immediate. -/
def encP (p : PReg) (fn : BitVec 3) (v : W64) : List Half :=
  let x := immSplit false 5 v
  chainOf 0 [] none x.1 (fmtP p fn (BitVec.ofNat 5 x.2))
/-- A B-format instruction. -/
def encB (cond : BitVec 3) (v : W64) : List Half :=
  let x := immSplit false 8 v
  chainOf 0 [] none x.1 (fmtB cond (BitVec.ofNat 8 x.2))
/-- A page-3 S-format instruction with an immediate. -/
def encS (u : Bool) (major fn : BitVec 5) (opx : List (BitVec 10)) (v : W64) : List Half :=
  let x := immSplit u 6 v
  chainOf 3 opx none x.1 (fmtS major fn (BitVec.ofNat 6 x.2))
/-- An S-format instruction with an argument. -/
def encArg (page : Nat) (major fn : BitVec 5) (arg : BitVec 6) : List Half := chainOf page [] none [] (fmtS major fn arg)
/-- A V-format instruction with its OPX and MD. -/
def encV (page : Nat) (major : BitVec 5) (d : RowRef) (fn : BitVec 3) (opx : List (BitVec 10)) (md : MD) : List Half :=
  chainOf page opx md.enc [] (fmtV major d fn)
/-- An X-format instruction with its OPX. -/
def encX (page : Nat) (major : BitVec 5) (p : PReg) (fn : BitVec 8) (opx : List (BitVec 10)) : List Half :=
  chainOf page opx none [] (fmtX major p fn)
/-- The row-form payloads of two optional rows. -/
def rowOpx (a b : Option RowRef) : List (BitVec 10) := (a.toList ++ b.toList).map rowBits
/-- The field-form payload of an optional field. -/
def fieldOpx {n : Nat} (a : Option (BitVec n)) : List (BitVec 10) := a.toList.map (·.zeroExtend 10)
/-- The one-bit option of MSTAT, FDROP, CASEGET and CASENXT. -/
def bitOpx (b : Bool) : List (BitVec 10) := if b then [1#10] else []

/-- The halfwords of an instruction, in address order; an event has none. -/
def encode : Instr → List Half
  | .ld w o md => encM 0 0 o w.code 0 md
  | .st w o md => encM 0 0 o w.code 1 md
  | .add w o md => encM 0 0 o w.code 2 md
  | .sub w o md => encM 0 0 o w.code 3 md
  | .rsub w o md => encM 0 0 o w.code 4 md
  | .and w o md => encM 0 0 o w.code 5 md
  | .or w o md => encM 0 0 o w.code 6 md
  | .xor w o md => encM 0 0 o w.code 7 md
  | .min w o md => encM 0 0 o w.code 8 md
  | .max w o md => encM 0 0 o w.code 9 md
  | .minu w o md => encM 0 0 o w.code 10 md
  | .maxu w o md => encM 0 0 o w.code 11 md
  | .cmp w o md => encM 0 0 o w.code 12 md
  | .mul w o md => encM 0 1 o w.code 0 md
  | .mulh w o md => encM 0 1 o w.code 1 md
  | .mulhu w o md => encM 0 1 o w.code 2 md
  | .div w o md => encM 0 1 o w.code 3 md
  | .divu w o md => encM 0 1 o w.code 4 md
  | .rem w o md => encM 0 1 o w.code 5 md
  | .fadd w o md => encM 0 2 o w.code 0 md
  | .fsub w o md => encM 0 2 o w.code 1 md
  | .fmul w o md => encM 0 2 o w.code 2 md
  | .fma w o q md => chainOf 0 (q.toList.map MemOp.bits) md.enc [] (fmtM 2 o w.code 3)
  | .fdiv w o md => encM 0 2 o w.code 4 md
  | .fsqrt w o md => encM 0 2 o w.code 5 md
  | .fmin w o md => encM 0 2 o w.code 6 md
  | .fmax w o md => encM 0 2 o w.code 7 md
  | .fcmp w o md => encM 0 2 o w.code 8 md
  | .ldi v => encI 3 v
  | .ldih v => encI 4 v
  | .addi v => encI 5 v
  | .andi v => encI 6 v
  | .ori v => encI 7 v
  | .xori v => encI 8 v
  | .shl k => encArg 0 9 0 k
  | .shr k => encArg 0 9 1 k
  | .sar k => encArg 0 9 2 k
  | .rol k => encArg 0 9 3 k
  | .pset p v => encP p 0 v
  | .pstep p v => encP p 1 v
  | .paddi p v => encP p 2 v
  | .padda p k => chainOf 0 [] none [] (fmtP p 3 k)
  | .movap p => chainOf 0 [] none [] (fmtP p 4 0)
  | .movpa p => chainOf 0 [] none [] (fmtP p 5 0)
  | .pcmp p q => chainOf 0 [] none [] (fmtP p 6 (0#2 ++ q))
  | .clz w => encArg 0 11 0 (0#4 ++ w.code)
  | .ctz w => encArg 0 11 1 (0#4 ++ w.code)
  | .popc w => encArg 0 11 2 (0#4 ++ w.code)
  | .bswap w => encArg 0 11 3 (0#4 ++ w.code)
  | .cvt mode su du src dst => chainOf 0 [] none [] (12#5 ++ mode ++ flagBit su ++ flagBit du ++ src.bits ++ dst.bits)
  | .b v => encB 0 v
  | .bz v => encB 1 v
  | .bnz v => encB 2 v
  | .blt v => encB 3 v
  | .bge v => encB 4 v
  | .bltu v => encB 5 v
  | .bgeu v => encB 6 v
  | .loop v => encB 7 v
  | .call v => encI 14 v
  | .ret => encArg 0 15 0 0
  | .jmpa => encArg 0 15 1 0
  | .nop => encArg 0 15 2 0
  | .yield => encArg 0 15 3 0
  | .halt => encArg 0 15 4 0
  | .wait l s c t => chainOf 0 [] none [] (fmtI 16 (l ++ s ++ c ++ t))
  | .rep n g l => chainOf 0 [] none [] (fmtI 17 (n ++ g ++ l))
  | .sfuExp2 r => encV 0 18 r 0 [] MD.zero
  | .sfuLog2 r => encV 0 18 r 1 [] MD.zero
  | .sfuRcp r => encV 0 18 r 2 [] MD.zero
  | .sfuRsqrt r => encV 0 18 r 3 [] MD.zero
  | .sfuSin r => encV 0 18 r 4 [] MD.zero
  | .sfuCos r => encV 0 18 r 5 [] MD.zero
  | .sfuTanh r => encV 0 18 r 6 [] MD.zero
  | .sfuErf r => encV 0 18 r 7 [] MD.zero
  | .tage p => encX 0 19 p 0 []
  | .tagf p => encX 0 19 p 1 []
  | .tcfg t e mask own => chainOf 1 (own.toList.map TileOwner.bits) none [] (0#5 ++ t ++ e.bits ++ 0#3 ++ mask)
  | .trel t => chainOf 1 [] none [] (1#5 ++ t ++ 0#9)
  | .vld p r md => chainOf 1 [] md.enc [] (fmtX 2 p r)
  | .vst p r md => chainOf 1 [] md.enc [] (fmtX 3 p r)
  | .vadd t d a c md => encV 1 4 d t.bits (rowOpx a c) md
  | .vsub t d a c md => encV 1 5 d t.bits (rowOpx a c) md
  | .vmul t d a c md => encV 1 6 d t.bits (rowOpx a c) md
  | .vfma t d a c md => encV 1 7 d t.bits (rowOpx a c) md
  | .vfms t d a c md => encV 1 8 d t.bits (rowOpx a c) md
  | .vmin t d a c => encV 1 9 d t.bits (rowOpx a c) MD.zero
  | .vmax t d a c => encV 1 10 d t.bits (rowOpx a c) MD.zero
  | .vabs t d md => encV 1 11 d t.bits [] md
  | .vneg t d md => encV 1 12 d t.bits [] md
  | .vand t d a => encV 1 13 d t.bits (rowOpx a none) MD.zero
  | .vor t d a => encV 1 14 d t.bits (rowOpx a none) MD.zero
  | .vxor t d a => encV 1 15 d t.bits (rowOpx a none) MD.zero
  | .vshl t d k => encV 1 16 d t.bits (fieldOpx k) MD.zero
  | .vshr t d k => encV 1 17 d t.bits (fieldOpx k) MD.zero
  | .vsar t d k => encV 1 18 d t.bits (fieldOpx k) MD.zero
  | .vcmp t d a c => encV 1 19 d t.bits (rowOpx a none ++ fieldOpx (c.map VCond.bits)) MD.zero
  | .vsel t d a m => encV 1 20 d t.bits (rowOpx a m) MD.zero
  | .vcvt t d a md => encV 1 21 d t.bits (rowOpx a none) md
  | .vred t d md => encV 1 22 d t.bits [] md
  | .vbca t d => encV 1 23 d t.bits [] MD.zero
  | .vgeta t d k => encV 1 24 d t.bits (fieldOpx k) MD.zero
  | .vperm w d a x => encV 1 25 d w.bits (rowOpx a x) MD.zero
  | .vqmx f d => encV 1 26 d f.bits [] MD.zero
  | .vqnt f d x md => encV 1 27 d f.bits (rowOpx x none) md
  | .vdq t d a => encV 1 28 d t.bits (rowOpx a none) MD.zero
  | .mldb p => encX 2 0 p 0 []
  | .mma p => encX 2 0 p 1 []
  | .mmrot p => encX 2 0 p 2 []
  | .mzero d n => encV 2 1 d 0 (fieldOpx n) MD.zero
  | .mdrain d p => encV 2 1 d 1 (p.toList.map fun q => (MemOp.mk q .post).bits) MD.zero
  | .mstat t c => encV 2 1 (t ++ 0#6) 2 (bitOpx c) MD.zero
  | .mrot k r p => encV 2 1 ((if k then 1#2 else 0#2) ++ r) 3 (p.toList.map fun q => (MemOp.mk q .plain).bits) MD.zero
  | .fnew p x => encX 2 2 p 0 x.toList
  | .fprf p q => encX 2 2 p 1 (fieldOpx q)
  | .cst p x => encX 2 2 p 2 (if x = .scalar .w64 then [] else [x.bits])
  | .pld p x => encX 2 2 p 3 (if x = .scalar .w64 then [] else [x.bits])
  | .flock p => encX 2 2 p 4 []
  | .fdrop p => encX 2 2 p 5 []
  | .fdropRetire p => encX 2 2 p 5 [1#10]
  | .fsend p o => encX 2 2 p 6 (o.toList.map MemOp.bits)
  | .ftake p o => encX 2 2 p 7 (o.toList.map MemOp.bits)
  | .candle x y v => encS false 0 0 (x.toList ++ y.toList) v
  | .snuff => encArg 3 0 1 0
  | .douse => encArg 3 0 2 0
  | .gutret v => encS false 0 3 [] v
  | .time x => encArg 3 0 4 x.bits
  | .pace v => encS false 0 5 [] v
  | .trap v => encS true 1 0 [] v
  | .rtt => encArg 3 1 1 0
  | .mfs r => encArg 3 1 2 r
  | .mts r => encArg 3 1 3 r
  | .tlbiPage => encArg 3 1 4 0
  | .tlbiSpace => encArg 3 1 4 1
  | .gohome => encArg 3 1 5 0
  | .barm => encArg 3 2 0 0
  | .arrive t => encArg 3 2 1 (0#2 ++ t)
  | .bwait t => encArg 3 2 2 (0#2 ++ t)
  | .wptr c => encArg 3 2 3 (0#4 ++ c)
  | .cwait c => encArg 3 2 4 (0#4 ++ c)
  | .copy p c => encX 3 3 p 0 (if c = 0 then [] else [c.zeroExtend 10])
  | .wback p x => chainOf 3 [] (x.map fun k => ({ scope := k } : MD).bits) [] (fmtX 4 p 0)
  | .discard p => encX 3 4 p 1 []
  | .fence x => encArg 3 5 0 (0#3 ++ x.bits)
  | .amoadd w o md => encM 3 6 o w.code 0 md
  | .amoand w o md => encM 3 6 o w.code 1 md
  | .amoor w o md => encM 3 6 o w.code 2 md
  | .amoxor w o md => encM 3 6 o w.code 3 md
  | .amomin w o md => encM 3 6 o w.code 4 md
  | .amomax w o md => encM 3 6 o w.code 5 md
  | .amominu w o md => encM 3 6 o w.code 6 md
  | .amomaxu w o md => encM 3 6 o w.code 7 md
  | .amoswap w o md => encM 3 6 o w.code 8 md
  | .amocas w o q md => chainOf 3 (q.toList.map MemOp.bits) md.enc [] (fmtM 6 o w.code 9)
  | .afadd w o md => encM 3 6 o w.code 10 md
  | .afmin w o md => encM 3 6 o w.code 11 md
  | .afmax w o md => encM 3 6 o w.code 12 md
  | .ldfut w o md => encM 3 7 o w.code 0 md
  | .stfut w o md => encM 3 7 o w.code 1 md
  | .lpost p => encX 3 8 p 0 []
  | .lwait => encX 3 8 0 1 []
  | .lseq => encX 3 8 0 2 []
  | .lcast p n => encX 3 8 p 3 (fieldOpx n)
  | .lbred p => encX 3 8 p 4 []
  | .gbind p => encX 4 0 p 0 []
  | .gemit p => encX 4 0 p 1 []
  | .gdone => encX 4 0 0 2 []
  | .caseadd p => encX 4 0 p 3 []
  | .caseget p x => encX 4 0 p 4 (bitOpx x)
  | .casenxt p x => encX 4 0 p 5 (bitOpx x)
  | .gclose => encX 4 0 0 6 []
  | .gfront => encX 4 0 0 7 []
  | .parkResume .. | .gutterTrap .. | .publishEntry .. | .sequenceStep .. | .sequenceRetire ..
  | .vldComplete .. | .storePerformed .. | .mldbComplete .. | .matrixOpComplete ..
  | .operandRoundTransfer .. | .sfuResult .. | .vqmxAgreement .. | .barrierRelease .. | .copyBeat ..
  | .copyDiscard .. | .migrationArrival .. | .rcbSnoopWalk .. | .lamplighterDecide .. | .budgetExpiry ..
  | .oilExhausted .. | .preemptionTrap .. | .watchdogExpiry .. | .sliceSave .. | .sliceRestore ..
  | .deadlinePassed .. | .lightsOutSweep .. | .slugArrival .. | .stageDispatch .. | .replayRetry ..
  | .replayTimeout .. | .ldfutRetry .. | .invalidationComplete .. | .energyCharge .. | .eventRecord ..
  | .machineCheck .. | .thermalThrottle .. | .thermalTrip .. | .reset | .bringupComplete .. | .rootWrite ..
  | .llrootWrite .. | .s2reqPage .. | .s2reqAll .. | .omapWrite .. | .kctlWrite .. | .lgrpWrite ..
  | .hostRegisterWrite .. | .hostMemRead .. | .hostMemWrite .. | .hostAtomic .. | .hostSnoop ..
  | .fabricRequest .. | .fabricResend .. | .stompedPacket .. | .fabricAuthFail .. | .rateDecrease ..
  | .rateIncrease .. | .portStateChange .. | .flameHold .. | .orderEventApply | .bulkHoldApply ..
  | .flameTimeout .. | .lanthornLeave | .timebaseAlign .. | .memoryAccessComplete ..
  | .weakWritePropagation .. | .thermalRecovery .. | .correctableError | .managementRequest .. => []

/-- Whether a row is an event of another agent, and not an instruction a thread issues. -/
def isEvent : Instr → Bool
  | .ld .. | .st .. | .add .. | .sub .. | .rsub .. | .and .. | .or .. | .xor .. | .min .. | .max ..
  | .minu .. | .maxu .. | .cmp .. | .mul .. | .mulh .. | .mulhu .. | .div .. | .divu .. | .rem ..
  | .fadd .. | .fsub .. | .fmul .. | .fma .. | .fdiv .. | .fsqrt .. | .fmin .. | .fmax .. | .fcmp ..
  | .ldi .. | .ldih .. | .addi .. | .andi .. | .ori .. | .xori .. | .shl .. | .shr .. | .sar .. | .rol ..
  | .pset .. | .pstep .. | .paddi .. | .padda .. | .movap .. | .movpa .. | .pcmp .. | .clz .. | .ctz ..
  | .popc .. | .bswap .. | .cvt .. | .b .. | .bz .. | .bnz .. | .blt .. | .bge .. | .bltu .. | .bgeu ..
  | .loop .. | .call .. | .ret | .jmpa | .nop | .yield | .halt | .wait .. | .rep .. | .sfuExp2 ..
  | .sfuLog2 .. | .sfuRcp .. | .sfuRsqrt .. | .sfuSin .. | .sfuCos .. | .sfuTanh .. | .sfuErf .. | .tage ..
  | .tagf .. | .tcfg .. | .trel .. | .vld .. | .vst .. | .vadd .. | .vsub .. | .vmul .. | .vfma ..
  | .vfms .. | .vmin .. | .vmax .. | .vabs .. | .vneg .. | .vand .. | .vor .. | .vxor .. | .vshl ..
  | .vshr .. | .vsar .. | .vcmp .. | .vsel .. | .vcvt .. | .vred .. | .vbca .. | .vgeta .. | .vperm ..
  | .vqmx .. | .vqnt .. | .vdq .. | .mldb .. | .mma .. | .mmrot .. | .mzero .. | .mdrain .. | .mstat ..
  | .mrot .. | .fnew .. | .fprf .. | .cst .. | .pld .. | .flock .. | .fdrop .. | .fdropRetire ..
  | .fsend .. | .ftake .. | .candle .. | .snuff | .douse | .gutret .. | .time .. | .pace .. | .trap ..
  | .rtt | .mfs .. | .mts .. | .tlbiPage | .tlbiSpace | .gohome | .barm | .arrive .. | .bwait .. | .wptr ..
  | .cwait .. | .copy .. | .wback .. | .discard .. | .fence .. | .amoadd .. | .amoand .. | .amoor ..
  | .amoxor .. | .amomin .. | .amomax .. | .amominu .. | .amomaxu .. | .amoswap .. | .amocas .. | .afadd ..
  | .afmin .. | .afmax .. | .ldfut .. | .stfut .. | .lpost .. | .lwait | .lseq | .lcast .. | .lbred ..
  | .gbind .. | .gemit .. | .gdone | .caseadd .. | .caseget .. | .casenxt .. | .gclose | .gfront => false
  | .parkResume .. | .gutterTrap .. | .publishEntry .. | .sequenceStep .. | .sequenceRetire ..
  | .vldComplete .. | .storePerformed .. | .mldbComplete .. | .matrixOpComplete ..
  | .operandRoundTransfer .. | .sfuResult .. | .vqmxAgreement .. | .barrierRelease .. | .copyBeat ..
  | .copyDiscard .. | .migrationArrival .. | .rcbSnoopWalk .. | .lamplighterDecide .. | .budgetExpiry ..
  | .oilExhausted .. | .preemptionTrap .. | .watchdogExpiry .. | .sliceSave .. | .sliceRestore ..
  | .deadlinePassed .. | .lightsOutSweep .. | .slugArrival .. | .stageDispatch .. | .replayRetry ..
  | .replayTimeout .. | .ldfutRetry .. | .invalidationComplete .. | .energyCharge .. | .eventRecord ..
  | .machineCheck .. | .thermalThrottle .. | .thermalTrip .. | .reset | .bringupComplete .. | .rootWrite ..
  | .llrootWrite .. | .s2reqPage .. | .s2reqAll .. | .omapWrite .. | .kctlWrite .. | .lgrpWrite ..
  | .hostRegisterWrite .. | .hostMemRead .. | .hostMemWrite .. | .hostAtomic .. | .hostSnoop ..
  | .fabricRequest .. | .fabricResend .. | .stompedPacket .. | .fabricAuthFail .. | .rateDecrease ..
  | .rateIncrease .. | .portStateChange .. | .flameHold .. | .orderEventApply | .bulkHoldApply ..
  | .flameTimeout .. | .lanthornLeave | .timebaseAlign .. | .memoryAccessComplete ..
  | .weakWritePropagation .. | .thermalRecovery .. | .correctableError | .managementRequest .. => true

/-! ### The opcode table's numbering -/

/-- The `k` halfwords of a number, the least significant first. -/
def halvesOf : Nat → Nat → List Half
  | 0, _ => []
  | k + 1, w => BitVec.ofNat 16 w :: halvesOf k (w / 65536)

/-- The instruction that the decoder reads from the bits `w` of an opcode-table row, followed by zeros up to the
longest instruction of five halfwords. -/
def decodeTableWord (nbits w : Nat) : Option Instr :=
  match decode (halvesOf 5 (w % 2 ^ nbits)) with
  | .ok (i, _) => some i
  | .error _ => none

end Sys2Proof
end

