-- ==== Sys2Proof/Machine/State.lean ====
section
/-! DEFINITION. The state of one KV-3104 package: every piece of state the spec names, as plain data, and State.reset.
INVENTORY.md lists each field with its rule. Counters and indexes are Nat; register contents are bit vectors. -/

namespace Sys2Proof.Machine

/-! ### Thread context (R19 to R31) -/

/-- ST by fields (R22). -/
structure Status where
  cd : BitVec 3 := 0
  lh : BitVec 8 := 0
  pl : BitVec 2 := 0
  tl : BitVec 2 := 0
  te : BitVec 5 := 0
  rm : BitVec 3 := 0
  fl : BitVec 5 := 0
  n  : Bool := false
  z  : Bool := false
  c  : Bool := false
  v  : Bool := false
  deriving DecidableEq, Repr

/-- XI by fields: wrap mask and loop count (R19). -/
structure Index where
  mask  : BitVec 16 := 0
  count : BitVec 32 := 0
  deriving DecidableEq, Repr

/-- P0 to P7 (R19): [63:48] step, [47:0] address. -/
structure Pointers where
  p0 : W64 := 0
  p1 : W64 := 0
  p2 : W64 := 0
  p3 : W64 := 0
  p4 : W64 := 0
  p5 : W64 := 0
  p6 : W64 := 0
  p7 : W64 := 0
  deriving DecidableEq, Repr

/-- CAUSE1 and CAUSE2 by fields (R227). -/
structure Cause where
  seq  : Bool := false
  j    : BitVec 5 := 0
  i    : BitVec 4 := 0
  ppl  : BitVec 2 := 0
  len  : BitVec 4 := 0
  s2   : Bool := false
  acc  : BitVec 2 := 0
  code : BitVec 8 := 0
  deriving DecidableEq, Repr

/-- A bank of trap registers (R223). -/
structure Bank where
  epc   : VA := 0
  cause : Cause := {}
  badv  : W64 := 0
  deriving DecidableEq, Repr

/-- A candle frame by fields (R128). -/
structure Frame where
  t0   : W64
  g    : Bool := false
  tlf  : BitVec 2
  hhi  : BitVec 20
  hi   : BitVec 20
  lo   : BitVec 20
  hlo  : BitVec 16
  hrec : VA
  deriving DecidableEq, Repr

/-- The ordering classes of R315. -/
inductive PageClass where
  | strong | releaseConsistent | unordered
  deriving DecidableEq, Repr

/-- A translated address: location number, attributes, and the page of the intermediate address where stage 2 took part. -/
structure Place where
  key : Nat
  fmt : BitVec 4
  geo : BitVec 2
  cls : PageClass
  mh  : Bool
  ipage : Option Nat
  deriving DecidableEq, Repr

/-- A stretch of an access on one page: address, bytes, place. -/
structure Part where
  va : VA
  n  : Nat
  at_ : Place
  deriving DecidableEq, Repr

/-- Bytes to write, each with the number of its memory location. -/
abbrev Bytes := List (Nat × BitVec 8)

/-- A translation that a request or an operation was made with (R354): die, tenant, stage-1 root, page and, where
stage 2 took part, the page of the intermediate address. -/
structure Via where
  die    : Nat
  tenant : BitVec 4
  root   : BitVec 52
  page   : Nat
  ipage  : Option Nat
  deriving DecidableEq, Repr

/-- A held store in the publish queue (R129), and a store being drained (R135): the level that was innermost, the
bytes, whether the write is strong and at which scope, the number of the step that queued or published it, the number of
the step of the store itself, its stretches of addresses, and its translations. -/
structure Held where
  level  : Nat
  bytes  : Bytes
  strong : Bool
  scope  : Scope
  born   : Nat := 0
  made   : Nat := 0
  vas    : List (Nat × Nat) := []
  via    : List Via := []
  unord  : Bool := false
  deriving DecidableEq, Repr

/-- A store in the replay queue (R326): address, bytes, the page's class, the instant of entry in cycles, the number of
the step of the store, and whether a retry has performed it with respect to its own core and not yet everywhere (R327). -/
structure Replay where
  va    : VA
  bytes : List (BitVec 8)
  cls   : PageClass
  since : Nat
  made  : Nat := 0
  written : Bool := false
  deriving DecidableEq, Repr

/-- A trap on its way: cause code, BADV, second-stage mark, access kind (R226, R227), and the intermediate address of a
second-stage fault, which the host is told (R351). -/
structure TrapInfo where
  code : BitVec 8
  badv : W64
  s2   : Bool := false
  acc  : BitVec 2 := 0
  ipa  : Option (BitVec 52) := none
  deriving DecidableEq, Repr

/-- A fault of a repeat sequence that the thread has not yet taken (R167). -/
structure SeqFault where
  info : TrapInfo
  j    : BitVec 5
  i    : BitVec 4
  deriving DecidableEq, Repr

/-- How the order plane or a bulk plane stands to a parked thread's request (R437, R440, R441). -/
inductive LanWait where
  | idle
  | queued
  | held
  | done (v : W64)
  | refused
  deriving DecidableEq, Repr

/-- A thread's contribution to a reduction (R441): its id, the address of the result and, once its hold has begun, its
round; and, by which the instruction that restarts is known, the address of its first halfword and its block. -/
structure Reduction where
  id    : BitVec 16
  dst   : VA
  round : Option Nat := none
  pc    : VA := 0
  block : VA := 0
  deriving DecidableEq, Repr

/-- How a slot stands: gated (R32), running, yielded in its slice (R172), out of its slice with its context retained
(R305), and placed again with its restore still to come (R299). -/
inductive SlotMode where
  | gated | running | yielded | suspended | restoring
  deriving DecidableEq, Repr

/-- A slug or a case record (R362, R372). -/
structure Slug where
  key  : W64 := 0
  val  : W64 := 0
  time : BitVec 32 := 0
  wt   : BitVec 32 := 0
  tag  : BitVec 16 := 0
  merged : Bool := false
  deriving DecidableEq, Repr

/-- One row: 256 element bytes, 8 scale bytes and its tag (R85, R86). -/
structure Row where
  tag    : BitVec 4 := 0
  elems  : BitVec 2048 := 0
  scales : BitVec 64 := 0
  deriving DecidableEq, Repr

/-- The result of a special function waiting for its thread (R169). -/
structure SfuResult where
  elems : BitVec 2048
  flags : BitVec 5
  deriving DecidableEq, Repr

/-- The fields of a command block that an accepted matrix operation copies (R203, R205). Addresses are offsets in the
own scratchpad. -/
structure MatBlock where
  aoff  : Nat := 0
  astr  : Nat := 0
  k     : Nat := 0
  tri   : Bool := false
  zero  : Bool := false
  tile  : BitVec 2 := 0
  diag  : Int := 0
  mask  : W64 := 0
  boff  : Nat := 0
  bstr  : Nat := 0
  n     : Nat := 0
  afwd  : Nat := 0
  fmt   : BitVec 4 := 0
  geo   : BitVec 2 := 0
  deriving DecidableEq, Repr

/-- The kinds of accepted engine operation (R153). -/
inductive EngKind where
  | vld | vst | mldb | mma | mmrot | mrotStep | mrotSkew | mzero | mdrain | wback
  deriving DecidableEq, Repr

/-- An accepted engine operation: issuing slot, pending rows and latch (R154), the source locations of a row load, the bytes
of a row store, the block of a matrix operation, its K-steps done and whether its multiply is done (R211, R221), whether it
acts on a U page (R315) and whether its weak store has been written but not yet performed everywhere (R320), the sequence it
belongs to, when it is not counted on its own (R164), the round of the sub-torus (R211), whether its thread is held until it
has been performed, the number of the step that accepted it, the address and row step of an MDRAIN, which may be redone
(R221), with the number of bytes and the class of the pages of each of its rows (R217), and the translations that it holds
(R354). Of an MDRAIN `kdone` counts the rows stored, and of a matrix operation `pages` are the pages of its operand, by
location number / 4096, with their classes (R315). `since` is the length that
the history of writes had at acceptance. -/
structure EngOp where
  kind    : EngKind
  slot    : Nat
  rows    : List RowRef := []
  latch   : Bool := false
  fmt     : BitVec 4 := 0
  geo     : BitVec 2 := 0
  src     : List Nat := []
  bytes   : Bytes := []
  strong  : Bool := false
  scope   : Scope := .thread
  blk     : MatBlock := {}
  kdone   : Nat := 0
  mulDone : Bool := false
  unord   : Bool := false
  written : Bool := false
  seq     : Option Nat := none
  round   : Nat := 0
  holds   : Bool := false
  acq     : Bool := false
  born    : Nat := 0
  va      : VA := 0
  step    : Int := 0
  lens    : List Nat := []
  rowCls  : List PageClass := []
  pages   : List (Nat × PageClass) := []
  since   : Nat := 0
  via     : List Via := []
  deriving DecidableEq, Repr

/-- A repeat sequence (R163, R164, R306); `id` is the number of the step that took it, `pl` the privilege of the thread at the
REP. -/
structure Seq where
  slot   : Nat
  id     : Nat
  addr   : VA
  start  : VA
  n      : Nat
  code   : BitVec 2
  instrs : List (Instr × Chain)
  j      : Nat := 0
  i      : Nat := 0
  ptrs   : Pointers
  xi     : Index
  rm     : BitVec 3
  pl     : BitVec 2 := 0
  flags  : BitVec 5 := 0
  rows   : List RowRef
  latch  : Bool
  tiles  : List (BitVec 2)
  deriving DecidableEq, Repr

/-- The B latch (R199): N columns of K elements, element k of column n at element index n * K + k; scale byte b of
column n at index n * (blocks of K) + b. -/
structure Latch where
  tag    : BitVec 4 := 0
  k      : Nat := 0
  n      : Nat := 0
  serial : BitVec 32 := 0
  elems  : BitVec 65536 := 0
  scales : BitVec 2048 := 0
  deriving DecidableEq, Repr

/-- An access on its way (R143, R151): its instruction, whose effect comes when the access is performed, and the stretches of
addresses that it accesses with the translations that they had when it issued, which it holds (R354). -/
structure Flying where
  instr : Instr
  chain : Chain
  reads : List (VA × Nat × List Part)
  via   : List Via
  deriving DecidableEq, Repr

/-- A thread slot and everything it holds; `latch` is the B latch that a pre-emption kept (R222), and `copyBase` the step
from which on the thread's copies are counted by `copies` and not in its record (R303); `left` is the slot that a thread
whose restore is still to come was saved in; `uid` is a number that no other thread has; `record` is the address of the
thread's record (R306, R363); `brought` are the peer lines that its next fetch has brought over the fabric (R413); `flight`
is the access that holds the thread and has not been performed yet (R151). -/
structure Slot where
  mode   : SlotMode := .gated
  a      : W64 := 0
  ptrs   : Pointers := {}
  pc     : VA := 0
  st     : Status := {}
  lk     : VA := 0
  xi     : Index := {}
  savp   : VA := 0
  group  : BitVec 32 := 0
  thread : BitVec 7 := 0
  stage  : Bool := false
  serial : BitVec 32 := 0
  stag   : BitVec 16 := 0
  bank1  : Bank := {}
  bank2  : Bank := {}
  tvb    : VA := 0
  tbase  : BitVec 52 := 0
  rcbp   : VA := 0
  tenant : BitVec 4 := 0
  key    : BitVec 8 := 0
  launch : Nat := 0
  gidx   : Nat := 0
  uid    : Nat := 0
  record : VA := 0
  frames : List Frame := []
  pubq   : List Held := []
  drain  : List Held := []
  replay : List Replay := []
  loads  : Nat := 0
  stores : Nat := 0
  copies : Nat := 0
  copyBase : Nat := 0
  tiles  : Nat := 0
  park   : Option (Instr × Chain) := none
  busy   : Bool := false
  ready  : Nat := 0
  seqFault : Option SeqFault := none
  seqFlags : BitVec 5 := 0
  sealT  : Nat := 0
  sealWas : Option Nat := none
  vround : Nat := 0
  vsent  : Option (List W64) := none
  vmax   : Option (List W64) := none
  slug   : Option Slug := none
  sfuSent : Bool := false
  sfu    : Option SfuResult := none
  lan    : LanWait := .idle
  lred   : Option Reduction := none
  lkept  : List Reduction := []
  retry  : Option Nat := none
  wake   : Option Nat := none
  phase  : Option Nat := none
  replayDue : Bool := false
  preempted : Bool := false
  saved  : List Seq := []
  savedOps : List EngOp := []
  latch  : Option Latch := none
  left   : Option Nat := none
  brought : List Nat := []
  flight : Option Flying := none
  deriving DecidableEq, Repr

/-! ### Core, octet, cluster -/

/-- An accumulator tile (R174, R199). -/
structure Tile where
  alloc  : Bool := false
  size   : ElemSize := .e16
  banks  : BitVec 4 := 0
  owner  : TileOwner := .shared
  launch : Nat := 0
  flags  : BitVec 5 := 0
  ks     : BitVec 32 := 0
  deriving DecidableEq, Repr

/-- A core's clock (R126). -/
inductive Clock where
  | full | mid | low
  deriving DecidableEq, Repr

/-- One entry of the multi-context store (R363). -/
structure Stage where
  launch : Nat
  tag    : BitVec 16
  deriving DecidableEq, Repr

/-- One entry of the consolidation buffer (R365). -/
structure Consol where
  launch : Nat
  slug   : Slug
  deriving DecidableEq, Repr

/-- Message counts of one launch on one core (R308), 32 bits each. -/
structure Counts where
  sent : BitVec 32 := 0
  rcvd : BitVec 32 := 0
  deriving DecidableEq, Repr

/-- A slug that a home has taken in a cycle (R365): its launch, the slug and the slot that emitted it. -/
structure Taken where
  launch : Nat
  slug   : Slug
  slot   : Nat
  deriving DecidableEq, Repr

/-- A core; `last` is the slot that issued last (R152), `next` the first cycle in which the core may issue again, `seqNext`
the first in which its sequencer may start an instruction again (R165); `astage` is the A operand latch, which holds the A
panel that the matrix unit has read, and `atag` its tag (R10, R86, R199); `heldAt` says since which step launches of a tenant
and a root have been held (R241); `passed` are the slots that another slot's issue has passed over in the cycle in which they
were due (R150); `tagCounts` are the counts of messages of each launch and tag (R308, R367);
`took` are the slugs taken in the cycle `tookAt` (R365). -/
structure Core where
  units  : Nat := 0
  fused  : Bool := false
  held   : List Nat := []
  heldAt : List (BitVec 4 × BitVec 52 × Nat) := []
  full   : List Nat := []
  tiles  : Assoc Tile := []
  rows   : Assoc Row := []
  latch  : Latch := {}
  astage : Bytes := []
  atag   : BitVec 4 := 0
  ops    : List EngOp := []
  seqs   : List Seq := []
  rounds : Assoc Nat := []
  last   : Option Nat := none
  passed : List Nat := []
  next   : Nat := 0
  seqNext : Nat := 0
  clock  : Clock := .full
  stages : List Stage := []
  consol : List Consol := []
  counts : Assoc Counts := []
  tagCounts : Assoc Counts := []
  took   : List Taken := []
  tookAt : Nat := 0
  deriving DecidableEq, Repr

/-- The thread that a copy command acts for: its launch and its number. -/
structure CopyOwner where
  launch : Nat
  uid    : Nat
  deriving DecidableEq, Repr

/-- A command of a copy channel (R256, R257): its thread, the issuing core, source and destination locations byte by
byte, where its beats are split, bytes moved, end ticket, and whether its thread was killed (R261); the slot that issued
it, the number of that step and the sequence it belongs to (R164, R259); the classes of the pages of its source and its
destinations, byte by byte (R338); the number of the step that has written the current beat, whose performance is still to
come; what source bytes that its earlier beats have written held before (R258); and the translations that it holds (R354). -/
structure CopyCmd where
  owner : CopyOwner
  core  : Nat
  slot  : Nat
  born  : Nat
  seq   : Option Nat := none
  written : Option Nat := none
  src   : List Nat
  srcCls : List PageClass := []
  dst   : List (List Nat)
  dstCls : List (List PageClass) := []
  olds  : Bytes := []
  align : Nat
  moved : Nat := 0
  stop  : BitVec 48
  killed : Bool := false
  via   : List Via := []
  deriving DecidableEq, Repr

/-- A copy channel (R254, R255). -/
structure Channel where
  wp    : BitVec 48 := 0
  d     : Bool := false
  done  : BitVec 48 := 0
  dt    : BitVec 48 := 0
  dp    : BitVec 48 := 0
  last  : BitVec 48 := 0
  queue : List CopyCmd := []
  deriving DecidableEq, Repr

/-- A request to the special-function unit (R169), with the cycle in which it reaches the unit (R171). -/
structure SfuReq where
  slot : Nat
  row  : RowRef
  fn   : SfuFn
  live : Bool
  arrives : Nat := 0
  deriving DecidableEq, Repr

/-- An octet; `turn` is the copy channel that its hart serves next if it can (R258). -/
structure Octet where
  perm : BitVec 384 := 0
  ch   : Assoc Channel := []
  turn : Nat := 0
  sfu  : List SfuReq := []
  deriving DecidableEq, Repr

/-- An arrival that its tree has not yet taken as signalled (R250): slot, thread, the number of its step, its bit. -/
structure Arrival where
  slot : Nat
  uid  : Nat
  born : Nat
  bit  : Bool
  deriving DecidableEq, Repr

/-- A barrier tree (R246). Members and arrivals are slot numbers within the cluster, 16 * c + slot; `awaits` lists the
arrivals that are not signalled yet (R250), `orBit` is the OR of those that are. -/
structure Tree where
  owner   : Option Nat := none
  members : List Nat := []
  arrived : List Nat := []
  awaits  : List Arrival := []
  orBit   : Bool := false
  v       : Bool := false
  phase   : Nat := 0
  deriving DecidableEq, Repr

/-- The states of a forme-table entry (R266). -/
inductive FormeState where
  | free | composing | locked | pied
  deriving DecidableEq, Repr

/-- The identity of a thread: package, die, launch serial, group index, thread index (R266). -/
structure ThreadId where
  pkg    : Nat
  die    : Nat
  serial : BitVec 32
  group  : BitVec 32
  thread : BitVec 7
  deriving DecidableEq, Repr

/-- A forme-table entry (R266); `told` says of an entry of another package's table that this package holds it, as an order event
has told it (R277): the fields of one that it does not hold are open. -/
structure Forme where
  state  : FormeState := .free
  gen    : BitVec 8 := 0
  base   : VA := 0
  size   : Nat := 0
  tenant : BitVec 4 := 0
  ownerDie : Nat := 0
  ownerSerial : BitVec 32 := 0
  octet  : Nat := 0
  root   : BitVec 52 := 0
  holder : Option ThreadId := none
  ina    : Bool := false
  xfr    : Bool := false
  target : Nat := 0
  g      : Bool := false
  told   : Bool := false
  deriving DecidableEq, Repr

/-- A cluster: barrier trees and forme table. -/
structure Cluster where
  trees  : Assoc Tree := []
  formes : Assoc Forme := []
  deriving DecidableEq, Repr

/-! ### Regions, launches, galleys -/

/-- The states of a launch node (R291, R311). -/
inductive LaunchState where
  | unwalked | waiting | running | dry | closing | ended | killed | withdrawn | rejected
  deriving DecidableEq, Repr

/-- The resolved fields of an RCB (R291, R292). -/
structure Fields where
  ntf    : Bool := false
  cdl    : Bool := false
  prio   : Nat := 0
  fdp    : Nat := 0
  ten    : BitVec 4 := 0
  key    : BitVec 8 := 0
  dln    : Nat := 0
  slice  : Nat := 0
  oil    : Nat := 0
  units  : Nat := 0
  fused  : Bool := false
  subW   : Nat := 1
  subH   : Nat := 1
  tplan  : BitVec 16 := 0
  btree  : BitVec 16 := 0
  entry  : VA := 0
  threads : Nat := 1
  maxg   : Nat := 0
  gcnt   : VA := 0
  save   : VA := 0
  arg    : VA := 0
  tvb    : VA := 0
  srtn   : VA := 0
  root   : BitVec 52 := 0
  mgrp   : BitVec 16 := 0
  deriving DecidableEq, Repr

/-- The states of a group (R312). -/
inductive GroupState where
  | placed | saving | suspended | ended
  deriving DecidableEq, Repr

/-- A group that has been placed (R299 to R303): its octet, slice start and budget in ns, debt, the pre-emption that has
fallen due (instant and reason), the energy of this and of its last slice in µJ and the length of the last, and whether its
state stands in the save area, with the tiles that do (core of the octet and tile), the rounds of the sub-torus that each
core has reached (R222) and the cores of the octet whose latch does. -/
structure Group where
  index  : Nat
  state  : GroupState := .placed
  octet  : Nat
  start  : Nat := 0
  budget : Nat := 0
  debt   : Nat := 0
  due    : Option (Nat × Nat) := none
  restoring : Bool := false
  energy : Nat := 0
  lastUj : Nat := 0
  lastNs : Nat := 0
  saved  : Bool := false
  tiles  : List (Nat × Nat) := []
  rounds : List (Nat × Nat) := []
  latches : List Nat := []
  deriving DecidableEq, Repr

/-- A launch node that a lamplighter has walked (R291 to R312); `oilc` counts the energy charged in µJ (R404), `dlnDone` is the
deadline that has been acted on (R302). -/
structure Launch where
  die    : Nat
  serial : BitVec 32
  rcb    : VA
  parent : VA := 0
  state  : LaunchState := .waiting
  miss   : Bool := false
  dlnDone : Option Nat := none
  kd     : Bool := false
  reject : Nat := 0
  f      : Fields := {}
  linked : Bool := true
  next   : Nat := 0
  discarded : Nat := 0
  ended  : Nat := 0
  groups : List Group := []
  oilc   : Nat := 0
  sums   : Option (BitVec 32 × BitVec 32) := none
  emitted : Bool := false
  domainKilled : Bool := false
  deriving DecidableEq, Repr

/-- A node that a lamplighter has walked (R294): die, RCB address, location of its first byte, whether it belongs to a tree whose
root has been replaced (R393), whether it is no longer watched, and its bytes as the lamplighter found them at its first walk,
which fixes its fields (R292). -/
structure Node where
  die : Nat
  rcb : VA
  loc : Nat
  old : Bool := false
  gone : Bool := false
  image : List (BitVec 8) := []
  deriving DecidableEq, Repr

/-- A change that a CASEADD has made to a record of a time not closed yet: home, record with the weight added, slot
(R377, R381). -/
structure CaseChange where
  home : Nat
  rec_ : Slug
  slot : Nat
  deriving DecidableEq, Repr

/-- A bound stage (R363, R367) with its case (R372): the records by home, the changes at times not closed, newest first,
the locations of the partitions page by page, and the homes of those that another agent has written. -/
structure Binding where
  launch  : Nat
  tag     : BitVec 16
  entry   : VA
  d0      : Nat
  homes   : Nat
  caseVa  : VA
  csz     : Nat
  arg     : W64
  slugb   : VA
  ssav    : VA
  front   : Nat := 0
  broken  : Bool := false
  cases   : List (Nat × Slug) := []
  changes : List CaseChange := []
  extents : List (Nat × Nat) := []
  spoilt  : List Nat := []
  deriving DecidableEq, Repr

/-- A slug travelling to its home (R375). -/
structure Flight where
  launch : Nat
  slug   : Slug
  slot   : Nat
  home   : Nat
  deriving DecidableEq, Repr

/-- A migrating context on its way to a core (R307, R35); `id` stands for its slot number meanwhile. -/
structure Migrant where
  ctx  : Slot
  core : Nat
  id   : Nat
  deriving DecidableEq, Repr

/-- A thread whose context stands in its save area (R305): its slot as it was, with the parts of it that the record of
R306 does not hold; the slot that it left; and the number that stands for it meanwhile. -/
structure Stored where
  ctx  : Slot
  slot : Nat
  id   : Nat
  deriving DecidableEq, Repr

/-- An entry of a park table (R333). -/
structure Waiter where
  die  : Nat
  word : Nat
  slot : Nat
  deriving DecidableEq, Repr

/-! ### Memory -/

/-- Memory: one canonical list of cells. -/
abbrev Memory := List Host.Cell

/-- What an unlisted byte reads as. Scratchpad reads as zero at first dispatch (R243); for DRAM, host memory and peer
memory the spec gives no contents. DESIGN CHOICE: zero (log 4). -/
def unlistedByte : BitVec 8 := 0

/-- A cover of an invalidation that has completed (R354 to R356): stage 2 of a tenant, or stage 1 of a tenant and
root on one die; some pages, by the first and their number, or all. -/
structure Cover where
  stage2 : Bool
  die    : Nat
  tenant : BitVec 4
  root   : BitVec 52
  page   : Option (Nat × Nat)
  deriving DecidableEq, Repr

/-- A former second-stage root of a tenant, under which translations may still be cached, and the invalidations that have
completed since it was replaced (R352, R398). -/
structure OldRoot where
  tenant : BitVec 4
  root   : BitVec 52
  covers : List Cover := []
  deriving DecidableEq, Repr

/-- What made a write, and so what completes it: an access that holds its thread, an engine operation, a published
candle store (R135), a store retried from the replay queue (R327), a store of a sequence that has not retired (R165), a row
of an MDRAIN (R217), a panel that a round passes on (R211). -/
inductive WriteKind where
  | access | engine | published | retried | captured | drained | panel
  deriving DecidableEq, Repr

/-- A write that older values of its bytes may still be observed beside (R318 to R320): the bytes before it, the writing
thread or copy hart (none for another agent, or once the thread has ended), the number of the agent that made it, the agents
with respect to which it has been performed (every one when `done`; those of the agent's instance of `upto`; those of
`seenBy`), the threads of which an ordering point follows it (R319 clause 2), those whose fetch observes it (R49), the
locations that a strong load of a thread has read no older (R319), the invalidations that have covered it (R352), what made
it, whether it was made on a U page (R315), the launch that it was made for, the number of the step that issued it, whether
no stale copy serves a load any more (R361, R396), its address where it was retried (R327), its translations (R354), the
number of the step that made it (`made`), and the scope at which it is still to be performed in one instant (`reach`, R320).
-/
structure WriteRec where
  old    : Bytes
  new    : Bytes
  writer : Option Nat
  agent  : Nat
  upto   : Scope
  done   : Bool
  seenBy : List Nat
  seenAcquire : List Nat := []
  seenFence   : List Nat := []
  seenFetch   : List Nat := []
  seenAt      : List (Nat × Nat) := []
  covers : List Cover := []
  kind   : WriteKind := .access
  unord  : Bool := false
  launch : Option Nat := none
  born   : Nat := 0
  firm   : Bool := false
  va     : Option VA := none
  via    : List Via := []
  made   : Nat := 0
  reach  : Option Scope := none
  deriving DecidableEq, Repr

/-- The states of a line in an L1 (R357); a line in state I is not listed. -/
inductive LineState where
  | modified | owned | exclusive | shared
  deriving DecidableEq, Repr

/-- A copy of a line in an L1 (R357): the core, or the first core of a cluster whose L1 is fused (R244), and its state. -/
structure L1Copy where
  cache : Nat
  st    : LineState
  deriving DecidableEq, Repr

/-- A line that L1s hold, with its directory entry (R358): the copies; where one is dirty, the bytes at the next level; the
tenant that it was last filled for, and the key identifier that a write-back to a peer uses (R419). -/
structure L1Line where
  line   : Nat
  copies : List L1Copy
  below  : Bytes := []
  tenant : BitVec 4 := 0
  key    : BitVec 8 := 0
  deriving DecidableEq, Repr

/-- A line in a way of an L2 slice (R359): line number, whether it is newer than its backing memory, the tenant that it
was allocated for, and the key identifier of a peer line (R419). -/
structure L2Way where
  line   : Nat
  dirty  : Bool
  tenant : BitVec 4
  key    : BitVec 8 := 0
  deriving DecidableEq, Repr

/-- A published store of a thread that has ended, still to be performed (R135, R173): the slot that the thread had, its
launch, and the store. -/
structure Ghost where
  slot  : Nat
  launch : Nat
  store : Held
  deriving DecidableEq, Repr

/-- A synchronised access that waits at its word's home core (R160): the word's number, whether it waits for a full word,
and its slot; the list of them is in the order of arrival. -/
structure SyncWait where
  word : Nat
  full : Bool
  slot : Nat
  deriving DecidableEq, Repr

/-- An invalidation in progress (R354): what it covers, the slot that waits for it, and its number. -/
structure Inval where
  cover : Cover
  slot  : Option Nat
  id    : Nat
  deriving DecidableEq, Repr

/-! ### Package, fabric, Lanthorn -/

/-- DEVST's states (R391). -/
inductive DevState where
  | reset | firmware | ready | failed
  deriving DecidableEq, Repr

/-- An event waiting at its source (R400, R401). -/
structure Event where
  kind   : Nat
  pkg    : Bool
  tenant : BitVec 4 := 0
  a      : W64
  b      : W64
  c      : W64 := 0
  die    : Nat := 0
  cluster : Nat := 0
  core   : Nat := 0
  slot   : Nat := 0
  source : Nat := 0
  deriving DecidableEq, Repr

/-- The BAR0 registers but TIMEB (R391, R394); ELEFT and EUNATT count in µJ, and read in mJ (R404, R405). -/
structure HostRegs where
  devst  : DevState := .reset
  pkgid  : BitVec 10 := 0
  roots  : Assoc VA := []
  rooted : Bool := false
  llroot : BitVec 52 := 0
  cap    : BitVec 16 := 3200
  burst  : BitVec 32 := 32000
  eleft  : Int := 32000000
  eunatt : Nat := 0
  evb    : BitVec 52 := 0
  evctl  : BitVec 5 := 0
  evp    : BitVec 32 := 0
  evc    : BitVec 32 := 0
  s2root : Assoc (BitVec 52) := []
  waym   : Assoc (BitVec 16) := []
  capNow   : BitVec 16 := 3200
  burstNow : BitVec 32 := 32000
  beenReady : Bool := false
  s2req  : W64 := 0
  s2done : BitVec 32 := 0
  omap   : Assoc (BitVec 8) := []
  ctab   : Assoc (BitVec 32) := []
  deriving DecidableEq, Repr

/-- The state of a fabric key identifier (R417, R418). -/
structure FabricKey where
  staging : BitVec 256 := 0
  valid   : Bool := false
  tenant  : BitVec 4 := 0
  current : Option (BitVec 256) := none
  previous : Option (BitVec 256) := none
  nonce   : BitVec 64 := 0
  deriving DecidableEq, Repr

/-- The rate controller of a tenant (R423): rate, the instant of the last decrease and of the last mark, in ns. -/
structure Rate where
  rate : Nat := 10240
  red  : Bool := false
  floor : BitVec 16 := 0
  lastDown : Option Nat := none
  lastMark : Nat := 0
  deriving DecidableEq, Repr

/-- A fabric request without its response (R422): its tag, the system address of its line and that of the access (`at_`, R420),
its destination package; the slot, the thread of the copy command or the die whose lamplighter it is for, with the launch and
the group of a thread's; the port that it leaves by (R417), the count of the last nonce used for it (R418), whether switches may
combine it (R421), its sends and the cycle of the last. -/
structure Outstanding where
  tag   : BitVec 16
  addr  : Nat
  dest  : Nat
  slot  : Option Nat
  copy  : Option CopyOwner := none
  lamp  : Option Nat := none
  launch : Nat := 0
  group : Option Nat := none
  at_   : Nat := 0
  tenant : BitVec 4
  key   : BitVec 8
  port  : Nat := 0
  nonce : BitVec 64 := 0
  combine : Bool := false
  sends : Nat := 1
  sent  : Nat
  writeBack : Bool := false
  born  : Nat := 0
  deriving DecidableEq, Repr

/-- A request that the home has answered, and the cycle of its arrival (R422): a resent one is answered again and not
repeated. -/
structure Answered where
  src  : Nat
  tag  : Nat
  resp : List (BitVec 8)
  at_  : Nat
  deriving DecidableEq, Repr

/-- The BAR2 registers and the fabric's own state (R417 to R423); `holders` are the packages that hold lines of this one's
memory (R413). -/
structure Fabric where
  ports  : W64 := 0
  rates  : Assoc Rate := []
  stomp  : Assoc (BitVec 32) := []
  fretry : W64 := 0
  fauth  : W64 := 0
  routes : Assoc W64 := []
  keys   : Assoc FabricKey := []
  out    : List Outstanding := []
  nextTag : BitVec 16 := 0
  answered : List Answered := []
  holders : Assoc (List Nat) := []
  era     : Nat := 0
  wrote   : List Nat := []
  deriving DecidableEq, Repr

/-- LSTAT's states (R433). -/
inductive LanState where
  | off | aligning | member | left
  deriving DecidableEq, Repr

/-- A request in an order port or a bulk queue (R427). -/
structure OrderReq where
  slot : Option Nat
  body : OrderBody
  deriving DecidableEq, Repr

/-- A request in a bulk plane's queue (R427). -/
structure BulkReq where
  slot : Nat
  tenant : BitVec 4
  body : BulkBody
  deriving DecidableEq, Repr

/-- A hold of the order plane that this member has received and not yet applied (R428). -/
structure OrderHold where
  sender : Nat
  body   : OrderBody
  slot   : Option Nat
  deriving DecidableEq, Repr

/-- A hold of a bulk plane that this member has received and not yet applied (R440). -/
structure BulkHold where
  sender : Nat
  body   : BulkBody
  slot   : Option Nat
  deriving DecidableEq, Repr

/-- A contribution to a reduction round (R441). -/
structure Contribution where
  tenant : BitVec 4
  id     : BitVec 16
  round  : Nat
  member : Nat
  ty     : BitVec 4
  lanes  : BitVec 384
  deriving DecidableEq, Repr

/-- A count kept for a tenant and reduction id (R441). -/
structure RoundCount where
  tenant : BitVec 4
  id     : BitVec 16
  member : Nat
  count  : Nat
  deriving DecidableEq, Repr

/-- The BAR4 registers and the Lanthorn's own state (R426 to R441); `gone` are the members that have been removed (R430), `absent`
those that have not joined yet (R426). -/
structure Lanthorn where
  lgrp   : W64 := 0
  lstat  : LanState := .off
  levt   : W64 := 0
  llog   : Assoc (BitVec 52) := []
  lapp   : Assoc W64 := []
  lpln   : Assoc W64 := []
  oq     : List OrderReq := []
  oqOut  : List OrderReq := []
  bq     : Assoc (List BulkReq) := []
  holder : Assoc Nat := []
  gone   : List Nat := []
  absent : List Nat := []
  heard  : Assoc Nat := []
  holds  : List OrderHold := []
  bholds : Assoc (List BulkHold) := []
  tseq   : Assoc W64 := []
  contribs : List Contribution := []
  rcounts  : List RoundCount := []
  lostRounds : List (BitVec 4 × BitVec 16 × Nat) := []
  deriving DecidableEq, Repr

/-- The thermal state of a die (R408). -/
structure Thermal where
  temp    : Nat := 0
  throttled : Bool := false
  tripped : Bool := false
  deriving DecidableEq, Repr

/-- A sequence in whose name an instruction is performed: core and index in its repeat buffer (R164). -/
structure InSeq where
  core : Nat
  idx  : Nat
  deriving DecidableEq, Repr

/-- The machine. -/
structure State where
  mem      : Memory := []
  hist     : List WriteRec := []
  lines    : List L1Line := []
  l2       : Assoc L2Way := []
  invals   : List Inval := []
  invNext  : Nat := 0
  ghosts   : List Ghost := []
  syncs    : List SyncWait := []
  oldRoots : List OldRoot := []
  slots    : Assoc Slot := []
  cores    : Assoc Core := []
  octets   : Assoc Octet := []
  clusters : Assoc Cluster := []
  waiters  : List Waiter := []
  launches : Assoc Launch := []
  nodes    : List Node := []
  snoops   : List (Nat × VA) := []
  serials  : Assoc Nat := []
  decide   : List Nat := []
  bindings : List Binding := []
  flights  : List Flight := []
  migrants : List Migrant := []
  stored   : List Stored := []
  regs     : HostRegs := {}
  fab      : Fabric := {}
  lan      : Lanthorn := {}
  thermal  : Assoc Thermal := []
  events   : List Event := []
  evseq    : BitVec 32 := 0
  msix     : List (BitVec 11) := []
  corrected : Nat := 0
  power    : Nat := 0
  images   : List Nat := [0, 1, 2]
  staged   : List Nat := []
  mgmt     : List W64 := []
  hostData : List (BitVec 8) := []
  timeb    : W64 := 0
  phase7   : Nat := 0
  cycle    : Nat := 0
  aligning : Option W64 := none
  inputs   : List Instr := []
  cur      : Nat := 0
  chain    : Chain := {}
  inSeq    : Option InSeq := none
  nd       : Nat := 0
  deriving DecidableEq, Repr

/-- Why a step stops with a fault. -/
inductive Fault where
  /-- The step met an instruction row, and not an event, at the head of State.inputs: the input list is not one that
  the outside world can give. Safe: the machine stops where no hardware behaviour exists. -/
  | notAnEvent
  deriving DecidableEq, Repr

/-- Why a step has no meaning. -/
inductive Refusal where
  /-- The instruction has no meaning in the model yet; raised by exec's arm of that name. Safe: the model stops. -/
  | notModelled (mnemonic : String)
  deriving DecidableEq, Repr

/-- The machine right after reset (R394): the host registers at the values of R394, every slot, tile and row gated and
reading as zero, full bits empty, latches with tag 0, formes Free, no launch walked, no instruction issued. Values that
no rule states are named in notes/assumptions/1.md, 2.md, 4.md and 5.md. -/
def State.reset : State := {}

end Sys2Proof.Machine
end

