-- ==== Sys2Proof/Machine/Access.lean ====
section
/-! DEFINITION. The one home of every register and the accessors to it: slots, cores, octets, clusters, dies, context
words, pointers, trap banks and their packed forms (R11, R19 to R29, R128, R225, R227). -/

namespace Sys2Proof.Machine
open Sys2Proof

/-! ### Places (R11) -/

/-- The core of a slot. -/
def coreOf (t : Nat) : Nat := t / 16
/-- The octet of a core. -/
def octetOf (c : Nat) : Nat := c / 8
/-- The cluster of a core. -/
def clusterOf (c : Nat) : Nat := c / 192
/-- The die of a core. -/
def dieOf (c : Nat) : Nat := c / 768
/-- The cluster core index of a core. -/
def cidx (c : Nat) : Nat := c % 192

/-! ### Parts of the state -/

/-- A slot. -/
def State.slot (s : State) (t : Nat) : Slot := aget {} s.slots t
/-- Sets a slot. -/
def State.setSlot (s : State) (t : Nat) (x : Slot) : State := { s with slots := aset {} s.slots t x }
/-- The slot whose instruction is executed. -/
def State.me (s : State) : Slot := s.slot s.cur
/-- Sets the slot whose instruction is executed. -/
def State.setMe (s : State) (x : Slot) : State := s.setSlot s.cur x
/-- A core. -/
def State.core (s : State) (c : Nat) : Core := aget {} s.cores c
/-- Sets a core. -/
def State.setCore (s : State) (c : Nat) (x : Core) : State := { s with cores := aset {} s.cores c x }
/-- The issuing core. -/
def State.here (s : State) : Nat := coreOf s.cur
/-- The issuing core's state. -/
def State.myCore (s : State) : Core := s.core s.here
/-- Sets the issuing core's state. -/
def State.setMyCore (s : State) (x : Core) : State := s.setCore s.here x
/-- An octet. -/
def State.octet (s : State) (o : Nat) : Octet := aget {} s.octets o
/-- Sets an octet. -/
def State.setOctet (s : State) (o : Nat) (x : Octet) : State := { s with octets := aset {} s.octets o x }
/-- A cluster. -/
def State.cluster (s : State) (k : Nat) : Cluster := aget {} s.clusters k
/-- Sets a cluster. -/
def State.setCluster (s : State) (k : Nat) (x : Cluster) : State := { s with clusters := aset {} s.clusters k x }
/-- What an unlisted launch reads as: no launch. -/
def noLaunch : Launch := { die := 0, serial := 0, rcb := 0, state := .unwalked, linked := false }
/-- A launch. -/
def State.launch (s : State) (l : Nat) : Launch := aget noLaunch s.launches l
/-- Sets a launch. -/
def State.setLaunch (s : State) (l : Nat) (x : Launch) : State := { s with launches := aset noLaunch s.launches l x }
/-- Tile `t` of a core. -/
def Core.tile (c : Core) (t : BitVec 2) : Tile := aget {} c.tiles t.toNat
/-- Sets a tile. -/
def Core.setTile (c : Core) (t : BitVec 2) (x : Tile) : Core := { c with tiles := aset {} c.tiles t.toNat x }
/-- A row of a core. -/
def Core.row (c : Core) (r : RowRef) : Row := aget {} c.rows r.toNat
/-- Sets a row. -/
def Core.setRow (c : Core) (r : RowRef) (x : Row) : Core := { c with rows := aset {} c.rows r.toNat x }
/-- A copy channel of an octet. -/
def Octet.chan (o : Octet) (c : Nat) : Channel := aget {} o.ch c
/-- Sets a copy channel. -/
def Octet.setChan (o : Octet) (c : Nat) (x : Channel) : Octet := { o with ch := aset {} o.ch c x }
/-- A barrier tree. -/
def Cluster.tree (k : Cluster) (b : Nat) : Tree := aget {} k.trees b
/-- Sets a barrier tree. -/
def Cluster.setTree (k : Cluster) (b : Nat) (x : Tree) : Cluster := { k with trees := aset {} k.trees b x }
/-- A forme-table entry. -/
def Cluster.forme (k : Cluster) (e : Nat) : Forme := aget {} k.formes e
/-- Sets a forme-table entry. -/
def Cluster.setForme (k : Cluster) (e : Nat) (x : Forme) : Cluster := { k with formes := aset {} k.formes e x }

/-- The tile of a row. -/
def rowTile (r : RowRef) : BitVec 2 := r.extractLsb' 6 2
/-- The row number within its tile. -/
def rowNum (r : RowRef) : Nat := r.toNat % 64
/-- Row `n` of a tile. -/
def rowOf (t : BitVec 2) (n : Nat) : RowRef := BitVec.ofNat 8 (t.toNat * 64 + n)

/-! ### Context words -/

/-- A pointer register. -/
def Pointers.get (x : Pointers) (p : PReg) : W64 :=
  match p.toNat with
  | 0 => x.p0 | 1 => x.p1 | 2 => x.p2 | 3 => x.p3 | 4 => x.p4 | 5 => x.p5 | 6 => x.p6 | _ => x.p7
/-- Sets a pointer register. -/
def Pointers.set (x : Pointers) (p : PReg) (v : W64) : Pointers :=
  match p.toNat with
  | 0 => { x with p0 := v } | 1 => { x with p1 := v } | 2 => { x with p2 := v } | 3 => { x with p3 := v }
  | 4 => { x with p4 := v } | 5 => { x with p5 := v } | 6 => { x with p6 := v } | _ => { x with p7 := v }

/-- The address field of a pointer (R19). -/
def ptrAddr (v : W64) : VA := v.truncate 48
/-- The step field of a pointer, signed (R19). -/
def ptrStep (v : W64) : Int := (v.extractLsb' 48 16).toInt
/-- A pointer with its address replaced; the step is unchanged (R24). -/
def withAddr (v : W64) (a : VA) : W64 := v.extractLsb' 48 16 ++ a

/-- ST as a word (R22). -/
def Status.pack (x : Status) : W64 :=
  0#32 ++ x.cd ++ x.lh ++ x.pl ++ x.tl ++ x.te ++ x.rm ++ x.fl
    ++ flagBit x.n ++ flagBit x.z ++ flagBit x.c ++ flagBit x.v
/-- ST's fields from a word (R22). -/
def Status.unpack (w : W64) : Status :=
  { cd := w.extractLsb' 29 3, lh := w.extractLsb' 21 8, pl := w.extractLsb' 19 2, tl := w.extractLsb' 17 2,
    te := w.extractLsb' 12 5, rm := w.extractLsb' 9 3, fl := w.extractLsb' 4 5,
    n := w.getLsbD 3, z := w.getLsbD 2, c := w.getLsbD 1, v := w.getLsbD 0 }
/-- Whether a pointer's linear-handle bit is set (R27, R264). -/
def Status.handle (x : Status) (p : PReg) : Bool := x.lh.getLsbD p.toNat
/-- Sets or clears a linear-handle bit. -/
def Status.setHandle (x : Status) (p : PReg) (b : Bool) : Status :=
  { x with lh := if b then x.lh ||| (1#8 <<< p.toNat) else x.lh &&& ~~~(1#8 <<< p.toNat) }

/-- XI as a word (R19). -/
def Index.pack (x : Index) : W64 := 0#16 ++ x.mask ++ x.count
/-- XI's fields from a word; [63:48] is ignored (R20). -/
def Index.unpack (w : W64) : Index := { mask := w.extractLsb' 32 16, count := w.truncate 32 }

/-- TID of a slot (R28). -/
def tidWord (t : Nat) (x : Slot) : W64 :=
  let c := coreOf t
  x.group ++ 0#3 ++ BitVec.ofNat 2 (dieOf c) ++ BitVec.ofNat 2 (clusterOf c % 4) ++ BitVec.ofNat 5 (cidx c / 8)
    ++ BitVec.ofNat 8 (cidx c) ++ BitVec.ofNat 4 (t % 16) ++ 0#1 ++ x.thread
/-- CTAG of a slot (R29). -/
def ctagWord (x : Slot) : W64 := flagBit x.stage ++ 0#15 ++ x.serial ++ (if x.stage then x.stag else 0#16)

/-- CAUSE as a word (R227). -/
def Cause.pack (x : Cause) : W64 :=
  0#16 ++ flagBit x.seq ++ x.j ++ x.i ++ 0#2 ++ x.ppl ++ 0#14 ++ x.len ++ 0#4 ++ flagBit x.s2 ++ 0#1 ++ x.acc ++ x.code
/-- CAUSE's fields from a word (R227). -/
def Cause.unpack (w : W64) : Cause :=
  { seq := w.getLsbD 47, j := w.extractLsb' 42 5, i := w.extractLsb' 38 4, ppl := w.extractLsb' 34 2,
    len := w.extractLsb' 16 4, s2 := w.getLsbD 11, acc := w.extractLsb' 8 2, code := w.truncate 8 }

/-- The three words of a candle frame (R128). -/
def Frame.pack (f : Frame) : List W64 :=
  [f.t0, flagBit f.g ++ f.tlf ++ 0#1 ++ f.hhi ++ f.hi ++ f.lo, f.hlo ++ f.hrec]

/-- The bank of a trap level (R223). -/
def Slot.bank (x : Slot) (l : BitVec 2) : Bank := if l = 1 then x.bank1 else x.bank2
/-- Sets the bank of a trap level. -/
def Slot.setBank (x : Slot) (l : BitVec 2) (b : Bank) : Slot :=
  if l = 1 then { x with bank1 := b } else { x with bank2 := b }

/-- The innermost open frame (R128). -/
def Slot.inner (x : Slot) : Option Frame := x.frames.getLast?
/-- Stores are held: a candle is open at the thread's trap level (R129). -/
def Slot.holding (x : Slot) : Bool :=
  x.st.cd != 0 && (match x.inner with | some f => f.tlf == x.st.tl | none => false)

/-- Clears bit 0 of an address to which control goes (R20). -/
def evenAddr (a : VA) : VA := a &&& ~~~1#48

/-- The sixteen context words (R19). -/
def contextWords (t : Nat) (x : Slot) : List W64 :=
  [x.a, x.ptrs.p0, x.ptrs.p1, x.ptrs.p2, x.ptrs.p3, x.ptrs.p4, x.ptrs.p5, x.ptrs.p6, x.ptrs.p7,
   x.pc.zeroExtend 64, x.st.pack, x.lk.zeroExtend 64, x.xi.pack, x.savp.zeroExtend 64, tidWord t x, ctagWord x]

/-! ### The context an instruction sees -/

/-- The sequence in whose name an instruction is performed. -/
def State.mySeq (s : State) : Option Seq :=
  match s.inSeq with | some q => (s.core q.core).seqs[q.idx]? | none => none

/-- The context an instruction reads: the slot's own, or with the sequence's copies of P0–P7, XI and ST.RM, no trap
enables and no candle (R163, R164, R166), at the privilege of the REP (DEDUCED, log 82). -/
def State.ctx (s : State) : Slot :=
  match s.mySeq with
  | none => s.me
  | some q =>
    { s.me with ptrs := q.ptrs, xi := q.xi, frames := [],
                st := { s.me.st with rm := q.rm, pl := q.pl, te := 0, lh := 0, cd := 0 } }

/-- Sets a pointer: the slot's, or the sequence's copy (R164). -/
def State.setPtr (s : State) (p : PReg) (v : W64) : State :=
  match s.inSeq, s.mySeq with
  | some q, some x =>
    let c := s.core q.core
    s.setCore q.core { c with seqs := lset c.seqs q.idx { x with ptrs := x.ptrs.set p v } }
  | _, _ => s.setMe { s.me with ptrs := s.me.ptrs.set p v }

/-- ORs raised exceptions into ST[8:4], or into the sequence's sticky flags (R73, R166). -/
def State.orFlags (s : State) (f : BitVec 5) : State :=
  match s.inSeq, s.mySeq with
  | some q, some x =>
    let c := s.core q.core
    s.setCore q.core { c with seqs := lset c.seqs q.idx { x with flags := x.flags ||| f } }
  | _, _ => s.setMe { s.me with st := { s.me.st with fl := s.me.st.fl ||| f } }

/-- The address of the halfword after the instruction (R36). -/
def State.nextPc (s : State) : VA := s.me.pc + BitVec.ofNat 48 (2 * s.chain.len)
/-- The address of captured instruction `i` of a sequence (R163). -/
def Seq.instrAddr (q : Seq) (i : Nat) : VA :=
  q.start + BitVec.ofNat 48 (2 * ((q.instrs.take i).foldl (fun n e => n + e.2.len) 0))
/-- The instruction's address: the PC, or the captured instruction's. -/
def State.instrAddr (s : State) : VA :=
  match s.mySeq with | none => s.me.pc | some q => q.instrAddr q.i
/-- The address of the halfword at an offset from the instruction's address. -/
def State.chainAddr (s : State) (off : Nat) : VA := s.instrAddr + BitVec.ofNat 48 (2 * off)
/-- The address of the base word. -/
def State.baseAddr (s : State) : VA := s.chainAddr s.chain.base

/-- The identity of a context's thread: the die is that of its launch, wherever the thread now runs (R266). -/
def State.idOf (s : State) (x : Slot) : ThreadId :=
  { pkg := s.regs.pkgid.toNat, die := (s.launch x.launch).die, serial := x.serial, group := x.group, thread := x.thread }
/-- The identity of a slot's thread (R266). -/
def State.threadId (s : State) (t : Nat) : ThreadId := s.idOf (s.slot t)

/-- The register of a map of the package. -/
def HostRegs.omapOf (r : HostRegs) (q : Nat) : BitVec 8 := aget 0 r.omap q
/-- A tenant's L2 way mask (R359); every way at reset (R394). -/
def HostRegs.waymOf (r : HostRegs) (t : Nat) : BitVec 16 := aget 0xFFFF r.waym t

end Sys2Proof.Machine
end

