-- ==== Sys2Proof/Machine/Observe.lean ====
section
/-! DEFINITION. Memory locations and system addresses (R390), the bytes now and before, the agents and their scopes (R313,
R314), and what a load or a fetch of an agent may return (R317 to R320). -/

namespace Sys2Proof.Machine
open Sys2Proof

/-! ### Memory locations -/

/-- A memory location. Memory numbers locations from 0: package DRAM at its package-local address, then host memory,
peer memory and the scratchpads. -/
inductive Loc where
  | dram (off : Nat)
  | host (off : Nat)
  | peer (pkg off : Nat)
  | spm (core off : Nat)
  | mbox (octet off : Nat)
  deriving DecidableEq, Repr

/-- The first number of host memory. -/
def hostBase : Nat := 2 ^ 60
/-- The first number of peer memory. -/
def peerBase : Nat := 2 ^ 61
/-- The first number of the scratchpads: 512 KiB of numbers for each core. -/
def spmBase : Nat := 2 ^ 62
/-- The first number of the mailbox pages, which are registers and hold no memory bytes. -/
def mboxBase : Nat := 2 ^ 63

/-- The number of a location. -/
def Loc.key : Loc → Nat
  | .dram o => o
  | .host o => hostBase + o
  | .peer p o => peerBase + p * 2 ^ 42 + o
  | .spm c o => spmBase + c * 0x80000 + o
  | .mbox q o => mboxBase + q * 0x1000 + o

/-- The byte count of package DRAM (R390). -/
def dramSize : Nat := 0x6000000000

/-- Whether a location number is package DRAM. -/
def keyIsDram (k : Nat) : Bool := k < hostBase
/-- Whether a location is cached: DRAM, host memory and peer memory (R357). -/
def keyIsCached (k : Nat) : Bool := k < spmBase
/-- Whether a location is of unbounded class: host memory and peers (R131, R416). -/
def keyIsUnbounded (k : Nat) : Bool := hostBase ≤ k && k < spmBase
/-- Whether a location is in host memory. -/
def keyIsHost (k : Nat) : Bool := hostBase ≤ k && k < peerBase
/-- Whether a location is in a peer package. -/
def keyIsPeer (k : Nat) : Bool := peerBase ≤ k && k < spmBase
/-- Whether a location is in a scratchpad. -/
def keyIsSpm (k : Nat) : Bool := spmBase ≤ k && k < mboxBase
/-- Whether a location is in a mailbox page. -/
def keyIsMbox (k : Nat) : Bool := mboxBase ≤ k
/-- Whether a location is in one of a mailbox page's registers, which are performed in the class S (R254). -/
def keyIsMboxReg (k : Nat) : Bool :=
  keyIsMbox k && 0x100 ≤ (k - mboxBase) % 0x1000 && (k - mboxBase) % 0x1000 < 0x180
/-- The core of a scratchpad location. -/
def spmCore (k : Nat) : Nat := (k - spmBase) / 0x80000
/-- The offset of a scratchpad location. -/
def spmOff (k : Nat) : Nat := (k - spmBase) % 0x80000
/-- The octet of a mailbox location. -/
def mboxOctet (k : Nat) : Nat := (k - mboxBase) / 0x1000
/-- The core beneath the vault that holds a DRAM location (R390). -/
def vaultCore (k : Nat) : Nat := k / 2 ^ 27

/-- A system address decoded by R390; none where no memory is. -/
def State.sysLoc (s : State) (a : BitVec 52) : Option Loc :=
  let pkg := a.toNat / 2 ^ 42
  let off := a.toNat % 2 ^ 42
  if pkg = s.regs.pkgid.toNat then if off < dramSize then some (.dram off) else none
  else if pkg = 1023 then some (.host off)
  else some (.peer pkg off)

/-! ### Bytes now and before -/

/-- The byte at a location, latest in the coherence order (R318). -/
def State.byte (s : State) (k : Nat) : BitVec 8 := aget unlistedByte s.mem k

/-- Whether a location of memory outside the package has not been written by the package, nor been given to its owner by an
invalidation, since the era began: its owner writes it without a request that this package sees, as long as no cache here holds
its line (R395, R413; log 63). -/
def State.foreign (s : State) (k : Nat) : Bool := keyIsUnbounded k && !s.fab.wrote.contains k

/-- What a location holds: of memory outside the package that this package has not written, an open byte, the same through an
era; with each acquire of system scope another era begins (R438, R442; log 63). -/
def State.content (s : State) (k : Nat) : BitVec 8 := if s.foreign k then Config.outsideByte s.fab.era k else s.byte k

/-- The value that a list of bytes gives a location. -/
def bytesAt (bs : Bytes) (k : Nat) : Option (BitVec 8) := (bs.find? (fun b => b.1 == k)).map (·.2)

/-- Whether a list of bytes meets the `n` locations from `k`. -/
def bytesMeet (bs : Bytes) (k n : Nat) : Bool := bs.any (fun b => k ≤ b.1 && b.1 < k + n)

/-- The byte at a location before the newest `n` writes of the history. -/
def State.byteBefore (s : State) (n k : Nat) : BitVec 8 :=
  match ((s.hist.take n).reverse.findSome? (fun w => bytesAt w.old k)) with
  | some b => b
  | none => s.content k

/-- An 8-byte table entry before the newest `n` writes. -/
def State.entryBefore (s : State) (n k : Nat) : Nat := ofBytes ((span k 8).map (s.byteBefore n))

/-! ### Agents (R313, R314) -/

/-- The agents by number: a thread is its slot's number; the copy harts, the lamplighters, what is the package's as a whole,
the host and the packages of the fabric follow. -/
inductive Agent where
  | thread (t : Nat)
  | hart (octet : Nat)
  | lamp (die : Nat)
  | package
  | host
  | peer (pkg : Nat)
  deriving DecidableEq, Repr

/-- The number of an agent. -/
def Agent.num : Agent → Nat
  | .thread t => t
  | .hart o => 49152 + o
  | .lamp d => 49536 + d
  | .package => 49540
  | .host => 49541
  | .peer p => 49542 + p

/-- The agent of a number. -/
def agentOf (n : Nat) : Agent :=
  if n < 49152 then .thread n else if n < 49536 then .hart (n - 49152) else if n < 49540 then .lamp (n - 49536)
  else if n = 49540 then .package else if n = 49541 then .host else .peer (n - 49542)

/-- The octet of an agent, if it belongs to one. -/
def Agent.octet? : Agent → Option Nat
  | .thread t => some (octetOf (coreOf t))
  | .hart o => some o
  | .lamp _ | .package | .host | .peer _ => none

/-- The die of an agent, if it belongs to one. -/
def Agent.die? : Agent → Option Nat
  | .thread t => some (dieOf (coreOf t))
  | .hart o => some (o / 96)
  | .lamp d => some d
  | .package | .host | .peer _ => none

/-- Whether an agent is the package's. -/
def Agent.inPackage : Agent → Bool
  | .host | .peer _ => false
  | .thread _ | .hart _ | .lamp _ | .package => true

/-- Whether two agents belong to one octet, cluster or die, by what `f` gives of each. -/
def sameGroup (f : Agent → Option Nat) (a b : Agent) : Bool :=
  match f a, f b with | some x, some y => x == y | _, _ => false

/-- Whether agent `b` belongs to the instance of a scope of agent `a` (R314). -/
def inInstance (sc : Scope) (a b : Agent) : Bool :=
  a == b ||
  match sc with
  | .thread => false
  | .core => match a, b with | .thread t, .thread u => coreOf t == coreOf u | _, _ => false
  | .octet => sameGroup Agent.octet? a b
  | .cluster => sameGroup (fun x => x.octet?.map (· / 24)) a b
  | .die => sameGroup Agent.die? a b
  | .package => a.inPackage && b.inPackage
  | .system => true

/-- Whether the agent of a number belongs to the instance of a scope of another (R314). -/
def agentIn (sc : Scope) (a b : Nat) : Bool := inInstance sc (agentOf a) (agentOf b)

/-- The scopes from the narrowest (R44, R314). -/
def scopeRank : Scope → Nat
  | .thread => 0 | .core => 1 | .octet => 2 | .cluster => 3 | .die => 4 | .package => 5 | .system => 6

/-- The wider of two scopes. -/
def widerScope (a b : Scope) : Scope := if scopeRank a ≤ scopeRank b then b else a

/-- The agents of an agent's instance of a scope, those outside the package aside: the threads that exist, and the copy
harts and lamplighters. -/
def State.agentsIn (s : State) (sc : Scope) (a : Nat) : List Nat :=
  ((s.slots.filterMap fun e => if e.2.mode != .gated then some e.1 else none) ++ span (Agent.hart 0).num 388).filter
    (agentIn sc a)

/-- Whether a write has been performed with respect to an agent (R313, R320). -/
def WriteRec.performedAt (w : WriteRec) (b : Nat) : Bool := w.done || agentIn w.upto w.agent b || w.seenBy.contains b

/-- Whether a write of agent `a` has been performed at a scope (R313). -/
def State.performedIn (s : State) (w : WriteRec) (sc : Scope) (a : Nat) : Bool :=
  w.done || (scopeRank sc ≤ scopeRank w.upto && agentIn w.upto w.agent a)
    || (sc != .system && (s.agentsIn sc a).all w.performedAt)

/-- Whether a write stands in the history for agent `b` as its own or as performed with respect to it. -/
def WriteRec.visibleTo (w : WriteRec) (b : Nat) : Bool := w.writer == some b || w.performedAt b

/-! ### What a load returns (R319) -/

/-- The newest value of a location that an agent can see in a history, newest write first; `old` is the value before
the last write passed over. -/
def newestVisible (b k : Nat) : List WriteRec → Option (BitVec 8) → Option (BitVec 8)
  | [], old => old
  | w :: ws, old =>
    match bytesAt w.new k with
    | none => newestVisible b k ws old
    | some v => if w.visibleTo b then some v else newestVisible b k ws (bytesAt w.old k)

/-- The byte that an agent sees with the newest `cut` writes left aside. -/
def State.visible (s : State) (b cut k : Nat) : BitVec 8 :=
  if s.foreign k then s.content k else
  match newestVisible b k (s.hist.drop cut) none with
  | some v => v
  | none => s.byteBefore cut k

/-- How an agent reads (R317 to R319): whether strong, whether of a U page, whether each byte for itself (R101). For a read
that an engine has accepted before it performs it: how many of the newest writes were made since then (`fresh`), and the
step before which the thread's own writes are its earlier ones (`limit`; none for a read performed at once). `captured` is
the step before which the writes of the sequence itself are earlier ones, for a captured read (R165). -/
structure Reading where
  agent    : Nat
  strong   : Bool := false
  unord    : Bool := false
  bytewise : Bool := false
  fresh    : Nat := 0
  limit    : Option Nat := none
  captured : Option Nat := none
  deriving DecidableEq, Repr

/-- Whether a write is the reader's own and before the read in program order (R319 clause 1); the accesses of a sequence and
those of its thread are unordered until it retires (R165), and beside a row store that is still counted a page-0 access
observes the old value or the new one (R184). -/
def Reading.owns (r : Reading) (w : WriteRec) : Bool :=
  w.writer == some r.agent &&
    match w.kind, r.limit with
    | .captured, _ => r.captured.any (w.born < ·)
    | .engine, none | .drained, none | .panel, none => w.done
    | _, l => l.all (w.born < ·)

/-- Whether a write to a scratchpad leaves no older value for an agent: it has no cached copies (R357), so that no load returns
one once the write has been performed with respect to the agent (R313, R151); an engine's writes stand so from their
completion (R184, R220). -/
def WriteRec.settledAt (w : WriteRec) (b : Nat) : Bool :=
  w.new.any (fun e => keyIsSpm e.1) &&
    (w.done || (w.performedAt b && (w.kind == .access || w.kind == .published || w.kind == .retried)))

/-- Whether a read of some bytes must not pass the `i`-th newest write to them (R319): its own earlier ones, those that an
ordering point has made it observe or an earlier strong load has read, those of which no stale copy is left, and for a strong
read every one; writes made since an engine accepted the read may be passed. -/
def Reading.stopsAt (r : Reading) (keys : List Nat) (i : Nat) (w : WriteRec) : Bool :=
  r.owns w || (r.fresh ≤ i &&
    (r.strong || w.firm || w.settledAt r.agent || w.seenFence.contains r.agent
      || (!r.unord && w.seenAcquire.contains r.agent) || keys.any fun k => w.seenAt.contains (r.agent, k)))

/-- How many of the newest writes a read of some bytes may leave aside, besides none (R319). -/
def Reading.cuts (r : Reading) (keys : List Nat) : Nat → List WriteRec → List Nat
  | _, [] => []
  | i, w :: ws =>
    if keys.any (fun k => (bytesAt w.new k).isSome) then
      if r.stopsAt keys i w then [] else (i + 1) :: Reading.cuts r keys (i + 1) ws
    else Reading.cuts r keys (i + 1) ws

/-- The cut that a read of some bytes makes: the spec leaves open which. -/
def State.weakCut (s : State) (r : Reading) (keys : List Nat) (salt : Nat) : Nat :=
  match r.cuts keys 0 s.hist with
  | [] => 0
  | cs => (0 :: cs).getD (Config.pick (s.nd * 2 ^ 64 + salt) % (cs.length + 1)) 0

/-- Whether locations lie in one aligned 8-byte word (R101). -/
def oneWord (keys : List Nat) : Bool := match keys with | [] => true | k :: ks => ks.all fun j => j / 8 == k / 8

/-- The byte that an agent reads at one of a list of locations (R319): each aligned 8-byte word whole, or each byte for itself
(R101). -/
def State.observeAt (s : State) (r : Reading) (keys : List Nat) (k : Nat) : BitVec 8 :=
  let cut := if r.bytewise then s.weakCut r [k] (2 ^ 63 + k)
    else s.weakCut r (keys.filter (fun j => j / 8 == k / 8)) (k / 8)
  s.visible r.agent cut k

/-- The bytes that an agent reads at a list of locations (R319). -/
def State.observe (s : State) (r : Reading) (keys : List Nat) : List (BitVec 8) :=
  match s.hist with
  | [] => keys.map s.content
  | _ => keys.map (s.observeAt r keys)

end Sys2Proof.Machine
end

