-- ==== Sys2Proof/Machine/Cache.lean ====
section
/-! DEFINITION. The caches: lines in the L1s and their directory entries (R357, R358), the ways of the L2 slices under the
tenants' masks (R359, R360), write-backs, and the removal of a line (R337). Data are not held here: `State.mem` is the
newest value, and a line that an L1 holds dirty keeps the bytes of the next level. -/

namespace Sys2Proof.Machine
open Sys2Proof

/-! ### Lines and slices -/

/-- The 64-byte line of a location. -/
def lineOf (k : Nat) : Nat := k / 64

/-- The lines that locations of cached memory lie in, each once. -/
def cachedLines (keys : List Nat) : List Nat :=
  keys.foldl (fun ls k => if keyIsCached k && !ls.contains (lineOf k) then ls ++ [lineOf k] else ls) []

/-- The first location of each of the lines that locations of cached memory lie in. -/
def firstKeys (keys : List Nat) : List Nat :=
  (cachedLines keys).map fun l => (keys.find? fun k => lineOf k == l).getD (64 * l)

/-- The L1 of a core: its own, or the fused L1 of its cluster, which stands under the cluster's first core (R244). -/
def State.cacheOf (s : State) (core : Nat) : Nat := if (s.core core).fused then 192 * clusterOf core else core

/-- The die whose L2 holds a line for a core: the home of a line of DRAM (R358), the core's own for other memory (R413). -/
def homeDie (core line : Nat) : Nat := if keyIsDram (line * 64) then dieOf (vaultCore (line * 64)) else dieOf core

/-- The L2 slice of a line: PA[11:6] of its die (R358). -/
def sliceOf (die line : Nat) : Nat := 64 * die + line % 64

/-- The sets of a slice and the ways of a set (R359). -/
def l2Sets : Nat := 1024
/-- The ways of a set (R359). -/
def l2Ways : Nat := 16
/-- The number of the first way of a line's set; which bits of the address choose the set is the model's choice (DESIGN
CHOICE, log 81). -/
def wayBase (die line : Nat) : Nat := (sliceOf die line * l2Sets + line / 64 % l2Sets) * l2Ways

/-! ### Directory entries (R358) -/

/-- Whether a copy holds bytes that the next level has not. -/
def L1Copy.isDirty (c : L1Copy) : Bool := c.st == .modified || c.st == .owned
/-- Whether an L1 holds a line dirty. -/
def L1Line.isDirty (r : L1Line) : Bool := r.copies.any L1Copy.isDirty
/-- The owning L1 that a directory entry records: the one that holds the line in M, O or E (R358). -/
def L1Line.owner (r : L1Line) : Option Nat := (r.copies.find? fun c => c.st != .shared).map (·.cache)
/-- The sharer vector of a directory entry: one bit for each cluster with a copy (R358). -/
def L1Line.sharers (r : L1Line) : BitVec 16 :=
  r.copies.foldl (fun v c => v ||| (1#16 <<< clusterOf c.cache)) 0
/-- Whether an L1 holds a copy of a line. -/
def L1Line.heldBy (r : L1Line) (cache : Nat) : Bool := r.copies.any fun c => c.cache == cache

/-- The directory entry of a line. -/
def State.lineEntry (s : State) (line : Nat) : Option L1Line := s.lines.find? fun r => r.line == line
/-- Removes the directory entry of a line. -/
def State.dropEntry (s : State) (line : Nat) : State := { s with lines := s.lines.filter fun r => r.line != line }
/-- Sets the directory entry of a line; a line without copies has none. -/
def State.setEntry (s : State) (r : L1Line) : State :=
  let rest := s.lines.filter fun q => q.line != r.line
  { s with lines := if r.copies.isEmpty then rest else r :: rest }

/-! ### The L2 (R359, R360) -/

/-- The way of its set that holds a line: a lookup hits in every way (R359). -/
def State.l2Find (s : State) (die line : Nat) : Option Nat :=
  ((s.l2.find? fun e => e.1 / l2Ways == wayBase die line / l2Ways && e.2.line == line)).map (·.1)

/-- The port by which a request for a line leaves to a package: of the set bits of its ROUTE register the one whose index is
bits [21:6] of the line's system address modulo their number (R417). -/
def Fabric.portOf (f : Fabric) (dest addr : Nat) : Nat :=
  let r : W64 := aget 0 f.routes dest
  let ps := (upto 64).filter fun i => r.getLsbD i
  ps.getD (addr / 64 % 2 ^ 16 % ps.length) 0

/-- A packet is sent under a key identifier: its nonce count is used once (R418). -/
def Fabric.countNonce (f : Fabric) (key : BitVec 8) : Fabric :=
  let k : FabricKey := aget {} f.keys key.toNat
  { f with keys := aset {} f.keys key.toNat { k with nonce := k.nonce + 1 } }

/-- The count of the next nonce under a key identifier. -/
def Fabric.nonceOf (f : Fabric) (key : BitVec 8) : BitVec 64 := (aget {} f.keys key.toNat : FabricKey).nonce

/-- A request goes out on the fabric with a tag of its own; a write-back's tag that is used again has been answered (R413,
R422). -/
def State.post (s : State) (o : Outstanding) : State :=
  let f := s.fab
  let o := { o with tag := f.nextTag, port := f.portOf o.dest o.addr, nonce := f.nonceOf o.key, sends := 1, sent := s.cycle }
  { s with fab := { f.countNonce o.key with
      out := (f.out.filter fun q => !(q.writeBack && q.tag == o.tag)) ++ [o], nextTag := f.nextTag + 1 } }

/-- A request for the line of a location of a peer package. -/
def State.peerRequest (s : State) (k : Nat) (tenant : BitVec 4) (key : BitVec 8) : Outstanding :=
  let addr := lineOf k * 64 - peerBase
  { tag := 0, addr := addr, at_ := k - peerBase, dest := addr / 2 ^ 42, slot := none, tenant := tenant, key := key,
    sent := s.cycle, born := s.nd }

/-- A write-back of a peer line goes out on the fabric under the line's key (R413, R419). -/
def State.postBack (s : State) (line : Nat) (tenant : BitVec 4) (key : BitVec 8) : State :=
  s.post { s.peerRequest (line * 64) tenant key with writeBack := true }

/-- A line goes to its backing memory: a peer line over the fabric. -/
def State.toBacking (s : State) (line : Nat) (tenant : BitVec 4) (key : BitVec 8) : State :=
  if keyIsPeer (line * 64) then s.postBack line tenant key else s

/-- A way gives up its line: a dirty one goes to its backing memory (R359). -/
def State.evictWay (s : State) (way : Nat) : State :=
  match s.l2.find? fun e => e.1 == way with
  | none => s
  | some e =>
    let s1 : State := { s with l2 := aerase s.l2 way }
    if e.2.dirty then s1.toBacking e.2.line e.2.tenant e.2.key else s1

/-- The ways that a tenant's mask sets (R359). -/
def HostRegs.waysOf (r : HostRegs) (tenant : BitVec 4) : List Nat :=
  (upto l2Ways).filter fun w => (r.waymOf tenant.toNat).getLsbD w

/-- An access or a write-back for a tenant meets the L2: it hits in any way; else a line is allocated in one of the ways
that the tenant's mask sets, and its victim goes; a tenant whose mask is empty allocates in no way, and what it writes back
goes to backing memory (R359, R360). -/
def State.fillL2 (s : State) (die line : Nat) (tenant : BitVec 4) (key : BitVec 8) (dirty : Bool) : State :=
  match s.l2Find die line with
  | some w =>
    let put (d : L2Way → Bool) : State := { s with l2 := s.l2.map fun e => if e.1 == w then (e.1, { e.2 with dirty := d e.2 }) else e }
    if dirty && (s.regs.waysOf tenant).isEmpty then (put fun _ => false).toBacking line tenant key
    else put fun e => e.dirty || dirty
  | none =>
    match s.regs.waysOf tenant with
    | [] => if dirty then s.toBacking line tenant key else s
    | w :: ws =>
      let way := wayBase die line + (w :: ws).getD (Config.pick (s.nd * 2 ^ 64 + 2 ^ 62 + line) % (ws.length + 1)) w
      let s1 := s.evictWay way
      { s1 with l2 := aput s1.l2 way { line := line, dirty := dirty, tenant := tenant, key := key } }

/-- The L2's copies of a line are clean from then on; a dirty one has gone to its backing memory. -/
def State.cleanL2 (s : State) (line : Nat) : State :=
  match s.l2.find? fun e => e.2.line == line && e.2.dirty with
  | none => s
  | some e =>
    ({ s with l2 := s.l2.map fun f => if f.2.line == line then (f.1, { f.2 with dirty := false }) else f } : State).toBacking
      line e.2.tenant e.2.key

/-! ### Write-backs (R337, R357) -/

/-- The copies of a line after a write-back: valid and clean (R337). -/
def cleanCopies (cs : List L1Copy) : List L1Copy :=
  cs.map fun c => { c with st := match c.st with | .modified => .exclusive | .owned => .shared | st => st }

/-- The dirty copy of a line is written to the L2 (R337). -/
def State.writeBackL1 (s : State) (line : Nat) : State :=
  match s.lineEntry line with
  | some r =>
    if !r.isDirty then s else
    let s1 := s.setEntry { r with copies := cleanCopies r.copies, below := [] }
    s1.fillL2 (homeDie (r.owner.getD 0) line) line r.tenant r.key true
  | none => s

/-- A line is written back to its backing memory: no cache holds it dirty any more (R337). -/
def State.cleanLine (s : State) (line : Nat) : State := (s.writeBackL1 line).cleanL2 line

/-- Every cached copy of a line goes, written back if dirty: a write by another agent invalidates them (R358, R396). -/
def State.dropLine (s : State) (line : Nat) : State :=
  let s1 := (s.cleanLine line).dropEntry line
  { s1 with l2 := s1.l2.filter fun e => e.2.line != line }

/-- A peer line that another key identifier meets is written back under its old key and fetched again (R419). -/
def State.rekey (s : State) (key : BitVec 8) (line : Nat) : State :=
  if keyIsPeer (line * 64) && (s.lines.any (fun r => r.line == line && r.key != key)
      || s.l2.any fun e => e.2.line == line && e.2.key != key)
  then s.dropLine line else s

/-! ### Requests for peer lines (R413) -/

/-- Whether an access of a die to a peer line hits: an L1 of the die or its L2 holds the line, for a write dirty, so that the
package has it alone. -/
def State.peerHit (s : State) (die line : Nat) (write : Bool) : Bool :=
  (s.lineEntry line).any (fun r => r.copies.any fun c => dieOf c.cache == die && (!write || c.isDirty))
    || s.l2.any fun e => e.1 / l2Ways == wayBase die line / l2Ways && e.2.line == line && (!write || e.2.dirty)

/-- An access to a peer line goes out on the fabric unless a cache serves it; a line that another key identifier meets is
written back and fetched again (R413, R419). -/
def State.askPeer (s0 : State) (die line : Nat) (write : Bool) (o : Outstanding) : State :=
  let s := s0.rekey o.key line
  if s.peerHit die line write then s else s.post o

/-- The accesses to peer lines among some locations go out on the fabric, for the thread or copy command of `o`. -/
def State.askPeers (s : State) (die : Nat) (keys : List Nat) (write : Bool) (o : Nat → Outstanding) : State :=
  (firstKeys (keys.filter keyIsPeer)).foldl (fun s k => s.askPeer die (lineOf k) write (o k)) s

/-- Writes to peer lines that no cache of the package takes: the copies go, written back if dirty, and each write goes to its
line's home (R419, R424). -/
def State.sendWrites (s : State) (keys : List Nat) (o : Nat → Outstanding) : State :=
  (firstKeys (keys.filter keyIsPeer)).foldl (fun s k => (s.dropLine (lineOf k)).post (o k)) s

/-- Lines of other packages that are read past the L1s are taken by the L2 of a die (R413). -/
def State.takePeers (s : State) (die : Nat) (keys : List Nat) (tenant : BitVec 4) (key : BitVec 8) : State :=
  (cachedLines (keys.filter keyIsPeer)).foldl (fun s l => s.fillL2 die l tenant key false) s

/-- A request of a thread for the peer line of a location, made by the step `born`. -/
def State.slotRequest (s : State) (t born k : Nat) : Outstanding :=
  let x := s.slot t
  { s.peerRequest k x.tenant x.key with slot := some t, launch := x.launch, group := some x.gidx, born := born }

/-- A location of this package's memory is written: every other package that holds its line is told to invalidate it, by a
request of the writer's (R413). -/
def State.callBack (s : State) (k : Nat) (o : Outstanding) (except : Option Nat) : State :=
  match aget [] s.fab.holders (lineOf k) with
  | [] => s
  | ps =>
    let s1 : State := { s with fab := { s.fab with
      holders := aset [] s.fab.holders (lineOf k) (ps.filter fun p => some p == except) } }
    let base := s.regs.pkgid.toNat * 2 ^ 42
    (ps.filter fun p => some p != except).foldl
      (fun s p => s.post { o with addr := base + lineOf k * 64, at_ := base + k, dest := p }) s1

/-- The responses to the requests of an agent that waits for them within its step, the host, a peer or the package, have come
(R396, R422). -/
def State.acknowledged (s : State) : State :=
  let now (o : Outstanding) : Bool := o.slot.isNone && o.copy.isNone && o.lamp.isNone && !o.writeBack && o.born == s.nd
  if s.fab.out.any now then { s with fab := { s.fab with out := s.fab.out.filter fun o => !now o } } else s

/-- The responses to the requests of a die's lamplighter have come (R422): it acts on only then. -/
def State.lampAnswered (s : State) (d : Nat) : State :=
  if s.fab.out.any (fun o => o.lamp == some d) then
    { s with fab := { s.fab with out := s.fab.out.filter fun o => o.lamp != some d } }
  else s

/-! ### Accesses of threads -/

/-- The tags of a slice (R358). -/
def sliceTags : Nat := 32768

/-- A directory entry is needed for a line of a slice: with no tag free, a line that the slice homes is recalled from the
L1s (R358); which one is left open. -/
def State.reserveTag (s : State) (die line : Nat) : State :=
  let homed := s.lines.filter fun r => sliceOf (homeDie (r.owner.getD 0) r.line) r.line == sliceOf die line
  if homed.length < sliceTags then s else
  match homed[Config.pick (s.nd * 2 ^ 64 + 2 ^ 62 + 2 ^ 61 + line) % homed.length]? with
  | some r => (s.writeBackL1 r.line).dropEntry r.line
  | none => s

/-- The lines that an L1 part of a core holds at most: twelve units of 32 KiB less those of the scratchpad (R243). -/
def State.l1Room (s : State) (core : Nat) : Nat := (12 - (s.core core).units) * 512

/-- Whether an L1 has one line, or a slice of a fused L1 the lines of one index modulo 192, in one part (R244). -/
def State.samePart (s : State) (core a b : Nat) : Bool := !(s.core core).fused || a % 192 == b % 192

/-- An L1 gives up its copy of a line; dirty bytes go to the L2 (R357). -/
def State.evictCopy (s : State) (cache line : Nat) : State :=
  let s1 := if (s.lineEntry line).any (fun r => r.owner == some cache && r.isDirty) then s.writeBackL1 line else s
  match s1.lineEntry line with
  | some r => s1.setEntry { r with copies := r.copies.filter fun c => c.cache != cache }
  | none => s1

/-- An L1 part that is full gives up a line for another; which one is left open (R243, R357). -/
def State.makeRoom (s : State) (core line : Nat) : State :=
  let c := s.cacheOf core
  let held := s.lines.filter fun r => r.heldBy c && s.samePart core r.line line
  if held.length < s.l1Room core then s else
  match held[Config.pick (s.nd * 2 ^ 64 + 2 ^ 62 + 2 ^ 60 + line) % held.length]? with
  | some r => s.evictCopy c r.line
  | none => s

/-- A core's L1 whose units have become fewer gives up what it has no more room for; which lines is left open (R243). -/
def State.shrinkL1 (s : State) (core : Nat) : State :=
  let held := (s.lines.filter fun r => r.heldBy core).map (·.line)
  ((held.rotateLeft (Config.pick (s.nd * 2 ^ 64 + 2 ^ 62 + 2 ^ 59 + core) % (held.length + 1))).drop (s.l1Room core)).foldl
    (fun s l => s.evictCopy core l) s

/-- A core's L1 takes a line that it does not hold: through the L2 (R359), with a tag of its home's directory (R358). -/
def State.missLine (s0 : State) (core line : Nat) (tenant : BitVec 4) (key : BitVec 8) : State :=
  let s := s0.makeRoom core line
  let s1 := if (s.lineEntry line).isSome then s else s.reserveTag (homeDie core line) line
  s1.fillL2 (homeDie core line) line tenant key false

/-- A copy that another L1 has come to share (R357). -/
def L1Copy.lowered (c : L1Copy) : L1Copy :=
  { c with st := match c.st with | .modified | .owned => .owned | .exclusive | .shared => .shared }

/-- A core without an L1 reads a line through the L2 (R243). -/
def State.readPast (s : State) (core line : Nat) (tenant : BitVec 4) (key : BitVec 8) : State :=
  (match s.lineEntry line with
    | some r => s.setEntry { r with copies := r.copies.map L1Copy.lowered }
    | none => s).fillL2 (homeDie core line) line tenant key false

/-- A core reads a line: a hit changes nothing; a miss takes a copy, exclusive where no other L1 has one, and an owner
shares its line (R357, R358). -/
def State.readLine (s0 : State) (t core line : Nat) : State :=
  let x := s0.slot t
  let s := s0.rekey x.key line
  let c := s.cacheOf core
  if s.l1Room core = 0 then s.readPast core line x.tenant x.key else
  match s.lineEntry line with
  | some r =>
    if r.heldBy c then s else
    (s.missLine core line x.tenant x.key).setEntry
      { r with copies := r.copies.map L1Copy.lowered ++ [{ cache := c, st := .shared }] }
  | none =>
    (s.missLine core line x.tenant x.key).setEntry
      { line := line, copies := [{ cache := c, st := .exclusive }], tenant := x.tenant, key := x.key }

/-- A core without an L1 writes a line in the L2, and no L1 keeps a copy (R243, R358). -/
def State.writePast (s : State) (core line : Nat) (tenant : BitVec 4) (key : BitVec 8) : State :=
  ((s.writeBackL1 line).dropEntry line).fillL2 (homeDie core line) line tenant key true

/-- A core writes a line: every other copy is invalidated, and the core's is modified; the bytes of the next level stay
those before the first write since the line was last written back (R357, R358). -/
def State.writeLine (s0 : State) (t core line : Nat) : State :=
  let x := s0.slot t
  let s := s0.rekey x.key line
  let c := s.cacheOf core
  let own : List L1Copy := [{ cache := c, st := .modified }]
  if s.l1Room core = 0 then s.writePast core line x.tenant x.key else
  match s.lineEntry line with
  | some r =>
    let below := if r.isDirty then r.below else (span (line * 64) 64).map fun k => (k, s.content k)
    let s1 := if r.heldBy c then s else s.missLine core line x.tenant x.key
    s1.setEntry { r with copies := own, below := below, tenant := x.tenant, key := x.key }
  | none =>
    (s.missLine core line x.tenant x.key).setEntry
      { line := line, copies := own, below := (span (line * 64) 64).map fun k => (k, s.content k),
        tenant := x.tenant, key := x.key }

/-- A core takes exclusive ownership of a line without writing it, as an atomic that does not write does: every other copy is
written back if dirty and invalidated, copies in other packages are called back (R331, R357, R413). -/
def State.ownLine (s0 : State) (t core k : Nat) : State :=
  let x := s0.slot t
  let line := lineOf k
  let s := (s0.rekey x.key line).callBack k (s0.slotRequest t s0.nd k) none
  let c := s.cacheOf core
  if s.l1Room core = 0 then (s.writeBackL1 line).dropEntry line else
  let mine (st : LineState) : List L1Copy := [{ cache := c, st := st }]
  match s.lineEntry line with
  | none => (s.missLine core line x.tenant x.key).setEntry
      { line := line, copies := mine .exclusive, tenant := x.tenant, key := x.key }
  | some r =>
    if r.owner == some c && r.isDirty then s.setEntry { r with copies := mine .modified } else
    let s1 := s.writeBackL1 line
    let s2 := if r.heldBy c then s1 else s1.missLine core line x.tenant x.key
    s2.setEntry { r with copies := mine .exclusive, below := [] }

/-- The reads of locations by a thread of a core fill its L1. -/
def State.readLines (s : State) (t core : Nat) (keys : List Nat) : State :=
  (cachedLines keys).foldl (fun s l => s.readLine t core l) s

end Sys2Proof.Machine
end

