-- ==== Sys2Proof/Machine/Xlate.lean ====
section
/-! DEFINITION. Where an address leads: page-table entries (R347, R348), the
nested walk (R345 to R351), the windows (R239 to R242), cached translations (R352), peers (R412). -/

namespace Sys2Proof.Machine
open Sys2Proof

/-! ### Page-table entries (R347, R348) -/

/-- What a leaf gives: output address, permissions, attributes and the bits that it leaves to the address. -/
structure Leaf where
  addr : Nat
  bits : Nat
  r : Bool
  w : Bool
  x : Bool
  u : Bool
  mh : Bool
  oc : BitVec 2
  geo : BitVec 2
  fmt : BitVec 4
  sp : Bool
  deriving DecidableEq, Repr

/-- A page-table entry: invalid, a table pointer or a leaf. -/
inductive Pte where
  | invalid
  | table (a : Nat)
  | leaf (l : Leaf)
  deriving DecidableEq, Repr

/-- Reads an entry of a stage at a level (R347, R348, R67). -/
def parsePte (stage2 : Bool) (level : Nat) (e : Nat) : Pte :=
  let addr := field e 51 12 * 4096
  let fmt := field e 55 52
  let geo := field e 11 10
  let oc := field e 9 8
  let mh := bit e 7
  let sp := bit e 6
  let u := bit e 5
  let attrs := fmt != 0 || geo != 0 || oc != 0 || mh || u
  if !(bit e 0) || field e 63 56 != 0 then .invalid
  else if !(bit e 1) then
    if level ≥ 3 || attrs || sp || bit e 2 || bit e 3 || bit e 4 then .invalid else .table addr
  else
    let bits := if level = 1 then 30 else if level = 2 then 21 else if sp then 16 else 12
    if level = 0 || (sp && level != 3) || addr % 2 ^ bits != 0 || (stage2 && attrs)
        || oc = 3 || fmt = 15 || (9 ≤ fmt && geo = 3) then .invalid
    else .leaf { addr := addr, bits := bits, r := bit e 2, w := bit e 3, x := bit e 4, u := u, mh := mh,
                 oc := BitVec.ofNat 2 oc, geo := BitVec.ofNat 2 geo, fmt := BitVec.ofNat 4 fmt, sp := sp }

/-- The index of a level (R346): the first level of stage 2 has 13 bits. -/
def levelIndex (stage2 : Bool) (level : Nat) (a : Nat) : Nat :=
  match level with
  | 0 => if stage2 then a / 2 ^ 39 % 8192 else a / 2 ^ 39 % 512
  | 1 => a / 2 ^ 30 % 512
  | 2 => a / 2 ^ 21 % 512
  | _ => a / 2 ^ 12 % 512

/-- Why a walk ends without a leaf: an invalid entry, a table that stage 2 does not let the walk read (R348, R349), or, in
a candle, a table in host memory or another package (R353); `s2` marks the second stage, whose intermediate address is
`ipa`. -/
inductive WalkStop where
  | invalid (s2 : Bool) (ipa : BitVec 52)
  | perm (s2 : Bool) (ipa : BitVec 52)
  | far
  deriving DecidableEq, Repr

/-- A table entry that a walk reads: its location, its stage and level, and, for the second stage, the page of the
intermediate address that it was read for (R356). -/
structure TableRead where
  key   : Nat
  stage2 : Bool
  level : Nat
  ipage : Nat := 0
  deriving DecidableEq, Repr

/-- How a walk sees the tables: what each entry that it reads holds, the roots of the second stage, the former roots under
which translations of an intermediate address may still be cached (R352), whether it must not read a table of unbounded class
(R353), whether the caches hold the entries of such tables, the salt of the free choices among the slots of a block (R350) and
among the roots, and, where there is none, the stage of which the largest mapping is asked. -/
structure Reader where
  entry : TableRead → Nat
  root  : BitVec 4 → BitVec 52
  former : BitVec 4 → BitVec 52 → List (BitVec 52)
  near  : Bool
  cached : Bool
  salt  : Option Nat
  wide  : Option Bool := none

/-- One 64 KiB block whose slots differ (R350): what the slot of the address gives, or the leaf of another valid slot of
the block with SP set. Where the largest mapping of a stage is asked, the leaf of such a slot serves wherever one may. -/
def Reader.spSlot (rd : Reader) (r : TableRead) (own : Except WalkStop Leaf) : Except WalkStop Leaf :=
  let others := ((upto 16).filterMap fun i =>
    match parsePte r.stage2 3 (rd.entry { r with key := r.key / 128 * 128 + 8 * i }) with
    | .leaf l => if l.sp && own.toOption != some l then some l else none
    | _ => none).eraseDups
  match rd.salt, others with
  | some salt, _ :: _ =>
    (own :: others.map .ok).getD (Config.pickTranslation (salt * 2 ^ 64 + r.key / 128 * 128 + 1) % (others.length + 1)) own
  | none, l :: _ =>
    match own, rd.wide with
    | .error _, some _ => .ok l
    | .ok m, some st2 => if st2 == r.stage2 && !m.sp then .ok l else own
    | _, none => own
  | _, _ => own

/-- Reads one table entry at a system address (R348, R353): a leaf, a table, or why the walk ends; `nowhere` is the end at an
address that names no memory. A walk that may not read a table of unbounded class meets no entry of it but those that a cache
holds, and no cache holds an invalid one (R352). -/
def State.readPte (s : State) (rd : Reader) (stage2 : Bool) (level : Nat) (at_ : BitVec 52) (ipage : Nat)
    (nowhere invalid : WalkStop) : Except WalkStop (BitVec 52 ⊕ Leaf) :=
  match s.sysLoc at_ with
  | none => .error nowhere
  | some loc =>
    let r : TableRead := { key := loc.key, stage2 := stage2, level := level, ipage := ipage }
    let far := keyIsUnbounded r.key && rd.near
    let bad := if far then .far else invalid
    if far && !rd.cached then .error .far else
    match parsePte stage2 level (rd.entry r) with
    | .table a => .ok (.inl (BitVec.ofNat 52 a))
    | .leaf l => if level = 3 then (rd.spSlot r (.ok l)).map .inr else .ok (.inr l)
    | .invalid => if level = 3 then (rd.spSlot r (.error bad)).map .inr else .error bad

/-- Walks stage 2 from a table at a system address, `fuel` levels left (R346). -/
def State.walk2 (s : State) (rd : Reader) (ipa : BitVec 52) : Nat → Nat → BitVec 52 → Except WalkStop Leaf
  | 0, _, _ => .error (.invalid true ipa)
  | fuel + 1, level, table =>
    match s.readPte rd true level (table + BitVec.ofNat 52 (8 * levelIndex true level ipa.toNat)) (ipa.toNat / 4096)
        (.invalid true ipa) (.invalid true ipa) with
    | .error e => .error e
    | .ok (.inl a) => State.walk2 s rd ipa fuel (level + 1) a
    | .ok (.inr l) => .ok l

/-- The stage-2 translation of a tenant's intermediate address (R351): by a walk from its root, or by what the caches may
hold of a former root's tables (R352); the spec leaves open which. A tenant without a second-stage root has none (R394). -/
def State.stage2 (s : State) (rd : Reader) (tenant : BitVec 4) (ipa : BitVec 52) : Except WalkStop Leaf :=
  let now := if rd.root tenant = 0 then .error (.invalid true ipa) else s.walk2 rd ipa 4 0 (rd.root tenant)
  match rd.salt, (rd.former tenant ipa).filterMap fun root => (s.walk2 rd ipa 4 0 root).toOption with
  | some salt, l :: ls =>
    (now :: (l :: ls).map .ok).getD
      (Config.pickTranslation (salt * 2 ^ 64 + 2 ^ 63 + ipa.toNat / 4096) % (ls.length + 2)) now
  | _, _ => now

/-- The system address that a leaf gives an address. -/
def Leaf.target (l : Leaf) (a : Nat) : BitVec 52 := BitVec.ofNat 52 (l.addr + a % 2 ^ l.bits)

/-- Walks stage 1 from a table at an intermediate address (R346): each table is translated through stage 2, which must
grant R (R349); one whose system address names no memory is a fault of stage 2 (R390). -/
def State.walk1 (s : State) (rd : Reader) (tenant : BitVec 4) (va : VA) : Nat → Nat → BitVec 52 → Except WalkStop Leaf
  | 0, _, _ => .error (.invalid false 0)
  | fuel + 1, level, table =>
    let at1 := table + BitVec.ofNat 52 (8 * levelIndex false level va.toNat)
    match s.stage2 rd tenant at1 with
    | .error e => .error e
    | .ok l2 =>
      if !l2.r then .error (.perm true at1) else
      match s.readPte rd false level (l2.target at1.toNat) 0 (.invalid true at1) (.invalid false 0) with
      | .error e => .error e
      | .ok (.inl a) => State.walk1 s rd tenant va fuel (level + 1) a
      | .ok (.inr l) => .ok l

/-! ### Accesses -/

/-- The kinds of access (R227, R349); an atomic leaves the check of mailbox pages to its own rule (R332). -/
inductive Access where
  | read | write | fetch | rmw | atomic
  deriving DecidableEq, Repr

/-- CAUSE.ACC of an access (R227). -/
def Access.bits : Access → BitVec 2
  | .read => 0 | .write => 1 | .fetch => 2 | .rmw | .atomic => 3

/-- Whether a leaf grants what an access needs (R349). -/
def Leaf.grants (l : Leaf) : Access → Bool
  | .read => l.r | .write => l.w | .fetch => l.x | .rmw | .atomic => l.r && l.w

/-- The context that an access is made in: tenant, stage-1 root, privilege, issuing core, fabric key, whether a candle is
open, and the agent that accesses. -/
structure Space where
  tenant : BitVec 4
  root   : BitVec 52
  user   : Bool
  core   : Nat
  key    : BitVec 8
  candle : Bool
  agent  : Nat
  deriving DecidableEq, Repr

/-- The class of an OC field (R315). -/
def classOf (oc : BitVec 2) : PageClass :=
  match oc.toNat with | 0 => .strong | 1 => .releaseConsistent | _ => .unordered

/-- The target of a window address (R239): a scratchpad or mailbox location; none outside the windows' ranges. -/
def windowLoc (core : Nat) (va : VA) : Option Loc :=
  let a := va.toNat
  let cl := clusterOf core
  if 0xFF0000000000 ≤ a && a < 0xFF0006000000 then
    let o := a - 0xFF0000000000
    some (.spm (192 * cl + o / 0x80000) (o % 0x80000))
  else if 0xFF8000000000 ≤ a && a < 0xFF8000080000 then some (.spm core (a - 0xFF8000000000))
  else if 0xFFC000000000 ≤ a && a < 0xFFC000018000 then
    let o := a - 0xFFC000000000
    some (.mbox (24 * cl + o / 0x1000) (o % 0x1000))
  else none

/-- Whether an address is in the range of the windows (R239). -/
def inWindows (va : VA) : Bool := 0xFF0000000000 ≤ va.toNat
/-- Whether an address is in the local alias (R239). -/
def inAlias (va : VA) : Bool := 0xFF8000000000 ≤ va.toNat && va.toNat < 0xFF8000080000

/-- The default leaf of the local alias (R241). -/
def aliasLeaf : Leaf :=
  { addr := 0, bits := 12, r := true, w := true, x := false, u := true, mh := false, oc := 1, geo := 2, fmt := 0,
    sp := false }

/-- The scratchpad size of a core (R242). -/
def State.spmSize (s : State) (c : Nat) : Nat :=
  let x := s.core c
  if x.held = [] then 0 else x.units * 32768

/-- Whether an octet lists another in its permission table (R245). -/
def State.permits (s : State) (o q : Nat) : Bool := (s.octet o).perm.getLsbD q

/-- A translation fault (R348), cause 0x04. -/
def faultTranslation (va : VA) (acc : Access) (s2 : Bool) (ipa : BitVec 52) : TrapInfo :=
  { code := 0x04, badv := va.zeroExtend 64, s2 := s2, acc := acc.bits, ipa := if s2 then some ipa else none }
/-- A permission fault (R349), cause 0x05. -/
def faultPermission (va : VA) (acc : Access) (s2 : Bool) (ipa : BitVec 52) : TrapInfo :=
  { code := 0x05, badv := va.zeroExtend 64, s2 := s2, acc := acc.bits, ipa := if s2 then some ipa else none }
/-- A message-permission trap (R242, R412), cause 0x1C. -/
def faultMessage (va : VA) : TrapInfo := { code := 0x1C, badv := va.zeroExtend 64 }

/-- The candle-class trap of a walk that would read a table of unbounded class (R353). -/
def faultFar (va : VA) : TrapInfo := { code := 0x11, badv := va.zeroExtend 64 }

/-- The fault of a walk that stopped. -/
def walkFault (va : VA) (acc : Access) : WalkStop → TrapInfo
  | .invalid s2 ipa => faultTranslation va acc s2 ipa
  | .perm s2 ipa => faultPermission va acc s2 ipa
  | .far => faultFar va

/-- The peer checks of R412: a valid key of the tenant, and a route. -/
def State.peerOpen (s : State) (sp : Space) (pkg : Nat) : Bool :=
  let k : FabricKey := aget {} s.fab.keys sp.key.toNat
  k.valid && k.tenant == sp.tenant && (aget (0 : W64) s.fab.routes pkg) != 0

/-- Whether the default leaf stands for a page of the local alias that the tables do not map (R241). -/
def State.aliasDefault (s : State) (sp : Space) (va : VA) : Bool :=
  inAlias va && va.toNat - 0xFF8000000000 < s.spmSize sp.core

/-- The outcome of a stage-1 leaf for an access (R239 to R242, R349, R351, R412). -/
def State.placeOf (s : State) (rd : Reader) (sp : Space) (acc : Access) (va : VA) (l : Leaf) : Except TrapInfo Place :=
  let mk (k : Nat) (ipage : Option Nat) : Except TrapInfo Place :=
    .ok { key := k, fmt := l.fmt, geo := l.geo, cls := classOf l.oc, mh := l.mh, ipage := ipage }
  if !(l.grants acc) || (sp.user && !l.u) then .error (faultPermission va acc false 0) else
  if inWindows va then
    match windowLoc sp.core va with
    | some (.spm c off) =>
      if !s.permits (octetOf sp.core) (octetOf c) && c != sp.core then .error (faultMessage va)
      else if off ≥ s.spmSize c then .error (faultPermission va acc false 0)
      else mk (Loc.spm c off).key none
    | some (.mbox q off) =>
      if !s.permits (octetOf sp.core) q then .error (faultMessage va)
      else if acc == .write || acc == .rmw then .error (faultPermission va acc false 0)
      else mk (Loc.mbox q off).key none
    | _ => .error (faultTranslation va acc false 0)
  else
    let ipa : BitVec 52 := l.target va.toNat
    match s.stage2 rd sp.tenant ipa with
    | .error e => .error (walkFault va acc e)
    | .ok l2 =>
      if !(l2.grants acc) then .error (faultPermission va acc true ipa) else
      match s.sysLoc (l2.target ipa.toNat) with
      | none => .error (faultTranslation va acc true ipa)
      | some (.peer pkg off) =>
        if s.peerOpen sp pkg then mk (Loc.peer pkg off).key (some (ipa.toNat / 4096)) else .error (faultMessage va)
      | some loc => mk loc.key (some (ipa.toNat / 4096))

/-- Translates one address as a reader sees the tables: the place, or the fault in the order of R349. -/
def State.placeBy (s : State) (rd : Reader) (sp : Space) (acc : Access) (va : VA) : Except TrapInfo Place :=
  if inWindows va && (windowLoc sp.core va).isNone then .error (faultTranslation va acc false 0) else
  match s.walk1 rd sp.tenant va 4 0 sp.root with
  | .ok l => s.placeOf rd sp acc va l
  | .error (.invalid false _) =>
    if s.aliasDefault sp va then s.placeOf rd sp acc va aliasLeaf
    else .error (faultTranslation va acc false 0)
  | .error e => .error (walkFault va acc e)

/-! ### Translations that caches hold (R352) -/

/-- Whether a page is among those that an invalidation covers. -/
def Cover.inPages (c : Cover) (n : Nat) : Bool := match c.page with | none => true | some q => q.1 ≤ n && n < q.1 + q.2

/-- Whether an invalidation that a cover records covers a table entry read in a space for an address (R354 to R356). -/
def Cover.covers (c : Cover) (sp : Space) (va : VA) (r : TableRead) : Bool :=
  c.tenant == sp.tenant &&
    (if r.stage2 then c.stage2 && c.inPages r.ipage
     else !c.stage2 && c.die == dieOf sp.core && c.root == sp.root && c.inPages (va.toNat / 4096))

/-- An 8-byte entry as an agent's strong load reads it (R352). -/
def State.entrySeen (s : State) (b k : Nat) : Nat := ofBytes ((span k 8).map (s.visible b 0))

/-- Whether a launch of a space has been held since before a step on a core of the space's cluster, whose second-level TLB may
hold what its walks have given (R241, R352). -/
def State.heldBefore (s : State) (sp : Space) (step : Nat) : Bool :=
  s.cores.any fun e => clusterOf e.1 == clusterOf sp.core &&
    e.2.heldAt.any fun h => h.1 == sp.tenant && h.2.1 == sp.root && h.2.2 ≤ step

/-- The older values of an entry that an access may still meet, newest first: those before writes that no completed
invalidation has covered since. A cache holds valid entries only (R352), or the default leaf that an invalid one of the local
alias stood for while the launch was held (R241); the value before a thread's own write may be met whether valid or not
(R235). -/
def State.olderEntries (s : State) (sp : Space) (va : VA) (r : TableRead) : List Nat :=
  let dflt (w : WriteRec) : Bool := s.aliasDefault sp va && !r.stage2 && s.heldBefore sp w.made
  s.hist.zipIdx.filterMap fun w =>
    if bytesMeet w.1.old r.key 8 && !(w.1.covers.any fun c => c.covers sp va r) then
      let e := s.entryBefore (w.2 + 1) r.key
      if !w.1.firm || dflt w.1 || parsePte r.stage2 r.level e != .invalid then some e else none
    else none

/-- The locations of the second-stage entries that a walk of an intermediate address reads. -/
def State.read2 (s : State) (rd : Reader) (ipa : BitVec 52) : Nat → Nat → BitVec 52 → List Nat
  | 0, _, _ => []
  | fuel + 1, level, table =>
    let at_ := table + BitVec.ofNat 52 (8 * levelIndex true level ipa.toNat)
    ((s.sysLoc at_).map Loc.key).toList ++
      match s.readPte rd true level at_ (ipa.toNat / 4096) (.invalid true ipa) (.invalid true ipa) with
      | .ok (.inl a) => State.read2 s rd ipa fuel (level + 1) a
      | _ => []

/-- The locations of the entries of both stages that a stage-1 walk reads. -/
def State.read1 (s : State) (rd : Reader) (tenant : BitVec 4) (va : VA) : Nat → Nat → BitVec 52 → List Nat
  | 0, _, _ => []
  | fuel + 1, level, table =>
    let at1 := table + BitVec.ofNat 52 (8 * levelIndex false level va.toNat)
    s.read2 rd at1 4 0 (rd.root tenant) ++
      match s.stage2 rd tenant at1 with
      | .error _ => []
      | .ok l2 =>
        let at_ := l2.target at1.toNat
        ((s.sysLoc at_).map Loc.key).toList ++
          match s.readPte rd false level at_ 0 (.invalid true at1) (.invalid false 0) with
          | .ok (.inl a) => State.read1 s rd tenant va fuel (level + 1) a
          | _ => []

/-- The salt of the free choices of an access at an address. -/
def State.xlateSalt (s : State) (va : VA) : Nat := s.nd * 2 ^ 64 + va.toNat

/-- An entry that a walk reads or that a cache holds: the spec leaves open which (R352). -/
def State.entryMet (s : State) (sp : Space) (va : VA) (r : TableRead) : Nat :=
  let now := s.entrySeen sp.agent r.key
  match s.olderEntries sp va r with
  | [] => now
  | es => (now :: es).getD (Config.pickTranslation (s.xlateSalt va * 2 ^ 64 + r.key) % (es.length + 1)) now

/-- Whether the caches hold the valid entries of unbounded class that an access of a candle meets, so that no such table is
read: which entries they hold is left open (R352, R353; DEDUCED, log 101). -/
def State.tlbHit (s : State) (va : VA) : Bool := Config.pickTranslation (s.xlateSalt va * 2 ^ 64 + 2) % 2 == 1

/-- The root of a tenant's second stage (R391). -/
def State.s2root (s : State) (tenant : BitVec 4) : BitVec 52 := aget 0 s.regs.s2root tenant.toNat

/-- The former roots of a tenant's second stage, newest first, whose translations of an intermediate address no completed
invalidation has covered since (R352, R356, R398). -/
def State.formerRoots (s : State) (tenant : BitVec 4) (ipa : BitVec 52) : List (BitVec 52) :=
  (s.oldRoots.filter fun o => o.tenant == tenant && !o.covers.any fun c => c.inPages (ipa.toNat / 4096)).map (·.root)

/-- How an access sees the tables. -/
def State.reader (s : State) (sp : Space) (va : VA) : Reader :=
  { entry := s.entryMet sp va, root := s.s2root, former := s.formerRoots, near := sp.candle, cached := s.tlbHit va,
    salt := some (s.xlateSalt va) }

/-- Translates one address (R352): by the tables as they stand, or by translations and entries that caches may hold
since the last invalidation that covers them; the spec leaves open which. -/
def State.place (s : State) (sp : Space) (acc : Access) (va : VA) : Except TrapInfo Place :=
  s.placeBy (s.reader sp va) sp acc va

/-- The locations of the table entries in other packages that the walk of an address reads (R413). -/
def State.peerTables (s : State) (sp : Space) (va : VA) : List Nat :=
  let rd := s.reader sp va
  (s.read1 rd sp.tenant va 4 0 sp.root ++
    match s.walk1 rd sp.tenant va 4 0 sp.root with
    | .ok l => if inWindows va then [] else s.read2 rd (l.target va.toNat) 4 0 (rd.root sp.tenant)
    | .error _ => []).filter keyIsPeer

/-- How many of the newest writes may be left aside in reading an entry as a cache may still hold it: none from the newest on
that a completed invalidation has covered (R352). -/
def State.entryDepth (s : State) (sp : Space) (va : VA) (r : TableRead) : Nat :=
  match s.hist.findIdx? fun w => bytesMeet w.old r.key 8 && w.covers.any fun c => c.covers sp va r with
  | some i => i
  | none => s.hist.length

/-- The largest mapping of a page that a walk gives with the tables as they stand, or stood before a write of the history that no
completed invalidation has covered since: the whole mapping is invalidated (R235, R356), and where the slots of a block differ
that of any which may serve (R350). `stage2` is the stage whose mapping it is. -/
def State.largestMapping (s : State) (stage2 : Bool) (sp : Space) (va : VA) (page : Nat)
    (leaf : Reader → Except WalkStop Leaf) : Nat × Nat :=
  let bits := (upto (s.hist.length + 1)).foldl (fun b n =>
    match leaf { entry := fun r => s.entryBefore (Nat.min n (s.entryDepth sp va r)) r.key, root := s.s2root,
                 former := fun _ _ => [], near := false, cached := true, salt := none, wide := some stage2 } with
    | .ok l => if b < l.bits then l.bits else b
    | .error _ => b) 12
  let size := 2 ^ (bits - 12)
  (page / size * size, size)

/-- Translates the `n` bytes from an address, page by page in ascending order (R100); the first part that faults is
reported. `fuel` bounds the number of pages. -/
def State.parts (s : State) (sp : Space) (acc : Access) : Nat → VA → Nat → Except TrapInfo (List Part)
  | 0, _, _ => .ok []
  | fuel + 1, va, n =>
    if n = 0 then .ok [] else
    let room := 4096 - va.toNat % 4096
    let k := if n ≤ room then n else room
    match s.place sp acc va with
    | .error e => .error e
    | .ok p =>
      match State.parts s sp acc fuel (va + BitVec.ofNat 48 k) (n - k) with
      | .error e => .error e
      | .ok rest => .ok ({ va := va, n := k, at_ := p } :: rest)

/-- The location numbers of parts, byte by byte. -/
def partKeys (ps : List Part) : List Nat := ps.flatMap fun p => span p.at_.key p.n

/-- The strongest of the classes of parts (R316). -/
def strongestClass (ps : List Part) : PageClass :=
  ps.foldl (fun c p => match c, p.at_.cls with
    | .strong, _ | _, .strong => .strong
    | .releaseConsistent, _ | _, .releaseConsistent => .releaseConsistent
    | _, _ => .unordered) .unordered

/-- The class of an access: the strongest of its parts' classes (R316); registers of a mailbox page are of class S whatever
the entry's class (R254). -/
def partsClass (ps : List Part) : PageClass :=
  if (partKeys ps).any keyIsMboxReg then .strong else strongestClass ps

/-- The classes of the pages of parts, byte by byte. -/
def partClasses (ps : List Part) : List PageClass :=
  ps.flatMap fun p => (upto p.n).map fun i => if keyIsMboxReg (p.at_.key + i) then .strong else p.at_.cls

/-- The translations that parts were made with (R354). -/
def viaOf (sp : Space) (ps : List Part) : List Via :=
  ps.map fun p => { die := dieOf sp.core, tenant := sp.tenant, root := sp.root, page := p.va.toNat / 4096, ipage := p.at_.ipage }

/-- Whether an invalidation covers a translation (R354 to R356). -/
def Cover.holds (c : Cover) (v : Via) : Bool :=
  c.tenant == v.tenant &&
    (if c.stage2 then v.ipage.any c.inPages else c.die == v.die && c.root == v.root && c.inPages v.page)

/-- The space that the issuing thread's accesses are made in. -/
def State.space (s : State) : Space :=
  let x := s.ctx
  { tenant := x.tenant, root := x.tbase, user := x.st.pl == 0, core := s.here, key := x.key, candle := x.st.cd != 0,
    agent := s.cur }

/-! ### The lamplighters' tree (R450) -/

/-- Reads an entry of the LLROOT tree: FMT and GEO of a leaf are ignored (R450). -/
def llPte (level e : Nat) : Pte :=
  parsePte false level (if bit e 1 then e - field e 55 52 * 2 ^ 52 - field e 11 10 * 2 ^ 10 else e)

/-- Walks the LLROOT tree, whose table addresses are system addresses. -/
def State.walkLl (s : State) (va : VA) : Nat → Nat → BitVec 52 → Option (Leaf × Nat)
  | 0, _, _ => none
  | fuel + 1, level, table =>
    match s.sysLoc (table + BitVec.ofNat 52 (8 * levelIndex false level va.toNat)) with
    | none => none
    | some loc =>
      match llPte level (s.entrySeen (Agent.num .package) loc.key) with
      | .invalid => none
      | .table a => State.walkLl s va fuel (level + 1) (BitVec.ofNat 52 a)
      | .leaf l =>
        match s.sysLoc (BitVec.ofNat 52 (l.addr + va.toNat % 2 ^ l.bits)) with
        | none => none
        | some loc => some (l, loc.key)

/-- The location of a lamplighter's address: it must grant R, and W where the lamplighter writes (R450). -/
def State.llLoc (s : State) (va : VA) (write : Bool) : Option Nat :=
  if s.regs.llroot = 0 then none else
  match s.walkLl va 4 0 s.regs.llroot with
  | some (l, k) => if l.r && (l.w || !write) then some k else none
  | none => none

end Sys2Proof.Machine
end

