-- ==== Sys2Proof/Machine/Mem.lean ====
section
/-! DEFINITION. Reading and writing memory: held and replayed stores as their thread sees them (R129, R326), mailbox
registers (R254), writes and their history (R318 to R320), messages (R308), full bits (R158), watched lines (R294). -/

namespace Sys2Proof.Machine
open Sys2Proof

/-! ### Held and waiting stores (R58, R129, R326) -/

/-- The bytes that a thread's stores give a location or an address before memory holds them, each with the step of its
store: held and published stores, and the replay queue's entries that no retry has performed yet. -/
def Slot.waitingBytes (x : Slot) (va k : Nat) : List (Nat × BitVec 8) :=
  ((x.drain ++ x.pubq).filterMap fun h => (bytesAt h.bytes k).map (h.made, ·))
    ++ x.replay.filterMap fun r =>
      if !r.written && r.va.toNat ≤ va && va < r.va.toNat + r.bytes.length then
        r.bytes[va - r.va.toNat]?.map (r.made, ·) else none

/-- The newest of some bytes by the step of their stores. -/
def newestByte (bs : List (Nat × BitVec 8)) : Option (Nat × BitVec 8) :=
  bs.foldl (fun m b => match m with | some a => if a.1 ≤ b.1 then some b else m | none => some b) none

/-- A byte as its thread observes it (R58): the newest of its own stores that still waits, else what it reads of memory. -/
def Slot.overlay (x : Slot) (va k : Nat) (b : BitVec 8) : BitVec 8 :=
  match newestByte (x.waitingBytes va k) with | some v => v.2 | none => b

/-! ### Mailbox registers (R254) -/

/-- The value of the mailbox register that holds an offset; none elsewhere. -/
def State.mboxReg (s : State) (o off : Nat) : Option W64 :=
  let c := off / 8 % 4
  let ch := (s.octet o).chan c
  if 0x100 ≤ off && off < 0x120 then some (ch.wp.zeroExtend 64)
  else if 0x120 ≤ off && off < 0x140 then some (flagBit ch.d ++ 0#15 ++ ch.done)
  else if 0x140 ≤ off && off < 0x160 then some (ch.dt.zeroExtend 64)
  else if 0x160 ≤ off && off < 0x180 then some (ch.dp.zeroExtend 64)
  else none

/-- The copy-hart microcode that was verified at the last reset: of the three images, boot firmware, lamplighter firmware and
microcode, the third (R253, R409). -/
def State.microcode (s : State) : Nat := s.images.getD 2 2

/-- A byte of a mailbox page (R253, R254): the microcode is for supervisor loads. -/
def State.mboxByte (s : State) (user : Bool) (k : Nat) : BitVec 8 :=
  let off := (k - mboxBase) % 0x1000
  if off ≥ 0x800 then (if user then 0 else Config.microcode s.microcode (off - 0x800))
  else match s.mboxReg (mboxOctet k) off with
    | some v => BitVec.ofNat 8 (v.toNat / 2 ^ (8 * (off % 8)))
    | none => 0

/-! ### Writing -/

/-- The canonical form of memory: addresses strictly rising, and no entry equal to what an unlisted address reads as. -/
def Memory.wf (m : Memory) : Bool := awf unlistedByte m

/-- Sets one byte. -/
def State.setByte (s : State) (k : Nat) (v : BitVec 8) : State := { s with mem := aset unlistedByte s.mem k v }

/-- Sets bytes. -/
def setBytes (m : Memory) : Bytes → Memory
  | [] => m
  | b :: bs => setBytes (aset unlistedByte m b.1 b.2) bs

/-- A write to a watched line reaches the lamplighter as a snoop (R294). -/
def State.snoop (s : State) (bs : Bytes) : State :=
  let hit := (s.nodes.filter fun n => !n.gone && bytesMeet bs n.loc 256).filter fun n => !s.snoops.contains (n.die, n.rcb)
  match hit with
  | [] => s
  | _ => { s with snoops := s.snoops ++ hit.map fun n => (n.die, n.rcb) }

/-- Who writes, and with respect to whom the write is performed at once (R320); `bytewise` for an access that is
single-copy atomic only for each byte (R101), `atHome` for one that a peer package performs as the home of its line (R414),
`reach` the scope at which it is to be performed in one instant later on (R320). A copy hart writes for the thread of a command,
and a hart or a lamplighter for a launch's tenant under its key (R418). -/
structure Author where
  writer : Option Nat
  agent  : Nat
  upto   : Scope
  done   : Bool
  kind   : WriteKind := .access
  unord  : Bool := false
  launch : Option Nat := none
  born   : Nat := 0
  firm   : Bool := false
  va     : Option VA := none
  via    : List Via := []
  bytewise : Bool := false
  atHome : Bool := false
  reach  : Option Scope := none
  copy   : Option CopyOwner := none
  tenant : BitVec 4 := 0
  key    : BitVec 8 := 0
  deriving DecidableEq, Repr

/-- The author of another agent's write, performed for every agent at once. -/
def Author.agentNow (agent : Nat) : Author := { writer := none, agent := agent, upto := .system, done := true }

/-- The author of a host's write: every device copy of the line is invalidated before it completes, so that no stale copy
serves a load (R396). -/
def Author.host : Author := { Author.agentNow (Agent.num .host) with firm := true }

/-- The homes of a binding whose partitions a write meets; the pages of the partitions stand in ascending order. -/
def Binding.partitionsMet (b : Binding) (bs : Bytes) : List Nat :=
  ((b.extents.zip (upto b.extents.length)).filter fun e => bytesMeet bs e.1.1 e.1.2).map fun e => 4096 * e.2 / b.csz

/-- A write to a case partition by another agent than the case instructions spoils the partition (R372). -/
def State.spoil (s : State) (bs : Bytes) : State :=
  match s.bindings with
  | [] => s
  | _ => { s with bindings := s.bindings.map fun b => { b with spoilt := (b.partitionsMet bs).foldl nput b.spoilt } }

/-- The parts of a write that are performed each for itself: its aligned 8-byte words, or its bytes (R101). -/
def chunksOf (bytewise : Bool) : Bytes → List Bytes
  | [] => []
  | b :: bs =>
    match chunksOf bytewise bs with
    | (c :: cs) :: rest => if !bytewise && c.1 / 8 == b.1 / 8 then (b :: c :: cs) :: rest else [b] :: (c :: cs) :: rest
    | rest => [b] :: rest

/-- The record of a part of a write in the history. -/
def State.recordOf (s : State) (a : Author) (bs : Bytes) : WriteRec :=
  { old := bs.map fun b => (b.1, s.content b.1), new := bs, writer := a.writer, agent := a.agent, upto := a.upto, done := a.done,
    seenBy := [], kind := a.kind, unord := a.unord, launch := a.launch, born := a.born, firm := a.firm,
    va := a.va, via := a.via, made := s.nd, reach := a.reach }

/-- The requests that a write makes for its author, but for line and destination: a thread's and a copy command's under the key
of their launch (R418). -/
def State.requestOf (s : State) (a : Author) : Outstanding :=
  let o : Outstanding := { tag := 0, addr := 0, dest := 0, slot := none, launch := a.launch.getD 0, tenant := a.tenant, key := a.key,
                           sent := s.cycle, born := a.born }
  match agentOf a.agent, a.writer with
  | .thread _, some t => { o with slot := some t, group := some (s.slot t).gidx, tenant := (s.slot t).tenant, key := (s.slot t).key }
  | .thread _, none => let f := (s.launch o.launch).f; { o with tenant := f.ten, key := f.key }
  | .hart _, _ => { o with copy := a.copy }
  | .lamp d, _ => { o with lamp := some d, born := s.nd }
  | .package, _ | .host, _ | .peer _, _ => { o with born := s.nd }

/-- What a write at a location does to the cached copies of its line: a thread's L1 takes it, another agent's write and one
performed at a line's home invalidate it; copies that other packages hold are called back, and the host's and the package's
writes are performed once that has been answered (R358, R396, R413, R414). -/
def State.touchLine (s : State) (a : Author) (k : Nat) : State :=
  match agentOf a.agent with
  | .thread t =>
    let s1 := s.callBack k (s.requestOf a) none
    if a.writer.isSome && !a.atHome then s1.writeLine t (coreOf t) (lineOf k) else s1.dropLine (lineOf k)
  | .peer p => (s.callBack k (s.requestOf a) (some p)).acknowledged.dropLine (lineOf k)
  | .host | .package => (s.callBack k (s.requestOf a) none).acknowledged.dropLine (lineOf k)
  | .hart _ | .lamp _ => (s.callBack k (s.requestOf a) none).dropLine (lineOf k)

/-- Locations outside the package are written: from then on they hold what was written. -/
def Fabric.wroteAt (f : Fabric) (keys : List Nat) : Fabric :=
  match keys.filter keyIsUnbounded with
  | [] => f
  | ks => { f with wrote := ks.foldl nput f.wrote }

/-- A new era: what others write to memory outside the package may be read from now on, but for lines that a cache here holds
dirty and for writes that have not been performed yet. -/
def State.newEra (s : State) : State :=
  let kept (k : Nat) : Bool := s.lines.any (fun r => r.line == lineOf k && r.isDirty)
    || (s.l2.any fun e => e.2.line == lineOf k && e.2.dirty) || s.hist.any fun w => !w.done && (bytesAt w.new k).isSome
  { s with fab := { s.fab with era := s.nd + 1, wrote := s.fab.wrote.filter kept } }

/-- Performs a write of bytes: memory, the history, cached lines, watched lines. -/
def State.write (s0 : State) (a : Author) (bs : Bytes) : State :=
  let s := s0.spoil bs
  let s1 := (firstKeys (bs.map (·.1))).foldl (fun s k => s.touchLine a k) s
  let s2 : State := { s1 with mem := setBytes s1.mem bs, fab := s1.fab.wroteAt (bs.map Prod.fst) }
  ({ s2 with hist := (chunksOf a.bytewise bs).foldl (fun h c => s.recordOf a c :: h) s2.hist } : State).snoop bs

/-- The bytes of some locations leave the history of writes: every agent reads what memory then holds. -/
def State.forget (s : State) (p : Nat → Bool) : State :=
  let keep (bs : Bytes) : Bytes := bs.filter fun b => !p b.1
  match s.hist with
  | [] => s
  | _ => { s with hist := s.hist.map fun w => { w with old := keep w.old, new := keep w.new } }

/-- The pairs of locations and bytes. -/
def zipBytes (ks : List Nat) (bs : List (BitVec 8)) : Bytes := ks.zip bs

/-- Whether a write is to a peer package. -/
def WriteRec.toPeer (w : WriteRec) : Bool := w.new.any fun b => keyIsPeer b.1

/-- Whether a write is one that a FENCE waits for: not of a matrix operation or an unretired sequence (R325). -/
def WriteRec.fenced (w : WriteRec) : Bool := w.kind != .captured && w.kind != .panel

/-- Whether a write of the thread, issued before a step, has not yet been performed at a scope, as a FENCE or a release asks: a
FENCE takes in the writes to U pages (R315, R325). Only system scope waits for peer accesses (R415). -/
def State.unfinished (s : State) (t born : Nat) (sc : Scope) (fence : Bool) : Bool :=
  s.hist.any fun w => w.writer == some t && w.born < born && (if fence then w.fenced else !w.unord)
    && (sc == .system || !w.toPeer) && !s.performedIn w sc t

/-- An ordering point of an agent (R319): the writes performed with respect to it, of agents in the scope's
instance, are observed by its later ordered loads. -/
def State.orderPoint (s : State) (t : Nat) (sc : Scope) (fence : Bool) : State :=
  match s.hist with
  | [] => s
  | _ => { s with hist := s.hist.map fun w =>
      if w.visibleTo t && agentIn sc t w.agent && (sc != .thread || w.writer == some t) then
        if fence then (if w.seenFence.contains t then w else { w with seenFence := t :: w.seenFence })
        else (if w.seenAcquire.contains t then w else { w with seenAcquire := t :: w.seenAcquire })
      else w }

/-- A strong load of some locations leaves no older value of them for the later loads of its thread, of the writes that agents of
its scope's instance have made (R319). -/
def State.strongSeen (s : State) (t : Nat) (sc : Scope) (keys : List Nat) : State :=
  match s.hist with
  | [] => s
  | _ => { s with hist := s.hist.map fun w =>
      if w.visibleTo t && agentIn sc t w.agent then
        { w with seenAt := (keys.filter fun k => (bytesAt w.new k).isSome && !w.seenAt.contains (t, k)).map (t, ·) ++ w.seenAt }
      else w }

/-- A FENCE of any scope makes a thread's fetch observe its own earlier stores and those that an acquire of it has observed
(R49). -/
def State.fetchPoint (s : State) (t : Nat) : State :=
  match s.hist with
  | [] => s
  | _ => { s with hist := s.hist.map fun w =>
      if (w.writer == some t || w.seenAcquire.contains t) && !w.seenFetch.contains t then
        { w with seenFetch := t :: w.seenFetch } else w }

/-! ### How writes spread (R135, R320, R327) -/

/-- Whether two writes are of one thread. -/
def WriteRec.sameThread (v w : WriteRec) : Bool :=
  match w.writer with | some t => v.writer == some t | none => v.writer.isNone && v.agent == w.agent

/-- Whether write `v`, earlier in the coherence order than `w`, must be performed with respect to an agent before `w` is:
the published stores of a thread in their order and before the stores that follow them (R135), retried stores of one page in
theirs (R327), the rows of an MDRAIN in theirs (R217). The 8-byte words of one published entry reach an agent in ascending order:
the spec leaves their order open (DESIGN CHOICE, log 113). -/
def WriteRec.precedes (v w : WriteRec) : Bool :=
  v.sameThread w &&
    ((v.kind == .published && (w.kind == .published || v.born < w.born))
      || (v.kind == .retried && w.kind == .retried && v.via.any fun a => w.via.any fun b => a.page == b.page)
      || (v.kind == .drained && w.kind == .drained && v.born == w.born && v.va != w.va))

/-- Whether a write may become performed for one more agent. -/
def State.maySpread (s : State) (i b : Nat) (w : WriteRec) : Bool :=
  (s.hist.drop (i + 1)).all fun v => !v.precedes w || v.performedAt b

/-- The agents that a write has been performed with respect to one by one, or that exist in the package or about it. -/
def State.watchers (s : State) (w : WriteRec) : List Nat :=
  w.seenBy ++ s.agentsIn .system w.agent ++ [Agent.num .package, Agent.num .host]

/-- Whether no agent sees two writes yet, so that their order may still be either (R318). -/
def State.apart (s : State) (v w : WriteRec) : Bool :=
  !v.done && !w.done && (s.watchers v ++ s.watchers w).all fun b => !(v.visibleTo b && w.visibleTo b)

/-- Whether the `i`-th newest write may still come after every newer write to its bytes in their coherence order: no agent sees
it and one of them (R318); of a write that is single-copy atomic only for each byte, each byte for itself (R101). -/
def State.mayFollow (s : State) (i : Nat) (w : WriteRec) : Bool :=
  let newer := s.hist.take i
  let above := newer.filter fun v => w.new.any fun b => (bytesAt v.new b.1).isSome
  !above.isEmpty && above.all (s.apart w) && newer.all fun v => !w.precedes v

/-- The bytes before the writes of a list, newest first, once the write `w` before them no longer is: the oldest of them that
meets a byte of it finds what `w` found. -/
def closeGap (w : WriteRec) : List WriteRec → List WriteRec
  | [] => []
  | v :: vs =>
    let oldest (k : Nat) : Bool := vs.all fun u => (bytesAt u.new k).isNone
    { v with old := v.old.map fun b => if oldest b.1 then (b.1, (bytesAt w.old b.1).getD b.2) else b } :: closeGap w vs

/-- A write becomes the newest to its bytes (R318): it finds what they held, and memory holds what it writes. -/
def State.moveLast (s : State) (i : Nat) (w : WriteRec) : State :=
  let w' := { w with old := w.new.map fun b => (b.1, s.content b.1) }
  { s with mem := setBytes s.mem w.new, hist := w' :: (closeGap w (s.hist.take i) ++ s.hist.drop (i + 1)) }

/-- A write whose place in the coherence order is still open takes its place now, behind the writes that have been
made meanwhile or before them: the spec leaves open which (DEDUCED, log 106). Its number in the history, and the state. -/
def State.placeLate (s : State) (i : Nat) (w : WriteRec) : Nat × State :=
  if s.mayFollow i w && Config.pick (s.nd * 2 ^ 64 + 2 ^ 60 + i) % 2 == 1 then (0, s.moveLast i w) else (i, s)

/-- The writes that agent `b` observes, and those that must precede them, become performed with respect to it. -/
def spreadTo (b : Nat) (p : WriteRec → Bool) : List WriteRec → List WriteRec → List WriteRec
  | [], _ => []
  | w :: ws, later =>
    if p w || later.any (fun v => w.precedes v) then
      (if w.performedAt b then w else { w with seenBy := b :: w.seenBy }) :: spreadTo b p ws (w :: later)
    else w :: spreadTo b p ws later

/-- The writes that meet a condition, and those that must precede them, are performed with respect to every agent; `firm` also
leaves no stale copy. -/
def finishIn (firm : Bool) (p : WriteRec → Bool) : List WriteRec → List WriteRec → List WriteRec
  | [], _ => []
  | w :: ws, later =>
    if p w || later.any (fun v => w.precedes v) then
      { w with done := true, firm := w.firm || (firm && p w) } :: finishIn firm p ws (w :: later)
    else w :: finishIn firm p ws later

/-- The writes of a thread that meet a condition are performed with respect to every agent, after those that must precede
them (R320). -/
def State.finishWrites (s : State) (t : Nat) (p : WriteRec → Bool) : State :=
  match s.hist with
  | [] => s
  | h => { s with hist := finishIn false (fun w => w.writer == some t && p w) h [] }

/-- Every write to some locations is performed with respect to an agent, which reads the latest one (R331). -/
def State.observeAll (s : State) (b : Nat) (keys : List Nat) : State :=
  match s.hist with
  | [] => s
  | h => { s with hist := spreadTo b (fun w => keys.any fun k => (bytesAt w.new k).isSome) h [] }

/-! ### Walks of tables in other packages (R413) -/

/-- The table entries in other packages that the walks of some parts in a space read come through the L2 of its die, by requests
of the accessing agent's (R413, R419). -/
def State.bringTables (s : State) (sp : Space) (ps : List Part) (o : Nat → Outstanding) : State :=
  let keys := ps.flatMap fun p => s.peerTables sp p.va
  (s.askPeers (dieOf sp.core) keys false o).takePeers (dieOf sp.core) keys sp.tenant sp.key

/-! ### Messages (R308) -/

/-- The counts of a launch on a core. -/
def Core.count (c : Core) (l : Nat) : Counts := aget {} c.counts l
/-- Counts one message of a launch as sent at a core. -/
def State.msgSent (s : State) (l c : Nat) : State :=
  let x := s.core c
  let n := x.count l
  s.setCore c { x with counts := aset {} x.counts l { n with sent := n.sent + 1 } }
/-- Counts one message of a launch as received at a core. -/
def State.msgRcvd (s : State) (l c : Nat) : State :=
  let x := s.core c
  let n := x.count l
  s.setCore c { x with counts := aset {} x.counts l { n with rcvd := n.rcvd + 1 } }
/-- A message and its reply between two cores. -/
def State.roundTrip (s : State) (l a b : Nat) : State :=
  if a == b then s else (((s.msgSent l a).msgRcvd l b).msgSent l b).msgRcvd l a

/-- The first location of each core's scratchpad that an access meets, one for each core. -/
def spmTargets (keys : List Nat) : List Nat :=
  keys.foldl (fun cs k => if keyIsSpm k && !cs.contains (spmCore k) then cs ++ [spmCore k] else cs) []

/-- The messages of a remote scratchpad access (R308). -/
def State.remoteMessages (s : State) (l core : Nat) (keys : List Nat) : State :=
  (spmTargets keys).foldl (fun s c => s.roundTrip l core c) s

/-! ### Full bits (R158) -/

/-- The full bit of the word that holds a scratchpad location. -/
def State.isFull (s : State) (k : Nat) : Bool := (s.core (spmCore k)).full.contains (spmOff k / 8)
/-- Sets the full bit of the word that holds a scratchpad location. -/
def State.setFull (s : State) (k : Nat) (b : Bool) : State :=
  let c := s.core (spmCore k)
  let w := spmOff k / 8
  s.setCore (spmCore k) { c with full := if b then nput c.full w else ndel c.full w }

/-! ### Events (R400, R401) -/

/-- Raises an event at its source. -/
def State.raise (s : State) (e : Event) : State := { s with events := s.events ++ [e] }

/-- A source number: the core's for its slots, then the lamplighters', then the package's own. -/
def dieSource (d : Nat) : Nat := 3072 + d
/-- The source of events of the whole package. -/
def packageSource : Nat := 3080

/-- An event of a slot. -/
def slotEvent (t : Nat) (x : Slot) (kind : Nat) (a b c : W64) : Event :=
  let k := coreOf t
  { kind := kind, pkg := false, tenant := x.tenant, a := a, b := b, c := c, die := dieOf k,
    cluster := clusterOf k % 4, core := cidx k, slot := t % 16, source := k }

/-- An event of a launch, raised by its lamplighter. -/
def launchEvent (l : Launch) (kind : Nat) (b c : W64) : Event :=
  { kind := kind, pkg := false, tenant := l.f.ten, a := l.rcb.zeroExtend 64, b := b, c := c, die := l.die,
    source := dieSource l.die }

/-- An event of the package. -/
def packageEvent (kind : Nat) (a b c : W64) : Event :=
  { kind := kind, pkg := true, a := a, b := b, c := c, source := packageSource }

end Sys2Proof.Machine
end

