-- ==== Sys2Proof/Machine/MatrixUnit.lean ====
section
/-! DEFINITION. The matrix unit at work (R199 to R202, R207, R208, R220, R222): formats, panels as an accepted operation reads
them, products, K-steps, the operation at the head of a core's unit. -/

namespace Sys2Proof.Machine
open Sys2Proof

/-- A row with lanes of `n` bits and a tag. -/
def laneRow (n : Nat) (tag : BitVec 4) (xs : List Nat) : Row := { tag := tag, elems := packLanes n xs, scales := 0 }

/-- Sets a row unless its bank is gated: a tile that its last user has left keeps nothing (R33). -/
def Core.setHeldRow (k : Core) (r : RowRef) (x : Row) : Core :=
  if (k.tile (rowTile r)).alloc && (k.tile (rowTile r)).banks.getLsbD (rowNum r / 16) then k.setRow r x else k

/-! ### Formats (R202, R204) -/

/-- What a tag gives a matrix operation: K-step, largest K, tile element size, accumulator tag. -/
structure MatInfo where
  step : Nat
  kmax : Nat
  size : ElemSize
  acc  : BitVec 4

/-- The table of R202. -/
def matInfo (tag : BitVec 4) : Option MatInfo :=
  match tag.toNat with
  | 1 => some ⟨32, 128, .e32, 3⟩
  | 5 | 6 => some ⟨32, 64, .e32, 7⟩
  | 7 => some ⟨16, 32, .e32, 7⟩
  | 8 => some ⟨8, 32, .e64, 8⟩
  | 9 | 10 | 11 | 12 | 14 => some ⟨32, 128, .e32, 7⟩
  | 13 => some ⟨64, 256, .e32, 7⟩
  | _ => none

/-- Columns of a tile's element size (R202). -/
def matCols : ElemSize → Nat
  | .e64 => 32
  | _ => 64

/-- Bytes of an element of the tags 1 and 5 to 8. -/
def elemBytes (tag : BitVec 4) : Nat := match tag.toNat with | 1 => 1 | 5 | 6 => 2 | 7 => 4 | 8 => 8 | _ => 1

/-- Bytes of a block in a page's geometry. -/
def blockSpan (tag : BitVec 4) (geo : BitVec 2) : Nat := blockBody tag + (if geo = 0 then 1 else 0)

/-- L(K) (R204); for a K that is no multiple of a block's elements, which check 11 of R205 alone judges, it is rounded down (DESIGN
CHOICE, log 115). -/
def panelLen (tag : BitVec 4) (geo : BitVec 2) (k : Nat) : Nat :=
  if blockTag tag then blockSpan tag geo * k / blockElems tag else k * elemBytes tag

/-- Bits of an element as the latch holds it. -/
def latchBits (tag : BitVec 4) : Nat := if tag = 13 then 4 else if blockTag tag then 8 else 8 * elemBytes tag

/-- The element codes and scale bytes of a row or column of a panel (R204, R206). -/
def panelRow (tag : BitVec 4) (geo : BitVec 2) (k : Nat) (bs : List (BitVec 8)) : List Nat × List (BitVec 8) :=
  if blockTag tag then
    let d := blockSpan tag geo
    let blocks := (upto (k / blockElems tag)).map fun b => (bs.drop (d * b)).take d
    let body (b : List (BitVec 8)) : List Nat :=
      let x := ofBytes (unpackBody tag (b.take (blockBody tag)))
      splitNat (latchBits tag) (blockElems tag) x
    (blocks.flatMap body, blocks.map fun b => if geo = 0 then b.getD (blockBody tag) 0 else neutralScale tag)
  else (splitNat (8 * elemBytes tag) k (ofBytes bs), [])

/-! ### Products (R92 to R94, R207, R208) -/

/-- A signalling NaN accumulator or element counts as quiet. -/
def FVal.quiet : FVal → FVal
  | .nan _ => .nan false
  | v => v

/-- What the exact sum of a K-step's products is, with NV where R93 raises it. -/
structure StepSum where
  val : FVal := .fin false 0 0
  nv  : Bool := false

/-- Adds one product to a K-step's sum (R93). -/
def StepSum.add (q : StepSum) (a b : FVal) : StepSum :=
  let sn := a == .nan true || b == .nan true
  if a.isNan || b.isNan then { val := .nan false, nv := q.nv || sn } else
  match exactMul a b with
  | none => { val := .nan false, nv := true }
  | some p =>
    match q.val, p with
    | .nan _, .inf _ => q
    | .nan _, _ => q
    | .inf x, .inf y => if x == y then q else { val := .nan false, nv := true }
    | .inf _, _ => q
    | .fin _ _ _, .inf y => { q with val := .inf y }
    | .fin n1 m1 e1, .fin n2 m2 e2 =>
      let r := exactSum n1 m1 e1 n2 m2 e2
      { q with val := .fin (r.1 < 0) r.1.natAbs r.2 }
    | .fin _ _ _, .nan _ => { q with val := .nan false }

/-- Whether infinities of both signs meet among the products of a K-step. -/
def infinitiesMeet (ps : List (FVal × FVal)) : Bool :=
  let infs := ps.filterMap fun p => match exactMul p.1 p.2 with | some (.inf x) => some x | _ => none
  infs.contains true && infs.contains false

/-- One K-step of the formats of R93: the new accumulator and the flags held with the tile. -/
def blockStep (acc : Nat) (scale : Option Int) (ps : List (FVal × FVal)) : Nat × Flags :=
  let old := (unpackF .f32 acc).quiet
  match scale with
  | none => (addF .f32 .rne old (.nan false))
  | some x =>
    let q : StepSum := ps.foldl (fun q p => StepSum.add q p.1 p.2) {}
    let val := match q.val with | .fin n m e => .fin (n && m != 0) m (e + x) | v => v
    let r := addF .f32 .rne old val
    (r.1, r.2 ||| (if q.nv || infinitiesMeet ps then flagNV else 0))

/-- The element values of a format, from a panel row's codes and scale bytes, with the block's exponent for each K-step;
the exponents of the formats without blocks are 0. -/
def stepValues (tag : BitVec 4) (step j : Nat) (row : List Nat × List (BitVec 8)) : List FVal × Option Int :=
  let codes := (row.1.drop (j * step)).take step
  if blockTag tag then
    let sc := row.2.getD j 0
    (codes.map (elemValue (elemFmtOf tag sc)), scaleExp tag sc)
  else (codes.map (unpackF (if tag = 6 then .bf16 else .f16)), some 0)

/-- One accumulator element over K-steps j0 to j1 − 1 (R92 to R94). -/
def accumulate (tag : BitVec 4) (step : Nat) (a b : List Nat × List (BitVec 8)) (js : List Nat) (acc : Nat) : Nat × Flags :=
  js.foldl (fun st j =>
    let r : Nat × Flags :=
      match tag.toNat with
      | 1 =>
        let xs := List.zipWith (fun x y => signed 8 x * signed 8 y) ((a.1.drop (j * step)).take step)
          ((b.1.drop (j * step)).take step)
        (wrapNat 32 (xs.foldl (· + ·) (st.1 : Int)), 0)
      | 7 | 8 =>
        let f : FFmt := if tag = 7 then .f32 else .f64
        (List.zip ((a.1.drop (j * step)).take step) ((b.1.drop (j * step)).take step)).foldl (fun s p =>
          let r := fmaF f .rne (unpackF f p.1) (unpackF f p.2) (unpackF f s.1)
          (r.1, s.2 ||| r.2)) (st.1, 0)
      | _ =>
        let x := stepValues tag step j a
        let y := stepValues tag step j b
        blockStep st.1 (match x.2, y.2 with | some p, some q => some (p + q) | _, _ => none) (List.zip x.1 y.1)
    (r.1, st.2 ||| r.2)) (acc, 0)

/-- Column `n` of a latch: codes and scale bytes. -/
def Latch.column (l : Latch) (n : Nat) : List Nat × List (BitVec 8) :=
  let w := latchBits l.tag
  let b := l.k / blockElems l.tag
  (splitNat w l.k (l.elems.toNat / 2 ^ (w * (n * l.k))),
   if blockTag l.tag then toBytes b (l.scales.toNat / 2 ^ (8 * (n * b))) else [])

/-- How an accepted operation reads (R165, R220, R319): for its thread, as of any instant since it was accepted. -/
def State.reading (s : State) (o : EngOp) : Reading :=
  { agent := o.slot, strong := o.strong, unord := o.unord, fresh := s.hist.length - o.since,
    limit := some (o.seq.getD o.born), captured := o.seq.map fun _ => o.born }

/-- How an accepted operation reads a location: an operand's page orders the reads of its bytes alone (R315). -/
def State.readingAt (s : State) (o : EngOp) (k : Nat) : Reading :=
  match o.pages.find? fun p => p.1 == k / 4096 with
  | some p => { s.reading o with strong := p.2 == .strong, unord := p.2 == .unordered }
  | none => s.reading o

/-- The bytes that an accepted operation reads: those of its thread's own stores that waited when it was accepted, else,
word by word, what its thread may observe (R207, R220). -/
def State.engineRead (s : State) (o : EngOp) (keys : List Nat) : List (BitVec 8) :=
  keys.map fun k => (bytesAt o.bytes k).getD
    (match s.hist with | [] => s.content k | _ => s.observeAt (s.readingAt o k) keys k)

/-- The locations of row `m` of an operation's A panel. -/
def aKeys (c : Nat) (o : EngOp) (m : Nat) : List Nat :=
  span ((Loc.spm c 0).key + (o.blk.aoff + m * o.blk.astr) % 0x80000) (panelLen o.fmt o.geo o.blk.k)
/-- The locations of column `n` of an operation's B panel. -/
def bKeys (c : Nat) (o : EngOp) (n : Nat) : List Nat :=
  span ((Loc.spm c 0).key + (o.blk.boff + n * o.blk.bstr) % 0x80000) (panelLen o.fmt o.geo o.blk.k)
/-- The locations that a round's transfer has still to write on an operation's core at AFWD: rows of the panel that it receives
(R211). -/
def EngOp.unsent (c spm : Nat) (o : EngOp) : List Nat :=
  match o.kind with
  | .mmrot | .mrotStep | .mrotSkew =>
    if o.written then [] else (upto 64).flatMap fun m =>
      ((span (o.blk.afwd + m * o.blk.astr) (panelLen o.fmt o.geo o.blk.k)).filter (· < spm)).map fun k => (Loc.spm c k).key
  | .vld | .vst | .mldb | .mma | .mzero | .mdrain | .wback => []
/-- The locations of the panel that an accepted matrix operation has still to read (R206, R207, R211). -/
def EngOp.unread (c : Nat) (o : EngOp) : List Nat :=
  match o.kind with
  | .mldb => (upto o.blk.n).flatMap (bKeys c o)
  | .mma | .mmrot => if o.mulDone then [] else (upto 64).flatMap (aKeys c o)
  | .mrotStep | .mrotSkew => if o.written then [] else (upto 64).flatMap (aKeys c o)
  | .vld | .vst | .mzero | .mdrain | .wback => []
/-- Row `m` of an operation's A panel as stored. -/
def State.aRow (s : State) (c : Nat) (o : EngOp) (m : Nat) : List (BitVec 8) := s.engineRead o (aKeys c o m)
/-- The A panel that a multiply reads into the A operand latch: for a round, it is passed on from there, each byte read
once (R199, R220). -/
def State.stagedPanel (s : State) (c : Nat) (o : EngOp) : Bytes :=
  (upto 64).flatMap fun m => (aKeys c o m).zip (s.aRow c o m)

/-- Performs K-steps up to `j1` of the multiply of an MMA or MMROT on its core (R207): the tile's rows, tags, flags and
KS. -/
def State.multiply (s : State) (c : Nat) (o : EngOp) (j1 : Nat) : State :=
  let b := o.blk
  let k := s.core c
  let info := (matInfo o.fmt).getD ⟨1, 0, .e32, 0⟩
  let w := if info.size = .e64 then 64 else 32
  let cols := (upto (matCols info.size)).map k.latch.column
  let js := span o.kdone (j1 - o.kdone)
  let fresh := b.zero && o.kdone == 0
  let rowResult (m : Nat) : List (Nat × Flags) :=
    let a := panelRow o.fmt o.geo b.k (s.aRow c o m)
    let old := lanesOf w (k.row (rowOf b.tile m)).elems
    (cols.zip old).zipIdx.map fun e =>
      if b.tri && ((e.2 : Int) > m + b.diag) then (b.mask.toNat % 2 ^ w, 0)
      else accumulate o.fmt info.step a e.1.1 js (if fresh then 0 else e.1.2)
  let rs := (upto 64).map fun m => (m, rowResult m)
  let k1 := rs.foldl (fun k r => k.setHeldRow (rowOf b.tile r.1) (laneRow w info.acc (r.2.map (·.1)))) k
  let fl : Flags := rs.foldl (fun f r => r.2.foldl (fun f e => f ||| e.2) f) 0
  let t := k1.tile b.tile
  s.setCore c (if t.alloc then k1.setTile b.tile { t with flags := t.flags ||| fl, ks := t.ks + BitVec.ofNat 32 (j1 - o.kdone) }
    else k1)

/-- K-steps of an operation. -/
def EngOp.steps (o : EngOp) : Nat := o.blk.k / ((matInfo o.fmt).getD ⟨1, 0, .e32, 0⟩).step

/-- Before a latch of another launch goes, the suspended threads that it belongs to keep it (R305). -/
def State.keepLatch (s : State) (c : Nat) (serial : BitVec 32) : State :=
  let v := (s.core c).latch
  if v.serial == serial then s else
  ((upto 16).map (16 * c + ·)).foldl (fun s t =>
    let x := s.slot t
    if (x.mode == .suspended || x.mode == .restoring) && x.serial == v.serial && x.latch.isNone then
      s.setSlot t { x with latch := some v } else s) s

/-- Fills the latch of a core from an MLDB's panel (R206). -/
def State.fillLatch (s : State) (c : Nat) (o : EngOp) : State :=
  let b := o.blk
  let col (n : Nat) : List Nat × List (BitVec 8) :=
    panelRow o.fmt o.geo b.k (s.engineRead o (bKeys c o n))
  let cs := (upto b.n).map col
  let l : Latch :=
    { tag := o.fmt, k := b.k, n := b.n, serial := (s.slot o.slot).serial,
      elems := BitVec.ofNat 65536 (packNat (latchBits o.fmt) (cs.flatMap (·.1))),
      scales := BitVec.ofNat 2048 (ofBytes (cs.flatMap (·.2))) }
  (s.keepLatch c l.serial).setCore c { s.core c with latch := l }

/-! ### The unit (R201) -/

/-- Whether an operation is the matrix unit's. -/
def EngOp.isMatrix (o : EngOp) : Bool :=
  match o.kind with
  | .mldb | .mma | .mmrot | .mrotStep | .mrotSkew | .mzero => true
  | .mdrain => !o.written
  | .vld | .vst | .wback => false

/-- The operation that a core's matrix unit performs now, with its place (R201). -/
def Core.unitHead (c : Core) : Option (Nat × EngOp) :=
  (c.ops.zipIdx.find? fun e => e.1.isMatrix).map fun e => (e.2, e.1)

/-- The multiply at the head of a core's unit, when it is a thread's, has performed some of its K-steps; how many is open
(R221, R222). -/
def State.unitProgress (s : State) (c t : Nat) : State :=
  match (s.core c).unitHead with
  | some (i, o) =>
    if o.slot != t || o.mulDone || !(o.kind == .mma || o.kind == .mmrot) then s else
    let j := o.kdone + Config.pick (s.nd * 2 ^ 64) % (o.steps - o.kdone + 1)
    if j == o.kdone then s else
    let s1 := s.multiply c o j
    let k := s1.core c
    s1.setCore c { k with ops := lset k.ops i { o with kdone := j, mulDone := j == o.steps } }
  | none => s

end Sys2Proof.Machine
end

