-- ==== Sys2Proof/Machine/Kill.lean ====
section
/-! DEFINITION. How a thread, a group, a launch and a fault domain end: gating of slots and tiles (R32, R174), pied
formes (R279), kills (R16, R17, R231), the ends of slices and groups (R299, R300, R312), STATUS (R291). -/

namespace Sys2Proof.Machine
open Sys2Proof

/-! ### Tiles -/

/-- Gates a tile; its rows are lost and read as zero afterwards (R32, R33). -/
def Core.gateTile (c : Core) (t : BitVec 2) : Core :=
  { c.setTile t {} with rows := (c.setTile t {}).rows.filter fun r => r.1 / 64 != t.toNat }

/-- The four tiles. -/
def allTiles : List (BitVec 2) := [0, 1, 2, 3]

/-- Gates every tile of a core that meets a condition. -/
def Core.gateTiles (c : Core) (p : Tile → Bool) : Core :=
  allTiles.foldl (fun c t => if (c.tile t).alloc && p (c.tile t) then c.gateTile t else c) c

/-- Whether a slot holds a thread. -/
def Slot.live (x : Slot) : Bool := x.mode != .gated

/-- The slots of a core that hold a thread of a launch. -/
def State.launchSlotsOn (s : State) (l c : Nat) : List Nat :=
  (upto 16).map (16 * c + ·) |>.filter fun t => (s.slot t).live && (s.slot t).launch == l

/-- The slots that hold a thread of a group. -/
def State.groupSlots (s : State) (l g : Nat) : List Nat :=
  (s.slots.filter fun e => e.2.live && e.2.launch == l && e.2.gidx == g).map (·.1)

/-! ### Formes -/

/-- Changes every entry of this package's forme tables (R266). -/
def State.mapFormes (s : State) (f : Nat → Nat → Forme → Forme) : State :=
  { s with clusters := s.clusters.map fun k =>
      (k.1, { k.2 with formes := k.2.formes.map fun e => (e.1, f k.1 e.1 e.2) }) }

/-- The requests that an order port or a bulk plane's queue holds (R427). -/
def portQueue : Nat := 32

/-- The order port's queue takes what waits outside it as far as it has room (R427). -/
def Lanthorn.takeIn (l : Lanthorn) : Lanthorn :=
  match l.oqOut with
  | [] => l
  | ws =>
    let room := portQueue - l.oq.length
    { l with oq := l.oq ++ ws.take room, oqOut := ws.drop room }

/-- Sends a transition of an entry with G = 1 as an order event (R277), which waits outside a full queue (R427); clusters
from 16 on stand for the tables of other packages, 16 × (package + 1) + 4 × die + cluster. -/
def State.formeEvent (s : State) (k e : Nat) (x : Forme) (c : FormeChange) : State :=
  if x.g then
    let q : OrderReq := { slot := none, body := .forme (if k < 16 then s.regs.pkgid.toNat else k / 16 - 1) (k % 16) e x.gen.toNat c }
    { s with lan := ({ s.lan with oqOut := s.lan.oqOut ++ [q] } : Lanthorn).takeIn }
  else s

/-- The order events of the entries that meet a condition. -/
def State.formeEvents (s : State) (p : Forme → Bool) (c : FormeChange) : State :=
  (s.clusters.flatMap fun k => (k.2.formes.filter fun e => p e.2).map fun e => (k.1, e)).foldl
    (fun s e => s.formeEvent e.1 e.2.1 e.2.2 c) s

/-- A kill pies every entry whose holder is the thread (R279). -/
def State.pieHeld (s : State) (id : ThreadId) : State :=
  let hit (x : Forme) : Bool := x.state == .composing && x.holder == some id
  (s.formeEvents hit .pied).mapFormes fun _ _ x => if hit x then { x with state := .pied, holder := none } else x

/-! ### What earlier accesses are (R321, R325) -/

/-- The counter loads counts these. -/
def EngKind.isLoad : EngKind → Bool
  | .vld | .mldb => true
  | _ => false
/-- Whether an engine operation is counted on the stores counter. -/
def EngKind.isStore : EngKind → Bool
  | .vst | .mdrain | .wback => true
  | _ => false
/-- Whether an engine operation reads operands or writes panels and is counted as a tile operation. -/
def EngKind.isPanel : EngKind → Bool
  | .mma | .mmrot | .mrotStep | .mrotSkew => true
  | _ => false

/-- The bytes that an engine operation holds, without those of the rows that an MDRAIN has stored (R217). -/
def EngOp.unstored (o : EngOp) : Bytes :=
  if o.kind == .mdrain then o.bytes.drop ((o.lens.take o.kdone).foldl (· + ·) 0) else o.bytes

/-- Whether an engine operation accesses a peer package. -/
def EngOp.toPeer (o : EngOp) : Bool := o.src.any keyIsPeer || o.bytes.any fun b => keyIsPeer b.1

/-- Whether an outstanding engine operation of a slot is an access that has not yet been performed and that an ordering
instruction of the step `born` waits for; a written store counts with its writes. Accesses of sequences are unordered
with respect to the thread's (R165); a FENCE takes in accesses to U pages (R315) and leaves tile operations aside (R325);
`far` takes in those to peers (R415). -/
def EngOp.awaited (o : EngOp) (t born : Nat) (fence far : Bool) : Bool :=
  o.slot == t && (o.kind.isLoad || (o.kind.isStore && !o.written) || (!fence && o.kind.isPanel)) && o.seq.isNone
    && o.born < born && (fence || !o.unord) && (far || !o.toPeer)

/-- Whether every access that a slot issued before the step `born` has been performed at a scope (R321, R325): its
published stores, its counted loads and stores, its writes. -/
def State.performedBefore (s : State) (t born : Nat) (sc : Scope) (fence : Bool) : Bool :=
  (s.slot t).drain.all (fun h => born ≤ h.born) && !s.unfinished t born sc fence
    && (s.core (coreOf t)).ops.all fun o => !o.awaited t born fence (sc == .system)

/-- Whether an arrival is signalled: every earlier access of its thread has been performed at cluster scope (R250), those to peers
aside (R415); what a thread that has left its slot wrote stands in the history under no name or another. -/
def State.signalled (s : State) (a : Arrival) : Bool :=
  if (s.slot a.slot).uid == a.uid then s.performedBefore a.slot a.born .cluster false
  else s.ghosts.all (fun g => g.slot != a.slot || a.born ≤ g.store.born)
    && s.hist.all fun w => w.agent != a.slot || w.writer == some a.slot || a.born ≤ w.born || w.unord || w.toPeer
        || s.performedIn w .cluster a.slot

/-! ### The lamplighter's accesses to a launch's own addresses (R306, R450) -/

/-- The space in which a lamplighter accesses a launch's own addresses (R450). -/
def Launch.space (l : Launch) : Space :=
  { tenant := l.f.ten, root := l.f.root, user := false, core := 768 * l.die, key := l.f.key, candle := false,
    agent := Agent.num (.lamp l.die) }

/-- The stage-2 fault event of an access that the hardware makes for a launch, raised by its lamplighter (R351, R401). -/
def State.lampFault (s : State) (l : Launch) (i : TrapInfo) : State :=
  match i.ipa with
  | some a => s.raise { kind := 4, pkg := false, tenant := l.f.ten, a := a.zeroExtend 64, b := i.acc.zeroExtend 64, c := i.badv,
                        die := l.die, source := dieSource l.die }
  | none => s

/-- The number of a launch. -/
def State.indexOf (s : State) (l : Launch) : Nat :=
  ((s.launches.find? fun e => e.2.die == l.die && e.2.rcb == l.rcb && e.2.serial == l.serial).map (·.1)).getD 0

/-- A lamplighter's request for the peer line of a location, under a launch's key (R418). -/
def State.lampRequest (s : State) (l : Launch) (k : Nat) : Outstanding :=
  { s.peerRequest k l.f.ten l.f.key with lamp := some l.die, launch := s.indexOf l }

/-- A lamplighter writes bytes for a launch: those to other packages go to the homes of their lines (R413). -/
def State.lampStore (s : State) (l : Launch) (keys : List Nat) (bs : List (BitVec 8)) : State :=
  (s.sendWrites keys (s.lampRequest l)).write
    { Author.agentNow (Agent.num (.lamp l.die)) with launch := some (s.indexOf l), tenant := l.f.ten, key := l.f.key }
    (zipBytes keys bs)

/-- Writes bytes at an address of a launch; a part of its save area that does not translate holds none of them. -/
def State.lampWrite (s : State) (l : Launch) (va : VA) (bs : List (BitVec 8)) : State :=
  match s.parts l.space .write (bs.length / 4096 + 2) va bs.length with
  | .ok ps => (s.bringTables l.space ps (s.lampRequest l)).lampStore l (partKeys ps) bs
  | .error i => s.lampFault l i

/-- What a read at an address of a launch leaves: peer lines come through the L2 under the launch's key (R413, R419); a read that
does not translate is reported (R351). -/
def State.lampTouched (s : State) (l : Launch) (va : VA) (n : Nat) : State :=
  match s.parts l.space .read (n / 4096 + 2) va n with
  | .ok ps =>
    let keys := partKeys ps
    ((s.bringTables l.space ps (s.lampRequest l)).askPeers l.die keys false (s.lampRequest l)).takePeers l.die keys l.f.ten l.f.key
  | .error i => s.lampFault l i

/-- Reads bytes at an address of a launch; those of an area that does not translate are open. -/
def State.lampRead (s : State) (l : Launch) (va : VA) (n : Nat) : List (BitVec 8) :=
  match s.parts l.space .read (n / 4096 + 2) va n with
  | .ok ps => (partKeys ps).map s.content
  | .error _ => (upto n).map fun i => BitVec.ofNat 8 (Config.pick (s.nd * 2 ^ 64 + va.toNat + i))

/-- The address of the record of thread `t` of group `g`. -/
def Launch.threadRecord (l : Launch) (g t : Nat) : VA := l.f.save + BitVec.ofNat 48 (0x400 * (g * l.f.threads + t))

/-! ### STATUS (R291) -/

/-- The code of a launch state in STATUS (R291). -/
def LaunchState.code : LaunchState → Nat
  | .unwalked => 0 | .waiting => 1 | .running => 2 | .dry => 3 | .closing => 4 | .ended => 5 | .killed => 6
  | .withdrawn => 7 | .rejected => 8

/-- STATUS of a launch. -/
def Launch.status (l : Launch) : W64 :=
  BitVec.ofNat 4 l.state.code ++ flagBit l.miss ++ flagBit l.kd ++ 0#10 ++ l.serial ++ 0#8 ++ BitVec.ofNat 8 l.reject

/-- GSUM of a launch. -/
def Launch.gsum (l : Launch) : W64 := BitVec.ofNat 32 l.ended ++ BitVec.ofNat 32 l.discarded

/-- The lamplighter writes an 8-byte field of an RCB, where its tree lets it (R450). -/
def State.writeRcb (s : State) (l : Launch) (off : Nat) (v : W64) : State :=
  match s.llLoc (l.rcb + BitVec.ofNat 48 off) true with
  | some k =>
    { s.lampStore l (span k 8) (toBytes 8 v.toNat) with snoops := s.snoops }
  | none => s

/-- Sets a launch and writes its STATUS. -/
def State.setStatus (s : State) (i : Nat) (l : Launch) : State := (s.setLaunch i l).writeRcb l 0xC0 l.status

/-- A scheduling event at a die (R296). -/
def State.decideAt (s : State) (d : Nat) : State := { s with decide := nput s.decide d }

/-! ### Galley bookkeeping (R371, R383) -/

/-- Breaks a tag and every higher tag of a launch (R371). -/
def State.breakTag (s : State) (l : Nat) (tag : BitVec 16) : State :=
  { s with bindings := s.bindings.map fun b => if b.launch == l && tag ≤ b.tag then { b with broken := true } else b }

/-- Discards a launch's pending and travelling slugs (R383). -/
def State.dropSlugs (s : State) (l : Nat) : State :=
  { s with flights := s.flights.filter fun f => f.launch != l,
           cores := s.cores.map fun c => (c.1, { c.2 with consol := c.2.consol.filter fun e => e.launch != l }) }

/-! ### Ends of slices and groups (R299, R300, R312) -/

/-- The time base as a number. -/
def State.now (s : State) : Nat := s.timeb.toNat

/-- Replaces a group of a launch. -/
def Launch.setGroup (l : Launch) (g : Nat) (f : Group → Group) : Launch :=
  { l with groups := l.groups.map fun x => if x.index == g then f x else x }

/-- A group of a launch. -/
def Launch.group? (l : Launch) (g : Nat) : Option Group := l.groups.find? fun x => x.index == g

/-- Whether every group of a launch is Ended or Discarded. -/
def Launch.finished (l : Launch) : Bool := l.ended + l.discarded == l.f.maxg

/-- Once every group of a launch has ended or been discarded its slugs are discarded (R383), and it closes (R311): a Dry one first
runs again, and a killed one goes on to its end as it is. -/
def State.checkClosing (s : State) (i : Nat) : State :=
  let l := s.launch i
  if l.finished && !l.domainKilled then
    if l.state == .waiting || l.state == .running then (s.setStatus i { l with state := .closing }).dropSlugs i
    else if l.state == .dry then s.dropSlugs i else s
  else s

/-- The end of a slice in a group's record: debt (R300) and the figures of the next projection (R298). -/
def Group.endSlice (g : Group) (now : Nat) (st : GroupState) : Group :=
  { g with state := st, debt := (match g.due with | some (d, _) => g.debt + (now - d) | none => g.debt),
           due := none, lastUj := g.energy, lastNs := now - g.start, energy := 0, restoring := false }

/-- A group's debt is kept in the record of its thread 0 (R300, R306). -/
def State.writeDebt (s : State) (i g : Nat) : State :=
  let l := s.launch i
  match l.group? g with
  | some x => s.lampWrite l (l.threadRecord g 0 + 0xB8) (toBytes 8 x.debt)
  | none => s

/-- A group's slice ends; a pre-emption adds to its debt (R299, R300). -/
def State.endSlice (s : State) (i g : Nat) (st : GroupState) : State :=
  let l := s.launch i
  let owed := (l.group? g).any fun x => x.due.isSome
  let s1 := s.setLaunch i (l.setGroup g fun y => y.endSlice s.now st)
  if owed && st == .suspended then s1.writeDebt i g else s1

/-- Judges a group after a thread of it has yielded, halted or been killed (R299, R312). -/
def State.checkGroup (s : State) (i g : Nat) : State :=
  let l := s.launch i
  match l.group? g with
  | none => s
  | some x =>
    if (x.state != .placed && x.state != .saving) || x.restoring then s else
    let ts := s.groupSlots i g
    let moving := s.migrants.any fun m => m.ctx.launch == i && m.ctx.gidx == g
    if ts.isEmpty && !moving then
      let s1 := s.endSlice i g .ended
      let l1 := s1.launch i
      ((s1.setLaunch i { l1 with ended := l1.ended + 1 }).checkClosing i).decideAt l.die
    else if !moving && ts.all (fun t => (s.slot t).mode == .yielded) then
      let s1 := ts.foldl (fun s t => s.setSlot t { s.slot t with mode := .suspended }) s
      (s1.endSlice i g .suspended).decideAt l.die
    else s

/-! ### Ending a thread -/

/-- The published stores of a thread have been performed with respect to a scope's instance (R135). -/
def State.raisePublished (s : State) (writer : Option Nat) (agent : Nat) (sc : Scope) : State :=
  match s.hist with
  | [] => s
  | _ => { s with hist := s.hist.map fun w =>
      if w.writer == writer && w.agent == agent && w.kind == .published then
        { w with upto := widerScope w.upto sc, done := w.done || sc == .system } else w }

/-- Performs one published store of a thread, or of one that has ended; a strong one after every earlier one with respect
to its instance (R135, R320), and with the messages of a scratchpad of another core (R308). -/
def State.performHeld (s : State) (writer : Option Nat) (t launch : Nat) (h : Held) : State :=
  let s1 := if h.strong then s.raisePublished writer t h.scope else s
  let keys := h.bytes.map (·.1)
  (s1.remoteMessages launch (coreOf t) keys).write
    { writer := writer, agent := t, upto := if h.strong then widerScope .core h.scope else .core, launch := some launch,
      done := h.strong && h.scope == .system, kind := .published, born := h.born, via := h.via, unord := h.unord,
      bytewise := !oneWord keys && keys.length ≤ 8 } h.bytes

/-- Whether a published store must wait for an earlier store to its bytes in the replay queue: the stores of a thread to one
location are performed in program order (R318). -/
def Slot.publishWaits (x : Slot) (h : Held) : Bool :=
  x.replay.any fun r => !r.written && r.made < h.made && h.vas.any fun v => rangesMeet r.va.toNat r.bytes.length v.1 v.2

/-- Every published store of a thread that waits is performed, before a later store of the thread is (R135). -/
def State.publishAll (s : State) (t : Nat) : State :=
  let x := s.slot t
  match x.drain with
  | [] => s
  | hs => hs.foldl (fun s h => s.performHeld (some t) t x.launch h) (s.setSlot t { x with drain := [] })

/-- Wakes every waiter of a word (R334). -/
def State.wakeWaiters (s : State) (word : Nat) : State :=
  { s with waiters := s.waiters.filter fun q => q.word != word }

/-- Wakes the waiters of the word of a slot's STFUT. -/
def State.finishWake (s : State) (t : Nat) : State :=
  match (s.slot t).wake with
  | some k => (s.setSlot t { s.slot t with wake := none }).wakeWaiters k
  | none => s

/-- A slot's past writes lose their thread: a later thread of the slot is another agent. -/
def State.anonymise (s : State) (t : Nat) : State :=
  match s.hist with
  | [] => s
  | _ => { s with hist := s.hist.map fun w =>
      { w with writer := if w.writer == some t then none else w.writer, seenBy := w.seenBy.filter (· != t),
               seenAt := w.seenAt.filter (·.1 != t),
               seenAcquire := w.seenAcquire.filter (· != t), seenFence := w.seenFence.filter (· != t),
               seenFetch := w.seenFetch.filter (· != t) } }

/-- The published stores of a thread that ends stay to be performed in their order (R135, R173). -/
def State.leaveStores (s : State) (t : Nat) : State :=
  let x := s.slot t
  { s with ghosts := s.ghosts ++ x.drain.map fun h => { slot := t, launch := x.launch, store := h } }

/-- The fabric requests of a thread that ends are answered or, for its writes that are still to be performed, its launch's alone
from then on (R422). -/
def State.leaveRequests (s : State) (t : Nat) : State :=
  let writes (o : Outstanding) : Bool := s.hist.any fun w => w.writer == some t && w.born == o.born && !w.done
  let left (o : Outstanding) : List Outstanding :=
    if o.slot == some t then (if writes o then [{ o with slot := none }] else []) else [o]
  if s.fab.out.any (fun o => o.slot == some t) then { s with fab := { s.fab with out := s.fab.out.flatMap left } } else s

/-- Clears a member of every barrier tree of a cluster; arrivals already signalled still count (R252). -/
def State.leaveTreesOf (s : State) (k m : Nat) : State :=
  let c := s.cluster k
  if c.trees.any (fun b => b.2.members.contains m) then
    s.setCluster k { c with trees := c.trees.map fun b => (b.1, { b.2 with members := ndel b.2.members m }) }
  else s

/-- Clears a slot's membership of every tree of its cluster (R252). -/
def State.leaveTrees (s : State) (t : Nat) : State := s.leaveTreesOf (clusterOf (coreOf t)) (t % 3072)

/-- A member leaves a tree, and another joins in its stead, with its arrival. -/
def Tree.replaced (old new : Tree) (m m' uid : Nat) : Tree × Tree :=
  let here := old.members.contains m
  let came := old.arrived.contains m
  ({ old with members := ndel old.members m, arrived := ndel old.arrived m, awaits := old.awaits.filter (·.uid != uid) },
   { new with members := if here then nput new.members m' else new.members,
              arrived := if came then nput new.arrived m' else new.arrived,
              awaits := new.awaits ++ old.awaits.filter (·.uid == uid) })

/-- A thread's memberships and unreleased arrivals stand under another number from then on, in another cluster's trees of the same
numbers where it goes there: they stay the thread's when it is stored and placed again (R246, R305; DEDUCED, log 123). -/
def State.moveMember (s : State) (k m k' m' uid : Nat) : State :=
  (((s.cluster k).trees.filter fun b => b.2.members.contains m || b.2.arrived.contains m).map (·.1)).foldl (fun s b =>
    if k == k' then
      let t := (s.cluster k).tree b
      let q := t.replaced (t.replaced t m m' uid).1 m m' uid
      s.setCluster k ((s.cluster k).setTree b q.2)
    else
      let q := ((s.cluster k).tree b).replaced ((s.cluster k').tree b) m m' uid
      let s1 := s.setCluster k ((s.cluster k).setTree b q.1)
      s1.setCluster k' ((s1.cluster k').setTree b q.2)) s

/-- The thread of a slot as its copy commands name it. -/
def Slot.copyOwner (x : Slot) : CopyOwner := { launch := x.launch, uid := x.uid }

/-- The commands of a thread's copies change. -/
def State.mapCopies (s : State) (f : CopyCmd → CopyCmd) : State :=
  { s with octets := s.octets.map fun o =>
      (o.1, { o.2 with ch := o.2.ch.map fun c => (c.1, { c.2 with queue := c.2.queue.map f }) }) }

/-- Ends a slot's requests to shared units: park table, special-function unit, order port and bulk queues, slugs on
their way (R59, R231). -/
def State.withdraw (s : State) (t : Nat) : State :=
  let o := octetOf (coreOf t)
  let q := s.octet o
  let s1 := if q.sfu.any (fun r => r.slot == t) then
      s.setOctet o { q with sfu := q.sfu.map fun r => if r.slot == t then { r with live := false } else r } else s
  { s1 with
    waiters := s1.waiters.filter fun w => w.slot != t,
    syncs := s1.syncs.filter fun w => w.slot != t,
    flights := s1.flights.filter fun f => f.slot != t,
    invals := s1.invals.map fun v => if v.slot == some t then { v with slot := none } else v,
    lan := Lanthorn.takeIn { s1.lan with
      oq := s1.lan.oq.filter fun r => r.slot != some t,
      bq := (s1.lan.bq.map fun p => (p.1, p.2.filter fun r => r.slot != t)).filter fun p => p.2 != [],
      holds := s1.lan.holds.map fun h => if h.slot == some t then { h with slot := none } else h,
      bholds := s1.lan.bholds.map fun p =>
        (p.1, p.2.map fun h => if h.slot == some t then { h with slot := none } else h) } }

/-- What remains in a slot whose thread has ended: the trap banks, which lose nothing (R34, R238), and the cycle from which
the slot may issue again (R152). -/
def Slot.gone (x : Slot) : Slot := { bank1 := x.bank1, bank2 := x.bank2, ready := x.ready }

/-- A thread leaves its slot: an arrival of it that is not signalled yet still counts, and the release waits for it, where
the thread has halted (R252 says so of no other than an arrival; DEDUCED, log 110); the context bank and private tiles are
gated, the launch's shared tiles when it was the last there (R32, R174), and its group is judged. -/
def State.gateSlot (s : State) (t : Nat) : State :=
  let s : State := (((s.leaveRequests t).leaveStores t).anonymise t).finishWake t
  let x := s.slot t
  let c := coreOf t
  let own : TileOwner := .slot (BitVec.ofNat 4 t)
  let s1 := ((s.withdraw t).leaveTrees t).setSlot t x.gone
  let last := (s1.launchSlotsOn x.launch c).isEmpty
  let k := s1.core c
  let s2 := s1.setCore c (k.gateTiles fun y => y.launch == x.launch && (y.owner == own || (last && y.owner == .shared)))
  s2.checkGroup x.launch x.gidx

/-- A row store that a kill cuts off: for each aligned word the old or the new value, left open (R231). -/
def State.cutStore (s : State) (op : EngOp) : State :=
  if !op.kind.isStore || op.written then s else
  match op.unstored.filter fun b => Config.pick (s.nd * 2 ^ 64 + b.1 / 8) % 2 == 1 with
  | [] => s
  | keep => s.write (Author.agentNow op.slot) keep

/-- The engines of a killed thread stop: its sequences and operations are discarded; its tiles hold the K-steps done, and of
its row stores other agents observe the old or the new value (R222, R231). -/
def State.stopEngines (s : State) (t : Nat) : State :=
  let c := coreOf t
  let s0 := s.unitProgress c t
  let k := s0.core c
  let ops := k.ops.filter fun o => o.slot == t
  let s1 := s0.setCore c { k with ops := k.ops.filter (fun o => o.slot != t), seqs := k.seqs.filter (fun q => q.slot != t),
                                  astage := if ops.any fun o => o.mulDone then [] else k.astage,
                                  atag := if ops.any fun o => o.mulDone then 0 else k.atag }
  ops.foldl (fun s o => s.cutStore o) s1

/-- An arrival of a killed thread, member `m` of its cluster's trees, that is not signalled yet does not count (R250, R252;
DEDUCED, log 110). -/
def State.dropArrivals (s : State) (k m uid : Nat) : State :=
  let c := s.cluster k
  let mine (a : Arrival) : Bool := a.uid == uid
  if c.trees.any (fun b => b.2.awaits.any mine) then
    s.setCluster k { c with trees := c.trees.map fun b =>
      let lost := b.2.awaits.filter fun a => mine a && !s.signalled a
      let kept := b.2.awaits.filter fun a => mine a && s.signalled a
      (b.1, { b.2 with awaits := b.2.awaits.filter (fun a => !mine a), orBit := b.2.orBit || kept.any (·.bit),
                       arrived := if lost.isEmpty then b.2.arrived else ndel b.2.arrived m }) }
  else s

/-- A killed thread's compose handles make their formes pied, its copy commands stop, and a stage thread breaks its tag
(R231, R261, R279, R371). -/
def State.endClaims (s : State) (x : Slot) : State :=
  let s1 := (s.mapCopies fun m => if m.owner == x.copyOwner then { m with killed := true } else m).pieHeld (s.idOf x)
  if x.stage then s1.breakTag x.launch x.stag else s1

/-- Kills a thread (R231): held stores are discarded, its engines stop, its claims end, its slot is gated. -/
def State.killThread (s : State) (t : Nat) : State :=
  let x := s.slot t
  if !x.live then s else
  let s1 := (s.dropArrivals (clusterOf (coreOf t)) (t % 3072) x.uid).setSlot t { x with pubq := [], replay := [], frames := [] }
  ((s1.stopEngines t).endClaims x).gateSlot t

/-- Kills the threads that meet a condition and whose contexts are on their way to other cores or stand in the save area:
their claims end, and the threads in the save area leave their barrier trees (R252). -/
def State.killContexts (s : State) (p : Slot → Bool) : State :=
  let s1 := ((s.migrants.map (·.ctx)) ++ s.stored.map (·.ctx)).foldl (fun s x => if p x then s.endClaims x else s) s
  let s2 := s1.stored.foldl (fun s m =>
    let k := clusterOf (coreOf m.slot)
    if p m.ctx then (s.dropArrivals k m.id m.ctx.uid).leaveTreesOf k m.id else s) s1
  { s2 with migrants := s2.migrants.filter fun m => !p m.ctx, stored := s2.stored.filter fun m => !p m.ctx }

/-! ### Fault domains (R16, R17, R301, R407) -/

/-- Kills one group of a launch (R312). -/
def State.killGroup (s : State) (i g : Nat) : State :=
  let s1 := (s.groupSlots i g).foldl (fun s t => s.killThread t) (s.killContexts fun x => x.launch == i && x.gidx == g)
  match (s1.launch i).group? g with
  | none => s1
  | some x =>
    if x.state == .ended then s1 else
    let s2 := s1.endSlice i g .ended
    let l := s2.launch i
    ((s2.setLaunch i { l with ended := l.ended + 1 }).checkClosing i).decideAt l.die

/-- Whether a launch has not yet come to its end. -/
def LaunchState.open_ : LaunchState → Bool
  | .waiting | .running | .dry | .closing => true
  | .unwalked | .ended | .killed | .withdrawn | .rejected => false

/-- Kills a launch (R311): its groups and its stage threads that wait for a group end, no further group is placed, and
STATUS is written after the sweeps of R309. -/
def State.killLaunch (s : State) (i : Nat) : State :=
  let l := s.launch i
  if !l.state.open_ || l.domainKilled then s else
  let s0 := s.setLaunch i { l with domainKilled := true, kd := true }
  let s1 := (l.groups.map (·.index)).foldl (fun s g => s.killGroup i g) s0
  let rest := (s1.slots.filter fun e => e.2.live && e.2.launch == i).map (·.1)
  let s2 := rest.foldl (fun s t => s.killThread t) (s1.killContexts fun x => x.launch == i)
  (s2.dropSlugs i).decideAt l.die

/-- A kind-5 event of a launch (R401). -/
def State.killEvent (s : State) (i why : Nat) : State := s.raise (launchEvent (s.launch i) 5 (BitVec.ofNat 64 why) 0)

/-- The launches of a launch's fault domain with FDP 10: those under the same parent on its die, of its tenant (R16,
R291). -/
def State.domainOf (s : State) (i : Nat) : List Nat :=
  let l := s.launch i
  (s.launches.filter fun e => e.1 == i || (l.parent != 0 && e.2.parent == l.parent && e.2.die == l.die
    && e.2.f.ten == l.f.ten && e.2.f.fdp == 2)).map (·.1)

/-- Kills the fault domain of a group, as FDP resolves it (R16). -/
def State.endDomain (s : State) (i g : Nat) : State :=
  let l := s.launch i
  if l.f.fdp = 0 then
    let s2 := s.killGroup i g
    s2.setStatus i { s2.launch i with kd := true }
  else if l.f.fdp = 1 then s.killLaunch i
  else (s.domainOf i).foldl (fun s j => s.killLaunch j) s

/-- Kills the fault domain of a group and raises its event: 1 watchdog, 2 replay timeout, 3 machine check (R401). -/
def State.killDomain (s : State) (i g why : Nat) : State := (s.killEvent i why).endDomain i g

/-- Kills the fault domain of a slot's thread. -/
def State.killSlotDomain (s : State) (t why : Nat) : State :=
  let x := s.slot t
  if x.live then s.killDomain x.launch x.gidx why else s

/-- Kills every fault domain with a thread among the slots; a domain that has ended is not killed again. -/
def State.killDomains (s : State) (ts : List Nat) (why : Nat) : State := ts.foldl (fun s t => s.killSlotDomain t why) s

end Sys2Proof.Machine
end

