-- ==== Sys2Proof/Machine/Ops.lean ====
section
/-! DEFINITION. The operations that every instruction is built from: how an instruction ends (complete, trap, park), taking
an exception and returning from one (R223 to R233), the ends of parks (R59), sequence faults (R167), loads and stores
with their ordering (R315 to R327), held stores (R129) and full bits. -/

namespace Sys2Proof.Machine
open Sys2Proof

/-- The outcome of a step. -/
abbrev Outcome := Host.Outcome State Fault Refusal

/-- How an instruction ends without completing: through Trap, or through Park with what the park has begun (R58). -/
inductive Stop where
  | trap (i : TrapInfo)
  | park (s : State)

/-- The effect of an instruction: the state it completes in, or how it stops. -/
abbrev Res := Except Stop State

/-- Trap(code, badv) (R58). -/
def trapWith {α : Type} (code : BitVec 8) (badv : W64) : Except Stop α := .error (.trap { code := code, badv := badv })

/-- A translation's fault as a stop. -/
def liftTrap {α : Type} : Except TrapInfo α → Except Stop α
  | .ok a => .ok a
  | .error t => .error (.trap t)

/-- A check that traps when a condition holds. Such a trap has ACC = 00: an access kind stands in the trap of a fetch, of a
translation and of a permission alone, and not in that of an alignment, a synchronised address, the candle's class, an overflow
or a message permission, of which R227 does not say whether they are memory causes (DESIGN CHOICE, log 108). -/
def trapIf (c : Bool) (code : BitVec 8) (badv : W64) : Except Stop Unit := if c then trapWith code badv else .ok ()

/-- An address as BADV. -/
def addrBadv (a : VA) : W64 := a.zeroExtend 64
/-- A row as BADV: tile in [7:6], row in [5:0] (R34). -/
def rowBadv (r : RowRef) : W64 := r.zeroExtend 64

/-! ### Cause codes (R226) -/

/-- Illegal prefix. -/
def causeIllegalPrefix : BitVec 8 := 0x01
/-- Reserved instruction. -/
def causeReserved : BitVec 8 := 0x02
/-- Fetch fault. -/
def causeFetch : BitVec 8 := 0x03
/-- Translation fault. -/
def causeTranslation : BitVec 8 := 0x04
/-- Permission fault. -/
def causePermission : BitVec 8 := 0x05
/-- Misaligned access. -/
def causeMisaligned : BitVec 8 := 0x06
/-- Linear handle. -/
def causeHandle : BitVec 8 := 0x07
/-- Integer divide by zero. -/
def causeDivide : BitVec 8 := 0x08
/-- FP exception. -/
def causeFp : BitVec 8 := 0x09
/-- Format mismatch. -/
def causeFormat : BitVec 8 := 0x0A
/-- Gated bank. -/
def causeGated : BitVec 8 := 0x0B
/-- Tile owner. -/
def causeOwner : BitVec 8 := 0x0C
/-- Tile in use. -/
def causeTileInUse : BitVec 8 := 0x0D
/-- Synchronised address. -/
def causeSync : BitVec 8 := 0x0E
/-- Matrix command. -/
def causeMatrix : BitVec 8 := 0x0F
/-- Candle state. -/
def causeCandleState : BitVec 8 := 0x10
/-- Candle class. -/
def causeCandleClass : BitVec 8 := 0x11
/-- Candle overflow. -/
def causeOverflow : BitVec 8 := 0x12
/-- Gutter. -/
def causeGutter : BitVec 8 := 0x13
/-- Privilege. -/
def causePrivilege : BitVec 8 := 0x14
/-- Trap state. -/
def causeTrapState : BitVec 8 := 0x15
/-- Software trap. -/
def causeSoftware : BitVec 8 := 0x16
/-- Pre-emption. -/
def causePreempt : BitVec 8 := 0x17
/-- Pie fault. -/
def causePie : BitVec 8 := 0x18
/-- Stale handle. -/
def causeStale : BitVec 8 := 0x19
/-- Galley fault. -/
def causeGalley : BitVec 8 := 0x1A
/-- Lanthorn fault. -/
def causeLanthorn : BitVec 8 := 0x1B
/-- Message permission. -/
def causeMessage : BitVec 8 := 0x1C

/-- LEN of a trap raised by an instruction of `n` halfwords (R227). -/
def trapLen (code : BitVec 8) (n : Nat) : BitVec 4 :=
  if code == causeFetch || code == causeIllegalPrefix || code == causeGutter || code == causePreempt then 0
  else BitVec.ofNat 4 n

/-! ### Parks (R58, R59) -/

/-- Whether the hold of a thread's request on a plane has begun: nothing but a kill then ends its park (R437). -/
def Slot.lanBegun (x : Slot) : Bool :=
  match x.lan with
  | .held | .done _ | .refused => true
  | .idle | .queued => false

/-- What the end of a park undoes: requests are withdrawn, results that return later are discarded (R59, R169, R333);
the maxima that a VQMX has sent stay in its round (R195), and a contribution whose hold has begun is kept for the LBRED that
restarts (R441), whose round may have lost a member by then (R430). -/
def State.endPark (s : State) (t : Nat) : State :=
  let s := s.withdraw t
  let x := s.slot t
  s.setSlot t { x with park := none, sealWas := none, sfuSent := false, sfu := none, lan := .idle, retry := none, phase := none,
                       lred := none, lkept := x.lkept ++ (x.lred.filter fun r => r.round.isSome).toList }

/-- The cycles between two issues of a slot (R152). -/
def issueGap : Nat := 8
/-- The number of a clock's cycle within which a cycle of 1.4 GHz begins: three in four at 1.05 GHz, one in two at 0.7 GHz
(R126). -/
def Clock.index : Clock → Nat → Nat
  | .full, n => n | .mid, n => 3 * n / 4 | .low, n => n / 2
/-- The first cycle of 1.4 GHz that is `k` cycles of a clock after a cycle (R126, R152). -/
def Clock.after : Clock → Nat → Nat → Nat
  | .full, n, k => n + k | .mid, n, k => (4 * (3 * n / 4 + k) + 2) / 3 | .low, n, k => 2 * (n / 2 + k)

/-! ### Taking an exception (R228, R230, R231) -/

/-- Kills the context and raises the context-kill event with what the next level would have received (R231). -/
def State.killContext (s : State) (t : Nat) (epc : VA) (c : Cause) (badv : W64) : State :=
  let x := s.slot t
  (s.killThread t).raise (slotEvent t x 3 (addrBadv (evenAddr epc)) c.pack badv)

/-- Trap entry at the next trap level, with the handler's address (R228): the bank is written, TL rises, PL becomes
supervisor, the flags of retired sequences are merged; at level 2 the context is killed. -/
def State.enterAt (s : State) (t : Nat) (epc : VA) (c : Cause) (badv : W64) (handler : Slot → VA) : State :=
  let x := s.slot t
  let c := { c with ppl := x.st.pl }
  if x.st.tl == 2 then s.killContext t epc c badv else
  let l := x.st.tl + 1
  let s1 := s.endPark t
  let y := (s1.slot t).setBank l { epc := evenAddr epc, cause := c, badv := badv }
  let st := { y.st with tl := l, pl := 1, fl := y.st.fl ||| y.seqFlags }
  s1.setSlot t { y with st := st, seqFlags := 0, busy := false, pc := evenAddr (handler { y with st := st }) }

/-- The handler of every cause but gutter and pre-emption: TVB + 0x40 × (L − 1) (R228). -/
def vectorOf (x : Slot) : VA := x.tvb + (if x.st.tl == 2 then 0x40 else 0)

/-- The stage-2 fault event (R351, R401), for a trap that a second-stage fault raised. -/
def State.stage2Event (s : State) (t : Nat) (i : TrapInfo) (queued : Bool) : State :=
  match i.ipa with
  | some a => s.raise (slotEvent t (s.slot t) 4 (a.zeroExtend 64) (0#61 ++ flagBit queued ++ i.acc) i.badv)
  | none => s

/-- Takes a trap raised by an instruction of `n` halfwords at `epc` (R228). -/
def State.takeTrap (s : State) (t : Nat) (epc : VA) (n : Nat) (i : TrapInfo) : State :=
  let c : Cause := { len := trapLen i.code n, s2 := i.s2, acc := i.acc, code := i.code }
  (s.stage2Event t i false).enterAt t epc c i.badv vectorOf

/-- The length of the instruction that a slot stands at, if the device has decoded it: the parked one's (R227). -/
def Slot.decodedLen (x : Slot) : Nat := match x.park with | some p => p.2.len | none => 0

/-- Takes a thread's sequence fault at its next instruction or at its parked one (R167, R229). -/
def State.takeSeqFault (s : State) (t : Nat) (f : SeqFault) : State :=
  let x := s.slot t
  let c : Cause := { seq := true, j := f.j, i := f.i, len := BitVec.ofNat 4 x.decodedLen, s2 := f.info.s2,
                     acc := f.info.acc, code := f.info.code }
  (s.setSlot t { x with seqFault := none }).enterAt t x.pc c f.info.badv vectorOf

/-- Returns from the current trap level (R233): pc, privilege and level are restored. A thread that leaves its save routine
so takes a pre-emption that is still due again (R304). -/
def State.returnFrom (s : State) : State :=
  let x := s.me
  let b := x.bank x.st.tl
  s.setMe { x with pc := b.epc, st := { x.st with pl := b.cause.ppl, tl := x.st.tl - 1 },
                   preempted := x.preempted && b.cause.code != causePreempt }

/-! ### Sequence faults (R167) -/

/-- The stores of a thread's sequences that have been performed stand from then on in the order of the thread (R165). -/
def State.joinCaptured (s : State) (t : Nat) : State :=
  match s.hist with
  | [] => s
  | _ => { s with hist := s.hist.map fun w =>
      if w.writer == some t && w.kind == .captured then { w with kind := .engine } else w }

/-- Removes a thread's sequences from `id` on: their pending marks and tile counts go, the flags gathered are kept for
the next merge. -/
def State.dropSeqs (s : State) (c t id : Nat) : State :=
  let k := s.core c
  let gone := k.seqs.filter fun q => q.slot == t && id ≤ q.id
  let flags := gone.foldl (fun f q => f ||| q.flags) 0
  let s1 := (s.setCore c { k with seqs := k.seqs.filter fun q => !(q.slot == t && id ≤ q.id) }).joinCaptured t
  let x := s1.slot t
  s1.setSlot t { x with tiles := x.tiles - gone.length, seqFlags := x.seqFlags ||| flags }

/-- A captured instruction raised a trap condition: the fault waits for the thread's next boundary. -/
def State.faultSeq (s : State) (c : Nat) (q : Seq) (i : TrapInfo) : State :=
  let s1 := (s.stage2Event q.slot i false).dropSeqs c q.slot q.id
  let x := s1.slot q.slot
  s1.setSlot q.slot { x with seqFault := some { info := i, j := BitVec.ofNat 5 q.j, i := BitVec.ofNat 4 q.i } }

/-- A captured instruction has been performed: the sequence stands at its next one, and the core's sequencer starts none
other in this cycle of its clock (R126, R164, R165). -/
def State.advanceSeq (s : State) (c idx : Nat) : State :=
  let k := s.core c
  match k.seqs[idx]? with
  | none => s
  | some q =>
    let q' := if q.i + 1 < q.instrs.length then { q with i := q.i + 1 } else { q with i := 0, j := q.j + 1 }
    s.setCore c { k with seqs := lset k.seqs idx q', seqNext := k.clock.after s.cycle 1 }

/-! ### The end of an instruction -/

/-- Ends an instruction begun in state `s` (R21): a completed one leaves its state, a trap leaves the context as it was
and enters the handler, a park leaves the instruction waiting; in a repeat sequence a trap becomes a sequence fault and
the sequence stands at an instruction that cannot yet be accepted (R165, R167). -/
def settle (s : State) (i : Instr) (r : Res) : Outcome :=
  .next (match s.inSeq with
    | none =>
      match r with
      | .ok s' => s'
      | .error (.park s') => s'.setMe { s'.me with park := some (i, s'.chain) }
      | .error (.trap t) => s.takeTrap s.cur s.me.pc s.chain.len t
    | some q =>
      match r with
      | .ok s' => { s'.advanceSeq q.core q.idx with inSeq := none }
      | .error (.park s') => { s' with inSeq := none }
      | .error (.trap t) =>
        match s.mySeq with
        | some x => { s.faultSeq q.core x t with inSeq := none }
        | none => { s with inSeq := none })

/-- Completes an instruction at its next PC. -/
def State.advance (s : State) : State :=
  match s.inSeq with
  | some _ => s
  | none => s.setMe { s.me with pc := s.nextPc }

/-- Completes an instruction at another address; bit 0 is cleared (R20). -/
def State.jump (s : State) (a : VA) : State := s.setMe { s.me with pc := evenAddr a }

/-! ### Ordering of one access (R315, R317, R321 to R323) -/

/-- How an access is ordered: strong, as an acquire, as a release, and at which scope. -/
structure Order where
  strong : Bool := false
  acq    : Bool := false
  rel    : Bool := false
  scope  : Scope := .core
  deriving DecidableEq, Repr

/-- The ordering of an access of a page class under an MD (R315). -/
def orderOf (cls : PageClass) (md : MD) : Order :=
  match cls with
  | .strong => { strong := true, acq := true, rel := true, scope := .system }
  | _ =>
    match md.ord with
    | .default => {}
    | .acquire => { strong := true, acq := true, scope := md.scope }
    | .release => { strong := true, rel := true, scope := md.scope }
    | .sc => { strong := true, acq := true, rel := true, scope := md.scope }

/-- The ordering of an atomic (R329): strong at the scope of its MD, whatever its page's class. -/
def atomicOrder (cls : PageClass) (md : MD) : Order :=
  match cls with
  | .strong => orderOf .strong md
  | .releaseConsistent | .unordered => { orderOf .releaseConsistent md with strong := true, scope := md.scope }

/-- The scope at which a write is performed at once: the threads of the issuing core always, and a strong write's scope
(R320). -/
def Order.upto (o : Order) : Scope := if o.strong then widerScope .core o.scope else .core

/-- Whether every earlier access of the issuing thread has been performed at a scope and its replay queue is empty (R321,
R325, R327); a release leaves accesses to U pages aside, a FENCE does not. -/
def State.settled (s : State) (fence : Bool) (sc : Scope) : Bool :=
  s.me.replay.isEmpty && s.performedBefore s.cur s.nd sc fence

/-- Whether every earlier access of a sequence, U pages aside, has been performed at a scope, and its thread's replay queue is
empty (R327): the accesses of its thread are unordered with respect to it (R165, R321), and only system scope waits for peer
accesses (R415). -/
def State.seqSettled (s : State) (t id born : Nat) (sc : Scope) : Bool :=
  (s.slot t).replay.isEmpty && (s.core (coreOf t)).ops.all fun o =>
    o.seq != some id || born ≤ o.born || o.unord || (sc != .system && o.toPeer) || !(o.kind.isLoad || o.kind.isStore || o.kind.isPanel)
      || (o.written && s.hist.all fun w => !(w.writer == some t && w.born == o.born) || s.performedIn w sc t)

/-- Waits until the earlier accesses have been performed at a scope, for a releasing instruction. -/
def State.awaitRelease (s : State) (rel : Bool) (sc : Scope) : Except Stop Unit :=
  let ready := match s.mySeq with
    | none => s.settled false sc
    | some q => s.seqSettled s.cur q.id s.nd sc
  if rel && !ready then .error (.park s) else .ok ()

/-- Waits while a published store of the thread stands behind an earlier store to its bytes in the replay queue: a later
store is performed after the published ones, and the stores to one location are in program order (R135, R318). -/
def State.awaitPublish (s : State) : Except Stop Unit :=
  if s.me.drain.any s.me.publishWaits then .error (.park s) else .ok ()

/-- The issuing thread passes an acquire of a scope (R322, R319); one of system scope may make it observe what other packages and
the host have written to their own memory. -/
def State.acquired (s : State) (sc : Scope) : State :=
  let s1 := s.orderPoint s.cur sc false
  if sc == .system then s1.newEra else s1

/-! ### Translated accesses -/

/-- The candle-class trap of a walk has BADV at the address of the access, whichever part met it (R131, R353). -/
def farAt {α : Type} (va : VA) : Except Stop α → Except Stop α
  | .error (.trap i) => .error (.trap (if i.code = causeCandleClass then { i with badv := addrBadv va } else i))
  | r => r

/-- Whether a row store of the issuing thread that is also an acquire has still to be performed: no later access to an S or C
page is performed before it (R184, R322, R323). -/
def State.acquirePending (s : State) : Bool :=
  s.inSeq.isNone && s.myCore.ops.any fun o => o.slot == s.cur && o.seq.isNone && o.kind.isStore && o.acq && !o.written

/-- What an access of the issuing thread translates to in a space: an access on its way keeps the translations that it issued
with (R143, R354). -/
def State.partsIn (s : State) (sp : Space) (acc : Access) (va : VA) (n : Nat) : Except TrapInfo (List Part) :=
  match s.inSeq, s.me.flight.bind fun f => f.reads.find? fun r => r.1 == va && r.2.1 == n with
  | none, some r => .ok r.2.2
  | _, _ => s.parts sp acc (n / 4096 + 2) va n

/-- An access to pages of class S or C waits for a row store before it that is an acquire (R322, R323). -/
def State.awaitAcquire (s : State) (ordered : Bool) : Except Stop Unit :=
  if ordered && s.acquirePending then .error (.park s) else .ok ()

/-- Translates an access in a space; the first faulting part traps (R100, R102 check 4). -/
def State.accessIn (s : State) (sp : Space) (acc : Access) (va : VA) (n : Nat) : Except Stop (List Part) := do
  let ps ← farAt va (liftTrap (s.partsIn sp acc va n))
  s.awaitAcquire (ps.any fun p => p.at_.cls != .unordered)
  .ok ps

/-- Translates an access of the issuing thread. -/
def State.access (s : State) (acc : Access) (va : VA) (n : Nat) : Except Stop (List Part) := s.accessIn s.space acc va n

/-- The state in which the issuing thread accesses memory under another stage-1 root (R273). -/
def State.underRoot (s : State) (root : BitVec 52) : State := s.setMe { s.me with tbase := root }

/-- Whether parts lie in a resource of unbounded class (R131). -/
def partsFar (ps : List Part) : Bool := ps.any fun p => keyIsUnbounded p.at_.key

/-- The candle-class check of an access (R131): at CD > 0 no resource of unbounded class. -/
def State.candleClass (s : State) (ps : List Part) (badv : W64) : Except Stop Unit :=
  trapIf (s.ctx.st.cd != 0 && partsFar ps) causeCandleClass badv

/-- Translates a range page by page in ascending order, each part judged by the candle's class before the next (checks 6 and 7
of R257, check 6 of R436, R131); BADV is at the first faulting byte. -/
def State.judgedParts (s : State) (acc : Access) : Nat → VA → Nat → Except Stop (List Part)
  | 0, _, _ => .ok []
  | fuel + 1, va, n =>
    if n = 0 then .ok [] else do
    let room := 4096 - va.toNat % 4096
    let k := if n ≤ room then n else room
    let ps ← s.access acc va k
    s.candleClass ps (addrBadv va)
    let rest ← State.judgedParts s acc fuel (va + BitVec.ofNat 48 k) (n - k)
    .ok (ps ++ rest)

/-- The candle-class check of an instruction that cannot be held (R131): `while stores are held` is read as the condition of R129
under which a store is held, whether or not one is (DEDUCED, log 109). -/
def State.notHeld (s : State) : Except Stop Unit := trapIf s.ctx.holding causeCandleClass 0

/-- Whether every location is in the issuing core's own scratchpad. -/
def State.ownSpm (s : State) (keys : List Nat) : Bool := keys.all fun k => keyIsSpm k && spmCore k == s.here

/-- An access of the issuing thread to peer lines that no cache of its die serves goes out on the fabric (R413, R422). -/
def State.toFabric (s : State) (keys : List Nat) (write : Bool) : State :=
  s.askPeers (dieOf s.here) keys write (s.slotRequest s.cur s.nd)

/-- What the walks of an access of the issuing thread leave (R413, R419); an access on its way was translated when it issued. -/
def State.walksRead (s : State) (ps : List Part) : State :=
  if s.inSeq.isNone && s.me.flight.isSome then s else s.bringTables s.space ps (s.slotRequest s.cur s.nd)

/-- An access outside the own scratchpad holds the thread until it completes (R153). -/
def State.hold (s : State) (keys : List Nat) : State :=
  if s.inSeq.isSome || s.ownSpm keys then s else s.setMe { s.me with busy := true }

/-- Bytes of an outstanding row store of the thread itself: a page-0 access observes, word by word, the old or the new
value (R165, R184). -/
def State.engineByte (s : State) (k : Nat) (b : BitVec 8) : BitVec 8 :=
  match s.myCore.ops.findSome? (fun o => if o.slot == s.cur && !o.written then bytesAt o.unstored k else none) with
  | some v => if Config.pick (s.nd * 2 ^ 64 + spmBase * 2 + k / 8) % 2 == 1 then v else b
  | none => b

/-- The bytes of parts, each with its address and location. -/
def partBytes (ps : List Part) : List (VA × Nat) :=
  ps.flatMap fun p => (upto p.n).map fun i => (p.va + BitVec.ofNat 48 i, p.at_.key + i)

/-- How the issuing thread reads parts (R101, R317). -/
def State.loadReading (s : State) (ps : List Part) (o : Order) : Reading :=
  { agent := s.cur, strong := o.strong, unord := partsClass ps == .unordered, bytewise := !oneWord (partKeys ps) }

/-- The bytes that the issuing thread loads (R58, R319). -/
def State.loadBytes (s : State) (ps : List Part) (o : Order) : List (BitVec 8) :=
  let x := s.ctx
  let at_ := partBytes ps
  (at_.zip (s.observe (s.loadReading ps o) (at_.map (·.2)))).map fun e =>
    if keyIsMbox e.1.2 then s.mboxByte (x.st.pl == 0) e.1.2
    else x.overlay e.1.1.toNat e.1.2 (s.engineByte e.1.2 e.2)

/-- What a load leaves behind: messages, copies of lines, an acquire, the hold of the thread. -/
def State.loaded (s : State) (ps : List Part) (o : Order) : State :=
  let keys := partKeys ps
  let s1 := (((s.walksRead ps).toFabric keys false).remoteMessages s.me.launch s.here keys).readLines s.cur s.here keys
  let s2 := if o.strong then s1.strongSeen s.cur o.scope keys else s1
  (if o.acq then s2.acquired o.scope else s2).hold keys

/-- Whether a published store of the issuing thread has still to be performed with respect to some agent (R135). -/
def State.publishing (s : State) : Bool := s.hist.any fun w => w.writer == some s.cur && w.kind == .published && !w.done

/-- The author of the issuing thread's write to parts: one that lies in one word is performed at once with respect to its
instance; of another each byte has its own place in the coherence order and is performed at once with respect to the instance
when its turn comes (R101, R320). A store to the own scratchpad that lies in one word reaches every agent in its turn (R143),
unless it must follow published stores (R135). -/
def State.author (s : State) (ps : List Part) (o : Order) : Author :=
  let keys := partKeys ps
  let whole := oneWord keys
  { writer := some s.cur, agent := s.cur, upto := if whole then o.upto else .thread,
    done := whole && ((o.strong && o.scope == .system) || (s.ownSpm keys && !s.publishing)), unord := partsClass ps == .unordered,
    launch := some s.me.launch, born := s.nd, via := viaOf s.space ps, bytewise := !whole,
    reach := if whole then none else some o.upto }

/-- Performs the issuing thread's store: published stores that still wait are performed first (R135), and a strong store is
performed with respect to its instance after them. -/
def State.storeNow (s : State) (ps : List Part) (bs : List (BitVec 8)) (o : Order) : State :=
  let keys := partKeys ps
  let s1 := s.publishAll s.cur
  let s2 := if o.strong then s1.raisePublished (some s.cur) s.cur o.scope else s1
  let s3 := (((s2.walksRead ps).toFabric keys true).remoteMessages s2.me.launch s2.here keys).write (s2.author ps o)
    (zipBytes keys bs)
  s3.hold keys

/-- A held store enters the publish queue (R129). -/
def State.holdStore (s : State) (ps : List Part) (bs : Bytes) (o : Order) : State :=
  let x := s.me
  s.setMe { x with pubq := x.pubq ++
    [{ level := x.st.cd.toNat - 1, bytes := bs, strong := o.strong, scope := o.scope, born := s.nd, made := s.nd,
       vas := ps.map (fun p => (p.va.toNat, p.n)), via := viaOf s.space ps, unord := partsClass ps == .unordered }] }

/-- Whether a held store would be the 33rd (R130). -/
def State.queueFull (s : State) : Bool := s.ctx.holding && s.me.pubq.length ≥ 32

/-- Stores bytes: held inside a candle, performed otherwise (R58). -/
def State.store (s : State) (ps : List Part) (bs : List (BitVec 8)) (o : Order) : State :=
  if s.ctx.holding then s.holdStore ps (zipBytes (partKeys ps) bs) o else s.storeNow ps bs o

/-- A plain read of memory by another agent of the package: latest in the coherence order. -/
def State.readKeys (s : State) (keys : List Nat) : List (BitVec 8) := keys.map s.content

/-! ### Small helpers of many instructions -/

/-- Sets A. -/
def State.setA (s : State) (v : W64) : State := s.setMe { s.me with a := v }
/-- Sets ST of the issuing thread. -/
def State.setSt (s : State) (f : Status → Status) : State := s.setMe { s.me with st := f s.me.st }

/-- The rounding mode of an ST.RM code (R74). -/
def rmodeOf (rm : BitVec 3) : RMode :=
  match rm.toNat with | 0 => .rne | 1 => .rtz | 2 => .rdn | 3 => .rup | _ => .rna
/-- Mode(): the override, or ST.RM (R58). -/
def State.mode (s : State) (r : RndSel) : RMode :=
  match r with
  | .none => rmodeOf s.ctx.st.rm
  | .rne => .rne | .rtz => .rtz | .rdn => .rdn | .rup => .rup | .rna => .rna

/-- The FP-exception check (R73): a raised exception with its TE bit set traps; in a sequence none does (R166). -/
def State.fpCheck (s : State) (f : Flags) : Except Stop Unit :=
  trapIf (f &&& s.ctx.st.te != 0) causeFp (f.zeroExtend 64)

end Sys2Proof.Machine
end

