-- ==== Sys2Proof/Machine/Flags.lean ====
section
/-! DEFINITION. The condition flags N, Z, C, V (R103, R110) and the exact results of the integer instructions (R104). -/

namespace Sys2Proof.Machine
open Sys2Proof

/-- N and Z of an n-bit result; C and V unchanged (R103). -/
def Status.setNZ (st : Status) (n r : Nat) : Status := { st with n := bit r (n - 1), z := r % 2 ^ n == 0 }

/-- The four flags of an n-bit result. -/
def Status.setNZCV (st : Status) (n r : Nat) (c v : Bool) : Status := { st.setNZ n r with c := c, v := v }

/-- Whether an exact integer lies outside the signed n-bit range (R104). -/
def outOfRange (n : Nat) (x : Int) : Bool := x < -(2 ^ (n - 1) : Int) || x > (2 ^ (n - 1) : Int) - 1

/-- The n-bit result of an exact integer: wrapped, or saturated when asked and out of range (R104, R105). -/
def narrow (n : Nat) (sat : Bool) (x : Int) : Nat :=
  if sat && outOfRange n x then (if x < 0 then 2 ^ (n - 1) else 2 ^ (n - 1) - 1) else wrapNat n x

/-- A result of an integer instruction: exact value, C and V where the instruction writes them, and whether MD[3]
saturates it (R105). -/
structure IntResult where
  x : Int
  c : Option Bool := none
  v : Option Bool := none
  sat : Bool := false

/-- The carry out of an n-bit addition. -/
def carryOut (n a m : Nat) : Bool := a % 2 ^ n + m % 2 ^ n ≥ 2 ^ n
/-- C of an n-bit subtraction: the first is not below the second, unsigned (R103). -/
def noBorrow (n a m : Nat) : Bool := a % 2 ^ n ≥ m % 2 ^ n

/-- ADD (R103, R104). -/
def addResult (n a m : Nat) : IntResult :=
  let x := signed n a + signed n m
  { x := x, c := some (carryOut n a m), v := some (outOfRange n x), sat := true }
/-- SUB and CMP (R103, R104). -/
def subResult (n a m : Nat) : IntResult :=
  let x := signed n a - signed n m
  { x := x, c := some (noBorrow n a m), v := some (outOfRange n x), sat := true }
/-- RSUB (R103, R104). -/
def rsubResult (n a m : Nat) : IntResult := subResult n m a
/-- MUL (R103, R104). -/
def mulResult (n a m : Nat) : IntResult :=
  let x := signed n a * signed n m
  { x := x, c := some (a % 2 ^ n * (m % 2 ^ n) ≥ 2 ^ n), v := some (outOfRange n x), sat := true }
/-- DIV, truncating toward zero (R103 to R105). -/
def divResult (n a m : Nat) : IntResult :=
  let x := (signed n a).tdiv (signed n m)
  { x := x, v := some (outOfRange n x), sat := true }
/-- DIVU (R103, R104). -/
def divuResult (n a m : Nat) : IntResult := { x := ((a % 2 ^ n / (m % 2 ^ n) : Nat) : Int), v := some false }
/-- REM: the sign of the dividend (R104). -/
def remResult (n a m : Nat) : IntResult := { x := (signed n a).tmod (signed n m), v := some false }
/-- A result that writes N and Z alone. -/
def plainResult (x : Int) : IntResult := { x := x }

/-- Writes A and the flags of an n-bit integer instruction (R99, R103, R104). -/
def State.intResult (s : State) (n : Nat) (sat : Bool) (r : IntResult) : State :=
  let y := narrow n (sat && r.sat) r.x
  (s.setA (sext64 n y)).setSt fun st =>
    let st := st.setNZ n y
    { st with c := r.c.getD st.c, v := r.v.getD st.v }

/-- Writes the flags alone (CMP, R104). -/
def State.intFlags (s : State) (n : Nat) (r : IntResult) : State :=
  let y := narrow n false r.x
  s.setSt fun st =>
    let st := st.setNZ n y
    { st with c := r.c.getD st.c, v := r.v.getD st.v }

/-- The flags of a floating-point comparison (R110). -/
def fcmpFlags (st : Status) (x y : FVal) : Status :=
  if x.isNan || y.isNan then { st with n := false, z := false, c := false, v := true }
  else if ltF x y then { st with n := true, z := false, c := false, v := false }
  else if ltF y x then { st with n := false, z := false, c := true, v := false }
  else { st with n := false, z := true, c := true, v := false }

end Sys2Proof.Machine
end

