-- ==== Sys2Proof/Machine/Operands.lean ====
section
/-! DEFINITION. Operand forms: the addressing modes (R24 to R26), the checks of memory operands (R102, R159, R332), the
reads and stores of page-0 instructions, pointers to memory blocks (R373), the replay queue's entry (R326). -/

namespace Sys2Proof.Machine
open Sys2Proof

/-! ### Addressing modes (R24, R25) -/

/-- The address that a memory operand of `w` bytes uses: EA(o). -/
def eaOf (v : W64) (am : AMode) (w : Nat) : VA :=
  match am with
  | .pre => ptrAddr v + BitVec.ofInt 48 (ptrStep v * w)
  | _ => ptrAddr v

/-- The pointer after a memory operand of `w` bytes; `mask` is XI's wrap mask: Step(o). -/
def steppedOf (v : W64) (mask : BitVec 16) (am : AMode) (w : Nat) : W64 :=
  let next : VA := ptrAddr v + BitVec.ofInt 48 (ptrStep v * w)
  match am with
  | .plain => v
  | .post | .pre => withAddr v next
  | .circ =>
    let m : VA := mask.zeroExtend 48
    withAddr v ((ptrAddr v &&& ~~~m) ||| (next &&& m))

/-- EA(o) of the issuing thread. -/
def State.ea (s : State) (o : MemOp) (w : Nat) : VA := eaOf (s.ctx.ptrs.get o.p) o.am w
/-- Step(o) of the issuing thread: applied to what the pointer then holds (R26). -/
def State.step1 (s : State) (o : MemOp) (w : Nat) : State :=
  s.setPtr o.p (steppedOf (s.ctx.ptrs.get o.p) s.ctx.xi.mask o.am w)

/-! ### Checks -/

/-- The linear-handle check of a pointer that is used as an address (R27). -/
def State.notHandle (s : State) (p : PReg) : Except Stop Unit := trapIf (s.ctx.st.handle p) causeHandle 0

/-- The alignment check of an address to a power of two or any other number of bytes. -/
def aligned (a : VA) (w : Nat) (badv : W64) : Except Stop Unit := trapIf (a.toNat % w != 0) causeMisaligned badv

/-- The alignment rule of R101: for an ordered or synchronised access. -/
def orderedAligned (a : VA) (w : Nat) (md : MD) : Except Stop Unit :=
  if md.sync || md.ord != .default then aligned a w (addrBadv a) else .ok ()

/-- The address rule of synchronised accesses (R159): the local alias or the cluster window. -/
def syncAddress (a : VA) : Bool :=
  (0xFF0000000000 ≤ a.toNat && a.toNat < 0xFF0006000000) || inAlias a

/-- The checks of a synchronised access after its translation (R159, R254): no mailbox page, then the address rule. -/
def syncChecks (a : VA) (ps : List Part) : Except Stop Unit := do
  if (partKeys ps).any keyIsMbox then .error (.trap (faultPermission a .read false 0)) else .ok ()
  trapIf (!syncAddress a) causeSync (addrBadv a)

/-! ### Reading an operand (R102, R104, R108) -/

/-- A checked memory operand: its address and its translated parts. -/
structure Operand where
  ea    : VA
  parts : List Part

/-- Checks 2 to 5 of R102 of a read operand of `w` bytes. -/
def State.readOperand (s : State) (o : MemOp) (w : Nat) (md : MD) : Except Stop Operand := do
  s.notHandle o.p
  let a := s.ea o w
  orderedAligned a w md
  let ps ← s.access .read a w
  if md.sync then syncChecks a ps
  if md.sync then s.notHeld
  s.candleClass ps (addrBadv a)
  .ok { ea := a, parts := ps }

/-- The ordering of an operand's access. -/
def Operand.order (p : Operand) (md : MD) : Order := orderOf (partsClass p.parts) md
/-- The number that an operand's bytes hold. -/
def State.operandValue (s : State) (p : Operand) (md : MD) : Nat := ofBytes (s.loadBytes p.parts (p.order md))

/-- Reads an operand: waits where the access is a release as well, then gives its value and the state after the load,
with the pointer not yet stepped. -/
def State.loadOperand (s : State) (p : Operand) (md : MD) : Except Stop (Nat × State) := do
  let o := p.order md
  s.awaitRelease o.rel o.scope
  .ok (ofBytes (s.loadBytes p.parts o), s.loaded p.parts o)

/-! ### Synchronised accesses (R159, R160) -/

/-- Parks a synchronised access until its word's full bit is `full` and it is the first that waits for that at the word's
home: those that wait are kept in the order in which they reached it, which is that of their issue (DEDUCED,
log 83). -/
def State.awaitBit (s : State) (k : Nat) (full : Bool) : Except Stop State :=
  let word := k / 8
  let mine (w : SyncWait) : Bool := w.slot == s.cur && w.word == word
  let line := s.syncs.filter fun w => w.word == word && w.full == full
  let first := match line with | w :: _ => mine w | [] => true
  if s.isFull k == full && first then .ok { s with syncs := s.syncs.filter fun w => !mine w }
  else .error (.park (if line.any mine then s else
    { s with syncs := s.syncs ++ [{ word := word, full := full, slot := s.cur }] }))

/-! ### The replay queue (R326) -/

/-- The pages that a store meets. -/
def pagesOf (a : VA) (w : Nat) : List Nat :=
  if a.toNat / 4096 = (a + BitVec.ofNat 48 (w - 1)).toNat / 4096 then [a.toNat / 4096]
  else [a.toNat / 4096, (a + BitVec.ofNat 48 (w - 1)).toNat / 4096]

/-- The stage-1 class of an address; none where stage 1 gives no leaf. -/
def State.stage1Class (s : State) (sp : Space) (va : VA) : Option PageClass :=
  match s.walk1 (s.reader sp va) sp.tenant va 4 0 sp.root with | .ok l => some (classOf l.oc) | .error _ => none

/-- Puts a store at the end of the replay queue. -/
def State.enqueueReplay (s : State) (a : VA) (bs : List (BitVec 8)) (c : PageClass) : State :=
  let x := s.me
  s.setMe { x with replay := x.replay ++ [{ va := a, bytes := bs, cls := c, since := s.cycle, made := s.nd }] }

/-- Whether a store is of the kind that may enter the replay queue (R326): default-ordered and not held. -/
def State.plainStore (s : State) (md : MD) : Bool :=
  !md.sync && md.ord == .default && !s.ctx.holding && s.inSeq.isNone

/-- The class of the replay-queue entry that already waits for a page of a store. -/
def State.waitingPage (s : State) (a : VA) (w : Nat) : Option PageClass :=
  (s.me.replay.find? fun r => (pagesOf r.va r.bytes.length).any fun g => (pagesOf a w).contains g).map (·.cls)

/-- The class with which a store that met a second-stage fault enters the replay queue; none where it may not: stage 1
gives no leaf, the page is of class S, or the tenant has no second stage (R326, R394). -/
def State.replayClass (s : State) (a : VA) (w : Nat) (t : TrapInfo) : Option PageClass :=
  let cs := (pagesOf a w).map fun g => s.stage1Class s.space (BitVec.ofNat 48 (g * 4096))
  if t.ipa.isNone || aget (0 : BitVec 52) s.regs.s2root s.me.tenant.toNat == 0
      || cs.any (fun c => c == none || c == some .strong) then none
  else some (if cs.contains (some .releaseConsistent) then .releaseConsistent else .unordered)

/-- What checks 2 to 6 of R102 give a store: its translated parts, or entry into the replay queue with the fault that is
reported to the host. -/
inductive StoreTo where
  | parts (ps : List Part)
  | replay (fault : Option TrapInfo) (cls : PageClass)

/-- The trap of a store that finds the replay queue full, for the first of its parts whose page waits there: the parts before it
are translated (R100, R326). -/
def State.queueRefuses {α : Type} (s : State) (a : VA) (w : Nat) : Except Stop α := do
  let first := 4096 - a.toNat % 4096
  let refuse (va : VA) : Except Stop α := .error (.trap { faultTranslation va .write true 0 with ipa := none })
  if (s.waitingPage a (Nat.min first w)).isSome then refuse a else
  let _ ← s.access .write a first
  refuse (a + BitVec.ofNat 48 first)

/-- Translates a store's address, or finds that it enters the replay queue (R326). A straddling store of which one page
already waits enters it whole, without a translation attempt and with the waiting entry's class (DESIGN CHOICE, log 84). Where the
queue is full it traps, with BADV at the first byte of the part whose page waits, unless a part before it faults itself
(R100, R326). -/
def State.translateStore (s : State) (a : VA) (w : Nat) (md : MD) : Except Stop StoreTo :=
  let full := s.me.replay.length ≥ 8
  match if s.plainStore md then s.waitingPage a w else none with
  | some c =>
    if full then s.queueRefuses a w else .ok (.replay none c)
  | none =>
    match s.access .write a w with
    | .ok ps => .ok (.parts ps)
    | .error (.trap t) =>
      match if s.plainStore md && !full then s.replayClass a w t else none with
      | some c => .ok (.replay (some t) c)
      | none => .error (.trap t)
    | .error e => .error e

/-- Checks 2 to 6 of R102 of a stored operand of `w` bytes at an address. -/
def State.storeOperand (s : State) (p : PReg) (a : VA) (w : Nat) (md : MD) : Except Stop StoreTo := do
  s.notHandle p
  orderedAligned a w md
  match ← s.translateStore a w md with
  | .replay t c => .ok (.replay t c)
  | .parts ps =>
    if md.sync then syncChecks a ps
    if md.sync then s.notHeld
    s.candleClass ps (addrBadv a)
    trapIf s.queueFull causeOverflow (addrBadv a)
    .ok (.parts ps)

/-! ### Blocks named by a pointer (R163, R373) -/

/-- The checks of a memory block named through a pointer: handle, alignment, translation (R373 checks 1, 2, 4). -/
def State.blockAt (s : State) (p : PReg) (align n : Nat) (acc : Access) : Except Stop (List Part) := do
  s.notHandle p
  let a := ptrAddr (s.ctx.ptrs.get p)
  aligned a align (addrBadv a)
  s.access acc a n

/-- The bytes of a block as a load of its pages. -/
def State.blockBytes (s : State) (ps : List Part) : List (BitVec 8) := s.loadBytes ps (orderOf (partsClass ps) MD.zero)

/-- Reads a block: its bytes, and the state after the load. An instruction that holds the thread does so by its own
rule. -/
def State.readBlock (s : State) (ps : List Part) : Except Stop (List (BitVec 8) × State) := do
  let keys := partKeys ps
  let o := orderOf (partsClass ps) MD.zero
  s.awaitRelease o.rel o.scope
  let s1 := (((s.walksRead ps).toFabric keys false).remoteMessages s.me.launch s.here keys).readLines s.cur s.here keys
  .ok (s.loadBytes ps o, if o.acq then s1.acquired o.scope else s1)

/-- The first bytes of parts. -/
def partsTake : Nat → List Part → List Part
  | _, [] => []
  | n, p :: ps => if n = 0 then [] else { p with n := Nat.min p.n n } :: partsTake (n - p.n) ps

/-- Stores bytes to parts of a block that an instruction has found (R58): a store of its page, held inside a candle as any
other is. -/
def State.storeBlock (s s1 : State) (ps : List Part) (bs : List (BitVec 8)) : Res := do
  let o := orderOf (partsClass ps) MD.zero
  if s.ctx.holding then .ok (s1.store ps bs o) else
    s.awaitRelease o.rel o.scope
    s.awaitPublish
    let s2 := s1.store ps bs o
    .ok (if o.acq then s2.acquired o.scope else s2)

/-- Field bytes of a block: `n` bytes from an offset as a number. -/
def bytesField (bs : List (BitVec 8)) (off n : Nat) : Nat := ofBytes ((bs.drop off).take n)

end Sys2Proof.Machine
end

