-- ==== Sys2Proof/Machine/Float.lean ====
section
/-! DEFINITION. The floating-point accumulator–memory instructions, page 0 major 2 (R108 to R110). -/

namespace Sys2Proof.Machine
open Sys2Proof

/-- The format of a long width. -/
def longFmt : LongWidth → FFmt
  | .l32 => .f32 | .l64 => .f64

/-- Writes A ← Zext(r, b) and keeps the raised exceptions, once none of them traps (R73, R108). -/
def State.fpResult (s : State) (b : Nat) (r : Nat × Flags) : Except Stop State := do
  s.fpCheck r.2
  .ok ((s.setA (zext64 b r.1)).orFlags r.2)

/-- A two-operand instruction: `f` gives the result from the mode and the data of A and of the operand. -/
def State.fpOp (s : State) (w : LongWidth) (o : MemOp) (md : MD) (f : FFmt → RMode → Nat → Nat → Nat × Flags) : Res := do
  let n := w.width.bytes
  let p ← s.readOperand o n md
  let (m, s1) ← s.loadOperand p md
  let a := s.ctx.a.toNat % 2 ^ (8 * n)
  let s2 ← s1.fpResult (8 * n) (f (longFmt w) (s.mode md.rnd) a m)
  .ok (s2.step1 o n).advance

/-- The data of an operation on unpacked values. -/
def onValues (f : FFmt → RMode → FVal → FVal → Nat × Flags) (k : FFmt) (r : RMode) (a m : Nat) : Nat × Flags :=
  f k r (unpackF k a) (unpackF k m)

/-- The state with other free choices: two reads of one instruction may observe different writes (R319). -/
def State.otherChoice (s : State) : State := { s with nd := s.nd + 2 ^ 128 }

/-- FMA: m1 × m2 + a with one rounding (R109). -/
def State.fmaOp (s : State) (w : LongWidth) (o : MemOp) (q : Option MemOp) (md : MD) : Res := do
  let n := w.width.bytes
  match q with
  | none => trapWith causeReserved (addrBadv s.baseAddr)
  | some q =>
    s.notHandle o.p
    s.notHandle q.p
    orderedAligned (s.ea o n) n md
    orderedAligned (s.ea q n) n md
    let ps ← s.access .read (s.ea o n) n
    let qs ← s.access .read (s.ea q n) n
    s.candleClass ps (addrBadv (s.ea o n))
    s.candleClass qs (addrBadv (s.ea q n))
    let (m1, s1) ← s.loadOperand { ea := s.ea o n, parts := ps } md
    let (m2, _) ← s1.otherChoice.loadOperand { ea := s.ea q n, parts := qs } md
    let (_, s2) ← s1.loadOperand { ea := s.ea q n, parts := qs } md
    let k := (longFmt w)
    let a := s.ctx.a.toNat % 2 ^ (8 * n)
    let s3 ← s2.fpResult (8 * n) (fmaF k (s.mode md.rnd) (unpackF k m1) (unpackF k m2) (unpackF k a))
    .ok ((s3.step1 o n).step1 q n).advance

/-- FCMP: flags alone (R110). -/
def State.fcmpOp (s : State) (w : LongWidth) (o : MemOp) (md : MD) : Res := do
  let n := w.width.bytes
  let p ← s.readOperand o n md
  let (m, s1) ← s.loadOperand p md
  let x := unpackF (longFmt w) (s.ctx.a.toNat % 2 ^ (8 * n))
  let y := unpackF (longFmt w) m
  s.fpCheck (snanFlags [x, y])
  .ok (((s1.orFlags (snanFlags [x, y])).setSt fun st => fcmpFlags st x y).step1 o n).advance

/-- FADD (R108). -/
def execFadd (w : LongWidth) (o : MemOp) (md : MD) (s : State) : Outcome :=
  settle s (.fadd w o md) (s.fpOp w o md (onValues addF))
/-- FSUB (R108). -/
def execFsub (w : LongWidth) (o : MemOp) (md : MD) (s : State) : Outcome :=
  settle s (.fsub w o md) (s.fpOp w o md (onValues fun k r a m => addF k r a m.neg))
/-- FMUL (R108). -/
def execFmul (w : LongWidth) (o : MemOp) (md : MD) (s : State) : Outcome :=
  settle s (.fmul w o md) (s.fpOp w o md (onValues mulF))
/-- FMA (R109). -/
def execFma (w : LongWidth) (o : MemOp) (q : Option MemOp) (md : MD) (s : State) : Outcome :=
  settle s (.fma w o q md) (s.fmaOp w o q md)
/-- FDIV (R108). -/
def execFdiv (w : LongWidth) (o : MemOp) (md : MD) (s : State) : Outcome :=
  settle s (.fdiv w o md) (s.fpOp w o md (onValues divF))
/-- FSQRT: A is not read (R108). -/
def execFsqrt (w : LongWidth) (o : MemOp) (md : MD) (s : State) : Outcome :=
  settle s (.fsqrt w o md) (s.fpOp w o md (onValues fun k r _ m => sqrtF k r m))
/-- FMIN (R72, R108). -/
def execFmin (w : LongWidth) (o : MemOp) (md : MD) (s : State) : Outcome :=
  settle s (.fmin w o md) (s.fpOp w o md fun k _ a m => minmaxF k false a m)
/-- FMAX (R72, R108). -/
def execFmax (w : LongWidth) (o : MemOp) (md : MD) (s : State) : Outcome :=
  settle s (.fmax w o md) (s.fpOp w o md fun k _ a m => minmaxF k true a m)
/-- FCMP (R110). -/
def execFcmp (w : LongWidth) (o : MemOp) (md : MD) (s : State) : Outcome :=
  settle s (.fcmp w o md) (s.fcmpOp w o md)

end Sys2Proof.Machine
end

