-- ==== Sys2Proof/Machine/Rows.lean ====
section
/-! DEFINITION. Rows and tiles as instructions see them: lane types (R53, R87), the checks of R178 on named rows, pending
marks (R154), the rows that a captured instruction names (R163). -/

namespace Sys2Proof.Machine
open Sys2Proof

/-! ### Lane types (R53, R87, R175, R179) -/

/-- Bits of a lane. -/
def laneBits : LaneTy → Nat
  | .int .i16 | .fp .f16 | .fp .bf16 => 16
  | .int .i32 | .fp .f32 => 32
  | .int .i64 | .fp .f64 => 64
/-- The tag of a lane type. -/
def laneTag : LaneTy → BitVec 4
  | .int .i16 => 2 | .int .i32 => 3 | .int .i64 => 4 | .fp .f16 => 5 | .fp .bf16 => 6 | .fp .f32 => 7 | .fp .f64 => 8
/-- The format of a floating-point lane type. -/
def fpFmt : FpTy → FFmt
  | .f16 => .f16 | .bf16 => .bf16 | .f32 => .f32 | .f64 => .f64
/-- The lane type of a tag 2 to 8. -/
def tagLane (t : BitVec 4) : Option LaneTy :=
  match t.toNat with
  | 2 => some (.int .i16) | 3 => some (.int .i32) | 4 => some (.int .i64)
  | 5 => some (.fp .f16) | 6 => some (.fp .bf16) | 7 => some (.fp .f32) | 8 => some (.fp .f64)
  | _ => none
/-- The element size that lanes of a width need (R175). -/
def sizeOfBits (n : Nat) : ElemSize := if n = 16 then .e16 else if n = 32 then .e32 else .e64
/-- The integer tag of a lane width. -/
def intTag (n : Nat) : BitVec 4 := if n = 16 then 2 else if n = 32 then 3 else 4
/-- Bits of a VPERM width. -/
def permBits : PermWidth → Nat
  | .w16 => 16 | .w32 => 32 | .w64 => 64

/-! ### Checks 4 to 7 of R178 -/

/-- The tile of a row of the issuing core. -/
def State.tileOf (s : State) (r : RowRef) : Tile := s.myCore.tile (rowTile r)
/-- Whether a row is in a gated bank (R34). -/
def State.rowGated (s : State) (r : RowRef) : Bool :=
  let t := s.tileOf r
  !t.alloc || !t.banks.getLsbD (rowNum r / 16)
/-- Whether the issuing thread may use a tile (R175). -/
def State.mayUse (s : State) (t : Tile) : Bool :=
  t.launch == s.me.launch && (t.owner == .shared || t.owner == .slot (BitVec.ofNat 4 s.cur))

/-- The sequence in whose name the instruction is performed, by its number. -/
def State.mySeqId (s : State) : Option Nat := s.mySeq.map (·.id)

/-- Whether a sequence's marks hold the instruction back (R154): every sequence's for a thread's own instruction; for a
captured one those of the sequences taken before its own, since a REP waits for the rows of the others and the B latch is
marked in the order of the REPs (R163, R164). -/
def State.marksAgainst (s : State) (q : Seq) : Bool := s.mySeqId.all (q.id < ·)

/-- Whether a captured instruction meets a mark that a later sequence of another thread has put on a row: a span may reach rows
that its own sequence has not marked (R154, R165). -/
def State.markedSince (s : State) (q : Seq) (r : RowRef) : Bool :=
  s.mySeq.any fun m => m.slot != q.slot && !m.rows.contains r

/-- Whether a TREL of a row's tile is parked, which holds back the instructions of every slot (R177); a captured instruction
goes on, since the TREL waits for the marks of its sequence. -/
def State.releasing (s : State) (r : RowRef) : Bool :=
  s.inSeq.isNone && (upto 16).any fun i =>
    let t := 16 * s.here + i
    t != s.cur && match (s.slot t).park with | some (.trel u, _) => u == rowTile r | _ => false

/-- Whether a row of the issuing core is pending for the instruction (R154): for an engine operation, a sequence or a
special function, or because its tile is being released (R177). -/
def State.rowPending (s : State) (r : RowRef) : Bool :=
  let c := s.myCore
  c.ops.any (fun o => o.rows.contains r)
    || c.seqs.any (fun q => (s.marksAgainst q || s.markedSince q r) && q.rows.contains r)
    || (s.octet (octetOf s.here)).sfu.any (fun q => coreOf q.slot == s.here && q.row == r)
    || s.releasing r
/-- Whether the B latch is pending for the instruction (R154). -/
def State.latchPending (s : State) : Bool :=
  s.myCore.ops.any (·.latch) || s.myCore.seqs.any (fun q => s.marksAgainst q && q.latch)

/-- Whether a row of a tile is pending under R154, whichever slot's operation made it so. -/
def State.tilePending (s : State) (t : BitVec 2) : Bool :=
  let c := s.myCore
  c.ops.any (fun o => o.rows.any fun r => rowTile r == t) || c.seqs.any (fun q => q.rows.any fun r => rowTile r == t)
    || (s.octet (octetOf s.here)).sfu.any (fun q => coreOf q.slot == s.here && rowTile q.row == t)

/-- Check 4 of R178: no named row is in a gated bank; where several are, BADV names the first in the order base word, OPX
(DESIGN CHOICE, log 85). -/
def State.rowsUngated (s : State) : List RowRef → Except Stop Unit
  | [] => .ok ()
  | r :: rs => do trapIf (s.rowGated r) causeGated (rowBadv r); State.rowsUngated s rs
/-- Check 5 of R178: every named row is in a tile the thread may use; BADV as for check 4 (log 85). -/
def State.rowsOwned (s : State) : List RowRef → Except Stop Unit
  | [] => .ok ()
  | r :: rs => do trapIf (!s.mayUse (s.tileOf r)) causeOwner (rowBadv r); State.rowsOwned s rs
/-- Check 6 of R178: a pending row parks. -/
def State.rowsFree (s : State) (rs : List RowRef) : Except Stop Unit :=
  if rs.any s.rowPending then .error (.park s) else .ok ()
/-- Checks 4 to 6 of R178. -/
def State.rowsReady (s : State) (rs : List RowRef) : Except Stop Unit := do
  s.rowsUngated rs
  s.rowsOwned rs
  s.rowsFree rs

/-- A row of the issuing core. -/
def State.row (s : State) (r : RowRef) : Row := s.myCore.row r
/-- Sets a row of the issuing core; scale bytes of the tags 1 to 8 read as zero (R86). -/
def State.setRow (s : State) (r : RowRef) (x : Row) : State :=
  s.setMyCore (s.myCore.setRow r { x with scales := if 1 ≤ x.tag.toNat && x.tag.toNat ≤ 8 then 0 else x.scales })

/-- Check 7: a row used as lanes of `n` bits lies in a tile of that element size (R175). -/
def State.rowSize (s : State) (r : RowRef) (n : Nat) : Except Stop Unit :=
  trapIf ((s.tileOf r).size != sizeOfBits n) causeFormat (rowBadv r)
/-- Check 7: a source row carries a tag of the list or tag 0 (R179). -/
def State.rowTagged (s : State) (r : RowRef) (tag : BitVec 4) : Except Stop Unit :=
  trapIf ((s.row r).tag != tag && (s.row r).tag != 0) causeFormat (rowBadv r)
/-- Check 7 of a source row of a lane type. -/
def State.laneSource (s : State) (r : RowRef) (n : Nat) (tag : BitVec 4) : Except Stop Unit := do
  s.rowSize r n
  s.rowTagged r tag

/-- The lanes of `n` bits of a row. -/
def State.lanes (s : State) (n : Nat) (r : RowRef) : List Nat := lanesOf n (s.row r).elems
/-- A required OPX is absent (check 1 of R102, R178). -/
def State.missingOpx {α : Type} (s : State) : Except Stop α := trapWith causeReserved (addrBadv s.baseAddr)
/-- The address of the first OPX. -/
def State.opx1Addr (s : State) : VA := s.chainAddr s.chain.opx1
/-- The address of the MD. -/
def State.mdAddr (s : State) : VA := s.chainAddr s.chain.md

/-- The rows of a span of `m` rows (R194). -/
def spanRows (d : RowRef) (m : Nat) : List RowRef := (upto m).map fun i => rowOf (rowTile d) (rowNum d + i)
/-- Check 2 of R178: a span runs past row 63; BADV at the halfword that names it. -/
def spanFits (d : RowRef) (m : Nat) (at_ : VA) : Except Stop Unit :=
  trapIf (rowNum d + m > 64) causeReserved (addrBadv at_)

/-! ### The rows of an instruction (R163, R164) -/

/-- Replaces every row field and row-form OPX of a capturable instruction (R164). -/
def mapRows (f : RowRef → RowRef) : Instr → Instr
  | .vld p r md => .vld p (f r) md
  | .vst p r md => .vst p (f r) md
  | .vadd t d a b md => .vadd t (f d) (a.map f) (b.map f) md
  | .vsub t d a b md => .vsub t (f d) (a.map f) (b.map f) md
  | .vmul t d a b md => .vmul t (f d) (a.map f) (b.map f) md
  | .vfma t d a b md => .vfma t (f d) (a.map f) (b.map f) md
  | .vfms t d a b md => .vfms t (f d) (a.map f) (b.map f) md
  | .vmin t d a b => .vmin t (f d) (a.map f) (b.map f)
  | .vmax t d a b => .vmax t (f d) (a.map f) (b.map f)
  | .vabs t d md => .vabs t (f d) md
  | .vneg t d md => .vneg t (f d) md
  | .vand t d a => .vand t (f d) (a.map f)
  | .vor t d a => .vor t (f d) (a.map f)
  | .vxor t d a => .vxor t (f d) (a.map f)
  | .vshl t d k => .vshl t (f d) k
  | .vshr t d k => .vshr t (f d) k
  | .vsar t d k => .vsar t (f d) k
  | .vcmp t d a c => .vcmp t (f d) (a.map f) c
  | .vsel t d a m => .vsel t (f d) (a.map f) (m.map f)
  | .vcvt t d a md => .vcvt t (f d) (a.map f) md
  | .vperm w d a x => .vperm w (f d) (a.map f) (x.map f)
  | .vqmx q d => .vqmx q (f d)
  | .vqnt q d x md => .vqnt q (f d) (x.map f) md
  | .vdq t d a => .vdq t (f d) (a.map f)
  | .mzero d n => .mzero (f d) n
  | .mdrain d p => .mdrain (f d) p
  | i => i

/-- The row fields and row-form OPX of a capturable instruction. -/
def namedRows : Instr → List RowRef
  | .vld _ r _ | .vst _ r _ => [r]
  | .vadd _ d a b _ | .vsub _ d a b _ | .vmul _ d a b _ => d :: a.toList ++ b.toList
  | .vfma _ d a b _ | .vfms _ d a b _ => d :: a.toList ++ b.toList
  | .vmin _ d a b | .vmax _ d a b => d :: a.toList ++ b.toList
  | .vabs _ d _ | .vneg _ d _ => [d]
  | .vand _ d a | .vor _ d a | .vxor _ d a => d :: a.toList
  | .vshl _ d _ | .vshr _ d _ | .vsar _ d _ => [d]
  | .vcmp _ d a _ => d :: a.toList
  | .vsel _ d a m => d :: a.toList ++ m.toList
  | .vcvt _ d a _ => d :: a.toList
  | .vperm _ d a x => d :: a.toList ++ x.toList
  | .vqmx _ d => [d]
  | .vqnt _ d x _ => d :: x.toList
  | .vdq _ d a => d :: a.toList
  | .mzero d _ | .mdrain d _ => [d]
  | _ => []

/-- The pointers that a capturable instruction names as memory operands or command blocks. -/
def namedPtrs : Instr → List PReg
  | .vld p _ _ | .vst p _ _ | .mldb p | .mma p | .mmrot p | .copy p _ => [p]
  | .mdrain _ p | .mrot _ _ p => p.toList
  | _ => []

/-- Whether an instruction may be captured (R163). -/
def capturable : Instr → Bool
  | .vld _ _ _ | .vst _ _ _ | .vadd _ _ _ _ _ | .vsub _ _ _ _ _ | .vmul _ _ _ _ _ | .vfma _ _ _ _ _
  | .vfms _ _ _ _ _ | .vmin _ _ _ _ | .vmax _ _ _ _ | .vabs _ _ _ | .vneg _ _ _ | .vand _ _ _ | .vor _ _ _
  | .vxor _ _ _ | .vshl _ _ _ | .vshr _ _ _ | .vsar _ _ _ | .vcmp _ _ _ _ | .vsel _ _ _ _ | .vcvt _ _ _ _
  | .vperm _ _ _ _ | .vqmx _ _ | .vqnt _ _ _ _ | .vdq _ _ _ | .mldb _ | .mma _ | .mmrot _ | .mzero _ _
  | .mdrain _ _ | .mrot _ _ _ | .copy _ _ => true
  | _ => false

/-- Whether a captured instruction uses the B latch (R163). -/
def usesLatch : Instr → Bool
  | .mldb _ | .mma _ | .mmrot _ | .mrot _ _ _ => true
  | _ => false

/-- The block pointer of a captured MMA or MMROT (R163). -/
def tilePtr : Instr → Option PReg
  | .mma p | .mmrot p => some p
  | _ => none

/-! ### Counted operations (R153, R155) -/

/-- The bytes that the issuing thread's own earlier stores give locations before memory holds them, for an operation that
an engine is to perform later (R58, R207): the newest of held, published and waiting stores and of the row stores that have
not been written. A captured operation takes those of its own sequence, and of the stores before its REP (R164, R165). -/
def State.ahead (s : State) (at_ : List (VA × Nat)) : Bytes :=
  let x := s.ctx
  let mine := s.myCore.ops.filter fun o => o.slot == s.cur && o.kind.isStore && !o.written && o.seq == s.mySeqId
  if x.pubq.isEmpty && x.replay.isEmpty && x.drain.isEmpty && mine.isEmpty then [] else
  at_.filterMap fun e =>
    let own := (x.waitingBytes e.1.toNat e.2).filter fun w => s.mySeqId.all (w.1 < ·)
    (newestByte (own ++ mine.filterMap fun o => (bytesAt o.unstored e.2).map (o.born, ·))).map fun w => (e.2, w.2)

/-- Accepts an engine operation of the issuing thread: outside a sequence it is counted. One whose acquire later accesses
wait for holds its thread, or its sequence (R184, R322). -/
def State.accept (s : State) (o : EngOp) : State :=
  let o := { o with slot := s.cur, seq := s.mySeqId, born := s.nd, since := s.hist.length }
  let c := s.myCore
  let s1 := ((s.setMyCore { c with ops := c.ops ++ [o] }).toFabric o.src false).toFabric (o.bytes.map (·.1)) true
  if o.seq.isSome then s1 else
  let x := { s1.me with busy := s1.me.busy || o.holds }
  if o.kind.isLoad then s1.setMe { x with loads := x.loads + 1 }
  else if o.kind.isStore then s1.setMe { x with stores := x.stores + 1 }
  else s1.setMe { x with tiles := x.tiles + 1 }

/-- Parks while a counter stands at its capacity (R155); captured instructions are not counted (R164). The rules give this
park no place among an instruction's checks: it stands after check 6 of R178 and check 8 of R205 (DESIGN CHOICE, log 85). -/
def State.capacity (s : State) (n cap : Nat) : Except Stop Unit :=
  if s.inSeq.isNone && n ≥ cap then .error (.park s) else .ok ()

end Sys2Proof.Machine
end

