-- ==== Sys2Proof/Machine/Atomic.lean ====
section
/-! DEFINITION. The atomics (R328 to R332) and the futures (R333 to R335). -/

namespace Sys2Proof.Machine
open Sys2Proof

/-! ### New values (R329, R330) -/

/-- The smaller or larger of two n-bit numbers, signed. -/
def pickSigned (n : Nat) (larger : Bool) (a b : Nat) : Nat :=
  if (signed n a ≤ signed n b) != larger then a else b

/-- New(old, x, y) of an integer atomic on n bits; none where AMOCAS does not write. -/
def amoNew (fn : AmoFn) (n old x y : Nat) : Option Nat :=
  match fn with
  | .add => some ((old + x) % 2 ^ n)
  | .and => some (old &&& x)
  | .or => some (old ||| x)
  | .xor => some (old ^^^ x)
  | .min => some (pickSigned n false old x)
  | .max => some (pickSigned n true old x)
  | .minu => some (Nat.min old x)
  | .maxu => some (Nat.max old x)
  | .swap => some x
  | .cas => if old = x then some y else none
  | .fadd | .fmin | .fmax => some x

/-- New(old, x) of a floating-point atomic with the exceptions raised. -/
def amoFloat (fn : AmoFn) (k : FFmt) (r : RMode) (old x : Nat) : Nat × Flags :=
  match fn with
  | .fadd => addF k r (unpackF k old) (unpackF k x)
  | .fmin => minmaxF k false old x
  | _ => minmaxF k true old x

/-- Whether an atomic is of a floating-point form. -/
def amoIsFloat : AmoFn → Bool
  | .fadd | .fmin | .fmax => true
  | _ => false

/-- New(old, x, y) of any atomic with the exceptions raised. -/
def amoResult (fn : AmoFn) (w : LongWidth) (r : RMode) (old x y : Nat) : Option Nat × Flags :=
  if amoIsFloat fn then
    let v := amoFloat fn (longFmt w) r old x
    (some v.1, v.2)
  else (amoNew fn w.width.bits old x y, 0)

/-! ### The instruction -/

/-- Writes A and the flags of an atomic that read `old` (R329). -/
def State.amoDone (s : State) (fn : AmoFn) (n old : Nat) (written : Bool) (f : Flags) : State :=
  if amoIsFloat fn then (s.setA (zext64 n old)).orFlags f
  else (s.setA (sext64 n old)).setSt fun st => if fn == .cas then { st with z := written } else st.setNZ n old

/-- The read and the write of an atomic as one step (R329, R331): the state before the write, with every earlier write to its
bytes performed with respect to the thread, the old value, and what it comes to. -/
def State.amoRead (s : State) (ps : List Part) (f : Nat → Option Nat × Flags) : State × Nat × Option Nat × Flags :=
  let keys := partKeys ps
  let s1 := (s.publishAll s.cur).observeAll s.cur keys
  let old := ofBytes (s1.readKeys keys)
  let r := f old
  (s1, old, r.1, r.2)

/-- The atomics that switches may combine for a tenant that is enrolled (R421). -/
def combinable : AmoFn → Bool
  | .add | .and | .or | .xor | .min | .max | .minu | .maxu | .fmin | .fmax => true
  | .swap | .cas | .fadd => false

/-- An atomic on a peer line is sent to its home: before that the package's own copies of the line are written back and
invalidated (R414, R421). -/
def State.sendAtomic (s : State) (ps : List Part) (fn : AmoFn) : State :=
  let red := (aget {} s.fab.rates s.me.tenant.toNat : Rate).red
  (firstKeys (partKeys ps)).foldl
    (fun s k => (s.dropLine (lineOf k)).post { s.slotRequest s.cur s.nd k with combine := red && combinable fn }) (s.walksRead ps)

/-- The end of an atomic's access: its write, or that of a failed AMOCAS, which is a load (R329) and takes the lines exclusively as
every atomic does (R331); on a peer line its home executes it (R414). -/
def State.amoWrite (s : State) (fn : AmoFn) (ps : List Part) (ord : Order) (v : Option Nat) : State :=
  let keys := partKeys ps
  let s1 :=
    if keys.any keyIsPeer then
      let s1 := s.sendAtomic ps fn
      (match v with
        | some v => (s1.raisePublished (some s.cur) s.cur ord.scope).write { s1.author ps ord with atHome := true }
            (zipBytes keys (toBytes keys.length v))
        | none => s1.strongSeen s.cur ord.scope keys).hold keys
    else match v with
      | some v => s.storeNow ps (toBytes keys.length v) ord
      | none => (firstKeys keys).foldl (fun s k => s.ownLine s.cur s.here k) (s.loaded ps { ord with acq := false })
  if ord.acq then s1.acquired ord.scope else s1

/-- An atomic (R329 to R332); one that writes waits as a release. -/
def State.amoOp (s : State) (fn : AmoFn) (w : LongWidth) (o : MemOp) (q : Option MemOp) (md : MD) : Res := do
  let n := w.width.bytes
  if fn == .cas && q.isNone then s.missingOpx else .ok ()
  s.notHandle o.p
  match q with | some q => s.notHandle q.p | none => .ok ()
  let e := s.ea o n
  aligned e n (addrBadv e)
  let ps ← s.access .atomic e n
  let qs ← (match q with | some q => s.access .read (s.ea q n) n | none => .ok [])
  if (partKeys ps).any keyIsMbox then .error (.trap (faultPermission e .rmw false 0)) else .ok ()
  s.notHeld
  s.candleClass ps (addrBadv e)
  match q with | some q => s.candleClass qs (addrBadv (s.ea q n)) | none => .ok ()
  let ord := atomicOrder (partsClass ps) md
  if !s.me.replay.isEmpty then .error (.park s) else
  let (y, s1) ← (match q with
    | some q => s.loadOperand { ea := s.ea q n, parts := qs } MD.zero
    | none => .ok (0, s))
  let x := s.me.a.toNat % 2 ^ (8 * n)
  let (s2, old, v, f) := s1.amoRead ps fun old => amoResult fn w (s.mode md.rnd) old x y
  s.awaitRelease (ord.rel && v.isSome) ord.scope
  let s2 := s2.amoWrite fn ps ord v
  let s3 := (s2.amoDone fn (8 * n) old v.isSome f).step1 o n
  .ok (match q with | some q => s3.step1 q n | none => s3).advance

/-- AMOADD (R329). -/
def execAmoadd (w : LongWidth) (o : MemOp) (md : MD) (s : State) : Outcome :=
  settle s (.amoadd w o md) (s.amoOp .add w o none md)
/-- AMOAND (R329). -/
def execAmoand (w : LongWidth) (o : MemOp) (md : MD) (s : State) : Outcome :=
  settle s (.amoand w o md) (s.amoOp .and w o none md)
/-- AMOOR (R329). -/
def execAmoor (w : LongWidth) (o : MemOp) (md : MD) (s : State) : Outcome :=
  settle s (.amoor w o md) (s.amoOp .or w o none md)
/-- AMOXOR (R329). -/
def execAmoxor (w : LongWidth) (o : MemOp) (md : MD) (s : State) : Outcome :=
  settle s (.amoxor w o md) (s.amoOp .xor w o none md)
/-- AMOMIN (R329). -/
def execAmomin (w : LongWidth) (o : MemOp) (md : MD) (s : State) : Outcome :=
  settle s (.amomin w o md) (s.amoOp .min w o none md)
/-- AMOMAX (R329). -/
def execAmomax (w : LongWidth) (o : MemOp) (md : MD) (s : State) : Outcome :=
  settle s (.amomax w o md) (s.amoOp .max w o none md)
/-- AMOMINU (R329). -/
def execAmominu (w : LongWidth) (o : MemOp) (md : MD) (s : State) : Outcome :=
  settle s (.amominu w o md) (s.amoOp .minu w o none md)
/-- AMOMAXU (R329). -/
def execAmomaxu (w : LongWidth) (o : MemOp) (md : MD) (s : State) : Outcome :=
  settle s (.amomaxu w o md) (s.amoOp .maxu w o none md)
/-- AMOSWAP (R329). -/
def execAmoswap (w : LongWidth) (o : MemOp) (md : MD) (s : State) : Outcome :=
  settle s (.amoswap w o md) (s.amoOp .swap w o none md)
/-- AMOCAS (R329). -/
def execAmocas (w : LongWidth) (o : MemOp) (q : Option MemOp) (md : MD) (s : State) : Outcome :=
  settle s (.amocas w o q md) (s.amoOp .cas w o q md)
/-- AFADD (R329, R330). -/
def execAfadd (w : LongWidth) (o : MemOp) (md : MD) (s : State) : Outcome :=
  settle s (.afadd w o md) (s.amoOp .fadd w o none md)
/-- AFMIN (R329, R330). -/
def execAfmin (w : LongWidth) (o : MemOp) (md : MD) (s : State) : Outcome :=
  settle s (.afmin w o md) (s.amoOp .fmin w o none md)
/-- AFMAX (R329, R330). -/
def execAfmax (w : LongWidth) (o : MemOp) (md : MD) (s : State) : Outcome :=
  settle s (.afmax w o md) (s.amoOp .fmax w o none md)

/-! ### Futures (R333 to R335) -/

/-- The entries of a die's park table (R334). -/
def parkTableSize : Nat := 4096
/-- Nanoseconds between the tries of a waiter without an entry: 1 µs of the time base (R333, R432). -/
def retryNs : Nat := 1000

/-- The checks of LDFUT and STFUT: handle, alignment, translation, DRAM of the own package, held stores, the candle's
class (R333). -/
def State.futureOperand (s : State) (o : MemOp) (n : Nat) (acc : Access) : Except Stop (VA × List Part) := do
  s.notHandle o.p
  let e := s.ea o n
  aligned e n (addrBadv e)
  let ps ← s.access acc e n
  if (partKeys ps).all keyIsDram then .ok () else .error (.trap (faultPermission e acc false 0))
  s.notHeld
  s.candleClass ps (addrBadv e)
  .ok (e, ps)

/-- The ordering of LDFUT and STFUT: an acquire or a release of the MD's scope, of system scope without an MD;
ordering 11 makes either sc (R315, R333). -/
def State.futureOrder (s : State) (cls : PageClass) (md : MD) (store : Bool) : Order :=
  match cls with
  | .strong => orderOf .strong md
  | .releaseConsistent | .unordered =>
    { strong := true, acq := !store || md.ord == .sc, rel := store || md.ord == .sc,
      scope := if s.chain.md = 0 then .system else md.scope }

/-- The aligned 8-byte word of an operand. -/
def futureWord (ps : List Part) : Nat := match partKeys ps with | k :: _ => k / 8 | [] => 0
/-- The die whose vaults hold a word of DRAM (R390). -/
def wordDie (word : Nat) : Nat := dieOf (vaultCore (8 * word))

/-- LDFUT: parks with an entry of the die's park table, or, where the table is full, until its next try (R333). -/
def State.ldfutOp (s : State) (w : LongWidth) (o : MemOp) (md : MD) : Res := do
  let n := w.width.bytes
  let (_, ps) ← s.futureOperand o n .read
  if !s.me.replay.isEmpty || s.waiters.any (fun q => q.slot == s.cur)
      || s.me.retry.any (fun due => s.now < due) then .error (.park s) else
  let ord := s.futureOrder (partsClass ps) md false
  s.awaitRelease ord.rel ord.scope
  let v := ofBytes (s.loadBytes ps ord)
  let d := wordDie (futureWord ps)
  if v = s.me.a.toNat % 2 ^ (8 * n) then
    if (s.waiters.filter fun q => q.die == d).length < parkTableSize then
      let s1 : State := { s with waiters := s.waiters ++ [{ die := d, word := futureWord ps, slot := s.cur }] }
      .error (.park (s1.setMe { s1.me with retry := none }))
    else .error (.park (s.setMe { s.me with retry := some (s.now + retryNs) }))
  else
    let s1 := (s.setMe { s.me with retry := none }).loaded ps ord
    .ok (((s1.setA (sext64 (8 * n) v)).setSt fun st => st.setNZ (8 * n) v).step1 o n).advance

/-- LDFUT (R333). -/
def execLdfut (w : LongWidth) (o : MemOp) (md : MD) (s : State) : Outcome := settle s (.ldfut w o md) (s.ldfutOp w o md)

/-- STFUT: stores, and wakes the waiters of the word; those that read it before the write is performed for them are woken
when the access completes (R333, R334). -/
def State.stfutOp (s : State) (w : LongWidth) (o : MemOp) (md : MD) : Res := do
  let n := w.width.bytes
  let (_, ps) ← s.futureOperand o n .write
  if !s.me.replay.isEmpty then .error (.park s) else
  let ord := s.futureOrder (partsClass ps) md true
  s.awaitRelease ord.rel ord.scope
  let s1 := s.storeNow ps (toBytes n s.me.a.toNat) ord
  let s2 := (s1.setMe { s1.me with wake := some (futureWord ps) }).wakeWaiters (futureWord ps)
  .ok ((if ord.acq then s2.acquired ord.scope else s2).step1 o n).advance

/-- STFUT (R333). -/
def execStfut (w : LongWidth) (o : MemOp) (md : MD) (s : State) : Outcome := settle s (.stfut w o md) (s.stfutOp w o md)

end Sys2Proof.Machine
end

