-- ==== Sys2Proof/Machine/Branch.lean ====
section
/-! DEFINITION. Control transfer (R120 to R123). -/

namespace Sys2Proof.Machine
open Sys2Proof

/-- The target of a PC-relative field (R39). -/
def State.target (s : State) (off : W64) : VA := s.nextPc + (off <<< 1).truncate 48

/-- A branch (R120). -/
def State.branchOp (s : State) (taken : Bool) (off : W64) : Res :=
  .ok (if taken then s.jump (s.target off) else s.advance)

/-- B (R120). -/
def execB (off : W64) (s : State) : Outcome := settle s (.b off) (s.branchOp true off)
/-- BZ (R120). -/
def execBz (off : W64) (s : State) : Outcome := settle s (.bz off) (s.branchOp s.me.st.z off)
/-- BNZ (R120). -/
def execBnz (off : W64) (s : State) : Outcome := settle s (.bnz off) (s.branchOp (!s.me.st.z) off)
/-- BLT (R120). -/
def execBlt (off : W64) (s : State) : Outcome := settle s (.blt off) (s.branchOp (s.me.st.n != s.me.st.v) off)
/-- BGE (R120). -/
def execBge (off : W64) (s : State) : Outcome := settle s (.bge off) (s.branchOp (s.me.st.n == s.me.st.v) off)
/-- BLTU (R120). -/
def execBltu (off : W64) (s : State) : Outcome := settle s (.bltu off) (s.branchOp (!s.me.st.c) off)
/-- BGEU (R120). -/
def execBgeu (off : W64) (s : State) : Outcome := settle s (.bgeu off) (s.branchOp s.me.st.c off)

/-- LOOP: the decrement and the branch are one effect (R121). -/
def execLoop (off : W64) (s : State) : Outcome :=
  let c := s.me.xi.count
  let s1 := s.setMe { s.me with xi := { s.me.xi with count := if 2 ≤ c.toNat then c - 1 else 0 } }
  settle s (.loop off) (s1.branchOp (2 ≤ c.toNat) off)

/-- CALL (R122). -/
def execCall (off : W64) (s : State) : Outcome :=
  settle s (.call off) (.ok ((s.setMe { s.me with lk := s.nextPc }).jump (s.target off)))
/-- RET (R122). -/
def execRet (s : State) : Outcome := settle s .ret (.ok (s.jump s.me.lk))
/-- JMPA (R122). -/
def execJmpa (s : State) : Outcome := settle s .jmpa (.ok (s.jump (s.me.a.truncate 48)))
/-- NOP (R122). -/
def execNop (s : State) : Outcome := settle s .nop (.ok s.advance)

end Sys2Proof.Machine
end

