-- ==== Sys2Proof/Machine/Candle.lean ====
section
/-! DEFINITION. Candles (R126 to R148): CANDLE, SNUFF, DOUSE, GUTRET, TIME, PACE, and the gutter trap. -/

namespace Sys2Proof.Machine
open Sys2Proof

/-- The bound in ns of a bound code (R132). -/
def boundNs (x : BitVec 10) : Nat :=
  (x.extractLsb' 0 8).toNat * (match (x.extractLsb' 8 2).toNat with | 0 => 1 | 1 => 16 | 2 => 256 | _ => 4096)

/-- T0 + hi of a frame. -/
def Frame.close (f : Frame) : Nat := f.t0.toNat + f.hi.toNat
/-- T0 + lo of a frame. -/
def Frame.open_ (f : Frame) : Nat := f.t0.toNat + f.lo.toNat

/-- A candle at ST.CD = 0 is held back while a pre-emption of the group is due (R146) and while the time base is being
brought into line (R432). -/
def State.candleHeldBack (s : State) : Bool :=
  s.me.st.cd == 0 &&
    (s.lan.lstat == .aligning || ((s.launch s.me.launch).group? s.me.gidx).any fun g => g.due.isSome)

/-- CANDLE (R133); at a lowered clock it opens nothing (R126). The read of the record does not hold the thread: the next
instruction issues 8 cycles later (R144, R149), unless the record is in memory of unbounded class (DEDUCED, log 96). -/
def State.candleOp (s : State) (lo hi : Option (BitVec 10)) (off : W64) : Res := do
  match lo, hi with
  | some lo, some hi =>
    if s.candleHeldBack then .error (.park s) else
    let x := s.me
    trapIf (s.myCore.clock != .full) causeCandleState 0
    trapIf (x.st.cd == 4) causeCandleState 0
    trapIf (boundNs hi = 0 || boundNs lo > boundNs hi) causeCandleState 0
    let rec_ : VA := s.nextPc + (off <<< 1).truncate 48
    let ps ← s.access .read rec_ 4
    s.candleClass ps (addrBadv rec_)
    let qs ← s.access .read (rec_ + 4) 4
    s.candleClass qs (addrBadv (rec_ + 4))
    let (bs, s1) ← s.readBlock (ps ++ qs)
    let hlo := bytesField bs 0 4
    let hhi := bytesField bs 4 4
    trapIf (hhi = 0 || hhi > 1048575 || hlo > hhi || hlo % 16 != 0) causeCandleState (addrBadv rec_)
    let f : Frame := { t0 := s.timeb, tlf := x.st.tl, hhi := BitVec.ofNat 20 hhi, hi := BitVec.ofNat 20 (boundNs hi),
                       lo := BitVec.ofNat 20 (boundNs lo), hlo := BitVec.ofNat 16 (hlo / 16), hrec := rec_ }
    let s1 := if partsFar (ps ++ qs) then s1.setMe { s1.me with busy := true } else s1
    .ok (s1.setMe { s1.me with frames := x.frames ++ [f], st := { x.st with cd := x.st.cd + 1 } }).advance
  | _, _ => trapWith causeReserved (addrBadv s.baseAddr)

/-- CANDLE (R133). -/
def execCandle (lo hi : Option (BitVec 10)) (off : W64) (s : State) : Outcome :=
  settle s (.candle lo hi off) (s.candleOp lo hi off)

/-- The innermost frame, where SNUFF and DOUSE may close it (R134, R136). -/
def State.closable (s : State) : Except Stop Frame :=
  match s.me.inner with
  | some f => if s.me.st.cd == 0 || f.tlf != s.me.st.tl then trapWith causeCandleState 0 else .ok f
  | none => trapWith causeCandleState 0

/-- The entries of the level that was innermost pass to the level around it, or, from the outermost, are published
(R134, R135). -/
def Slot.snuffed (x : Slot) (born : Nat) : Slot :=
  let l := x.st.cd.toNat - 1
  let y := { x with frames := x.frames.dropLast, st := { x.st with cd := x.st.cd - 1 } }
  if l = 0 then { y with pubq := [], drain := x.drain ++ x.pubq.map fun h => { h with born := born } }
  else { y with pubq := x.pubq.map fun h => if h.level ≥ l then { h with level := l - 1 } else h }

/-- SNUFF (R134). -/
def execSnuff (s : State) : Outcome :=
  settle s .snuff (do
    let f ← s.closable
    if s.now < f.open_ then .error (.park s) else
    .ok (s.setMe (s.me.snuffed s.nd)).advance)

/-- DOUSE (R136). -/
def execDouse (s : State) : Outcome :=
  settle s .douse (do
    let _ ← s.closable
    let x := s.me
    let l := x.st.cd.toNat - 1
    .ok (s.setMe { x with frames := x.frames.dropLast, st := { x.st with cd := x.st.cd - 1 },
                          pubq := x.pubq.filter fun h => h.level < l }).advance)

/-- GUTRET (R142). -/
def execGutret (off : W64) (s : State) : Outcome :=
  settle s (.gutret off) (do
    let x := s.me
    trapIf (x.st.tl == 0 || (x.bank x.st.tl).cause.code != causeGutter) causeCandleState 0
    trapIf (x.frames.any fun f => f.g && f.tlf == x.st.tl) causeCandleState 0
    let s1 := s.jump (s.nextPc + (off <<< 1).truncate 48)
    .ok (s1.setSt fun st => { st with tl := st.tl - 1 }))

/-- TIME (R137). -/
def execTime (sel : TimeSel) (s : State) : Outcome :=
  settle s (.time sel) (
    match sel, s.me.inner with
    | .now, _ => .ok (s.setA s.timeb).advance
    | .t0, some f => .ok (s.setA f.t0).advance
    | .rem, some f => .ok (s.setA (f.t0 + f.hi.zeroExtend 64 - s.timeb)).advance
    | .t0, none | .rem, none => trapWith causeCandleState 0)

/-- PACE (R138). -/
def execPace (imm : W64) (s : State) : Outcome :=
  settle s (.pace imm) (if s.timeb.toNat < (s.me.a + imm).toNat then .error (.park s) else .ok s.advance)

/-! ### The gutter trap (R139 to R141) -/

/-- The outermost open frame whose T0 + hi has been reached, with its level. A SNUFF that is already parked is not cut
off by the frame that it closes (R134); nothing cuts off an instruction whose hold on a plane has begun (R437). -/
def State.gutterDue (s : State) (t : Nat) : Option (Nat × Frame) :=
  let x := s.slot t
  let own := match x.park with | some (.snuff, _) => x.frames.length - 1 | _ => x.frames.length
  if x.lanBegun then none else
  ((x.frames.zipIdx.find? fun f => f.1.close ≤ s.now && f.2 < own)).map fun f => (f.2, f.1)

/-- Gutter entry (R140), or the kill of the context (R141). -/
def State.takeGutter (s : State) (t lvl : Nat) (f : Frame) : State :=
  let x := s.slot t
  let c : Cause := { ppl := x.st.pl, code := causeGutter }
  let badv : W64 := BitVec.ofNat 64 f.close
  if f.g || x.st.tl == 2 then s.killContext t x.pc c badv else
  let l := x.st.tl + 1
  let s1 := s.endPark t
  let y := (s1.slot t).setBank l { epc := evenAddr x.pc, cause := c, badv := badv }
  let f' : Frame := { f with t0 := s.timeb, lo := (16 * f.hlo.toNat : Nat), hi := f.hhi, hhi := 0, hlo := 0,
                             g := true, tlf := l }
  s1.setSlot t { y with
    st := { y.st with tl := l, cd := BitVec.ofNat 3 (lvl + 1), fl := y.st.fl ||| y.seqFlags }, seqFlags := 0, busy := false,
    frames := y.frames.take lvl ++ [f'], pc := evenAddr (f.hrec + 8),
    pubq := y.pubq.map fun h => if h.level > lvl then { h with level := lvl } else h }

end Sys2Proof.Machine
end

