-- ==== Sys2Proof/Machine/Sync.lean ====
section
/-! DEFINITION. Barrier trees (R246 to R252) and the write pointers of the copy channels (R255, R260). -/

namespace Sys2Proof.Machine
open Sys2Proof

/-! ### Barrier trees -/

/-- Barrier tree `b` of the issuing core's cluster. -/
def State.myTree (s : State) (b : Nat) : Tree := (s.cluster (clusterOf s.here)).tree b
/-- Sets barrier tree `b` of the issuing core's cluster. -/
def State.setMyTree (s : State) (b : Nat) (x : Tree) : State :=
  s.setCluster (clusterOf s.here) ((s.cluster (clusterOf s.here)).setTree b x)
/-- The number of the issuing slot within its cluster. -/
def State.member (s : State) : Nat := s.cur % 3072
/-- Whether a tree is granted to the issuing launch. -/
def State.granted (s : State) (b : Nat) : Bool := (s.myTree b).owner == some s.me.launch
/-- Whether the issuing slot has an unreleased arrival on a tree. -/
def State.unreleased (s : State) (b : Nat) : Bool := (s.myTree b).arrived.contains s.member

/-- The names checked by R248. -/
def State.treeNames (s : State) (bs : List Nat) : Except Stop Unit :=
  trapIf (bs.any fun b => !s.granted b) causeReserved (addrBadv s.baseAddr)

/-- The issuing slot's membership as bits 15 to 0 (R249). -/
def State.membership (s : State) : Nat :=
  packNat 1 ((upto 16).map fun b => bnat ((s.myTree b).members.contains s.member))

/-- Sets the issuing slot's membership of a tree. -/
def State.join (s : State) (b : Nat) (is : Bool) : State :=
  let t := s.myTree b
  s.setMyTree b { t with members := if is then nput t.members s.member else ndel t.members s.member }

/-- BARM (R248, R249). -/
def execBarm (s : State) : Outcome :=
  settle s .barm (do
    let want := s.me.a.toNat % 65536
    s.treeNames ((upto 16).filter (bit want))
    let old := s.membership
    if (upto 16).any (fun b => bit want b != bit old b && s.unreleased b) then .error (.park s) else
    let s1 := (upto 16).foldl (fun s b => s.join b (bit want b)) s
    .ok (s1.setA (BitVec.ofNat 64 old)).advance)

/-- ARRIVE: the arrival is signalled once the thread's earlier accesses have been performed at cluster scope (R248, R250). -/
def execArrive (b : BitVec 4) (s : State) : Outcome :=
  settle s (.arrive b) (do
    s.treeNames [b.toNat]
    let t := s.myTree b.toNat
    if !t.members.contains s.member then .ok s.advance else
    if s.unreleased b.toNat || !s.me.replay.isEmpty then .error (.park s) else
    let t' := { t with arrived := nput t.arrived s.member, 
                       awaits := t.awaits ++ [{ slot := s.cur, uid := s.me.uid, born := s.nd, bit := s.me.a.getLsbD 0 }] }
    .ok (s.setMyTree b.toNat t').advance)

/-- BWAIT (R248, R251). -/
def execBwait (b : BitVec 4) (s : State) : Outcome :=
  settle s (.bwait b) (do
    s.treeNames [b.toNat]
    if s.unreleased b.toNat then .error (.park s) else
    let v := bnat (s.myTree b.toNat).v
    .ok (((s.acquired .cluster).setA (BitVec.ofNat 64 v)).setSt fun st => st.setNZ 64 v).advance)

/-- Whether a tree releases (R247): a slot has arrived, every member has, and every arrival is signalled (R250). -/
def State.treeReady (s : State) (t : Tree) : Bool :=
  !t.arrived.isEmpty && t.members.all t.arrived.contains
    && t.awaits.all s.signalled

/-- The release of a tree (R247). -/
def Tree.release (t : Tree) : Tree :=
  { t with arrived := [], awaits := [], orBit := false, v := t.orBit || t.awaits.any (·.bit), phase := t.phase + 1 }

/-! ### Write pointers of copy channels (R255, R260) -/

/-- Whether ticket `t` is reached on a write pointer (R255). -/
def reached (wp t : BitVec 48) : Bool := (wp - t).toNat < 2 ^ 47

/-- The octet that A names, by its number in the package, with the checks of R260. -/
def State.namedOctet (s : State) (c : BitVec 2) : Except Stop Nat := do
  let o := (s.me.a.extractLsb' 48 5).toNat
  trapIf (o ≥ 24) causeReserved (addrBadv s.baseAddr)
  let q := 24 * clusterOf s.here + o
  trapIf (q != octetOf s.here && !s.permits (octetOf s.here) q) causeMessage
    (BitVec.ofNat 64 (0xFFC000000000 + o * 0x1000 + 0x100 + 8 * c.toNat))
  .ok q

/-- WPTR (R260); R259 names no scope of its acquire, which is taken at system scope (DESIGN CHOICE, log 105). -/
def execWptr (c : BitVec 2) (s : State) : Outcome :=
  settle s (.wptr c) (do
    let q ← s.namedOctet c
    let wp := ((s.octet q).chan c.toNat).wp
    .ok ((s.acquired .system).setA (BitVec.ofNat 16 (q % 24) ++ wp)).advance)

/-- CWAIT (R260), an acquire at system scope as WPTR is (DESIGN CHOICE, log 105). -/
def execCwait (c : BitVec 2) (s : State) : Outcome :=
  settle s (.cwait c) (do
    let q ← s.namedOctet c
    let ch := (s.octet q).chan c.toNat
    let t : BitVec 48 := s.me.a.truncate 48
    if !reached ch.wp t then .error (.park s) else
    let v := (ch.dt - t).toNat < 2 ^ 47 && (t - ch.dp - 1).toNat < 2 ^ 47
    .ok ((s.acquired .system).setSt fun st => { st with v := v }).advance)

end Sys2Proof.Machine
end

