-- ==== Sys2Proof/Machine/Copy.lean ====
section
/-! DEFINITION. COPY: the command descriptor, its checks and its acceptance (R255 to R259); the beats that the copy hart
moves and the discards of killed commands (R258, R261, R338). -/

namespace Sys2Proof.Machine
open Sys2Proof

/-! ### The descriptor (R256) -/

/-- The bits of a descriptor byte that must be zero. -/
def copyZeroBits (multicast : Bool) (off : Nat) : Nat :=
  if off = 6 || off = 7 || off = 0x0E || off = 0x0F then 255
  else if off = 0x0A then (if multicast then 0xF8 else 0)
  else if 0x0B ≤ off && off ≤ 0x0D then (if multicast then 255 else 0)
  else if off = 0x14 then 0xFE
  else if 0x15 ≤ off && off ≤ 0x17 then 255
  else if 0x18 ≤ off && off < 0x30 then (if multicast then 0 else 255)
  else if 0x30 ≤ off then 255
  else 0

/-- The lowest descriptor byte that check 5 of R257 finds wrong. -/
def badCopy (bs : List (BitVec 8)) : Option Nat :=
  let f (off n : Nat) : Nat := bytesField bs off n
  let multicast := bit (f 0x14 1) 0
  match (upto 64).find? (fun o => f o 1 &&& copyZeroBits multicast o != 0) with
  | some o => some o
  | none =>
    if f 0x10 4 = 0 || f 0x10 4 > 65536 then some 0x10
    else if multicast && f 0x18 24 = 0 then some 0x18
    else none

/-- The destinations of check 7: one address, or a range of each selected core's scratchpad in ascending order. -/
def State.copyDests (s : State) (n : Nat) : List VA → Except Stop (List (List Part))
  | [] => .ok []
  | a :: as => do
    let ps ← s.judgedParts .write (n / 4096 + 2) a n
    let rest ← State.copyDests s n as
    .ok (ps :: rest)

/-- The most commands of a channel, the one in progress among them (R257 does not say whether it counts; DESIGN CHOICE,
log 104). -/
def channelDepth : Nat := 8

/-- COPY (R257). In a repeat sequence it writes no context word: an engine has no path to one (R21; DEDUCED, log 26). -/
def State.copyOp (s : State) (p : PReg) (c : BitVec 2) : Res := do
  s.notHandle p
  let at0 := ptrAddr (s.ctx.ptrs.get p)
  aligned at0 64 (addrBadv at0)
  s.notHeld
  let ps ← s.access .read at0 64
  s.candleClass ps (addrBadv at0)
  let (bs, s1) ← s.readBlock ps
  let f (off n : Nat) : Nat := bytesField bs off n
  match badCopy bs with
  | some o => trapWith causeReserved (addrBadv (at0 + BitVec.ofNat 48 o))
  | none =>
    let n := f 0x10 4
    let src : VA := BitVec.ofNat 48 (f 0 8)
    let srcs ← s.judgedParts .read (n / 4096 + 2) src n
    let dst := f 8 8
    let targets : List VA :=
      if bit (f 0x14 1) 0 then ((upto 192).filter (bit (f 0x18 24))).map fun k => 0xFF0000000000 + BitVec.ofNat 48 (k * 0x80000 + dst)
      else [BitVec.ofNat 48 dst]
    let dsts ← s.copyDests n targets
    let o := s.octet (octetOf s.here)
    let ch := o.chan c.toNat
    if ch.queue.length ≥ channelDepth || !s.me.replay.isEmpty then .error (.park s) else
    s.capacity s.me.copies 4
    let e := ch.last + BitVec.ofNat 48 n
    let cmd : CopyCmd :=
      { owner := s.me.copyOwner, core := s.here, slot := s.cur, born := s.nd, seq := s.mySeqId,
        src := partKeys srcs, srcCls := partClasses srcs, dst := dsts.map partKeys, dstCls := dsts.map partClasses,
        align := dst % 64, stop := e,
        via := viaOf s.space (srcs ++ dsts.flatten) }
    let s1 := s1.bringTables s.space (srcs ++ dsts.flatten) fun k =>
      { s.slotRequest s.cur s.nd k with slot := none, copy := some cmd.owner }
    let s2 := s1.setOctet (octetOf s.here) (o.setChan c.toNat { ch with queue := ch.queue ++ [cmd], last := e })
    if s.inSeq.isSome then .ok s2.advance else
    let s3 := s2.setMe { s2.me with copies := s2.me.copies + 1 }
    .ok (s3.setA (BitVec.ofNat 16 (octetOf s.here % 24) ++ e)).advance

/-- COPY (R257). -/
def execCopy (p : PReg) (c : BitVec 2) (s : State) : Outcome := settle s (.copy p c) (s.copyOp p c)

/-! ### The copy hart -/

/-- The bytes of the next beat of a command: up to the next 64-byte-aligned destination address (R258). -/
def CopyCmd.beat (m : CopyCmd) : Nat := min (64 - (m.align + m.moved) % 64) (m.src.length - m.moved)

/-- The slot that a command's thread now stands in. -/
def State.ownerSlot (s : State) (m : CopyCmd) : Option Nat :=
  (s.slots.find? fun e => e.2.live && e.2.copyOwner == m.owner).map (·.1)

/-- The number under which the writes of a command's thread stand while it is in no slot. -/
def State.ownerAway (s : State) (m : CopyCmd) : Option Nat :=
  ((s.migrants.map (fun q => (q.ctx, q.id)) ++ s.stored.map fun q => (q.ctx, q.id)).find?
    fun q => q.1.copyOwner == m.owner).map (·.2)

/-- Whether every access of a command's thread before the COPY, or of its sequence, has been performed at the octet's hart,
wherever the thread now is, those to peers aside (R259, R165, R415). -/
def State.releasedTo (s : State) (m : CopyCmd) : Bool :=
  match s.ownerSlot m with
  | some t => match m.seq with
    | none => s.performedBefore t m.born .octet false
    | some id => s.seqSettled t id m.born .octet
  | none => match s.ownerAway m with
    | some id => s.hist.all fun w => w.writer != some id || m.born ≤ w.born || w.unord || w.toPeer || s.performedIn w .octet m.slot
    | none => true

/-- Whether the hart may read the bytes of a command's next beat (R259, R261). -/
def State.beatReady (s : State) (m : CopyCmd) : Bool := !m.killed && s.releasedTo m

/-- Whether the command at the head of a channel has a beat that could begin. -/
def State.channelReady (s : State) (o c : Nat) : Bool :=
  match ((s.octet o).chan c).queue with
  | m :: _ => s.beatReady m
  | [] => false

/-- Whether the hart serves a channel next: it has no beat under way, and no channel before this one in the round has a beat that
could begin (R258). -/
def State.channelTurn (s : State) (o c : Nat) : Bool :=
  let q := s.octet o
  (upto 4).all (fun k => match (q.chan k).queue with | m :: _ => m.written.isNone | [] => true)
    && (((upto 4).map fun k => (q.turn + k) % 4).takeWhile (· != c)).all fun k => !s.channelReady o k

/-- How the copy hart of an octet reads a byte on a page of a class: weakly, or strongly on a page of class S (R338). -/
def hartReading (o : Nat) (cls : PageClass) : Reading :=
  { agent := Agent.num (.hart o), strong := cls == .strong, unord := cls == .unordered }

/-- The bytes that the copy hart reads for a command, each as its page's class has it (R338): the microcode at supervisor
privilege (R253), and of words that an earlier beat of the command has written the old value or the new, left open (R258). -/
def State.hartBytes (s : State) (o : Nat) (m : CopyCmd) (keys : List Nat) (cls : List PageClass) : List (BitVec 8) :=
  (keys.zip cls).map fun e =>
    if keyIsMbox e.1 then s.mboxByte false e.1 else
    let now := s.observeAt (hartReading o e.2) keys e.1
    match bytesAt m.olds e.1 with
    | some v => if Config.pick (s.nd * 2 ^ 64 + 2 ^ 61 + e.1 / 8) % 2 == 1 then v else now
    | none => now

/-- The messages of a beat to other cores (R308). -/
def State.beatMessages (s : State) (m : CopyCmd) (keys : List Nat) : State :=
  (spmTargets keys).foldl (fun s c => if c == m.core then s else (s.msgSent m.owner.launch m.core).msgRcvd m.owner.launch c) s

/-- The copy commands of a thread that its counter counts. -/
def State.copiesOf (s : State) (x : Slot) : Nat :=
  (s.octets.map fun o => (o.2.ch.map fun k =>
    (k.2.queue.filter fun m => m.owner == x.copyOwner && m.seq.isNone).length).foldl (· + ·) 0).foldl (· + ·) 0

/-- The count of copies that stands in a thread's record (R303, R306); where the record cannot be read, the commands that are
left. -/
def State.recordCopies (s : State) (l : Launch) (x : Slot) : Nat :=
  match s.parts l.space .read 2 (x.record + 0xB0) 1 with
  | .ok _ => ofBytes (s.lampRead l (x.record + 0xB0) 1)
  | .error _ => s.copiesOf x - x.copies

/-- Lowers the count of copies that stands in a thread record (R303, R306). -/
def State.lowerRecord (s : State) (m : CopyCmd) (record : VA) : State :=
  let l := s.launch m.owner.launch
  let s1 := s.lampTouched l (record + 0xB0) 1
  match s.parts l.space .read 2 (record + 0xB0) 1, s.lampRead l (record + 0xB0) 1 with
  | .ok _, [n] => if n = 0 then s1 else s1.lampWrite l (record + 0xB0) [n - 1]
  | _, _ => s1

/-- A command of a thread has ended: the thread's copies counter falls, or the count in its record where a pre-emption has
moved it there (R155, R261, R303). -/
def State.copyDone (s : State) (m : CopyCmd) : State :=
  if m.seq.isSome then s else
  match s.ownerSlot m with
  | some t =>
    let x := s.slot t
    if x.copyBase ≤ m.born then s.setSlot t { x with copies := x.copies - 1 } else s.lowerRecord m x.record
  | none =>
    match s.stored.find? fun y => y.ctx.copyOwner == m.owner with
    | some y => s.lowerRecord m y.ctx.record
    | none => s

/-- How the hart writes a beat, which lies in one page: weakly, or strongly where the page is of class S (R338). -/
def State.beatAuthor (s : State) (o : Nat) (m : CopyCmd) (cls : PageClass) : Author :=
  let f := (s.launch m.owner.launch).f
  { writer := some (Agent.num (.hart o)), agent := Agent.num (.hart o), upto := .thread, done := cls == .strong,
    kind := .engine, unord := cls == .unordered, launch := some m.owner.launch, born := s.nd, via := m.via,
    copy := some m.owner, tenant := f.ten, key := f.key }

/-- A request for a peer line that a command's beat makes (R413, R424). -/
def State.copyRequest (s : State) (m : CopyCmd) (k : Nat) : Outstanding :=
  let l := s.launch m.owner.launch
  { s.peerRequest k l.f.ten l.f.key with copy := some m.owner, launch := m.owner.launch }

/-- The requests of a command's step have been answered. -/
def State.beatAnswered (s : State) (m : CopyCmd) (b : Nat) : State :=
  if s.fab.out.any (fun q => q.copy == some m.owner && q.born == b) then
    { s with fab := { s.fab with out := s.fab.out.filter fun q => !(q.copy == some m.owner && q.born == b) } }
  else s

/-- The source bytes of a command that a beat to some locations writes, with what they held (R258). -/
def State.oldsOf (s : State) (m : CopyCmd) (keys : List Nat) : Bytes :=
  m.olds ++ (keys.filter fun k => m.src.contains k && (bytesAt m.olds k).isNone).map fun k => (k, s.content k)

/-- The first half of the beat of the command at the head of a channel: it is read, after the COPY's release, and written at
every destination, where an agent may observe the old or the new value until it has been performed (R258, R338); peer lines are
read through the L2 and written over the fabric (R424). The walks of the command have ended before its first beat. -/
def State.writeBeat (s : State) (o c : Nat) (m : CopyCmd) (rest : List CopyCmd) : State :=
  let hart := Agent.num (.hart o)
  let l := s.launch m.owner.launch
  let part {α : Type} (xs : List α) : List α := (xs.drop m.moved).take m.beat
  let s0 := if m.moved = 0 then (s.orderPoint hart .system false).beatAnswered m m.born else s
  let bytes := s0.hartBytes o m (part m.src) (part m.srcCls)
  let s1 := (s0.askPeers (o / 96) (part m.src) false (s0.copyRequest m)).takePeers (o / 96) (part m.src) l.f.ten l.f.key
  let s2 := (m.dst.zip m.dstCls).foldl (fun s d =>
    let keys := part d.1
    ((s.sendWrites keys (s.copyRequest m)).beatMessages m keys).write
      (s.beatAuthor o m ((part d.2).headD .releaseConsistent)) (zipBytes keys bytes)) s1
  let q := s2.octet o
  let m' := { m with written := some s.nd, olds := s0.oldsOf m (m.dst.flatMap part) }
  s2.setOctet o { q.setChan c { q.chan c with queue := m' :: rest } with turn := (c + 1) % 4 }

/-- The second half: the beat has been performed at every destination, the write pointer advances as a release, which is an
ordering point of the hart, and after the last beat DONE follows (R258, R338). -/
def State.endBeat (s : State) (o c b : Nat) (m : CopyCmd) (rest : List CopyCmd) : State :=
  let hart := Agent.num (.hart o)
  let s1 := ((s.finishWrites hart fun w => w.born == b).orderPoint hart .system false).beatAnswered m b
  let q := s1.octet o
  let ch := q.chan c
  let wp := ch.wp + BitVec.ofNat 48 m.beat
  let m' := { m with moved := m.moved + m.beat, written := none }
  if m'.moved < m.src.length then s1.setOctet o (q.setChan c { ch with wp := wp, queue := m' :: rest })
  else (s1.setOctet o (q.setChan c { ch with wp := wp, d := false, done := m.stop, queue := rest })).copyDone m

/-- Half of a beat of the command at the head of a channel. -/
def State.moveBeat (s : State) (o c : Nat) (m : CopyCmd) (rest : List CopyCmd) : State :=
  match m.written with
  | some b => s.endBeat o c b m rest
  | none => if s.beatReady m && s.channelTurn o c then s.writeBeat o c m rest else s

/-- Discards the killed command at the head of a channel; one in progress stops at a beat boundary (R261). -/
def State.discardCopy (s : State) (o c : Nat) (m : CopyCmd) (rest : List CopyCmd) : State :=
  match m.written with
  | some b => s.endBeat o c b m rest
  | none =>
    let q := s.octet o
    let ch := q.chan c
    (s.setOctet o (q.setChan c
      { ch with dp := ch.wp, wp := m.stop, dt := m.stop, d := true, done := m.stop, queue := rest })).copyDone m

end Sys2Proof.Machine
end

