-- ==== Sys2Proof/Machine/Fetch.lean ====
section
/-! DEFINITION. Instruction fetch and decoding from memory (R46 to R49). -/

namespace Sys2Proof.Machine
open Sys2Proof

/-- How many of the newest writes the fetch of a halfword may leave aside, besides none: the thread's own and those that an
acquire of it has observed are always fetched once a FENCE of any scope has followed, and until then the old or the new
halfword is (R49). -/
def fetchCuts (t : Nat) (keys : List Nat) : Nat → List WriteRec → List Nat
  | _, [] => []
  | i, w :: ws =>
    if keys.any (fun k => (bytesAt w.new k).isSome) then
      if w.seenFetch.contains t then [] else (i + 1) :: fetchCuts t keys (i + 1) ws
    else fetchCuts t keys (i + 1) ws

/-- The halfword at a location as a thread's fetch reads it (R48, R49). -/
def State.fetchAt (s : State) (t k : Nat) : Half :=
  if keyIsMbox k then
    BitVec.ofNat 16 (ofBytes ((span k 2).map (s.mboxByte ((s.slot t).st.pl == 0))))
  else
    match s.hist with
    | [] => BitVec.ofNat 16 (ofBytes ((span k 2).map s.content))
    | _ =>
      let cut := match fetchCuts t (span k 2) 0 s.hist with
        | [] => 0
        | cs => (0 :: cs).getD (Config.pick (s.nd * 2 ^ 64 + spmBase * 4 + k) % (cs.length + 1)) 0
      BitVec.ofNat 16 (ofBytes ((span k 2).map (s.visible t cut)))

/-- Fetch(a) (R48): any failure of translation is the fetch fault; inside a candle a resource of unbounded class is
the candle-class trap (R131), and so is a walk that would read a table there (R353). So are the failures of R242 on a window
page: they give the fetch fault too (DESIGN CHOICE, log 103). CAUSE.S2 of a fetch fault is 0, also of one that arises in the
second stage (DESIGN CHOICE, log 120). -/
def State.fetchHalf (s : State) (va : VA) : Except TrapInfo Half :=
  match s.place s.space .fetch va with
  | .error t =>
    if t.code == causeCandleClass then .error t
    else .error { code := causeFetch, badv := addrBadv va, acc := Access.fetch.bits, ipa := t.ipa }
  | .ok p =>
    if s.me.st.cd != 0 && keyIsUnbounded p.key then .error { code := causeCandleClass, badv := addrBadv va }
    else .ok (s.fetchAt s.cur p.key)

/-- What fetching and decoding at an address gives: an instruction, or a trap with the length decoded so far. -/
inductive Fetched where
  | instr (i : Instr) (ch : Chain)
  | trap (t : TrapInfo) (len : Nat)

/-- Fetches halfwords until they decode (R47); `hs` are those already fetched. -/
def State.fetchFrom (s : State) (pc : VA) : Nat → List Half → Fetched
  | 0, _ => .trap { code := causeIllegalPrefix, badv := addrBadv pc } 0
  | fuel + 1, hs =>
    match s.fetchHalf (pc + BitVec.ofNat 48 (2 * hs.length)) with
    | .error t => .trap t 0
    | .ok h =>
      match decode (hs ++ [h]) with
      | .ok (i, ch) => .instr i ch
      | .error (.more _) => State.fetchFrom s pc fuel (hs ++ [h])
      | .error (.illegalPrefix off) =>
        .trap { code := causeIllegalPrefix, badv := addrBadv (pc + BitVec.ofNat 48 (2 * off)) } 0
      | .error (.reserved off len) =>
        .trap { code := causeReserved, badv := addrBadv (pc + BitVec.ofNat 48 (2 * off)) } len

/-- Fetches and decodes the instruction at an address: at most four prefixes and a base word, and the halfword that
shows a fifth prefix. -/
def State.fetchInstr (s : State) (pc : VA) : Fetched := s.fetchFrom pc 6 []

end Sys2Proof.Machine
end

