-- ==== Sys2Proof/Machine/FormeTable.lean ====
section
/-! DEFINITION. Handles and the forme tables (R263 to R270, R279). -/

namespace Sys2Proof.Machine
open Sys2Proof

/-! ### Handles (R263) -/

/-- Whether a value has the handle pattern. -/
def isHandle (v : W64) : Bool := v.extractLsb' 56 7 == 0x5A#7 && v.extractLsb' 14 12 == 0#12
/-- Whether a handle is a compose handle. -/
def isCompose (v : W64) : Bool := v.getLsbD 63
/-- Package of a handle. -/
def handlePkg (v : W64) : Nat := (v.extractLsb' 46 10).toNat
/-- Die and cluster of a handle: 4 × die + cluster. -/
def handleCluster (v : W64) : Nat := (v.extractLsb' 42 4).toNat
/-- Generation of a handle. -/
def handleGen (v : W64) : BitVec 8 := v.extractLsb' 34 8
/-- Entry of a handle. -/
def handleEntry (v : W64) : Nat := (v.extractLsb' 26 8).toNat
/-- Cursor of a handle. -/
def handleCursor (v : W64) : BitVec 14 := v.extractLsb' 0 14
/-- Makes a handle with cursor 0. -/
def mkHandle (compose : Bool) (pkg : BitVec 10) (cluster : Nat) (gen : BitVec 8) (entry : Nat) : W64 :=
  flagBit compose ++ 0x5A#7 ++ pkg ++ BitVec.ofNat 4 cluster ++ gen ++ BitVec.ofNat 8 entry ++ 0#12 ++ 0#14
/-- A handle with another cursor. -/
def withCursor (v : W64) (o : Nat) : W64 := v.extractLsb' 14 50 ++ BitVec.ofNat 14 o

/-! ### Tables (R266) -/

/-- The cluster number under which a handle's table is held; tables of other packages follow the 16 of this one. -/
def State.tableOf (s : State) (h : W64) : Nat :=
  if handlePkg h = s.regs.pkgid.toNat then handleCluster h else 16 * (handlePkg h + 1) + handleCluster h
/-- An entry of another package's table that no order event has told this package of: a consultation reaches that table over
the fabric, and what it answers is open (R277; DESIGN CHOICE, log 122). -/
def State.openForme (s : State) (k entry : Nat) : Forme :=
  let free (i : Nat) : Nat := Config.pick (s.nd * 2 ^ 64 + 2 ^ 40 + 16 * (256 * k + entry) + i)
  { state := (match free 0 % 4 with | 0 => .free | 1 => .composing | 2 => .locked | _ => .pied),
    gen := BitVec.ofNat 8 (free 1), base := BitVec.ofNat 48 (256 * free 2), size := 16 * (free 3 % 1024 + 1),
    tenant := BitVec.ofNat 4 (free 4), ownerDie := free 5 % 4, ownerSerial := BitVec.ofNat 32 (free 6), octet := free 7 % 384,
    root := BitVec.ofNat 52 (4096 * free 8), g := true, told := true }
/-- An entry of a table, under the number that this package holds the table under. -/
def State.formeAt (s : State) (k entry : Nat) : Forme :=
  let e := (s.cluster k).forme entry
  if k < 16 || e.told then e else s.openForme k entry
/-- The entry that a handle names. -/
def State.formeOf (s : State) (h : W64) : Forme := s.formeAt (s.tableOf h) (handleEntry h)
/-- Sets the entry that a handle names. -/
def State.setFormeOf (s : State) (h : W64) (e : Forme) : State :=
  s.setCluster (s.tableOf h) ((s.cluster (s.tableOf h)).setForme (handleEntry h) e)

/-- Consulting a table of another package inside a candle is of unbounded class (R269); such a table has no address, and BADV is
zero (DESIGN CHOICE, log 116). -/
def State.consult (s : State) (h : W64) : Except Stop Unit :=
  trapIf (s.me.st.cd != 0 && handlePkg h != s.regs.pkgid.toNat) causeCandleClass 0

/-- The table access of an instruction holds the thread; the operation and its reply are counted, both ends on the issuing
core, since a table has none (R269, R308; DEDUCED, log 70). -/
def State.formeAccess (s : State) (_h : W64) : State :=
  let l := s.me.launch
  let s1 := (((s.msgSent l s.here).msgRcvd l s.here).msgSent l s.here).msgRcvd l s.here
  s1.setMe { s1.me with busy := true }

/-- Check 4 of R270: tenant and octet of a used entry. -/
def State.formeMessage (s : State) (h : W64) : Except Stop Unit :=
  let e := s.formeOf h
  trapIf (e.state != .free && (e.tenant != s.me.tenant || !s.permits (octetOf s.here) e.octet)) causeMessage
    (addrBadv e.base)
/-- Check 5 of R270: the handle is current. -/
def State.formeCurrent (s : State) (h : W64) : Except Stop Unit :=
  let e := s.formeOf h
  trapIf (e.state == .free || e.gen != handleGen h) causeStale h
/-- Check 6 of R270: the entry is not Pied. -/
def State.formeWhole (s : State) (h : W64) : Except Stop Unit := trapIf ((s.formeOf h).state == .pied) causePie h

/-- Checks 4 to 6 of R270. -/
def State.formeChecks (s : State) (h : W64) : Except Stop Unit := do
  s.consult h
  s.formeMessage h
  s.formeCurrent h
  s.formeWhole h

/-- Locks an entry up (R274): Locked, no holder. -/
def Forme.locked (e : Forme) : Forme := { e with state := .locked, holder := none, ina := false }
/-- Frees an entry (R267): its generation rises. -/
def Forme.freed (e : Forme) : Forme := { state := .free, gen := e.gen + 1 }

/-- The lock-up of the entry that a compose handle names (R274). -/
def State.lockUp (s : State) (h : W64) : State :=
  let e := s.formeOf h
  if e.state == .composing && e.gen == handleGen h then
    (s.formeEvent (s.tableOf h) (handleEntry h) e .locked).setFormeOf h e.locked
  else s

/-- HALT's lock-ups (R173, R279): the compose handles in registers in ascending order, then the one that an entry
records at the thread with INA = 1; proof handles are dropped with the context. -/
def State.lockHeld (s : State) : State :=
  let x := s.me
  let regs : List PReg := [0, 1, 2, 3, 4, 5, 6, 7]
  let s1 := regs.foldl (fun s p =>
    if x.st.handle p && isCompose (x.ptrs.get p) then s.lockUp (x.ptrs.get p) else s) s
  let id := s.threadId s.cur
  let hit (e : Forme) : Bool := e.state == .composing && e.holder == some id && e.ina
  (s1.formeEvents hit .locked).mapFormes fun _ _ e => if hit e then e.locked else e

/-- Whether a lock-up may be performed: every earlier access of the thread, to U pages as well, has been performed at system
scope, and so has every write that an acquire of the thread has made it observe, those of earlier holders among them (R274,
R275). The accesses of a sequence that has not retired are no earlier ones (R165). -/
def State.lockReady (s : State) : Bool :=
  s.settled true .system && s.settled false .system
    && s.myCore.ops.all (fun o => o.slot != s.cur || o.seq.isSome || !o.kind.isPanel)
    && s.hist.all fun w => w.done || !(w.seenAcquire.contains s.cur || (w.writer == some s.cur && w.kind != .captured))

/-- Whether the thread holds a compose handle, in a register or in A. -/
def State.holdsCompose (s : State) : Bool :=
  let id := s.threadId s.cur
  s.clusters.any fun k => k.2.formes.any fun e => e.2.state == .composing && e.2.holder == some id

end Sys2Proof.Machine
end

