-- ==== Sys2Proof/Machine/Engine.lean ====
section
/-! DEFINITION. WAIT, REP, the special functions, TAGE and TAGF, YIELD and HALT (R156 to R173). -/

namespace Sys2Proof.Machine
open Sys2Proof

/-- Merges the flags of retired sequences into ST[8:4] (R166). -/
def State.mergeFlags (s : State) : State :=
  let x := s.me
  s.setMe { x with st := { x.st with fl := x.st.fl ||| x.seqFlags }, seqFlags := 0 }

/-- WAIT (R156). -/
def execWait (l st : BitVec 3) (c : BitVec 2) (t : BitVec 3) (s : State) : Outcome :=
  let x := s.me
  settle s (.wait l st c t)
    (if x.loads ≤ l.toNat && x.stores ≤ st.toNat && x.copies ≤ c.toNat && x.tiles ≤ t.toNat then .ok s.mergeFlags.advance
     else .error (.park s))

/-! ### REP (R162, R163) -/

/-- Rows of a stagger code (R162). -/
def staggerRows (c : BitVec 2) : Nat := match c.toNat with | 0 => 0 | 1 => 1 | 2 => 2 | _ => 4
/-- A row moved on by a number of rows within its tile (R164). -/
def staggered (n : Nat) (r : RowRef) : RowRef := rowOf (rowTile r) ((rowNum r + n) % 64)

/-- Fetches, checks and captures `k` instructions from an address, with the tiles of captured MMA and MMROT blocks read
under the given pointers (R163). The CTL byte of a block is read right after the linear-handle check of its own instruction
and before the next one is fetched (DESIGN CHOICE, log 87). -/
def State.capture (s : State) (ps : Pointers) (lh : PReg → Bool) :
    Nat → VA → List (Instr × Chain) → List (BitVec 2) → Except Stop (VA × List (Instr × Chain) × List (BitVec 2))
  | 0, a, is, ts => .ok (a, is, ts)
  | k + 1, a, is, ts => do
    match s.fetchInstr a with
    | .trap t _ => .error (.trap t)
    | .instr i ch =>
      trapIf (!capturable i) causeReserved (addrBadv a)
      trapIf ((namedPtrs i).any lh) causeHandle 0
      let ts ← match tilePtr i with
        | none => .ok ts
        | some p => do
          let b := ptrAddr (ps.get p)
          aligned b 64 (addrBadv b)
          let parts ← s.access .read (b + 0x0E) 1
          let ctl := ofBytes (s.blockBytes parts)
          .ok (ts ++ [BitVec.ofNat 2 ctl])
      State.capture s ps lh k (a + BitVec.ofNat 48 (2 * ch.len)) (is ++ [(i, ch)]) ts

/-- The rows that the passes of a sequence name (R163). -/
def passRows (n stag : Nat) (is : List (Instr × Chain)) (ts : List (BitVec 2)) : List RowRef :=
  let moving := (upto n).flatMap fun j => (is.flatMap fun i => namedRows i.1).map (staggered (j * stag))
  (moving ++ ts.flatMap fun t => (upto 64).map (rowOf t)).eraseDups

/-- Whether a stage thread waits in a slot for the slice of a group of its launch that has been placed on its octet and is still
to be restored (R370). -/
def State.awaitsSlice (s : State) (t : Nat) : Bool :=
  let x := s.slot t
  x.stage && x.mode == .suspended && (s.launch x.launch).groups.any fun g =>
    g.octet == octetOf (coreOf t) && g.state == .placed && g.restoring

/-- Repeat-buffer entries of a core that are taken for threads whose restore is still to come (R295, R370). -/
def State.seqsReserved (s : State) (c : Nat) : Nat :=
  ((upto 16).map fun i => let t := 16 * c + i
    if (s.slot t).mode == .restoring || s.awaitsSlice t then (s.slot t).saved.length else 0).foldl (· + ·) 0

/-- REP: captures the block that follows and hands it to the sequencer (R163). -/
def State.repOp (s : State) (n : BitVec 5) (stag : BitVec 2) (len : BitVec 4) : Res := do
  trapIf (s.me.st.cd != 0) causeCandleState 0
  let start := s.nextPc
  let (a, is, ts) ← s.capture s.me.ptrs s.me.st.handle (len.toNat + 1) start [] []
  let passes := n.toNat + 1
  let rows := passRows passes (staggerRows stag) is ts
  let c := s.myCore
  if c.seqs.length + s.seqsReserved s.here ≥ 4 || rows.any s.rowPending || s.me.tiles ≥ 15 then .error (.park s) else
  let q : Seq :=
    { slot := s.cur, id := s.nd, addr := s.me.pc, start := start, n := passes, code := stag, instrs := is,
      ptrs := s.me.ptrs, xi := s.me.xi, rm := s.me.st.rm, pl := s.me.st.pl, rows := rows, latch := is.any (fun i => usesLatch i.1),
      tiles := ts }
  let s1 := s.setMyCore { c with seqs := c.seqs ++ [q] }
  .ok ((s1.setMe { s1.me with tiles := s1.me.tiles + 1 }).jump a)

/-- REP (R162, R163). -/
def execRep (n : BitVec 5) (stag : BitVec 2) (len : BitVec 4) (s : State) : Outcome :=
  settle s (.rep n stag len) (s.repOp n stag len)

/-! ### The special-function unit (R169, R170) -/

/-- Puts a request into the unit's queue in the order of arrival: a stop of the ring for each cycle, and of those that arrive
in one cycle the lowest core's first, then the lowest slot's (R171). -/
def sfuInsert (r : SfuReq) (qs : List SfuReq) : List SfuReq :=
  let before (q : SfuReq) : Bool := q.arrives < r.arrives || (q.arrives == r.arrives && q.slot < r.slot)
  qs.filter before ++ r :: qs.filter fun q => !before q

/-- The cycles from the issue of a request to its arrival at the unit (R171). -/
def sfuTransit (t : Nat) : Nat := 8 - coreOf t % 8

/-- A special function: the request is sent once the row's checks pass and no request of the slot is under way (R171); the
result is written when it has returned. -/
def State.sfuOp (s : State) (fn : SfuFn) (row : RowRef) : Res := do
  let x := s.me
  if x.sfuSent then
    match x.sfu with
    | none => .error (.park s)
    | some r =>
      s.fpCheck r.flags
      let s1 := s.setMe { x with sfuSent := false, sfu := none }
      .ok ((s1.setRow row { tag := 7, elems := r.elems, scales := 0 }).orFlags r.flags).advance
  else
    s.rowsReady [row]
    s.laneSource row 32 7
    let o := s.octet (octetOf s.here)
    if o.sfu.any (fun q => q.slot == s.cur) then .error (.park s) else
    let r : SfuReq := { slot := s.cur, row := row, fn := fn, live := true, arrives := s.cycle + sfuTransit s.cur }
    let s1 := s.setOctet (octetOf s.here) { o with sfu := sfuInsert r o.sfu }
    .error (.park (s1.setMe { x with sfuSent := true }))

/-- SFU.EXP2 (R169). -/
def execSfuExp2 (row : RowRef) (s : State) : Outcome := settle s (.sfuExp2 row) (s.sfuOp .exp2 row)
/-- SFU.LOG2 (R169). -/
def execSfuLog2 (row : RowRef) (s : State) : Outcome := settle s (.sfuLog2 row) (s.sfuOp .log2 row)
/-- SFU.RCP (R169). -/
def execSfuRcp (row : RowRef) (s : State) : Outcome := settle s (.sfuRcp row) (s.sfuOp .rcp row)
/-- SFU.RSQRT (R169). -/
def execSfuRsqrt (row : RowRef) (s : State) : Outcome := settle s (.sfuRsqrt row) (s.sfuOp .rsqrt row)
/-- SFU.SIN (R169). -/
def execSfuSin (row : RowRef) (s : State) : Outcome := settle s (.sfuSin row) (s.sfuOp .sin row)
/-- SFU.COS (R169). -/
def execSfuCos (row : RowRef) (s : State) : Outcome := settle s (.sfuCos row) (s.sfuOp .cos row)
/-- SFU.TANH (R169). -/
def execSfuTanh (row : RowRef) (s : State) : Outcome := settle s (.sfuTanh row) (s.sfuOp .tanh row)
/-- SFU.ERF (R169). -/
def execSfuErf (row : RowRef) (s : State) : Outcome := settle s (.sfuErf row) (s.sfuOp .erf row)

/-! ### TAGE and TAGF (R161) -/

/-- Whether an earlier access of the thread to a word of the scratchpad has still to be performed (R161): an engine's, a row load
or store or the read or the transfer of a panel, or a store that waits in the replay queue. -/
def State.wordOutstanding (s : State) (word : Nat) : Bool :=
  let inWord (k : Nat) : Bool := k / 8 == word
  (s.myCore.ops.any fun o => o.slot == s.cur && o.seq.isNone
    && (o.src.any inWord || o.unstored.any (fun b => inWord b.1) || (o.unread s.here).any inWord
        || (o.unsent s.here (s.spmSize s.here)).any inWord))
  || s.me.replay.any fun r => !r.written && (upto r.bytes.length).any fun i =>
      match windowLoc s.here (r.va + BitVec.ofNat 48 i) with | some l => inWord l.key | none => false

/-- The thread's earlier stores to a word, and those published before, are performed with respect to every agent (R161,
R135). -/
def State.performWord (s : State) (word : Nat) : State :=
  ((s.publishAll s.cur).raisePublished (some s.cur) s.cur .system).finishWrites s.cur fun w =>
    w.new.any fun b => b.1 / 8 == word

/-- Sets the full bit of the word that holds Pn's address, after the thread's earlier accesses to that word (R161). -/
def State.tagOp (s : State) (p : PReg) (full : Bool) : Res := do
  s.notHandle p
  let a := ptrAddr (s.me.ptrs.get p)
  let ps ← s.access .write a 1
  trapIf (!syncAddress a) causeSync (addrBadv a)
  s.notHeld
  let o := orderOf (partsClass ps) MD.zero
  s.awaitRelease o.rel o.scope
  s.awaitPublish
  let keys := partKeys ps
  let word := match keys with | k :: _ => k / 8 | [] => 0
  if s.wordOutstanding word then .error (.park s) else
  let s0 := s.performWord word
  let s1 := (s0.remoteMessages s.me.launch s.here keys).hold keys
  let s2 := match keys with | k :: _ => s1.setFull k full | [] => s1
  .ok (if o.acq then s2.acquired o.scope else s2).advance

/-- TAGE (R161). -/
def execTage (p : PReg) (s : State) : Outcome := settle s (.tage p) (s.tagOp p false)
/-- TAGF (R161). -/
def execTagf (p : PReg) (s : State) : Outcome := settle s (.tagf p) (s.tagOp p true)

/-! ### YIELD and HALT (R172, R173) -/

/-- Whether the thread's four counters are zero and its replay queue is empty (R157, R327). -/
def Slot.drained (x : Slot) : Bool :=
  x.loads == 0 && x.stores == 0 && x.copies == 0 && x.tiles == 0 && x.replay.isEmpty

/-- YIELD (R172). -/
def execYield (s : State) : Outcome :=
  settle s .yield (do
    trapIf (s.me.st.cd != 0) causeCandleState 0
    if !s.me.drained then .error (.park s) else
    let s1 := s.mergeFlags.advance
    let s2 := s1.setMe { s1.me with mode := .yielded }
    .ok (s2.checkGroup s2.me.launch s2.me.gidx))

/-- Whether a row is pending in a tile that the end of the thread releases: its private ones, and the shared ones of its
launch when no other thread of the launch is on the core (R174, R177). -/
def State.releasesPending (s : State) : Bool :=
  let last := (s.launchSlotsOn s.me.launch s.here).all (· == s.cur)
  allTiles.any fun t =>
    let y := s.myCore.tile t
    y.alloc && y.launch == s.me.launch && (y.owner == .slot (BitVec.ofNat 4 s.cur) || (last && y.owner == .shared))
      && s.tilePending t

/-- HALT: with its lock-ups, each a release of system scope (R173, R279); of a stage thread it has the effect of
GDONE (R371). -/
def execHalt (s : State) : Outcome :=
  settle s .halt (do
    trapIf (s.me.st.cd != 0) causeCandleState 0
    if !s.me.drained || s.releasesPending || (s.me.stage && !s.settled false .die) || (s.holdsCompose && !s.lockReady)
    then .error (.park s) else
    .ok (s.mergeFlags.lockHeld.gateSlot s.cur))

end Sys2Proof.Machine
end

