-- ==== Sys2Proof/Machine/RowMem.lean ====
section
/-! DEFINITION. TCFG and TREL (R176, R177); VLD and VST: the places of a row's bytes on its pages (R80 to R88, R181), the
loads and stores of rows (R182 to R184) and the store operations that a core has outstanding (R155). -/

namespace Sys2Proof.Machine
open Sys2Proof

/-! ### TCFG and TREL -/

/-- A tile as BADV: its row 0. -/
def tileBadv (t : BitVec 2) : W64 := rowBadv (rowOf t 0)

/-- TCFG (R176). -/
def State.tcfgOp (s : State) (t : BitVec 2) (e : ElemSize) (mask : BitVec 4) (owner : Option TileOwner) : Res := do
  let own := owner.getD (.slot (BitVec.ofNat 4 s.cur))
  let configured := match own with
    | .shared => true
    | .slot n => let x := s.slot (16 * s.here + n.toNat); x.live && x.launch == s.me.launch
  trapIf (!configured) causeOwner (tileBadv t)
  let k := s.myCore.tile t
  trapIf (k.alloc && !s.mayUse k) causeTileInUse (tileBadv t)
  trapIf (k.alloc && (e != k.size || k.banks &&& ~~~mask != 0)) causeTileInUse (tileBadv t)
  let banks := if k.alloc then k.banks else 0
  let k' : Tile := { k with alloc := true, size := e, banks := banks ||| mask, owner := own, launch := s.me.launch }
  let c := s.myCore
  let fresh (r : Nat) : Bool := r / 64 == t.toNat && !banks.getLsbD (r % 64 / 16)
  .ok (s.setMyCore ({ c with rows := c.rows.filter fun r => !fresh r.1 }.setTile t k')).advance

/-- TCFG (R176). -/
def execTcfg (t : BitVec 2) (e : ElemSize) (mask : BitVec 4) (owner : Option TileOwner) (s : State) : Outcome :=
  settle s (.tcfg t e mask owner) (s.tcfgOp t e mask owner)

/-- TREL (R177). -/
def execTrel (t : BitVec 2) (s : State) : Outcome :=
  settle s (.trel t) (do
    let k := s.myCore.tile t
    if !k.alloc then .ok s.advance else
    trapIf (!s.mayUse k) causeOwner (tileBadv t)
    if s.tilePending t then .error (.park s) else
    .ok (s.setMyCore (s.myCore.gateTile t)).advance)

/-- The offset of an address in the local alias (R239). -/
def aliasOff (a : VA) : Nat := a.toNat - 0xFF8000000000

/-! ### Where a row's bytes stand (R80 to R83, R88, R181) -/

/-- Blocks of a 4 KiB page in split geometry (R82). -/
def splitCount (tag : BitVec 4) : Nat := if sixBit tag then 163 else 124
/-- Whether the format and geometry are split. -/
def isSplit (fmt : BitVec 4) (geo : BitVec 2) : Bool := blockTag fmt && geo == 1
/-- Bytes of a row in memory outside split geometry (R88). -/
def rowBytes (fmt : BitVec 4) (geo : BitVec 2) : Nat :=
  if blockTag fmt then 8 * (blockBody fmt + (if geo = 0 then 1 else 0)) else 256

/-- The body of the block `g` blocks after the one with its body at `a`, counted across 4 KiB pages, and the page and
number of that block (R82). -/
def splitBlock (fmt : BitVec 4) (a : VA) (g : Int) : VA × VA :=
  let n := splitCount fmt
  let d := blockBody fmt
  let k : Int := (a.toNat / 4096 * n + a.toNat % 4096 / d : Nat) + g
  let page := BitVec.ofInt 48 (k / n * 4096)
  let j := (k % n).toNat
  (page + BitVec.ofNat 48 (d * j), page + BitVec.ofNat 48 (d * n + j))

/-- The alignment rule of R181 and R82. -/
def rowAligned (a : VA) (fmt : BitVec 4) (geo : BitVec 2) : Bool :=
  if isSplit fmt geo then
    a.toNat % 4096 % blockBody fmt == 0 && a.toNat % 4096 / blockBody fmt < splitCount fmt
  else blockTag fmt || a.toNat % 32 == 0

/-- The address of the row `k` rows on with the pointer's step (R181). -/
def rowAddr (a : VA) (fmt : BitVec 4) (geo : BitVec 2) (k : Int) : VA :=
  if isSplit fmt geo then (splitBlock fmt a (8 * k)).1 else a + BitVec.ofInt 48 (rowBytes fmt geo * k)

/-- The stretches of a row's bytes in ascending address order: address and length (R82, R88). -/
def rowStretches (a : VA) (fmt : BitVec 4) (geo : BitVec 2) : List (VA × Nat) :=
  if isSplit fmt geo then
    let d := blockBody fmt
    let here := min 8 (splitCount fmt - a.toNat % 4096 / d)
    let b := splitBlock fmt a here
    [(a, here * d), ((splitBlock fmt a 0).2, here)]
      ++ (if here < 8 then [(b.1, (8 - here) * d), (b.2, 8 - here)] else [])
  else [(a, rowBytes fmt geo)]

/-- A byte of a row in memory: address and location. -/
abbrev RowByte := VA × Nat

/-- Orders a row's bytes as element bytes of the eight blocks, then scale bytes, from its stretches (R80). -/
def orderRow (fmt : BitVec 4) (geo : BitVec 2) (st : List (List RowByte)) : List RowByte × List RowByte :=
  if isSplit fmt geo then
    (((st.zipIdx.filter fun e => e.2 % 2 == 0).map (·.1)).flatten, ((st.zipIdx.filter fun e => e.2 % 2 == 1).map (·.1)).flatten)
  else if blockTag fmt && geo = 0 then
    let d := blockBody fmt
    let bytes := st.flatten.zipIdx
    ((bytes.filter fun e => e.2 % (d + 1) != d).map (·.1), (bytes.filter fun e => e.2 % (d + 1) == d).map (·.1))
  else (st.flatten, [])

/-- A row access after check 8 of R178 up to its page formats. -/
structure RowAccess where
  fmt   : BitVec 4
  geo   : BitVec 2
  parts : List Part
  elems : List RowByte
  scales : List RowByte

/-- Translates the stretches of a row. -/
def State.stretches (s : State) (acc : Access) : List (VA × Nat) → Except Stop (List (List Part))
  | [] => .ok []
  | e :: es => do
    let ps ← s.access acc e.1 e.2
    let rest ← State.stretches s acc es
    .ok (ps :: rest)

/-- Translation, alignment and the page formats of a row at an address: the part that holds `a` first, its alignment,
the other parts, one format on every page (R84, R178, R181). Of parts on pages of one format and different geometries the
rules say nothing: the geometry of the page that holds `a` is that of the whole row (DESIGN CHOICE, log 86). -/
def State.rowAccess (s : State) (acc : Access) (a : VA) : Except Stop RowAccess := farAt a do
  let first ← s.access acc a 1
  let (fmt, geo) := match first with | p :: _ => (p.at_.fmt, p.at_.geo) | [] => (0, 0)
  trapIf (!rowAligned a fmt geo) causeMisaligned (addrBadv a)
  let st ← s.stretches acc (rowStretches a fmt geo)
  let ps := st.flatten
  match ps.find? (fun p => p.at_.fmt != fmt) with
  | some p => trapWith causeFormat (addrBadv p.va)
  | none =>
    let (e, c) := orderRow fmt geo (st.map partBytes)
    .ok { fmt := fmt, geo := geo, parts := ps, elems := e, scales := c }

/-- The location and address lists of a row access, element bytes then scale bytes. -/
def RowAccess.all (r : RowAccess) : List RowByte := r.elems ++ r.scales

/-! ### VLD (R182, R184) -/

/-- The row that loaded bytes give: element bytes, then scale bytes (R86, R182). -/
def loadedRow (fmt : BitVec 4) (geo : BitVec 2) (bs : List (BitVec 8)) : Row :=
  if blockTag fmt then
    let d := blockBody fmt
    let bodies := (upto 8).flatMap fun g => unpackBody fmt ((bs.drop (d * g)).take d)
    let scales := if geo = 2 then List.replicate 8 (neutralScale fmt) else bs.drop (8 * d)
    { tag := fmt, elems := BitVec.ofNat 2048 (ofBytes bodies), scales := BitVec.ofNat 64 (ofBytes scales) }
  else { tag := fmt, elems := BitVec.ofNat 2048 (ofBytes bs), scales := 0 }

/-- What a row load finds at acceptance of the bytes that it is to deliver: those of the thread's own earlier stores (R58),
and the microcode of a mailbox page as the privilege lets it be read (R253). -/
def State.rowAhead (s : State) (at_ : List RowByte) : Bytes :=
  s.ahead at_ ++ at_.filterMap fun e =>
    if keyIsMbox e.2 && !keyIsMboxReg e.2 then some (e.2, s.mboxByte (s.ctx.st.pl == 0) e.2) else none

/-- VLD (R181, R182, R184): one that acquires holds the thread, or what follows it in its sequence. -/
def State.vldOp (s : State) (p : PReg) (row : RowRef) (md : MD) : Res := do
  s.notHandle p
  s.rowsReady [row]
  s.capacity s.me.loads 15
  let v := s.ctx.ptrs.get p
  let a := ptrAddr v
  let r ← s.rowAccess .read a
  s.candleClass r.parts (addrBadv a)
  let o := orderOf (partsClass r.parts) md
  s.awaitRelease o.rel o.scope
  let keys := r.all.map (·.2)
  let s1 := ((s.walksRead r.parts).remoteMessages s.me.launch s.here keys).accept
    { kind := .vld, slot := s.cur, rows := [row], fmt := r.fmt, geo := r.geo, src := keys, bytes := s.rowAhead r.all,
      strong := o.strong, scope := o.scope, unord := partsClass r.parts == .unordered, holds := o.acq,
      via := viaOf s.space r.parts }
  .ok (s1.setPtr p (withAddr v (rowAddr a r.fmt r.geo (ptrStep v)))).advance

/-- VLD (R182). -/
def execVld (p : PReg) (row : RowRef) (md : MD) (s : State) : Outcome := settle s (.vld p row md) (s.vldOp p row md)

/-- Delivers an accepted row load: the row, its counter, the acquire of an ordered one. -/
def State.finishVld (s : State) (c i : Nat) (o : EngOp) : State :=
  let bytes := (o.src.zip (s.engineRead o o.src)).map fun e => if keyIsMboxReg e.1 then s.mboxByte true e.1 else e.2
  let k := s.core c
  let row := loadedRow o.fmt o.geo bytes
  let k1 := match o.rows with | r :: _ => k.setHeldRow r row | [] => k
  let s1 := (s.setCore c { k1 with ops := ldel k1.ops i }).readLines o.slot c o.src
  let x := s1.slot o.slot
  let s2 := if o.seq.isSome then s1 else s1.setSlot o.slot { x with loads := x.loads - 1, busy := x.busy && !o.holds }
  if o.holds then s2.orderPoint o.slot o.scope false else s2

/-! ### VST (R183, R184) -/

/-- The bytes of a row as its page stores them, element bytes then scale bytes (R86, R183). -/
def storedRow (fmt : BitVec 4) (geo : BitVec 2) (r : Row) : List (BitVec 8) :=
  let bs := toBytes 256 r.elems.toNat
  if blockTag fmt then
    ((upto 8).flatMap fun g => packBody fmt ((bs.drop (32 * g)).take 32))
      ++ (if geo = 2 then [] else toBytes 8 r.scales.toNat)
  else bs

/-- Check 8 of R178 for the store of a row at an address: translation and alignment, the row's tag (R183), the candle's
class and overflow. -/
def State.rowStore (s : State) (row : RowRef) (a : VA) : Except Stop RowAccess := farAt a do
  let first ← s.access .write a 1
  let (fmt, geo) := match first with | p :: _ => (p.at_.fmt, p.at_.geo) | [] => (0, 0)
  trapIf (!rowAligned a fmt geo) causeMisaligned (addrBadv a)
  let _ ← s.stretches .write (rowStretches a fmt geo)
  trapIf (fmt != 0 && fmt != (s.row row).tag) causeFormat (addrBadv a)
  let r ← s.rowAccess .write a
  s.candleClass r.parts (addrBadv a)
  .ok r

/-- VST (R181, R183, R184): it never holds its thread, with whatever ordering; later accesses wait for one that acquires
(R323). -/
def State.vstOp (s : State) (p : PReg) (row : RowRef) (md : MD) : Res := do
  s.notHandle p
  s.rowsReady [row]
  if s.ctx.holding then .ok () else s.capacity s.me.stores 15
  let v := s.ctx.ptrs.get p
  let a := ptrAddr v
  let r ← s.rowStore row a
  trapIf s.queueFull causeOverflow (addrBadv a)
  if s.ctx.holding then .ok () else s.awaitPublish
  let o := orderOf (partsClass r.parts) md
  let bytes := zipBytes (r.all.map (·.2)) (storedRow r.fmt r.geo (s.row row))
  let s1 :=
    if s.ctx.holding then s.holdStore r.parts bytes o
    else (((s.publishAll s.cur).walksRead r.parts).remoteMessages s.me.launch s.here (r.all.map (·.2))).accept
      { kind := .vst, slot := s.cur, rows := [row], fmt := r.fmt, geo := r.geo, bytes := bytes, strong := o.strong,
        scope := o.scope, unord := partsClass r.parts == .unordered, acq := o.acq, via := viaOf s.space r.parts }
  .ok (s1.setPtr p (withAddr v (rowAddr a r.fmt r.geo (ptrStep v)))).advance

/-- VST (R183). -/
def execVst (p : PReg) (row : RowRef) (md : MD) (s : State) : Outcome := settle s (.vst p row md) (s.vstOp p row md)

/-! ### Performing an outstanding store -/

/-- Whether an earlier store of the thread to a page of an operation still waits in the replay queue: the stores of a thread
to one location are performed in program order (R318). -/
def Slot.replayBefore (x : Slot) (o : EngOp) : Bool :=
  x.replay.any fun r => !r.written && r.made < o.seq.getD o.born
    && (pagesOf r.va r.bytes.length).any fun g => o.via.any fun v => v.page == g

/-- Whether two operations store to a common location. -/
def EngOp.overlaps (o p : EngOp) : Bool := o.unstored.any fun b => (bytesAt p.unstored b.1).isSome

/-- Whether an earlier row store to a location of an outstanding one has still to be performed: those of a thread, or of one
of its sequences, to one location are performed in program order (R164, R318, R447). -/
def State.storeBehind (s : State) (o : EngOp) : Bool :=
  o.kind.isStore && (s.core (coreOf o.slot)).ops.any fun p =>
    p.slot == o.slot && p.seq == o.seq && p.born < o.born && p.kind.isStore && !p.written && p.overlaps o

/-- Whether an outstanding access may be performed: a row store after the earlier ones to its locations, and a releasing one
once every earlier access of its thread, or of its sequence, has been performed, accesses to U pages aside (R184, R321,
R323). -/
def State.storeReady (s : State) (o : EngOp) : Bool :=
  !(s.slot o.slot).replayBefore o && !s.storeBehind o && (!o.strong ||
    match o.seq with
    | some id => s.seqSettled o.slot id o.born o.scope
    | none => (s.slot o.slot).replay.isEmpty && s.performedBefore o.slot o.born o.scope false)

/-- An outstanding store leaves its engine: the counter of its thread falls. -/
def State.retireStore (s : State) (c i : Nat) (o : EngOp) : State :=
  let k := s.core c
  let s1 := s.setCore c { k with ops := ldel k.ops i }
  let x := s1.slot o.slot
  if o.seq.isSome then s1
  else s1.setSlot o.slot { x with stores := x.stores - 1 }

end Sys2Proof.Machine
end

