-- ==== Sys2Proof/Machine/Galley.lean ====
section
/-! DEFINITION. The galley instructions (R362 to R381): slugs, bindings, homes, the case. -/

namespace Sys2Proof.Machine
open Sys2Proof

/-! ### Slugs and homes (R362 to R364) -/

/-- The slug that 32 bytes hold. -/
def slugOf (bs : List (BitVec 8)) : Slug :=
  { key := BitVec.ofNat 64 (bytesField bs 0 8), val := BitVec.ofNat 64 (bytesField bs 8 8),
    time := BitVec.ofNat 32 (bytesField bs 16 4), wt := BitVec.ofNat 32 (bytesField bs 20 4),
    tag := BitVec.ofNat 16 (bytesField bs 24 2), merged := bit (bytesField bs 26 2) 0 }

/-- The bytes of a slug. -/
def slugBytes (x : Slug) : List (BitVec 8) :=
  toBytes 8 x.key.toNat ++ toBytes 8 x.val.toNat ++ toBytes 4 x.time.toNat ++ toBytes 4 x.wt.toNat
    ++ toBytes 2 x.tag.toNat ++ toBytes 2 (bnat x.merged) ++ toBytes 4 0

/-- Home index of a key among `n` homes (R364). -/
def homeIndex (key : W64) (n : Nat) : Nat := ((key * 0x5A3C96E14B27D0F3).toNat / 2 ^ 32 * n) / 2 ^ 32

/-- Whether two slugs have the same identity (R362). -/
def sameSlug (a b : Slug) : Bool := a.tag == b.tag && a.key == b.key && a.val == b.val && a.time == b.time

/-- (TIME, TAG, KEY, VAL) of a slug as one number, for R368's order. -/
def Slug.order (x : Slug) : Nat :=
  ((x.time.toNat * 2 ^ 16 + x.tag.toNat) * 2 ^ 64 + x.key.toNat) * 2 ^ 64 + x.val.toNat

/-- (KEY, VAL, TIME) of a record as one number, for R379's order. -/
def Slug.position (x : Slug) : Nat := (x.key.toNat * 2 ^ 64 + x.val.toNat) * 2 ^ 32 + x.time.toNat

/-- Whether an exact weight sum is a weight (R365). -/
def inWeight (w : Int) : Bool := -2147483648 ≤ w && w ≤ 2147483647

/-! ### Bindings -/

/-- The binding of a tag by a launch. -/
def State.binding (s : State) (l : Nat) (tag : BitVec 16) : Option Binding :=
  s.bindings.find? fun b => b.launch == l && b.tag == tag
/-- Replaces a binding. -/
def State.setBinding (s : State) (b : Binding) : State :=
  { s with bindings := s.bindings.map fun c => if c.launch == b.launch && c.tag == b.tag then b else c }
/-- The core of home `i` of a binding. -/
def State.homeCore (s : State) (b : Binding) (i : Nat) : Nat := 768 * (s.launch b.launch).die + b.d0 + i

/-- A galley fault (R373). -/
def galleyFault {α : Type} (reason : BitVec 8) (detail : Nat) : Except Stop α :=
  trapWith causeGalley (reason ++ BitVec.ofNat 56 detail)
/-- A galley fault on a condition. -/
def galleyIf (c : Bool) (reason : BitVec 8) (detail : Nat) : Except Stop Unit :=
  if c then galleyFault reason detail else .ok ()

/-- Whether a launch has issued a GEMIT or a GCLOSE: one that has completed, or one that waits; what a cut-off park leaves has
had no effect but the raised seal (R59, R373, R380; DEDUCED, log 111). -/
def State.hasIssued (s : State) (i : Nat) : Bool :=
  (s.launch i).emitted || s.flights.any (fun f => f.launch == i)
    || s.slots.any fun e => e.2.live && e.2.launch == i && e.2.sealWas.isSome

/-- The block of Pn with checks 1 to 4 of R373; `held` makes check 3. -/
def State.galleyBlock (s : State) (p : PReg) (align n : Nat) (acc : Access) (held : Bool) :
    Except Stop (VA × List Part) := do
  s.notHandle p
  let a := ptrAddr (s.me.ptrs.get p)
  aligned a align (addrBadv a)
  if held then s.notHeld else .ok ()
  let ps ← s.access acc a n
  s.candleClass ps (addrBadv a)
  .ok (a, ps)

/-! ### GBIND (R363, R374) -/

/-- The stage that a descriptor describes. -/
def bindingOf (l : Nat) (bs : List (BitVec 8)) : Binding :=
  let f (off n : Nat) : Nat := bytesField bs off n
  { launch := l, tag := BitVec.ofNat 16 (f 0x0C 2), entry := BitVec.ofNat 48 (f 0 8), d0 := f 8 2, homes := f 10 2,
    caseVa := BitVec.ofNat 48 (f 0x10 8), csz := f 0x18 4, arg := BitVec.ofNat 64 (f 0x20 8),
    slugb := BitVec.ofNat 48 (f 0x28 8), ssav := BitVec.ofNat 48 (f 0x30 8) }

/-- The zero fields and ranges of a descriptor (R363). -/
def badDescriptor (bs : List (BitVec 8)) : Bool :=
  let f (off n : Nat) : Nat := bytesField bs off n
  f 6 2 != 0 || f 0 1 % 2 != 0 || f 10 2 = 0 || f 10 2 > 768 || f 0x0C 2 = 0 || f 0x0E 2 != 0
    || f 0x16 2 != 0 || f 0x10 8 % 4096 != 0 || f 0x18 4 % 4096 != 0 || f 0x1C 4 != 0
    || f 0x2E 2 != 0 || f 0x28 8 % 512 != 0 || f 0x36 2 != 0 || f 0x30 8 % 1024 != 0 || f 0x38 8 != 0

/-- The multi-context store's entries (R363). -/
def stageEntries : Nat := 16

/-- The regions that GBIND translates as writes: the case partitions, the slug frames, the stage records. -/
def Binding.regions (b : Binding) : List (VA × Nat) :=
  [(b.caseVa, b.homes * b.csz), (b.slugb, 512 * b.homes), (b.ssav, 0x4000 * b.homes)]

/-- Translates regions as writes. -/
def State.accessAll (s : State) (acc : Access) : List (VA × Nat) → Except Stop (List (List Part))
  | [] => .ok []
  | r :: rs => do
    let ps ← s.access acc r.1 r.2
    s.candleClass ps (addrBadv r.1)
    let rest ← State.accessAll s acc rs
    .ok (ps :: rest)

/-- GBIND (R374). -/
def State.gbindOp (s : State) (p : PReg) : Res := do
  let (a, ps) ← s.galleyBlock p 64 64 .read false
  let (bs, s1) ← s.readBlock ps
  galleyIf s.me.stage 0x07 0
  let b := bindingOf s.me.launch bs
  let homes := (upto b.homes).map fun i => 768 * dieOf s.here + b.d0 + i
  galleyIf (badDescriptor bs || b.d0 + b.homes > 768
    || homes.any fun c => octetOf c != octetOf s.here && !s.permits (octetOf s.here) (octetOf c)) 0x01 a.toNat
  galleyIf ((s.binding s.me.launch b.tag).isSome || s.hasIssued s.me.launch) 0x02 b.tag.toNat
  let regions ← s.accessAll .write b.regions
  let hold (s : State) : State := s.setMe { s.me with busy := true }
  let setZ (s : State) (z : Bool) : State := s.setSt fun st => { st with z := z }
  if homes.any (fun c => (s.core c).stages.length ≥ stageEntries) then .ok (hold (setZ s1 true)).advance else
  let b' := { b with extents := (regions.headD []).map fun q => (q.at_.key, q.n) }
  let s2 : State := { s1 with bindings := s1.bindings ++ [b'] }
  let s3 := homes.foldl (fun s c =>
    let k := s.core c
    s.setCore c { k with stages := k.stages ++ [{ launch := b.launch, tag := b.tag }] }) s2
  .ok (hold (setZ s3 false)).advance

/-- GBIND (R374). -/
def execGbind (p : PReg) (s : State) : Outcome := settle s (.gbind p) (s.gbindOp p)

/-! ### GEMIT (R375) -/

/-- Records that a launch has completed a GEMIT or a GCLOSE (R373). -/
def State.hasEmitted (s : State) (i : Nat) : State :=
  let l := s.launch i
  if l.emitted then s else s.setLaunch i { l with emitted := true }

/-- GEMIT: sends the slug, then parks until its home has taken it. -/
def State.gemitOp (s : State) (p : PReg) : Res := do
  if s.flights.any (fun f => f.slot == s.cur) then .error (.park s) else
  let (a, ps) ← s.galleyBlock p 32 32 .read true
  let (bs, s1) ← s.readBlock ps
  let v := slugOf bs
  galleyIf (v.wt == 0 || bytesField bs 26 2 != 0 || bytesField bs 28 4 != 0) 0x03 a.toNat
  match s.binding s.me.launch v.tag with
  | none => galleyFault 0x04 v.tag.toNat
  | some b =>
    galleyIf (s.me.stage && v.tag ≤ s.me.stag) 0x05 v.tag.toNat
    let least := if s.me.stage then (match s.me.slug with | some x => x.time.toNat | none => 0) else s.me.sealT
    galleyIf (v.time.toNat < least) 0x06 v.time.toNat
    if !s.settled false .die then .error (.park s) else
    let f : Flight := { launch := b.launch, slug := v, slot := s.cur, home := s.homeCore b (homeIndex v.key b.homes) }
    .error (.park { s1 with flights := s1.flights ++ [f] })

/-- GEMIT (R375). -/
def execGemit (p : PReg) (s : State) : Outcome := settle s (.gemit p) (s.gemitOp p)

/-! ### GDONE (R376) -/

/-- GDONE (R376). -/
def execGdone (s : State) : Outcome :=
  settle s .gdone (do
    galleyIf (!s.me.stage) 0x07 0
    trapIf (s.me.st.cd != 0) causeCandleState 0
    if !s.me.drained || !s.settled false .die then .error (.park s) else
    .ok (s.gateSlot s.cur))

/-! ### The case (R372, R377 to R379) -/

/-- The base of a partition. -/
def Binding.partition (b : Binding) (i : Nat) : VA := b.caseVa + BitVec.ofNat 48 (i * b.csz)
/-- The records that a partition holds at most (R372). -/
def Binding.capacity (b : Binding) : Nat := b.csz / 32 - 2
/-- The records of home `i`. -/
def Binding.recordsOf (b : Binding) (i : Nat) : List Slug := (b.cases.filter fun r => r.1 == i).map (·.2)

/-- What an access to partitions gives: done, or a fault that the hardware met. -/
inductive CaseAccess where
  | done
  | fault (i : TrapInfo)

/-- The hardware's accesses to the partitions of some homes, in the address space of the launch (R371, R372, R449); a walk that
would read a table of unbounded class is the instruction's candle-class trap (R353). -/
def State.caseAccess (s : State) (b : Binding) (acc : Access) : List Nat → Except Stop CaseAccess
  | [] => .ok .done
  | i :: is =>
    match s.parts { s.space with user := false } acc (b.csz / 4096 + 2) (b.partition i) b.csz with
    | .error f => if f.code = causeCandleClass then trapWith causeCandleClass (addrBadv (b.partition i)) else .ok (.fault f)
    | .ok ps => do
      s.candleClass ps (addrBadv (b.partition i))
      State.caseAccess s b acc is

/-- A hardware access faulted: the tag is broken and the hosting group's fault domain killed (R371); one of the second stage
raises its event (R351). -/
def State.caseFault (s : State) (b : Binding) (i : TrapInfo) : State :=
  ((s.stage2Event s.cur i false).breakTag b.launch b.tag).killSlotDomain s.cur 3

/-- The thread is held until its access to a case has been performed. -/
def State.holdMe (s : State) : State := s.setMe { s.me with busy := true }

/-- A value that the spec leaves open: what a case gives whose partition another agent has written (R372). -/
def State.freeWord (s : State) : W64 := BitVec.ofNat 64 (Config.pick (s.nd * 2 ^ 64))

/-- CASEADD (R377). -/
def State.caseaddOp (s : State) (p : PReg) : Res := do
  let (a, ps) ← s.galleyBlock p 32 32 .read true
  let (bs, s1) ← s.readBlock ps
  let v := slugOf bs
  let b? := s.binding s.me.launch v.tag
  match b? with
  | none => galleyFault 0x07 0
  | some b =>
    let i := homeIndex v.key b.homes
    galleyIf (!s.me.stage || s.me.stag != v.tag || s.homeCore b i != s.here) 0x07 0
    galleyIf (v.wt == 0) 0x03 a.toNat
    match ← s.caseAccess b .rmw [i] with
    | .fault f => .ok (s1.caseFault b f)
    | .done =>
      let same (r : Nat × Slug) : Bool := r.1 == i && sameSlug r.2 { v with tag := b.tag }
      let old : Int := match b.cases.find? same with | some r => r.2.wt.toInt | none => 0
      let sum := old + v.wt.toInt
      let full := (b.cases.find? same).isNone && (b.recordsOf i).length ≥ b.capacity
      let free := Config.pick (s.nd * 2 ^ 64) % 3
      galleyIf (if b.spoilt.contains i then free == 1 else !inWeight sum) 0x09 a.toNat
      galleyIf (if b.spoilt.contains i then free == 2 else full) 0x08 (b.partition i).toNat
      let others := b.cases.filter fun r => !same r
      let cases := if sum = 0 then others
        else others ++ [(i, { v with tag := b.tag, wt := BitVec.ofInt 32 sum, merged := false })]
      let change : CaseChange := { home := i, rec_ := { v with tag := b.tag }, slot := s.cur }
      .ok ((s1.setBinding { b with cases := cases, changes := change :: b.changes }).holdMe).advance

/-- CASEADD (R377). -/
def execCaseadd (p : PReg) (s : State) : Outcome := settle s (.caseadd p) (s.caseaddOp p)

/-- The binding of a block's tag, with a case (reason 0x04). -/
def State.caseOf (s : State) (v : Slug) : Except Stop Binding :=
  match s.binding s.me.launch v.tag with
  | some b => if b.csz = 0 then galleyFault 0x04 v.tag.toNat else .ok b
  | none => galleyFault 0x04 v.tag.toNat

/-- Whether the issuing thread may observe a record without its newest changes: of a time not closed, and, by a stage
thread, neither of its own key nor of an earlier time (R381). -/
def State.maySkip (s : State) (b : Binding) (r : Slug) : Bool :=
  b.front ≤ r.time.toNat &&
    match s.me.slug with
    | some x => !(s.me.stage && (r.key == x.key || r.time < x.time))
    | none => true

/-- The weight by which the issuing thread observes a record too new: that of the newest changes that other threads have
made to it and that it leaves aside; the spec leaves open how many (R372, R381). -/
def State.skippedWeight (s : State) (b : Binding) (r : Nat × Slug) : Int :=
  if !s.maySkip b r.2 then 0 else
  let cs := (b.changes.filter fun c => c.home == r.1 && sameSlug c.rec_ r.2).takeWhile fun c => c.slot != s.cur
  let j := Config.pick (s.nd * 2 ^ 256 + r.2.position) % (cs.length + 1)
  (cs.take j).foldl (fun n c => n + c.rec_.wt.toInt) 0

/-- The records of a case as the issuing thread observes them. -/
def State.caseView (s : State) (b : Binding) : List (Nat × Slug) :=
  let gone := (b.changes.map fun c => (c.home, { c.rec_ with wt := 0, merged := false })).filter fun r =>
    !b.cases.any fun q => q.1 == r.1 && sameSlug q.2 r.2
  (b.cases ++ gone.eraseDups).filterMap fun r =>
    let w := r.2.wt.toInt - s.skippedWeight b r
    if w = 0 then none else some (r.1, { r.2 with wt := BitVec.ofInt 32 w })

/-- CASEGET (R378). -/
def State.casegetOp (s : State) (p : PReg) (val : Bool) : Res := do
  let (_, ps) ← s.galleyBlock p 32 32 .read false
  let (bs, s1) ← s.readBlock ps
  let v := slugOf bs
  let b ← s.caseOf v
  let i := homeIndex v.key b.homes
  match ← s.caseAccess b .read [i] with
  | .fault f => .ok (s1.caseFault b f)
  | .done =>
    let hit (r : Slug) : Bool := r.key == v.key && r.time ≤ v.time && (!val || r.val == v.val)
    let sum : Int := ((s.caseView b).filter fun r => r.1 == i && hit r.2).foldl (fun n r => n + r.2.wt.toInt) 0
    let w : W64 := if b.spoilt.contains i then s.freeWord else BitVec.ofInt 64 sum
    .ok (((s1.setA w).setSt fun st => st.setNZ 64 w.toNat).holdMe).advance

/-- CASEGET (R378). -/
def execCaseget (p : PReg) (val : Bool) (s : State) : Outcome := settle s (.caseget p val) (s.casegetOp p val)

/-- Records in CASENXT's order (R379). -/
def caseOrder (rs : List (Nat × Slug)) : List (Nat × Slug) :=
  sortBy (fun x y => x.1 < y.1 || (x.1 == y.1 && x.2.position ≤ y.2.position)) rs

/-- The first of some records in CASENXT's order, and of the partitions in `homes` that another agent has written any record or
none (R372): the first that such a partition gives, unless a record of an earlier one is found. -/
def State.orSpoilt (s : State) (b : Binding) (found : Option (Nat × Slug)) : List Nat → Option (Nat × Slug)
  | [] => found
  | i :: is =>
    let w (n : Nat) : Nat := Config.pick (s.nd * 2 ^ 64 + 8 * i + n)
    if found.any (fun r => r.1 < i) || w 0 % 2 == 1 then State.orSpoilt s b found is
    else some (i, { key := BitVec.ofNat 64 (w 1), val := BitVec.ofNat 64 (w 2), time := BitVec.ofNat 32 (w 3),
                    wt := BitVec.ofNat 32 (w 4) })

/-- The record that CASENXT finds. -/
def State.nextRecord (s : State) (b : Binding) (v : Slug) (first : Bool) : Option (Nat × Slug) :=
  let h := homeIndex v.key b.homes
  let found := (caseOrder ((s.caseView b).filter fun r => !b.spoilt.contains r.1)).find?
    fun r => first || h < r.1 || (h == r.1 && v.position < r.2.position)
  s.orSpoilt b found ((upto b.homes).filter fun i => b.spoilt.contains i && (first || h ≤ i))

/-- CASENXT (R379). It makes a store only if it finds a record, and so meets the overflow of the publish queue (R130) only
then. -/
def State.casenxtOp (s : State) (p : PReg) (first : Bool) : Res := do
  let (a, ps) ← s.galleyBlock p 32 32 .rmw false
  let (bs, s1) ← s.readBlock ps
  let v := slugOf bs
  let b ← s.caseOf v
  let start := if first then 0 else homeIndex v.key b.homes
  let found := s.nextRecord b v first
  let last := match found with | some r => r.1 | none => b.homes - 1
  match ← s.caseAccess b .read (span start (last + 1 - start)) with
  | .fault f => .ok (s1.caseFault b f)
  | .done =>
    match found with
    | none => .ok ((s1.setSt fun st => { st with z := true }).holdMe).advance
    | some r =>
      trapIf s.queueFull causeOverflow (addrBadv a)
      let s2 ← s.storeBlock s1 (partsTake 24 ps) ((slugBytes r.2).take 24)
      .ok ((s2.setSt fun st => { st with z := false }).holdMe).advance

/-- CASENXT (R379). -/
def execCasenxt (p : PReg) (first : Bool) (s : State) : Outcome := settle s (.casenxt p first) (s.casenxtOp p first)

/-! ### GCLOSE and GFRONT (R380, R381) -/

/-- The bindings of the issuing launch. -/
def State.myBindings (s : State) : List Binding := s.bindings.filter fun b => b.launch == s.me.launch

/-- The least broken tag of the issuing launch. -/
def State.brokenTag (s : State) : Option Nat :=
  ((s.myBindings.filter (·.broken)).map (·.tag.toNat)).foldl
    (fun m t => match m with | none => some t | some u => some (Nat.min u t)) none

/-- A galley fault of a GCLOSE that has waited leaves the seal as it was before (R373). -/
def State.unsealed (s : State) : State :=
  match s.me.sealWas with
  | some k => s.setMe { s.me with sealT := k, sealWas := none }
  | none => s

/-- GCLOSE (R380). -/
def State.gcloseOp (s : State) : Res := do
  galleyIf s.me.stage 0x07 0
  match s.brokenTag with
  | some g => galleyFault 0x0A g
  | none =>
    let t := s.me.a.toNat % 2 ^ 32
    let raised := Nat.max s.me.sealT (t + 1)
    if s.myBindings.any fun b => b.front ≤ t then
      .error (.park (s.setMe { s.me with sealT := raised, sealWas := some (s.me.sealWas.getD s.me.sealT) }))
    else
      let s1 := (s.setMe { s.me with sealT := raised, sealWas := none }).hasEmitted s.me.launch
      .ok (s1.acquired .die).advance

/-- GCLOSE (R380). -/
def execGclose (s : State) : Outcome :=
  let s0 := if !s.me.stage && s.brokenTag.isSome then s.unsealed else s
  settle s0 .gclose s0.gcloseOp

/-- GFRONT (R380, R381). -/
def execGfront (s : State) : Outcome :=
  settle s .gfront (
    let g : BitVec 16 := s.me.a.truncate 16
    match s.binding s.me.launch g with
    | none => galleyFault 0x04 g.toNat
    | some b => do
      galleyIf b.broken 0x0A g.toNat
      .ok ((s.acquired .die).setA (BitVec.ofNat 64 b.front)).advance)

end Sys2Proof.Machine
end

