-- ==== Sys2Proof/Machine/Imm.lean ====
section
/-! DEFINITION. Immediates, shifts, bit counts and conversion (R111 to R117). -/

namespace Sys2Proof.Machine
open Sys2Proof

/-- Writes A and N, Z of 64 bits (R103). -/
def State.immResult (s : State) (v : W64) : State := (s.setA v).setSt fun st => st.setNZ 64 v.toNat

/-- LDI (R111). -/
def execLdi (imm : W64) (s : State) : Outcome := settle s (.ldi imm) (.ok (s.immResult imm).advance)
/-- LDIH: A[63:32] ← Imm()[31:0] (R111). -/
def execLdih (imm : W64) (s : State) : Outcome :=
  settle s (.ldih imm) (.ok (s.immResult (imm.extractLsb' 0 32 ++ s.me.a.extractLsb' 0 32)).advance)
/-- ADDI (R111). -/
def execAddi (imm : W64) (s : State) : Outcome :=
  settle s (.addi imm) (.ok (s.intResult 64 false (addResult 64 s.me.a.toNat imm.toNat)).advance)
/-- ANDI (R111). -/
def execAndi (imm : W64) (s : State) : Outcome := settle s (.andi imm) (.ok (s.immResult (s.me.a &&& imm)).advance)
/-- ORI (R111). -/
def execOri (imm : W64) (s : State) : Outcome := settle s (.ori imm) (.ok (s.immResult (s.me.a ||| imm)).advance)
/-- XORI (R111). -/
def execXori (imm : W64) (s : State) : Outcome := settle s (.xori imm) (.ok (s.immResult (s.me.a ^^^ imm)).advance)

/-- Writes A, N, Z and C of a shift: C is the last bit shifted out, 0 for a count of 0 (R103). -/
def State.shiftResult (s : State) (v : W64) (k : BitVec 6) (out : Bool) : State :=
  (s.immResult v).setSt fun st => { st with c := k != 0 && out }

/-- SHL (R113). -/
def execShl (k : BitVec 6) (s : State) : Outcome :=
  settle s (.shl k) (.ok (s.shiftResult (s.me.a <<< k.toNat) k (s.me.a.getLsbD (64 - k.toNat))).advance)
/-- SHR (R113). -/
def execShr (k : BitVec 6) (s : State) : Outcome :=
  settle s (.shr k) (.ok (s.shiftResult (s.me.a >>> k.toNat) k (s.me.a.getLsbD (k.toNat - 1))).advance)
/-- SAR (R113). -/
def execSar (k : BitVec 6) (s : State) : Outcome :=
  settle s (.sar k) (.ok (s.shiftResult (s.me.a.sshiftRight k.toNat) k (s.me.a.getLsbD (k.toNat - 1))).advance)
/-- ROL; C is r[0] (R103, R113). -/
def execRol (k : BitVec 6) (s : State) : Outcome :=
  let r := s.me.a.rotateLeft k.toNat
  settle s (.rol k) (.ok (s.shiftResult r k (r.getLsbD 0)).advance)

/-- A bit-count instruction: A ← Sext(r, n), N and Z (R103, R114). -/
def State.bitOp (s : State) (w : Width) (f : Nat → Nat → Nat) : Res :=
  let n := w.bits
  .ok (s.intResult n false (plainResult (f n (s.me.a.toNat % 2 ^ n) : Nat))).advance

/-- CLZ (R114). -/
def execClz (w : Width) (s : State) : Outcome := settle s (.clz w) (s.bitOp w leadingZeros)
/-- CTZ (R114). -/
def execCtz (w : Width) (s : State) : Outcome := settle s (.ctz w) (s.bitOp w trailingZeros)
/-- POPC (R114). -/
def execPopc (w : Width) (s : State) : Outcome := settle s (.popc w) (s.bitOp w popCount)
/-- BSWAP (R114). -/
def execBswap (w : Width) (s : State) : Outcome :=
  settle s (.bswap w) (s.bitOp w fun n x => ofBytes (toBytes (n / 8) x).reverse)

/-! ### CVT (R115, R116) -/

/-- Bits of a CVT type. -/
def cvtBits : CvtTy → Nat
  | .i8 => 8 | .i16 | .f16 | .bf16 => 16 | .i32 | .f32 => 32 | .i64 | .f64 => 64
/-- The floating-point format of a CVT type; none for an integer type. -/
def cvtFmt : CvtTy → Option FFmt
  | .f16 => some .f16 | .bf16 => some .bf16 | .f32 => some .f32 | .f64 => some .f64
  | _ => none

/-- The range of an n-bit integer type. -/
def intRange (n : Nat) (u : Bool) : Int × Int :=
  if u then (0, (2 ^ n : Int) - 1) else (-(2 ^ (n - 1) : Int), (2 ^ (n - 1) : Int) - 1)

/-- An integer of a type, from its bits. -/
def intValue (n : Nat) (u : Bool) (x : Nat) : Int := if u then ((x % 2 ^ n : Nat) : Int) else signed n x

/-- CVT's rounding of [10:8] (R115). -/
def State.cvtMode (s : State) (m : BitVec 3) : RMode :=
  match m.toNat with | 0 => rmodeOf s.ctx.st.rm | k => rmodeOf (BitVec.ofNat 3 (k - 1))

/-- The result of CVT and the exceptions it raises (R75, R116). -/
def State.cvtValue (s : State) (m : BitVec 3) (su du : Bool) (src dst : CvtTy) : W64 × Flags :=
  let x := s.ctx.a.toNat % 2 ^ (cvtBits src)
  let n := (cvtBits dst)
  let put (v : Int) : W64 := if du then zext64 n (wrapNat n v) else sext64 n (wrapNat n v)
  match cvtFmt src, cvtFmt dst with
  | none, none =>
    let v := intValue (cvtBits src) su x
    let (lo, hi) := intRange n du
    (put (if m = 1 then max lo (min hi v) else v), 0)
  | none, some f =>
    let r := intToF f (s.cvtMode m) (intValue (cvtBits src) su x)
    (zext64 n r.1, r.2)
  | some f, none =>
    let (lo, hi) := intRange n du
    let r := fToInt (s.cvtMode m) lo hi (unpackF f x)
    (put r.1, r.2)
  | some f, some g =>
    let r := cvtF g (s.cvtMode m) (unpackF f x)
    (zext64 n r.1, r.2)

/-- CVT (R115, R116). -/
def execCvt (m : BitVec 3) (su du : Bool) (src dst : CvtTy) (s : State) : Outcome :=
  settle s (.cvt m su du src dst) (do
    let r := s.cvtValue m su du src dst
    s.fpCheck r.2
    .ok ((s.setA r.1).orFlags r.2).advance)

end Sys2Proof.Machine
end

