-- ==== Sys2Proof/Machine/Forme.lean ====
section
/-! DEFINITION. The forme instructions (R270 to R279). A park on an entry marks the slot's `phase`, so that checks 5 and 6
alone are made again when it ends (R270). -/

namespace Sys2Proof.Machine
open Sys2Proof

/-! ### Handles in registers -/

/-- Check 2 of R270: Pn holds a handle, of a stated kind where one is stated. -/
def State.needHandle (s : State) (p : PReg) (compose : Option Bool) : Except Stop W64 :=
  let v := s.me.ptrs.get p
  if s.me.st.handle p && (match compose with | some c => isCompose v == c | none => true) then .ok v
  else trapWith causeHandle 0

/-- Puts a handle into a register, or drops the one it holds. -/
def State.putHandle (s : State) (p : PReg) (v : W64) (held : Bool) : State :=
  let x := s.me
  s.setMe { x with ptrs := x.ptrs.set p v, st := x.st.setHandle p held, phase := none }

/-- Whether the instruction has parked on an entry before. -/
def State.waited (s : State) : Bool := s.me.phase.isSome
/-- Parks on an entry. -/
def State.parkOnEntry {α : Type} (s : State) : Except Stop α := .error (.park (s.setMe { s.me with phase := some 0 }))

/-- A park of what follows the checks of an entry is a park on the entry: checks 5 and 6 alone are made again when it ends
(R270). -/
def onEntry {α : Type} : Except Stop α → Except Stop α
  | .error (.park s) => s.parkOnEntry
  | r => r

/-- Checks 4 to 6, or 5 and 6 alone after a park (R270). -/
def State.entryChecks (s : State) (h : W64) : Except Stop Unit :=
  if s.waited then do s.formeCurrent h; s.formeWhole h else s.formeChecks h

/-- The galley fault of a stage thread that executes FNEW or FTAKE (R370, R373). -/
def State.noStage (s : State) : Except Stop Unit := trapIf s.me.stage causeGalley (0x07#8 ++ 0#56)

/-! ### FNEW and FPRF -/

/-- The lowest-numbered Free entry of a table. -/
def Cluster.freeEntry (k : Cluster) : Option Nat := (upto 256).find? fun e => (k.forme e).state == .free

/-- FNEW (R271). -/
def State.fnewOp (s : State) (p : PReg) (size : Option (BitVec 10)) : Res := do
  let n ← (match size with | some x => .ok (16 * (x.toNat + 1)) | none => s.missingOpx)
  trapIf (s.me.st.handle p) causeHandle 0
  s.noStage
  let a := ptrAddr s.me.a
  aligned a 256 (addrBadv a)
  let ps ← s.access .write a n
  match ps.find? (fun q => keyIsUnbounded q.at_.key || keyIsMbox q.at_.key) with
  | some q => .error (.trap (faultPermission q.va .write false 0))
  | none =>
    let base : VA := if inAlias a then 0xFF0000000000 + BitVec.ofNat 48 (cidx s.here * 0x80000 + aliasOff a) else a
    let k := s.cluster (clusterOf s.here)
    let s0 := s.formeAccess 0
    match k.freeEntry with
    | none => .ok (s0.setSt fun st => { st with z := true }).advance
    | some e =>
      let x := s.me
      let gen := (k.forme e).gen
      let entry : Forme :=
        { state := .composing, gen := gen, base := base, size := n, tenant := x.tenant, ownerDie := (s.launch x.launch).die,
          ownerSerial := x.serial, octet := octetOf s.here, root := x.tbase, holder := some (s.threadId s.cur) }
      let h := mkHandle true s.regs.pkgid (clusterOf s.here) gen e
      let s1 := s0.setCluster (clusterOf s.here) (k.setForme e entry)
      .ok ((s1.putHandle p h true).setSt fun st => { st with z := false }).advance

/-- FNEW (R271). -/
def execFnew (p : PReg) (size : Option (BitVec 10)) (s : State) : Outcome := settle s (.fnew p size) (s.fnewOp p size)

/-- FPRF (R272). -/
def execFprf (p : PReg) (src : Option PReg) (s : State) : Outcome :=
  settle s (.fprf p src) (do
    let q ← (match src with | some q => .ok q | none => s.missingOpx)
    trapIf (p == q) causeReserved (addrBadv s.opx1Addr)
    let v ← s.needHandle q none
    trapIf (s.me.st.handle p) causeHandle 0
    s.formeChecks v
    .ok ((s.formeAccess v).putHandle p (withCursor v 0 &&& ~~~(1#64 <<< 63)) true).advance)

/-! ### CST and PLD (R273, R275) -/

/-- Bytes that a selection moves. -/
def selBytes : FormeSel → Nat
  | .scalar w => w.bytes
  | .row _ => 256

/-- The translated storage of an access through a handle: cursor alignment, size, translation under the entry's root,
the row's own checks, one page format, the candle's class (R273). -/
def State.storage (s : State) (h : W64) (sel : FormeSel) (acc : Access) : Except Stop (List Part) := do
  let e := s.formeOf h
  let o := (handleCursor h).toNat
  let b := selBytes sel
  let x := e.base + BitVec.ofNat 48 o
  let unit := match sel with | .scalar _ => b | .row _ => 32
  trapIf (o % unit != 0) causeMisaligned (addrBadv x)
  if o + b > e.size then .error (.trap (faultPermission x acc false 0)) else .ok ()
  let ps ← s.accessIn { s.space with root := e.root } acc x b
  match sel with
  | .scalar _ => .ok ()
  | .row r =>
    s.rowsReady [r]
    let fmt := match ps with | p :: _ => p.at_.fmt | [] => 0
    trapIf (ps.any fun p => blockTag p.at_.fmt) causeFormat (addrBadv x)
    match ps.find? (fun p => p.at_.fmt != fmt) with
    | some p => trapWith causeFormat (addrBadv p.va)
    | none => .ok ()
    trapIf (acc == .write && fmt != 0 && fmt != (s.row r).tag) causeFormat (addrBadv x)
  s.candleClass ps (addrBadv x)
  .ok ps

/-- Advances the cursor of the handle in a register; 16,384 wraps to 0 (R273). -/
def State.bumpCursor (s : State) (p : PReg) (h : W64) (b : Nat) : State :=
  s.putHandle p (withCursor h ((handleCursor h).toNat + b)) true

/-- CST (R273). -/
def State.cstOp (s : State) (p : PReg) (sel : FormeSel) : Res := do
  let h ← s.needHandle p (some true)
  s.entryChecks h
  onEntry do
  let ps ← s.storage h sel .write
  let x := (s.formeOf h).base + BitVec.ofNat 48 (handleCursor h).toNat
  trapIf s.queueFull causeOverflow (addrBadv x)
  let o := orderOf (partsClass ps) MD.zero
  if s.ctx.holding then .ok () else s.awaitRelease o.rel o.scope
  let bs := match sel with
    | .scalar w => toBytes w.bytes s.me.a.toNat
    | .row r => toBytes 256 (s.row r).elems.toNat
  if s.ctx.holding then .ok () else s.awaitPublish
  let s1 := (((s.formeAccess h).underRoot (s.formeOf h).root).store ps bs o).underRoot s.me.tbase
  let s2 := if o.acq && !s.ctx.holding then s1.acquired o.scope else s1
  .ok (s2.bumpCursor p h (selBytes sel)).advance

/-- CST (R273). -/
def execCst (p : PReg) (sel : FormeSel) (s : State) : Outcome := settle s (.cst p sel) (s.cstOp p sel)

/-- PLD: parks until the forme is locked, then loads with the acquire of R275. -/
def State.pldOp (s : State) (p : PReg) (sel : FormeSel) : Res := do
  let h ← s.needHandle p (some false)
  s.entryChecks h
  if (s.formeOf h).state == .composing then s.parkOnEntry else
  onEntry do
  let ps ← s.storage h sel .read
  let o := orderOf (partsClass ps) MD.zero
  s.awaitRelease o.rel o.scope
  let s0 := s.acquired .system
  let bs := (s0.orderPoint s.cur .system true).loadBytes ps o
  let s1 := (((s0.formeAccess h).underRoot (s.formeOf h).root).loaded ps o).underRoot s.me.tbase
  let s2 := match sel with
    | .scalar w =>
      let n := w.bits
      (s1.setA (sext64 n (ofBytes bs))).setSt fun st => st.setNZ n (ofBytes bs)
    | .row r =>
      let fmt := match ps with | q :: _ => q.at_.fmt | [] => 0
      s1.setRow r { tag := fmt, elems := BitVec.ofNat 2048 (ofBytes bs), scales := 0 }
  .ok (s2.bumpCursor p h (selBytes sel)).advance

/-- PLD (R273, R275). -/
def execPld (p : PReg) (sel : FormeSel) (s : State) : Outcome := settle s (.pld p sel) (s.pldOp p sel)

/-! ### FLOCK and FDROP (R274, R278) -/

/-- FLOCK (R274). -/
def execFlock (p : PReg) (s : State) : Outcome :=
  settle s (.flock p) (do
    let h ← s.needHandle p (some true)
    s.notHeld
    s.entryChecks h
    if !s.lockReady then s.parkOnEntry else
    .ok (((s.lockUp h).formeAccess h).putHandle p 0 false).advance)

/-- FDROP (R278). -/
def execFdrop (p : PReg) (s : State) : Outcome :=
  settle s (.fdrop p) (do
    let _ ← s.needHandle p (some false)
    .ok (s.putHandle p 0 false).advance)

/-- Whether the issuing launch owns an entry: the die of a launch is its lamplighter's (R266). -/
def State.ownsForme (s : State) (h : W64) : Bool :=
  let e := s.formeOf h
  handlePkg h == s.regs.pkgid.toNat && e.ownerDie == (s.launch s.me.launch).die && e.ownerSerial == s.me.serial

/-- FDROP with retire (R278). -/
def State.retireForme (s : State) (p : PReg) : Res := do
  let h ← s.needHandle p (some false)
  s.notHeld
  (if s.waited then .ok () else do s.consult h; s.formeMessage h)
  s.formeCurrent h
  trapIf (!s.ownsForme h) causeStale h
  let e := s.formeOf h
  if e.state == .composing then s.parkOnEntry else
  trapIf (e.state == .pied && s.waited) causePie h
  let s1 := (s.formeEvent (s.tableOf h) (handleEntry h) e .freed).setFormeOf h e.freed
  .ok ((s1.formeAccess h).putHandle p 0 false).advance

/-- FDROP with retire (R278). -/
def execFdropRetire (p : PReg) (s : State) : Outcome := settle s (.fdropRetire p) (s.retireForme p)

/-! ### FSEND and FTAKE (R276, R277) -/

/-- The location of a one-part access. -/
def firstKey (ps : List Part) : Nat := match ps with | p :: _ => p.at_.key | [] => 0

/-- The tagged word of an FSEND or FTAKE: alignment, translation, mailbox pages, the rules of R159 in their place before the
candle's class (R102), from which the word of an FSEND to another package is exempt (R276, R277). -/
def State.taggedWord (s : State) (o : MemOp) (acc : Access) : Except Stop (VA × List Part) := do
  let a := s.ea o 8
  aligned a 8 (addrBadv a)
  let ps ← s.access acc a 8
  if (partKeys ps).any keyIsMbox then .error (.trap (faultPermission a acc false 0)) else .ok ()
  trapIf (!syncAddress a && !(acc == .write && keyIsPeer (firstKey ps))) causeSync (addrBadv a)
  s.candleClass ps (addrBadv a)
  .ok (a, ps)

/-- An FSEND that the word's package has accepted: the register loses the handle, V ← 0 (R276). -/
def State.sent (s : State) (p : PReg) (o : MemOp) : State :=
  (((s.putHandle p 0 false).setSt fun st => { st with v := false }).step1 o 8).advance

/-- The Lanthorn fault: a reason in [63:56] and a detail in [55:0] (R435). -/
def lanthornBadv (reason : BitVec 8) (detail : Nat) : W64 := reason ++ BitVec.ofNat 56 detail

/-- The package of a peer location. -/
def peerPackage (k : Nat) : Nat := (k - peerBase) / 2 ^ 42

/-- FSEND to a word of another package: one order event carries the transfer, and the thread waits until it has been
applied (R277); it enters the order port once the queue of 32 has room (R427). -/
def State.fsendFar (s : State) (h : W64) (a : VA) (k : Nat) : Res := do
  trapIf (s.lan.lstat != .member || !Config.lanthornMember (peerPackage k)) causeLanthorn (lanthornBadv 4 a.toNat)
  if s.me.lan != .idle then .error (.park s) else
  if !s.settled false .system || portQueue ≤ s.lan.oq.length then s.parkOnEntry else
  let s1 : State := { s with lan := { s.lan with oq := s.lan.oq ++ [{ slot := some s.cur, body := .transfer h k }] } }
  .error (.park (s1.setMe { s1.me with lan := .queued, phase := some 0 }))

/-- The end of an FSEND whose transfer has been refused: its word was full, or its entry has changed, and checks 5 and 6 then
tell of it (R277, R270). -/
def State.fsendRefused (s : State) (p : PReg) (o : MemOp) : Res := do
  let h ← s.needHandle p (some true)
  s.formeCurrent h
  s.formeWhole h
  let s1 := s.setMe { s.me with lan := .idle, phase := none }
  .ok ((s1.setSt fun st => { st with v := true }).step1 o 8).advance

/-- How the write of an FSEND is ordered: as a release of cluster scope, on a page of class S as sc of system scope (R276,
R315). -/
def sendOrder (cls : PageClass) : Order :=
  if cls == .strong then orderOf cls MD.zero else { strong := true, rel := true, scope := .cluster }

/-- FSEND (R276); once the event of a transfer to another package has been applied, nothing of it is judged again (R277). -/
def State.fsendOp (s : State) (p : PReg) (o : Option MemOp) : Res := do
  let o ← (match o with | some o => .ok o | none => s.missingOpx)
  match s.me.lan with
  | .done _ => .ok ((s.setMe { s.me with lan := .idle }).sent p o)
  | .refused => s.fsendRefused p o
  | .idle | .queued | .held =>
  let h ← s.needHandle p (some true)
  s.notHandle o.p
  s.notHeld
  s.entryChecks h
  onEntry do
  let (a, ps) ← s.taggedWord o .write
  let k := firstKey ps
  if keyIsPeer k then s.fsendFar h a k else
  let ord := sendOrder (partsClass ps)
  if !s.settled false ord.scope then .error (.park s) else
  s.awaitPublish
  let s0 ← s.awaitBit k false
  let e := s0.formeOf h
  let s1 := (s0.storeNow ps (toBytes 8 h.toNat) ord).setFull k true
  let s1 := if ord.acq then s1.acquired ord.scope else s1
  let s2 := s1.setFormeOf h { e with holder := none, xfr := true, target := k, ina := false }
  .ok ((s2.formeAccess h).sent p o)

/-- FSEND (R276, R277). -/
def execFsend (p : PReg) (o : Option MemOp) (s : State) : Outcome := settle s (.fsend p o) (s.fsendOp p o)

/-- FTAKE (R276). The pointer of the word is stepped before the handle is installed, so that a handle is never changed where
both are one register (R264; DEDUCED, log 88). -/
def State.ftakeOp (s : State) (p : PReg) (o : Option MemOp) : Res := do
  let o ← (match o with | some o => .ok o | none => s.missingOpx)
  trapIf (s.me.st.handle p) causeHandle 0
  s.notHandle o.p
  s.notHeld
  s.noStage
  let (_, ps) ← s.taggedWord o .read
  let k := firstKey ps
  let s0 ← s.awaitBit k true
  let ord := orderOf (partsClass ps) MD.zero
  s.awaitRelease ord.rel ord.scope
  let v : W64 := BitVec.ofNat 64 (ofBytes (s.loadBytes ps { ord with strong := true }))
  trapIf (!isHandle v || !isCompose v) causeStale v
  s.consult v
  let e := s.formeOf v
  trapIf (e.state != .composing || !e.xfr || e.target != k || e.gen != handleGen v) causeStale v
  let s1 := ((s0.loaded ps ord).setFull k false).acquired .cluster
  let s2 := s1.setFormeOf v { e with holder := some (s.threadId s.cur), xfr := false, target := 0 }
  .ok (((s2.formeAccess v).step1 o 8).putHandle p v true).advance

/-- FTAKE (R276). -/
def execFtake (p : PReg) (o : Option MemOp) (s : State) : Outcome := settle s (.ftake p o) (s.ftakeOp p o)

end Sys2Proof.Machine
end

