-- ==== Sys2Proof/Machine/Lanthorn.lean ====
section
/-! DEFINITION. LPOST, LWAIT, LSEQ, LCAST and LBRED (R435 to R441), and the result of a reduction round. -/

namespace Sys2Proof.Machine
open Sys2Proof

/-! ### Registers (R433, R434) -/

/-- The number of members of the group. -/
def Lanthorn.members (l : Lanthorn) : Nat := (l.lgrp.extractLsb' 8 6).toNat + 1
/-- This package's member index. -/
def Lanthorn.index (l : Lanthorn) : Nat := (l.lgrp.extractLsb' 0 6).toNat
/-- k of a tenant's LLOG: the log has 2^k entries; none where the tenant has no log. -/
def Lanthorn.logSize (l : Lanthorn) (t : BitVec 4) : Option Nat :=
  let k := ((aget (0 : BitVec 52) l.llog t.toNat).extractLsb' 0 5).toNat
  if 6 ≤ k && k ≤ 16 then some k else none
/-- LAPP of a tenant. -/
def Lanthorn.applied (l : Lanthorn) (t : BitVec 4) : W64 := aget 0 l.lapp t.toNat
/-- LPLN of a plane. -/
def Lanthorn.plane (l : Lanthorn) (p : Nat) : W64 := aget 0 l.lpln p
/-- Whether a plane is enabled and granted to a tenant. -/
def Lanthorn.planeOpen (l : Lanthorn) (p : Nat) (t : BitVec 4) : Bool :=
  (l.plane p).getLsbD 63 && (l.plane p).extractLsb' 52 4 == t
/-- Whether a member has been removed from the group. -/
def Lanthorn.isGone (l : Lanthorn) (m : Nat) : Bool := l.gone.contains m
/-- Whether a member is not in the rotation: removed, or not joined yet (R426, R430). -/
def Lanthorn.isOut (l : Lanthorn) (m : Nat) : Bool := l.isGone m || l.absent.contains m

/-! ### Checks (R435, R436) -/

/-- Reason 0x01. -/
def State.lanMember (s : State) : Except Stop Unit := trapIf (s.lan.lstat != .member) causeLanthorn (lanthornBadv 1 0)
/-- Reason 0x02. -/
def State.lanLog (s : State) : Except Stop Unit :=
  trapIf (s.lan.logSize s.me.tenant).isNone causeLanthorn (lanthornBadv 2 s.me.tenant.toNat)

/-- Checks 1 to 4 of R436: the block's address and parts. -/
def State.lanBlock (s : State) (p : PReg) : Except Stop (VA × List Part) := do
  s.notHandle p
  let a := ptrAddr (s.me.ptrs.get p)
  aligned a 64 (addrBadv a)
  s.notHeld
  let ps ← s.access .read a 64
  s.candleClass ps (addrBadv a)
  .ok (a, ps)

/-- Reason 0x06. -/
def badBlock (c : Bool) (a : VA) : Except Stop Unit := trapIf c causeLanthorn (lanthornBadv 6 a.toNat)

/-- The effect of a park until the request's hold: the request is queued once the thread's accesses before it have been
performed at system scope (R437) and its queue, which holds `n` requests, has room (R427). -/
def State.enqueue (s : State) (n : Nat) (f : State → State) : Res :=
  if !s.settled false .system || portQueue ≤ n then .error (.park s) else
  let s1 := f s
  .error (.park (s1.setMe { s1.me with lan := .queued }))

/-- Puts a request into the order port's queue. -/
def State.order (s : State) (b : OrderBody) : State :=
  { s with lan := { s.lan with oq := s.lan.oq ++ [{ slot := some s.cur, body := b }] } }

/-! ### LPOST, LWAIT, LSEQ (R437 to R439) -/

/-- LPOST (R437). -/
def State.lpostOp (s : State) (p : PReg) : Res :=
  match s.me.lan with
  | .done v => .ok ((s.setMe { s.me with lan := .idle }).setA v).advance
  | .queued | .held | .refused => .error (.park s)
  | .idle => do
    let (a, ps) ← s.lanBlock p
    s.lanMember
    s.lanLog
    let (bs, s1) ← s.readBlock ps
    badBlock (bytesField bs 0 8 != 0 || bytesField bs 10 6 != 0) a
    s1.enqueue s1.lan.oq.length fun s => s.order
      (.post s.me.tenant (BitVec.ofNat 16 (bytesField bs 8 2)) (BitVec.ofNat 384 (bytesField bs 16 48)))

/-- LPOST (R437). -/
def execLpost (p : PReg) (s : State) : Outcome := settle s (.lpost p) (s.lpostOp p)

/-- LWAIT (R438). -/
def execLwait (s : State) : Outcome :=
  settle s .lwait (do
    s.lanMember
    s.lanLog
    if (s.lan.applied s.me.tenant).toNat < s.me.a.toNat then .error (.park s) else
    .ok (s.acquired .system).advance)

/-- LSEQ (R439). -/
def execLseq (s : State) : Outcome :=
  settle s .lseq (do
    s.lanMember
    s.lanLog
    .ok (s.setA (s.lan.applied s.me.tenant)).advance)

/-! ### LCAST (R440) -/

/-- LCAST (R440). -/
def State.lcastOp (s : State) (p : PReg) (plane : Option (BitVec 5)) : Res := do
  let n ← (match plane with | some n => .ok n.toNat | none => s.missingOpx)
  match s.me.lan with
  | .done _ => .ok (s.setMe { s.me with lan := .idle }).advance
  | .queued | .held | .refused => .error (.park s)
  | .idle =>
    let (a, ps) ← s.lanBlock p
    s.lanMember
    trapIf (!s.lan.planeOpen n s.me.tenant) causeLanthorn (lanthornBadv 5 n)
    let (bs, s1) ← s.readBlock ps
    let len := bytesField bs 8 4
    let off := bytesField bs 12 4
    badBlock (bytesField bs 6 2 != 0 || bytesField bs 16 48 != 0 || len = 0 || len > 4096 || off % 64 != 0
      || off + len > 65536) a
    let src : VA := BitVec.ofNat 48 (bytesField bs 0 6)
    let qs ← s1.judgedParts .read (len / 4096 + 2) src len
    let (data, s2) ← s1.readBlock qs
    s2.enqueue (aget [] s2.lan.bq n).length fun s =>
      let q : List BulkReq := aget [] s.lan.bq n
      { s with lan := { s.lan with
          bq := aset [] s.lan.bq n (q ++ [{ slot := s.cur, tenant := s.me.tenant, body := { off := off, bytes := data } }]) } }

/-- LCAST (R440). -/
def execLcast (p : PReg) (plane : Option (BitVec 5)) (s : State) : Outcome := settle s (.lcast p plane) (s.lcastOp p plane)

/-! ### LBRED (R441) -/

/-- The lane type of a reduction's type code. -/
def redType (c : BitVec 4) : Option LaneTy :=
  match c.toNat with
  | 3 => some (.int .i32) | 4 => some (.int .i64) | 7 => some (.fp .f32) | 8 => some (.fp .f64)
  | _ => none

/-- The contributions to a round, in ascending member order. -/
def Lanthorn.roundOf (l : Lanthorn) (t : BitVec 4) (id : BitVec 16) (n : Nat) : List Contribution :=
  sortBy (fun a b => a.member ≤ b.member) (l.contribs.filter fun c => c.tenant == t && c.id == id && c.round == n)

/-- Whether every member of the group has contributed to a round, those that have not joined yet among them (R441); one that has
been removed is a member no longer. -/
def Lanthorn.roundComplete (l : Lanthorn) (t : BitVec 4) (id : BitVec 16) (n : Nat) : Bool :=
  (upto l.members).all fun m => l.isGone m || (l.roundOf t id n).any fun c => c.member == m

/-- The lanes of a contribution read as a type. -/
def Contribution.asLanes (c : Contribution) (bits : Nat) : List Nat :=
  (upto (384 / bits)).map fun i => c.lanes.toNat / 2 ^ (bits * i) % 2 ^ bits

/-- One addition of a reduction. -/
def redAdd (ty : LaneTy) (a b : Nat) : Nat × Flags :=
  match ty with
  | .int _ => ((a + b) % 2 ^ laneBits ty, 0)
  | .fp f => addF (fpFmt f) .rne (unpackF (fpFmt f) a) (unpackF (fpFmt f) b)

/-- The sum of lists of lanes, in list order, with the exceptions raised. -/
def redSum (ty : LaneTy) : List Nat → Flags → List (List Nat) → List Nat × Flags
  | acc, f, [] => (acc, f)
  | acc, f, xs :: rest =>
    let rs := (acc.zip xs).map fun e => redAdd ty e.1 e.2
    redSum ty (rs.map (·.1)) (rs.foldl (fun f r => f ||| r.2) f) rest

/-- The type of a round: that of member 0's contribution; of a round without one the spec states no type. -/
def State.roundType (s : State) (cs : List Contribution) : Option LaneTy :=
  match cs with
  | [] => none
  | c :: _ => redType (if c.member = 0 then c.ty else (cs.getD (Config.pick s.nd % cs.length) c).ty)

/-- The 48 bytes that a round gives, with the exceptions raised (R441). -/
def State.roundResult (s : State) (cs : List Contribution) : List (BitVec 8) × Flags :=
  match s.roundType cs, cs with
  | some ty, c :: rest =>
    let n := laneBits ty
    let r := redSum ty (c.asLanes n) 0 (rest.map fun x => x.asLanes n)
    (toBytes 48 (packNat n r.1), r.2)
  | _, _ => ([], 0)

/-- Removes a round's contributions once its result has been taken. -/
def State.closeRound (s : State) (t : BitVec 4) (id : BitVec 16) (n : Nat) : State :=
  { s with lan := { s.lan with contribs := s.lan.contribs.filter fun c => !(c.tenant == t && c.id == id && c.round == n) } }

/-- Whether a reduction round has lost a member (R430). -/
def State.roundLost (s : State) (r : Reduction) : Bool :=
  match r.round with | some n => s.lan.lostRounds.contains (s.me.tenant, r.id, n) | none => false

/-- The end of an LBRED whose contribution has been sent: the round's result is written, or its loss reported (R441,
R430). -/
def State.takeRoundResult (s : State) (r : Reduction) (n : Nat) : Res := do
  let t := s.me.tenant
  trapIf (s.roundLost r) causeLanthorn (lanthornBadv 7 r.id.toNat)
  if !s.lan.roundComplete t r.id n then .error (.park s) else
  let ps ← s.access .write r.dst 48
  s.candleClass ps (addrBadv r.dst)
  let v := s.roundResult (s.lan.roundOf t r.id n)
  s.awaitPublish
  let s1 := s.storeNow ps v.1 { strong := true, acq := true, scope := .system }
  let s2 := (s1.closeRound t r.id n).acquired .system
  .ok ((s2.setMe { s2.me with lred := none }).orFlags v.2).advance

/-- Whether a contribution is that of the instruction that stands at the thread's PC and names a block (R441; DEDUCED, log 112). -/
def State.restarts (s : State) (p : PReg) (r : Reduction) : Bool :=
  r.pc == s.me.pc && r.block == ptrAddr (s.me.ptrs.get p)

/-- An LBRED whose park was ended after its hold has begun, and that restarts, takes its contribution up again (R441). -/
def State.resumeReduction (s : State) (p : PReg) : State :=
  let x := s.me
  match x.lred, x.lkept.find? (s.restarts p) with
  | none, some r => s.setMe { x with lred := some r, lkept := x.lkept.erase r }
  | _, _ => s

/-- The LBRED whose round has lost a member ends with the fault: nothing of it is kept (R430). -/
def State.dropLost (s : State) : State :=
  match s.me.lred with
  | some r => if s.roundLost r then s.setMe { s.me with lred := none } else s
  | none => s

/-- LBRED (R441): `DST` is translated before the contribution is sent, and again at the end (DEDUCED, log 50). -/
def State.lbredOp (s : State) (p : PReg) : Res :=
  match s.me.lred with
  | some r => match r.round with
    | some n => s.takeRoundResult r n
    | none => .error (.park s)
  | none => do
    let (a, ps) ← s.lanBlock p
    s.lanMember
    let (bs, s1) ← s.readBlock ps
    let ty : BitVec 4 := BitVec.ofNat 4 (bytesField bs 15 1)
    badBlock (bytesField bs 6 2 != 0 || bytesField bs 0 1 % 64 != 0 || (redType ty).isNone) a
    let dst : VA := BitVec.ofNat 48 (bytesField bs 0 6)
    let qs ← s1.access .write dst 48
    s1.candleClass qs (addrBadv dst)
    let id : BitVec 16 := BitVec.ofNat 16 (bytesField bs 8 2)
    s1.enqueue s1.lan.oq.length fun s =>
      (s.order (.reduce s.me.tenant id ty (BitVec.ofNat 384 (bytesField bs 16 48)))).setMe
        { s.me with lred := some { id := id, dst := dst, pc := s.me.pc, block := a } }

/-- LBRED (R441). -/
def execLbred (p : PReg) (s : State) : Outcome :=
  let s1 := s.resumeReduction p
  settle s1.dropLost (.lbred p) (s1.lbredOp p)

end Sys2Proof.Machine
end

