-- ==== Sys2Proof/Machine/Line.lean ====
section
/-! DEFINITION. WBACK, DISCARD and FENCE (R325, R336, R337). -/

namespace Sys2Proof.Machine
open Sys2Proof

/-! ### Lines (R336, R337) -/

/-- The checks of an instruction that names the line of Pn: handle, translation, held stores, the candle's class. -/
def State.lineAt (s : State) (p : PReg) (acc : Access) : Except Stop (List Part) := do
  s.notHandle p
  let a : VA := ptrAddr (s.me.ptrs.get p) &&& ~~~0x3F#48
  let ps ← s.access acc a 64
  s.notHeld
  s.candleClass ps (addrBadv a)
  .ok ps

/-- WBACK: a counted operation on cached memory, no effect elsewhere (R336, R337). -/
def State.wbackOp (s : State) (p : PReg) (scope : Option Scope) : Res := do
  let ps ← s.lineAt p .read
  let keys := partKeys ps
  if !keys.all keyIsCached then .ok s.advance else
  s.capacity s.me.stores 15
  s.awaitPublish
  .ok ((s.publishAll s.cur).accept
    { kind := .wback, slot := s.cur, src := keys, scope := scope.getD .system, via := viaOf s.space ps }).advance

/-- WBACK (R336, R337). -/
def execWback (p : PReg) (scope : Option Scope) (s : State) : Outcome := settle s (.wback p scope) (s.wbackOp p scope)

/-- Whether an accepted WBACK may be performed: it carries the values of the thread's earlier stores to its line, so the
outstanding ones go first (R337). -/
def State.writeBackReady (s : State) (c : Nat) (o : EngOp) : Bool :=
  !(s.slot o.slot).replayBefore o && (s.core c).ops.all fun p =>
    p.slot != o.slot || o.born ≤ p.born || p.written || p.unstored.all fun b => o.src.all fun k => lineOf k != lineOf b.1

/-- Performs a WBACK: every dirty copy of the line is written to the L2, or to its backing memory where the scope is wider than
a die (R337). -/
def State.writeBack (s : State) (keys : List Nat) (scope : Scope) : State :=
  match keys with
  | k :: _ => if scopeRank scope ≤ scopeRank .die then s.writeBackL1 (lineOf k) else s.cleanLine (lineOf k)
  | [] => s

/-- Removes a line from one L1 (R337). -/
def State.dropCopy (s : State) (cache line : Nat) : State :=
  match s.lineEntry line with
  | some r => s.setEntry { r with copies := r.copies.filter fun c => c.cache != cache }
  | none => s

/-- DISCARD of a line by a core's L1: dirty bytes that no other cache shares are dropped, and loads return what the next level
holds, unless the line has been written back before, which the spec leaves open; a shared line is written back first
(R337). -/
def State.discardLine (s : State) (core line : Nat) : State :=
  let c := s.cacheOf core
  match s.lineEntry line with
  | none => s
  | some r =>
    if !r.heldBy c then s
    else if r.copies.any (fun q => q.cache != c) || !r.isDirty || Config.pick (s.nd * 2 ^ 64 + line) % 2 == 1 then
      (s.writeBackL1 line).dropCopy c line
    else
      let s1 := (s.dropEntry line).forget fun k => lineOf k == line
      { s1 with mem := setBytes s1.mem r.below }

/-- DISCARD (R336, R337). -/
def execDiscard (p : PReg) (s : State) : Outcome :=
  settle s (.discard p) (do
    let ps ← s.lineAt p .write
    let keys := partKeys ps
    match keys with
    | k :: _ =>
      if !keys.all keyIsCached then .ok s.advance else
      s.awaitPublish
      let s1 := (s.publishAll s.cur).discardLine s.here (lineOf k)
      .ok (s1.setMe { s1.me with busy := true }).advance
    | [] => .ok s.advance)

/-! ### FENCE (R325) -/

/-- The thread's outstanding counted loads or stores that a FENCE of a scope does not wait for: those to peers below system scope
(R415). -/
def State.peersCounted (s : State) (scope : Scope) (kind : EngKind → Bool) : Nat :=
  if scope == .system then 0
  else (s.myCore.ops.filter fun o => o.slot == s.cur && o.seq.isNone && kind o.kind && o.toPeer).length

/-- FENCE: waits until loads and stores are performed at its scope; an ordering point for every later load,
and, whatever its scope, for what the thread fetches (R49, R325). -/
def execFence (scope : Scope) (s : State) : Outcome :=
  settle s (.fence scope) (
    if s.me.loads != s.peersCounted scope EngKind.isLoad || s.me.stores != s.peersCounted scope EngKind.isStore
        || !s.settled true scope then .error (.park s) else
    .ok ((s.orderPoint s.cur scope true).fetchPoint s.cur).advance)

end Sys2Proof.Machine
end

