-- ==== Sys2Proof/Machine/Matrix.lean ====
section
/-! DEFINITION. The matrix unit and the operand links (R199 to R222): command blocks, MLDB, MMA, MMROT, MROT, MZERO,
MDRAIN, MSTAT, and what the unit's operations do when they are performed. -/

namespace Sys2Proof.Machine
open Sys2Proof

/-! ### Command blocks (R203, R205) -/

/-- The four instructions that read a block. -/
inductive MatCmd where
  | mldb | mma | mmrot | mrot
  deriving DecidableEq, Repr

/-- Whether a command multiplies. -/
def MatCmd.multiplies : MatCmd → Bool
  | .mma | .mmrot => true
  | .mldb | .mrot => false
/-- Whether a command takes part in a round. -/
def MatCmd.rotates : MatCmd → Bool
  | .mmrot | .mrot => true
  | .mldb | .mma => false

/-- Each byte offset with the bits of it that must be zero (R203). -/
def zeroBits : List (Nat × Nat) :=
  [(0x06, 255), (0x07, 255), (0x0E, 0xF0), (0x0F, 255), (0x14, 255), (0x15, 255), (0x16, 255), (0x17, 255),
   (0x26, 255), (0x27, 255), (0x2E, 255), (0x2F, 255), (0x32, 0xF8), (0x33, 255), (0x34, 255), (0x35, 255),
   (0x36, 255), (0x37, 255)] ++ (span 0x38 8).map fun o => (o, 255)
/-- MASK[63:32], zero for E32 tiles. -/
def maskBits : List (Nat × Nat) := [(0x1C, 255), (0x1D, 255), (0x1E, 255), (0x1F, 255)]

/-- The lowest offset of a block byte with a set zero bit; `e32` adds MASK[63:32]. -/
def badZero (bs : List (BitVec 8)) (e32 : Bool) : Option Nat :=
  let bad (zs : List (Nat × Nat)) : Option Nat :=
    (zs.find? fun z => Nat.land (bs.getD z.1 0).toNat z.2 != 0).map (·.1)
  match bad (zeroBits.filter fun z => z.1 < 0x1C), if e32 then bad maskBits else none with
  | some o, _ => some o
  | none, some o => some o
  | none, none => bad (zeroBits.filter fun z => 0x1C < z.1)

/-- The first location of the issuing core's scratchpad. -/
def State.ownBase (s : State) : Nat := (Loc.spm s.here 0).key

/-- The rows or columns of an operand: base, stride, count (R204). -/
structure Panel where
  base   : VA
  stride : Nat
  count  : Nat
  deriving DecidableEq, Repr

/-- The trap of a panel byte that does not translate (R204): a matrix-command trap at it, which reports a second-stage fault to
the host (R351); a walk stopped by an open candle is the candle-class trap at the operand's address (R353). -/
def panelFault {α : Type} (base va : VA) (i : TrapInfo) : Except Stop α :=
  if i.code = causeCandleClass then trapWith causeCandleClass (addrBadv base)
  else .error (.trap { code := causeMatrix, badv := addrBadv va, ipa := i.ipa })

/-- The checks of one row of a panel from `va`, page by page: each page has no split geometry, each byte translates to the
own scratchpad through the local alias, and its page carries the tag (R204); `base` is the panel's address. The pages. -/
def State.panelBytes (s : State) (tag : BitVec 4) (base : VA) : Nat → VA → Nat → Except Stop (List Part)
  | 0, _, _ => .ok []
  | fuel + 1, va, n =>
    if n = 0 then .ok [] else
    let room := 4096 - va.toNat % 4096
    let k := if n ≤ room then n else room
    match if inAlias va then s.place s.space .read va else .error {code := causeMatrix, badv := 0} with
    | .error i => panelFault base va i
    | .ok p =>
      if isSplit p.fmt p.geo then trapWith causeMatrix (addrBadv base)
      else if p.fmt != tag then trapWith causeFormat (addrBadv (va &&& ~~~0xFFF#48))
      else do
        let rest ← State.panelBytes s tag base fuel (va + BitVec.ofNat 48 k) (n - k)
        .ok ({ va := va, n := k, at_ := p } :: rest)

/-- The checks of each row of a panel, in ascending order. -/
def State.panelRows (s : State) (tag : BitVec 4) (p : Panel) (len : Nat) : Nat → Nat → Except Stop (List Part)
  | 0, _ => .ok []
  | k + 1, m => do
    let ps ← s.panelBytes tag p.base (len / 4096 + 2) (p.base + BitVec.ofNat 48 (m * p.stride)) len
    let rest ← State.panelRows s tag p len k (m + 1)
    .ok (ps ++ rest)

/-- What the checks of an operand give: its format and geometry, those of the page that holds its base (log 86), and its
pages. -/
structure PanelAt where
  fmt   : BitVec 4
  geo   : BitVec 2
  parts : List Part

/-- Check 9 of R205 for an operand: the base page's tag, alignment, geometry, extents. An operand on a split page raises the
matrix-command trap of R204 wherever it lies, also at an address that is no block body, for which R82 has the
misaligned-access trap (DESIGN CHOICE, log 115). -/
def State.panelCheck (s : State) (p : Panel) (k : Nat) : Except Stop PanelAt := do
  match s.place s.space .read p.base with
  | .error i => panelFault p.base p.base i
  | .ok b =>
    trapIf (matInfo b.fmt).isNone causeFormat (addrBadv p.base)
    let e := if blockTag b.fmt then 1 else elemBytes b.fmt
    trapIf (p.base.toNat % e != 0 || p.stride % e != 0) causeMisaligned (addrBadv p.base)
    trapIf (isSplit b.fmt b.geo) causeMatrix (addrBadv p.base)
    let ps ← s.panelRows b.fmt p (panelLen b.fmt b.geo k) p.count 0
    .ok { fmt := b.fmt, geo := b.geo, parts := ps }

/-- The latch's tag as the issuing thread's launch reads it (R200). -/
def State.latchTag (s : State) : BitVec 4 := if s.myCore.latch.serial == s.me.serial then s.myCore.latch.tag else 0

/-- The tile that a captured MMA or MMROT was marked with (R163). -/
def State.capturedTile (s : State) : Option (BitVec 2) :=
  s.mySeq.bind fun q => q.tiles[((q.instrs.take q.i).filter fun e => (tilePtr e.1).isSome).length]?

/-- A command block that has passed checks 3 to 8 of R205: its address, parts, bytes, CTL, N, K and operands. -/
structure MatHead where
  addr : VA
  parts : List Part
  bs   : List (BitVec 8)
  ctl  : Nat
  n    : Nat
  k    : Nat
  a    : Panel
  b    : Panel
  deriving DecidableEq, Repr

/-- The tile that a block names. -/
def matTile (h : MatHead) : BitVec 2 := BitVec.ofNat 2 h.ctl
/-- The tile rows that a command names (R154). -/
def matRows (c : MatCmd) (t : BitVec 2) : List RowRef := if c.multiplies then (upto 64).map (rowOf t) else []
/-- The operand that a command reads: B for MLDB, else A. -/
def matPanel (c : MatCmd) (h : MatHead) : Panel := if c == .mldb then h.b else h.a

/-- Checks 3 to 8 of R205. Of an MLDB block with a set zero bit and an N that is neither 32 nor 64, both of check 6, the
zero bit is reported, wherever it lies (DESIGN CHOICE, log 115). The rules give no place to R163's check that a captured MMA
or MMROT still names the tile that was marked: it stands between checks 6 and 7 (DESIGN CHOICE, log 102). -/
def State.matHead (s : State) (c : MatCmd) (p : PReg) : Except Stop MatHead := do
  let parts ← s.blockAt p 64 64 .read
  let at0 := ptrAddr (s.ctx.ptrs.get p)
  trapIf (!s.ownSpm (partKeys parts)) causeMatrix (addrBadv at0)
  let (bs, _) ← s.readBlock parts
  let f (off n : Nat) : Nat := bytesField bs off n
  let ctl := f 0x0E 1
  let t : BitVec 2 := BitVec.ofNat 2 ctl
  let tile := s.myCore.tile t
  match badZero bs (c.multiplies && tile.alloc && tile.size == .e32) with
  | some o => trapWith causeMatrix (addrBadv (at0 + BitVec.ofNat 48 o))
  | none =>
    let n := f 0x2C 2
    trapIf (c == .mldb && n != 32 && n != 64) causeMatrix (addrBadv (at0 + 0x2C))
    if c.multiplies then
      trapIf (match s.capturedTile with | some u => u != t | none => false) causeMatrix (addrBadv (at0 + 0x0E))
      trapIf (!tile.alloc || tile.banks != 0xF) causeGated (tileBadv t)
      trapIf (!s.mayUse tile) causeOwner (tileBadv t)
    if (matRows c t).any s.rowPending || s.latchPending then .error (.park s) else
    if c == .mldb then s.capacity s.me.loads 15 else s.capacity s.me.tiles 15
    .ok { addr := at0, parts := parts, bs := bs, ctl := ctl, n := n, k := f 0x0C 2,
          a := { base := BitVec.ofNat 48 (f 0 8), stride := f 8 4, count := 64 },
          b := { base := BitVec.ofNat 48 (f 0x20 8), stride := f 0x28 4, count := n } }

/-- The rest of check 9 and checks 10 and 11 of R205. An MLDB whose N is not the column count of B's format raises the
matrix-command trap after the check of K, with BADV at N: R206 names the check, R205 neither its place nor its BADV (DESIGN
CHOICE, log 102). For an operand of a format and geometry, and the fields that the
accepted operation copies, with the locations of its operand. -/
def State.matTail (s : State) (c : MatCmd) (h : MatHead) (fmt : BitVec 4) (geo : BitVec 2) :
    Except Stop (MatBlock × List Nat) := do
  let f (off n : Nat) : Nat := bytesField h.bs off n
  let t := matTile h
  let tile := s.myCore.tile t
  let afwd := f 0x30 8
  trapIf (c.rotates && afwd + 64 * h.a.stride > s.spmSize s.here) causeMatrix (addrBadv (h.addr + 0x30))
  let info := (matInfo fmt).getD ⟨1, 0, .e32, 0⟩
  trapIf (c != .mldb && s.latchTag != fmt) causeFormat (addrBadv h.a.base)
  if c.multiplies then
    trapIf (tile.size != info.size) causeFormat (tileBadv t)
    trapIf (!bit h.ctl 2 && (matRows c t).any fun r => (s.row r).tag != 0 && (s.row r).tag != info.acc) causeFormat (tileBadv t)
  trapIf (h.k = 0 || h.k % info.step != 0 || h.k > info.kmax) causeMatrix (addrBadv (h.addr + 0x0C))
  trapIf (c == .mldb && h.n != matCols info.size) causeMatrix (addrBadv (h.addr + 0x2C))
  if c.multiplies then
    trapIf (h.k != s.myCore.latch.k) causeMatrix (addrBadv (h.addr + 0x0C))
    trapIf (s.myCore.latch.n != matCols info.size) causeMatrix (addrBadv h.addr)
  let blk : MatBlock :=
    { aoff := aliasOff h.a.base, astr := h.a.stride, k := h.k, tri := bit h.ctl 3, zero := bit h.ctl 2, tile := t,
      diag := signed 32 (f 0x10 4), mask := BitVec.ofNat 64 (f 0x18 8), boff := aliasOff h.b.base, bstr := h.b.stride,
      n := h.n, afwd := afwd, fmt := fmt, geo := geo }
  let q := matPanel c h
  .ok (blk, (upto q.count).flatMap fun m =>
    span (s.ownBase + (aliasOff q.base + m * q.stride) % 0x80000) (panelLen fmt geo h.k))

/-- A command that has passed the checks of R205. -/
structure MatChecked where
  head  : MatHead
  blk   : MatBlock
  keys  : List Nat
  parts : List Part

/-- Checks 3 to 11 of R205 and the fields that the accepted operation copies. -/
def State.matCheck (s : State) (c : MatCmd) (p : PReg) : Except Stop MatChecked := do
  let h ← s.matHead c p
  let q ← s.panelCheck (matPanel c h) h.k
  let (blk, keys) ← s.matTail c h q.fmt q.geo
  .ok { head := h, blk := blk, keys := keys, parts := q.parts }

/-- Locations of the own scratchpad with their addresses in the local alias. -/
def aliasOf (keys : List Nat) : List (VA × Nat) := keys.map fun k => (BitVec.ofNat 48 (0xFF8000000000 + spmOff k), k)

/-- The pages of some parts, by location number / 4096, with their classes (R315). -/
def pageClasses (ps : List Part) : List (Nat × PageClass) := (ps.map fun p => (p.at_.key / 4096, p.at_.cls)).eraseDups

/-! ### MLDB, MMA, MMROT, MROT, MZERO -/

/-- The round that a core's next accepted MMROT or MROT of the issuing thread's launch joins (R211). -/
def State.nextRound (s : State) : Nat := aget 0 s.myCore.rounds s.me.launch
/-- Counts an accepted MMROT or MROT. -/
def State.takeRound (s : State) : State :=
  let c := s.myCore
  s.setMyCore { c with rounds := aset 0 c.rounds s.me.launch (s.nextRound + 1) }

/-- Accepts a matrix command. Its reads are ordered as the classes of the block's page and of the operand's pages say: on a
page of class S they wait for the thread's earlier accesses, and what follows waits for them (R315, R322, R323). MMROT and
MROT are judged by the candles of the context that the instruction sees, none in a sequence (DEDUCED, log 82). -/
def State.matOp (s : State) (c : MatCmd) (kind : EngKind) (p : PReg) : Res := do
  trapIf (c.rotates && s.ctx.st.cd != 0) causeCandleState 0
  let m ← s.matCheck c p
  s.awaitAcquire (m.parts.any fun q => q.at_.cls != .unordered)
  let (_, s0) ← s.readBlock m.head.parts
  let o := orderOf (strongestClass m.parts) MD.zero
  let rows := if c.multiplies then (upto 64).map (rowOf m.blk.tile) else []
  let op : EngOp := { kind := kind, slot := s.cur, rows := rows, latch := true, fmt := m.blk.fmt, geo := m.blk.geo,
                      bytes := s.ahead (aliasOf m.keys), blk := m.blk, round := s.nextRound, strong := o.strong,
                      scope := o.scope, unord := strongestClass m.parts == .unordered, holds := o.acq, pages := pageClasses m.parts,
                      via := viaOf s.space m.parts }
  let s1 := if c.rotates then s0.takeRound else s0
  .ok (s1.accept op).advance

/-- MLDB (R206). -/
def execMldb (p : PReg) (s : State) : Outcome := settle s (.mldb p) (s.matOp .mldb .mldb p)
/-- MMA (R207). -/
def execMma (p : PReg) (s : State) : Outcome := settle s (.mma p) (s.matOp .mma .mma p)
/-- MMROT (R213). -/
def execMmrot (p : PReg) (s : State) : Outcome := settle s (.mmrot p) (s.matOp .mmrot .mmrot p)
/-- MROT (R214). -/
def execMrot (skew : Bool) (row : BitVec 6) (p : Option PReg) (s : State) : Outcome :=
  settle s (.mrot skew row p) (do
    trapIf (s.ctx.st.cd != 0) causeCandleState 0
    match p with
    | none => s.missingOpx
    | some p => s.matOp .mrot (if skew then .mrotSkew else .mrotStep) p)

/-- MZERO (R216). -/
def execMzero (d : RowRef) (n : Option (BitVec 6)) (s : State) : Outcome :=
  settle s (.mzero d n) (do
    let k := match n with | some x => x.toNat + 1 | none => 64 - rowNum d
    spanFits d k (if n.isSome then s.opx1Addr else s.baseAddr)
    let rows := spanRows d k
    s.rowsReady rows
    s.capacity s.me.tiles 15
    .ok (s.accept { kind := .mzero, slot := s.cur, rows := rows }).advance)

/-! ### MDRAIN (R217) -/

/-- The bytes of the rows from `r` stored one after another, each checked before any is stored. -/
def State.drainRows (s : State) (a : VA) (step : Int) (fmt : BitVec 4) (geo : BitVec 2) :
    Nat → List RowRef → Except Stop (List RowAccess × Bytes)
  | _, [] => .ok ([], [])
  | k, r :: rs => do
    let x ← s.rowStore r (rowAddr a fmt geo (k * step))
    let rest ← State.drainRows s a step fmt geo (k + 1) rs
    .ok (x :: rest.1, zipBytes (x.all.map (·.2)) (storedRow x.fmt x.geo (s.row r)) ++ rest.2)

/-- The classes of the pages of an MDRAIN's rows; an ordering is each row's own, as VST would store it (R217, R315). -/
def rowClasses (xs : List RowAccess) : List PageClass := xs.map fun x => partsClass x.parts

/-- An MDRAIN as it stands before its row `k`: what its rows from there on are ordered as. -/
def EngOp.drainFrom (o : EngOp) (k : Nat) : EngOp :=
  let cs := o.rowCls.drop k
  { o with kdone := k, written := k ≥ o.rowCls.length, unord := cs.all (· == .unordered), acq := cs.contains .strong }

/-- MDRAIN (R217). Rows follow each other at the row size of the page of the first. Its candle-class trap while stores are held
comes after the checks of every row: R131 gives it no place among them (DESIGN CHOICE, log 119). -/
def State.mdrainOp (s : State) (d : RowRef) (p : Option PReg) : Res := do
  let p ← (match p with | some p => .ok p | none => s.missingOpx)
  s.notHandle p
  let rows := spanRows d (64 - rowNum d)
  s.rowsReady rows
  s.capacity s.me.stores 15
  let v := s.ctx.ptrs.get p
  let a := ptrAddr v
  let first ← s.access .write a 1
  let (fmt, geo) := match first with | q :: _ => (q.at_.fmt, q.at_.geo) | [] => (0, 0)
  let (xs, bytes) ← s.drainRows a (ptrStep v) fmt geo 0 rows
  s.notHeld
  s.awaitPublish
  let ps := xs.flatMap (·.parts)
  let keys := bytes.map (·.1)
  let op : EngOp := { kind := .mdrain, slot := s.cur, rows := rows, fmt := fmt, geo := geo, bytes := bytes, va := a,
                      step := ptrStep v, lens := xs.map (·.all.length), rowCls := rowClasses xs, via := viaOf s.space ps }
  let s1 := (((s.publishAll s.cur).walksRead ps).remoteMessages s.me.launch s.here keys).accept (op.drainFrom 0)
  .ok (s1.setPtr p (withAddr v (rowAddr a fmt geo (ptrStep v * (64 - rowNum d : Nat))))).advance

/-- MDRAIN (R217). -/
def execMdrain (d : RowRef) (p : Option PReg) (s : State) : Outcome := settle s (.mdrain d p) (s.mdrainOp d p)

/-! ### MSTAT (R218) -/

/-- The code of an element size. -/
def sizeCode : ElemSize → BitVec 2
  | .e16 => 0 | .e32 => 1 | .e64 => 2

/-- MSTAT (R218). -/
def execMstat (t : BitVec 2) (clr : Bool) (s : State) : Outcome :=
  settle s (.mstat t clr) (do
    let r := rowOf t 0
    s.rowsUngated [r]
    s.rowsOwned [r]
    let k := s.myCore.tile t
    let busy := s.myCore.ops.any fun o => o.rows.any fun r => rowTile r == t
    let v : W64 := k.ks ++ 0#3 ++ BitVec.ofNat 9 s.myCore.latch.k ++ s.latchTag ++ k.banks ++ sizeCode k.size ++ 0#4
      ++ flagBit busy ++ k.flags
    let s1 := if clr then s.setMyCore (s.myCore.setTile t { k with ks := 0, flags := 0 }) else s
    .ok (s1.setA v).advance)

/-- Zeroes the rows of an MZERO, tag 0 (R216). -/
def State.zeroRows (s : State) (c : Nat) (o : EngOp) : State :=
  s.setCore c (o.rows.foldl (fun k r => k.setHeldRow r {}) (s.core c))

/-! ### The unit's operations (R201, R211, R212) -/

/-- Whether an operation belongs to a round. -/
def EngOp.inRound (o : EngOp) : Bool :=
  match o.kind with
  | .mmrot | .mrotStep | .mrotSkew => true
  | _ => false

/-- A load's or tile operation's thread goes on: its counter falls and the operation leaves its core; one that acquires was
held, and later accesses are ordered after it (R322). -/
def State.retireOp (s : State) (c i : Nat) (o : EngOp) : State :=
  let k := s.core c
  let s1 := s.setCore c { k with ops := ldel k.ops i }
  let s1 := if o.holds then s1.orderPoint o.slot o.scope false else s1
  let x := s1.slot o.slot
  if o.seq.isSome then s1 else
  let x := { x with busy := x.busy && !o.holds }
  if o.kind.isLoad then s1.setSlot o.slot { x with loads := x.loads - 1 }
  else s1.setSlot o.slot { x with tiles := x.tiles - 1 }

/-- The cores of the sub-torus of a core (R210), row by row. -/
def torusOf (c w h : Nat) : List Nat :=
  let k := clusterOf c
  let x0 := cidx c % 16 / w * w
  let y0 := cidx c / 16 / h * h
  (upto h).flatMap fun ry => (upto w).map fun rx => 192 * k + 16 * (y0 + ry) + (x0 + rx)

/-- Core (rx, ry) of the sub-torus of a core. -/
def torusAt (c w h rx ry : Nat) : Nat :=
  192 * clusterOf c + 16 * (cidx c / 16 / h * h + ry % h) + (cidx c % 16 / w * w + rx % w)

/-- Where a core receives its A panel and its latch from (R213, R214). -/
def roundSources (c w h : Nat) (skew : Bool) : Nat × Nat :=
  let rx := cidx c % 16 % w
  let ry := cidx c / 16 % h
  if skew then (torusAt c w h (rx + ry) ry, torusAt c w h rx (ry + rx))
  else (torusAt c w h (rx + 1) ry, torusAt c w h rx (ry + 1))

/-- The round's operation at the head of a core's unit, its multiply done, with its transfers as far as `written` says
(R211). -/
def State.roundHead (s : State) (l i : Nat) (written : Bool) (c : Nat) : Option (Nat × EngOp) :=
  match (s.core c).unitHead with
  | some (p, o) =>
    if o.inRound && o.round == i && (s.slot o.slot).launch == l && (o.mulDone || o.kind != .mmrot) && o.written == written
      && s.storeReady o then some (p, o) else none
  | none => none

/-- The operations of a round: core, place and operation. -/
abbrev RoundOps := List (Nat × Nat × EngOp)

/-- The operations of the round that a core's unit stands in, when every core of the sub-torus has come as far. -/
def State.roundOps (s : State) (c : Nat) (o : EngOp) (written : Bool) : Option RoundOps :=
  let l := (s.slot o.slot).launch
  let f := (s.launch l).f
  let heads := (torusOf c f.subW f.subH).map fun d => (d, s.roundHead l o.round written d)
  let ops := heads.filterMap fun e => e.2.map fun p => (e.1, p)
  if ops.length == heads.length then some ops else none

/-- Row `m` of the A panel that a core sends: from its A operand latch, where the multiply has left it, else from memory
(R199, R212, R220). -/
def State.sentRow (s : State) (c : Nat) (o : EngOp) (m : Nat) : List (BitVec 8) :=
  let keys := aKeys c o m
  match (s.core c).astage with
  | [] => s.engineRead o keys
  | st => keys.map fun k => (bytesAt st k).getD (s.content k)

/-- The bytes that a core receives at AFWD in a round, in ascending rows; a row's bytes past the scratchpad are dropped. -/
def State.roundWrite (s : State) (sent : Nat → List (BitVec 8)) (c : Nat) (o f : EngOp) : Bytes :=
  (upto 64).flatMap fun m =>
    ((span (o.blk.afwd + m * o.blk.astr) (panelLen f.fmt f.geo f.blk.k)).zip (sent m)).filterMap
      fun e => if e.1 < s.spmSize c then some ((Loc.spm c e.1).key, e.2) else none

/-- The operation of a round on a core. -/
def opOn (ops : RoundOps) (c : Nat) : Option EngOp := (ops.find? fun e => e.1 == c).map fun e => e.2.2

/-- The operation whose panel a core sends, the panel with the tag that its A operand latch carries (R86, R199). -/
def State.sending (s : State) (c : Nat) (f : EngOp) : EngOp :=
  if (s.core c).astage.isEmpty then f else { f with fmt := (s.core c).atag }

/-- What every core of a round receives at AFWD, with the operation that sends it. -/
def State.roundWrites (s : State) (w h : Nat) (ops : RoundOps) (sent : Nat → EngOp → Nat → List (BitVec 8)) :
    List (EngOp × Bytes) :=
  ops.filterMap fun e =>
    let src := (roundSources e.1 w h (e.2.2.kind == .mrotSkew)).1
    (opOn ops src).map fun f => (f, s.roundWrite (sent src f) e.1 e.2.2 (s.sending src f))

/-- The author of a round's transfer: until the round completes each agent observes the old or the new value of each word
(R220), and with respect to the writer's core each word is performed in one instant (R320). -/
def EngOp.transferAuthor (f : EngOp) (launch : Nat) : Author :=
  { writer := some f.slot, agent := f.slot, upto := .thread, done := false, kind := .panel, born := f.born,
    launch := some launch, reach := some .core }

/-- Step 2 of a round: every core's A panel is written at its receiver's AFWD (R211, R212). A panel that the round itself
writes over reads, word by word, as old or new. -/
def State.sendRound (s : State) (w h : Nat) (ops : RoundOps) : State :=
  let plain := s.roundWrites w h ops s.sentRow
  let flat := plain.flatMap (·.2)
  let torn (c : Nat) (o : EngOp) (m : Nat) : List (BitVec 8) :=
    ((aKeys c o m).zip (s.sentRow c o m)).map fun e =>
      match bytesAt flat.reverse e.1 with
      | some v => if !o.mulDone && Config.pick (s.nd * 2 ^ 64 + e.1 / 8) % 2 == 1 then v else e.2
      | none => e.2
  let reads := ops.flatMap fun e => (upto 64).flatMap fun m => aKeys e.1 e.2.2 m
  let writes := if flat.any (fun b => reads.contains b.1) then s.roundWrites w h ops torn else plain
  let s1 := writes.foldl (fun s e => s.write (e.1.transferAuthor (s.slot e.1.slot).launch) e.2) s
  ops.foldl (fun s e => let k := s.core e.1
    s.setCore e.1 { k with ops := lset k.ops e.2.1 { e.2.2 with written := true }, astage := [], atag := 0 }) s1

/-- Step 3 of a round: every core has received its panel, which every agent then observes; the latches pass on, and the
round's operations complete (R211 to R214, R220). -/
def State.receiveRound (s : State) (w h : Nat) (ops : RoundOps) : State :=
  let sentBy (v : WriteRec) : Bool := v.kind == .panel && ops.any fun e => v.writer == some e.2.2.slot && v.born == e.2.2.born
  let latches := ops.map fun e =>
    (e.1, { (s.core (roundSources e.1 w h (e.2.2.kind == .mrotSkew)).2).latch with serial := (s.core e.1).latch.serial })
  let s1 : State := { s with hist := s.hist.map fun v => if sentBy v then { v with done := true, firm := true } else v }
  let s2 := latches.foldl (fun s m => s.setCore m.1 { s.core m.1 with latch := m.2 }) s1
  ops.foldl (fun s e => s.retireOp e.1 e.2.1 e.2.2) s2

/-- The transfers of the round that a core's unit stands in: they are sent, and then received; `finish` sends none that
have not begun. -/
def State.transferRound (s : State) (c : Nat) (finish : Bool) : State :=
  match (s.core c).unitHead with
  | none => s
  | some (_, o) =>
    if !o.inRound || (finish && !o.written) then s else
    let f := (s.launch (s.slot o.slot).launch).f
    match s.roundOps c o o.written with
    | none => s
    | some ops => if o.written then s.receiveRound f.subW f.subH ops else s.sendRound f.subW f.subH ops

end Sys2Proof.Machine
end

