-- ==== Sys2Proof/Machine/Pointer.lean ====
section
/-! DEFINITION. The pointer operations of page 0 major 10 (R118, R119, R265). -/

namespace Sys2Proof.Machine
open Sys2Proof

/-- A pointer operation that changes Pn: a handle traps (R119). -/
def State.ptrOp (s : State) (p : PReg) (f : W64 → W64) : Res := do
  s.notHandle p
  .ok (s.setPtr p (f (s.me.ptrs.get p))).advance

/-- PSET (R118). -/
def execPset (p : PReg) (imm : W64) (s : State) : Outcome :=
  settle s (.pset p imm) (s.ptrOp p fun _ => (imm.extractLsb' 0 48).zeroExtend 64)
/-- PSTEP (R118). -/
def execPstep (p : PReg) (imm : W64) (s : State) : Outcome :=
  settle s (.pstep p imm) (s.ptrOp p fun v => imm.extractLsb' 0 16 ++ v.extractLsb' 0 48)
/-- PADDI (R118). -/
def execPaddi (p : PReg) (imm : W64) (s : State) : Outcome :=
  settle s (.paddi p imm) (s.ptrOp p fun v => withAddr v (ptrAddr v + imm.truncate 48))
/-- PADDA (R118). -/
def execPadda (p : PReg) (k : BitVec 5) (s : State) : Outcome :=
  settle s (.padda p k) (s.ptrOp p fun v => withAddr v (ptrAddr v + (s.me.a <<< k.toNat).truncate 48))

/-- MOVAP: a handle in A is installed, any other value is copied (R118, R119, R265). -/
def State.movapOp (s : State) (p : PReg) : Res := do
  s.notHandle p
  let a := s.me.a
  let install (s : State) : State :=
    let x := s.me
    (s.setMe { x with ptrs := x.ptrs.set p a, st := x.st.setHandle p true, a := 0 }).advance
  if !isHandle a then .ok (s.setPtr p a).advance
  else if !isCompose a then .ok (install s)
  else
    s.consult a
    let e := s.formeOf a
    if e.state == .composing && e.gen == handleGen a && e.holder == some (s.threadId s.cur) && e.ina then
      .ok (install ((s.setFormeOf a { e with ina := false }).formeAccess a))
    else .ok ((s.setPtr p a).formeAccess a).advance

/-- MOVPA: a handle moves to A and leaves its register; any other value is copied (R118, R119, R265). -/
def State.movpaOp (s : State) (p : PReg) : Res := do
  let x := s.me
  let v := x.ptrs.get p
  if !x.st.handle p then .ok (s.setA v).advance
  else
    let move (s : State) : State :=
      let x := s.me
      (s.setMe { x with a := v, ptrs := x.ptrs.set p 0, st := x.st.setHandle p false }).advance
    if !isCompose v then .ok (move s)
    else
      s.consult v
      let e := s.formeOf v
      let s1 := if e.state == .composing && e.gen == handleGen v then s.setFormeOf v { e with ina := true } else s
      .ok (move (s1.formeAccess v))

/-- MOVAP (R118, R265). -/
def execMovap (p : PReg) (s : State) : Outcome := settle s (.movap p) (s.movapOp p)
/-- MOVPA (R118, R265). -/
def execMovpa (p : PReg) (s : State) : Outcome := settle s (.movpa p) (s.movpaOp p)

/-- PCMP: flags from the 48-bit difference of the addresses (R103, R118, R119). -/
def execPcmp (p q : PReg) (s : State) : Outcome :=
  settle s (.pcmp p q) (do
    s.notHandle p
    s.notHandle q
    let a := (ptrAddr (s.me.ptrs.get p)).toNat
    let b := (ptrAddr (s.me.ptrs.get q)).toNat
    .ok (s.intFlags 48 (subResult 48 a b)).advance)

end Sys2Proof.Machine
end

