-- ==== Sys2Proof/Machine/Scalar.lean ====
section
/-! DEFINITION. The integer accumulator–memory instructions, page 0 majors 0 and 1 (R99 to R107, R159). -/

namespace Sys2Proof.Machine
open Sys2Proof

/-- An integer instruction that reads its operand (R104): `zero` makes a zero divisor trap (R106); `write` is false for
CMP, which writes flags alone. -/
def State.intOp (s : State) (w : Width) (o : MemOp) (md : MD) (zero write : Bool)
    (f : Nat → Nat → Nat → IntResult) : Res := do
  let p ← s.readOperand o w.bytes md
  let (m, s1) ← s.loadOperand p md
  trapIf (zero && m == 0) causeDivide (addrBadv p.ea)
  let r := f w.bits s.ctx.a.toNat m
  let s2 := if write then s1.intResult w.bits md.sat r else s1.intFlags w.bits r
  .ok (s2.step1 o w.bytes).advance

/-- LD: Mem(EA(o)) into A; a synchronised one waits for the full bit and takes it (R104, R159). -/
def State.loadOp (s : State) (w : Width) (o : MemOp) (md : MD) : Res := do
  let p ← s.readOperand o w.bytes md
  let ord := p.order md
  s.awaitRelease ord.rel ord.scope
  match md.sync, partKeys p.parts with
  | true, k :: _ =>
    let s0 ← s.awaitBit k true
    let v := ofBytes (s0.loadBytes p.parts { ord with strong := true })
    let s1 := (s0.loaded p.parts ord).setFull k false
    .ok ((s1.intResult w.bits false (plainResult v)).step1 o w.bytes).advance
  | _, _ =>
    let v := ofBytes (s.loadBytes p.parts ord)
    .ok (((s.loaded p.parts ord).intResult w.bits false (plainResult v)).step1 o w.bytes).advance

/-- ST: A into Mem(EA(o)): held inside a candle, into the replay queue on a second-stage fault; a synchronised one
waits for the full bit to clear and sets it, data and bit for every agent at once (R104, R129, R159, R326). -/
def State.storeOp (s : State) (w : Width) (o : MemOp) (md : MD) : Res := do
  let a := s.ea o w.bytes
  let bs := toBytes w.bytes s.ctx.a.toNat
  match ← s.storeOperand o.p a w.bytes md with
  | .replay t c =>
    let s1 := match t with | some t => s.stage2Event s.cur t true | none => s
    .ok ((s1.enqueueReplay a bs c).step1 o w.bytes).advance
  | .parts ps =>
    let ord := orderOf (partsClass ps) md
    s.awaitRelease (ord.rel && !s.ctx.holding) ord.scope
    if s.ctx.holding then .ok () else s.awaitPublish
    match md.sync, partKeys ps with
    | true, k :: _ =>
      let s0 ← s.awaitBit k false
      let s1 := (s0.storeNow ps bs { ord with strong := true, scope := .system }).setFull k true
      .ok ((if ord.acq then s1.acquired ord.scope else s1).step1 o w.bytes).advance
    | _, _ =>
      let s1 := s.store ps bs ord
      .ok ((if ord.acq && !s.ctx.holding then s1.acquired ord.scope else s1).step1 o w.bytes).advance

/-- LD (R104, R159). -/
def execLd (w : Width) (o : MemOp) (md : MD) (s : State) : Outcome := settle s (.ld w o md) (s.loadOp w o md)
/-- ST (R104, R159). -/
def execSt (w : Width) (o : MemOp) (md : MD) (s : State) : Outcome := settle s (.st w o md) (s.storeOp w o md)
/-- ADD (R104). -/
def execAdd (w : Width) (o : MemOp) (md : MD) (s : State) : Outcome :=
  settle s (.add w o md) (s.intOp w o md false true addResult)
/-- SUB (R104). -/
def execSub (w : Width) (o : MemOp) (md : MD) (s : State) : Outcome :=
  settle s (.sub w o md) (s.intOp w o md false true subResult)
/-- RSUB (R104). -/
def execRsub (w : Width) (o : MemOp) (md : MD) (s : State) : Outcome :=
  settle s (.rsub w o md) (s.intOp w o md false true rsubResult)
/-- AND (R104). -/
def execAnd (w : Width) (o : MemOp) (md : MD) (s : State) : Outcome :=
  settle s (.and w o md) (s.intOp w o md false true fun _ a m => plainResult (a &&& m))
/-- OR (R104). -/
def execOr (w : Width) (o : MemOp) (md : MD) (s : State) : Outcome :=
  settle s (.or w o md) (s.intOp w o md false true fun _ a m => plainResult (a ||| m))
/-- XOR (R104). -/
def execXor (w : Width) (o : MemOp) (md : MD) (s : State) : Outcome :=
  settle s (.xor w o md) (s.intOp w o md false true fun _ a m => plainResult (a ^^^ m))
/-- MIN (R104). -/
def execMin (w : Width) (o : MemOp) (md : MD) (s : State) : Outcome :=
  settle s (.min w o md) (s.intOp w o md false true fun n a m => plainResult (min (signed n a) (signed n m)))
/-- MAX (R104). -/
def execMax (w : Width) (o : MemOp) (md : MD) (s : State) : Outcome :=
  settle s (.max w o md) (s.intOp w o md false true fun n a m => plainResult (max (signed n a) (signed n m)))
/-- MINU (R104). -/
def execMinu (w : Width) (o : MemOp) (md : MD) (s : State) : Outcome :=
  settle s (.minu w o md) (s.intOp w o md false true fun n a m => plainResult (min (a % 2 ^ n) (m % 2 ^ n) : Nat))
/-- MAXU (R104). -/
def execMaxu (w : Width) (o : MemOp) (md : MD) (s : State) : Outcome :=
  settle s (.maxu w o md) (s.intOp w o md false true fun n a m => plainResult (max (a % 2 ^ n) (m % 2 ^ n) : Nat))
/-- CMP: flags as SUB, A unwritten (R104). -/
def execCmp (w : Width) (o : MemOp) (md : MD) (s : State) : Outcome :=
  settle s (.cmp w o md) (s.intOp w o md false false subResult)
/-- MUL (R104). -/
def execMul (w : Width) (o : MemOp) (md : MD) (s : State) : Outcome :=
  settle s (.mul w o md) (s.intOp w o md false true mulResult)
/-- MULH (R104). -/
def execMulh (w : Width) (o : MemOp) (md : MD) (s : State) : Outcome :=
  settle s (.mulh w o md) (s.intOp w o md false true fun n a m => plainResult (signed n a * signed n m / 2 ^ n))
/-- MULHU (R104). -/
def execMulhu (w : Width) (o : MemOp) (md : MD) (s : State) : Outcome :=
  settle s (.mulhu w o md) (s.intOp w o md false true fun n a m => plainResult (a % 2 ^ n * (m % 2 ^ n) / 2 ^ n : Nat))
/-- DIV (R104 to R106). -/
def execDiv (w : Width) (o : MemOp) (md : MD) (s : State) : Outcome :=
  settle s (.div w o md) (s.intOp w o md true true divResult)
/-- DIVU (R104, R106). -/
def execDivu (w : Width) (o : MemOp) (md : MD) (s : State) : Outcome :=
  settle s (.divu w o md) (s.intOp w o md true true divuResult)
/-- REM (R104 to R106). -/
def execRem (w : Width) (o : MemOp) (md : MD) (s : State) : Outcome :=
  settle s (.rem w o md) (s.intOp w o md true true remResult)

end Sys2Proof.Machine
end

