-- ==== Sys2Proof/Machine/System.lean ====
section
/-! DEFINITION. TRAP, RTT, MFS, MTS, TLBI and GOHOME (R225, R232 to R235, R307, R355). -/

namespace Sys2Proof.Machine
open Sys2Proof

/-- TRAP (R232). -/
def execTrap (imm : W64) (s : State) : Outcome := settle s (.trap imm) (trapWith causeSoftware imm)

/-- RTT (R233). -/
def execRtt (s : State) : Outcome :=
  settle s .rtt (do
    let x := s.me
    trapIf (x.st.pl != 1) causePrivilege 0
    trapIf (x.st.tl == 0) causeTrapState 0
    trapIf ((x.bank x.st.tl).cause.code == causeGutter) causeTrapState 0
    trapIf (x.frames.any fun f => f.tlf == x.st.tl) causeCandleState 0
    .ok s.returnFrom)

/-! ### MFS and MTS (R225, R234) -/

/-- The value of a register by its code; none for a reserved code. -/
def State.sysReg (s : State) (r : Nat) : Option W64 :=
  let x := s.me
  match r with
  | 10 => some x.st.pack
  | 11 => some (x.lk.zeroExtend 64)
  | 12 => some x.xi.pack
  | 13 => some (x.savp.zeroExtend 64)
  | 14 => some (tidWord s.cur x)
  | 15 => some (ctagWord x)
  | 16 => some (x.tvb.zeroExtend 64)
  | 17 => some (x.bank1.epc.zeroExtend 64)
  | 18 => some x.bank1.cause.pack
  | 19 => some x.bank1.badv
  | 20 => some (x.bank2.epc.zeroExtend 64)
  | 21 => some x.bank2.cause.pack
  | 22 => some x.bank2.badv
  | 23 => some (x.tbase.zeroExtend 64)
  | 24 => some (x.rcbp.zeroExtend 64)
  | 25 => some (BitVec.ofNat 64 ((s.launch x.launch).oilc / 1000))
  | _ => none

/-- Whether a user may read a register (R225). -/
def userReads (r : Nat) : Bool := 10 ≤ r && r ≤ 15
/-- Whether a register is written by MTS, and whether a user may write it (R225). -/
def regWritable (r : Nat) : Bool := (10 ≤ r && r ≤ 13) || (16 ≤ r && r ≤ 22)
/-- Whether a user may write a register (R225). -/
def userWrites (r : Nat) : Bool := 10 ≤ r && r ≤ 12

/-- MFS (R234). -/
def execMfs (r : BitVec 6) (s : State) : Outcome :=
  settle s (.mfs r) (do
    match s.sysReg r.toNat with
    | none => trapWith causeReserved (addrBadv s.baseAddr)
    | some v =>
      trapIf (!userReads r.toNat && s.me.st.pl == 0) causePrivilege 0
      .ok (s.setA v).advance)

/-- What an MTS to ST writes at a privilege (R23). -/
def Status.written (st : Status) (v : W64) : Status :=
  let o := Status.unpack v
  { st with te := o.te, rm := o.rm, fl := o.fl, n := o.n, z := o.z, c := o.c, v := o.v,
            pl := if st.pl == 0 then st.pl else o.pl }

/-- Whether MTS offers an invalid value (R23, R227). -/
def badOffer (r : Nat) (st : Status) (v : W64) : Bool :=
  match r with
  | 10 => (Status.unpack v).rm.toNat ≥ 5 || (st.pl != 0 && (Status.unpack v).pl.toNat ≥ 2)
  | 18 | 21 => (Cause.unpack v).ppl.toNat ≥ 2
  | _ => false

/-- The slot with a register written from A (R20, R225, R227). -/
def Slot.putReg (x : Slot) (r : Nat) (v : W64) : Slot :=
  let a : VA := v.truncate 48
  let ppl (b : Bank) : Bank := { b with cause := { b.cause with ppl := (Cause.unpack v).ppl } }
  match r with
  | 10 => { x with st := x.st.written v }
  | 11 => { x with lk := a }
  | 12 => { x with xi := Index.unpack v }
  | 13 => { x with savp := a &&& ~~~0x7F#48 }
  | 16 => { x with tvb := a &&& ~~~0x3F#48 }
  | 17 => { x with bank1 := { x.bank1 with epc := evenAddr a } }
  | 18 => { x with bank1 := ppl x.bank1 }
  | 19 => { x with bank1 := { x.bank1 with badv := v } }
  | 20 => { x with bank2 := { x.bank2 with epc := evenAddr a } }
  | 21 => { x with bank2 := ppl x.bank2 }
  | 22 => { x with bank2 := { x.bank2 with badv := v } }
  | _ => x

/-- MTS (R234). -/
def execMts (r : BitVec 6) (s : State) : Outcome :=
  settle s (.mts r) (do
    trapIf (!regWritable r.toNat) causeReserved (addrBadv s.baseAddr)
    trapIf (!userWrites r.toNat && s.me.st.pl == 0) causePrivilege 0
    trapIf (badOffer r.toNat s.me.st s.me.a) causeReserved (addrBadv s.baseAddr)
    .ok (s.setMe (s.me.putReg r.toNat s.me.a)).advance)

/-! ### TLBI (R235, R354, R355) -/

/-- The checks of R235. -/
def State.tlbiAllowed (s : State) : Except Stop Unit := do
  trapIf (s.me.st.pl == 0) causePrivilege 0
  trapIf (s.me.st.cd != 0) causeCandleState 0

/-- The issuing thread's invalidation begins and holds the thread until it completes (R354). -/
def State.invalidate (s : State) (page : Option (Nat × Nat)) : State :=
  let x := s.me
  let c : Cover := { stage2 := false, die := dieOf s.here, tenant := x.tenant, root := x.tbase, page := page }
  let s1 : State := { s with invals := s.invals ++ [{ cover := c, slot := some s.cur, id := s.invNext }],
                             invNext := s.invNext + 1 }
  s1.setMe { x with busy := true }

/-- The pages of the largest mapping that holds an address, now or in what a cache may still hold: the whole mapping
is invalidated (R235). -/
def State.mappingPages (s : State) (va : VA) : Nat × Nat :=
  s.largestMapping false s.space va (va.toNat / 4096) fun rd => s.walk1 rd s.me.tenant va 4 0 s.me.tbase

/-- TLBI page (R235). -/
def execTlbiPage (s : State) : Outcome :=
  settle s .tlbiPage (do
    s.tlbiAllowed
    .ok (s.invalidate (some (s.mappingPages (s.me.a.truncate 48)))).advance)
/-- TLBI space (R355). -/
def execTlbiSpace (s : State) : Outcome :=
  settle s .tlbiSpace (do
    s.tlbiAllowed
    .ok (s.invalidate none).advance)

/-! ### GOHOME (R307) -/

/-- Whether the slot belongs to a barrier tree's members. -/
def State.inTree (s : State) (t : Nat) : Bool :=
  (s.cluster (clusterOf (coreOf t))).trees.any fun b => b.2.members.contains (t % 3072)
/-- Whether the slot owns a private tile. -/
def State.ownsTile (s : State) (t : Nat) : Bool :=
  (s.core (coreOf t)).tiles.any fun k => k.2.alloc && k.2.owner == .slot (BitVec.ofNat 4 t)

/-- Whether a running slice configures a slot: its thread runs, has yielded in the slice, or is still to be restored (R307). -/
def State.configured (s : State) (t : Nat) : Bool :=
  match (s.slot t).mode with
  | .running | .yielded | .restoring => true
  | .gated | .suspended => false

/-- Whether a core has a slot for one more migrating thread (R307). -/
def State.roomOn (s : State) (c : Nat) : Bool :=
  ((upto 16).filter fun i => !s.configured (16 * c + i) && !(s.slot (16 * c + i)).stage).length > (s.migrants.filter fun m => m.core == c).length

/-- Whether a core runs a slice of a launch: a thread of it runs there or has yielded in its slice. -/
def State.runsOn (s : State) (l c : Nat) : Bool :=
  ((upto 16).map (16 * c + ·)).any fun t => let x := s.slot t
    x.launch == l && (x.mode == .running || x.mode == .yielded)

/-- Whether a core runs a slice of the thread's launch, or of one of its tenant with the same migration group (R307). -/
def State.welcomes (s : State) (c : Nat) : Bool :=
  let me := s.launch s.me.launch
  s.launches.any fun e => s.runsOn e.1 c &&
    (e.1 == s.me.launch || (e.2.f.ten == me.f.ten && e.2.f.mgrp == me.f.mgrp && me.f.mgrp != 0))

/-- A thread is named by another number in the history of writes; what has been performed with respect to it remains so. -/
def State.renameWriter (s : State) (a b : Nat) : State :=
  match s.hist with
  | [] => s
  | _ =>
    let f (t : Nat) : Nat := if t == a then b else t
    { s with hist := s.hist.map fun w =>
        { w with writer := w.writer.map f, seenAcquire := w.seenAcquire.map f, seenFence := w.seenFence.map f,
                 seenFetch := w.seenFetch.map f,
                 seenBy := if w.performedAt a then b :: w.seenBy.filter (· != a) else w.seenBy } }

/-- The context leaves for another core with its frames, and its slot is gated; the trap banks stay with the slot (R35, R223,
R307). Its published stores have been performed before it goes. -/
def State.depart (s : State) (c : Nat) : State :=
  let s0 := (s.publishAll s.cur).raisePublished (some s.cur) s.cur .system
  let x := s0.me
  let id := 2 ^ 16 + s.nd
  let s1 := (s0.msgSent x.launch s.here).renameWriter s.cur id
  let s2 : State := { s1 with migrants := s1.migrants ++ [{ ctx := { x with bank1 := {}, bank2 := {} }, core := c, id := id }] }
  s2.setMe x.gone

/-- GOHOME (R307). -/
def State.gohomeOp (s : State) : Res := do
  let x := s.me
  trapIf (x.st.tl != 0 || s.inTree s.cur || s.ownsTile s.cur) causeTrapState 0
  trapIf (x.st.cd != 0 && !x.pubq.isEmpty) causeCandleState 0
  let va : VA := x.a.truncate 48
  let ps ← s.access .read va 1
  let setZ (s : State) (b : Bool) : State := s.setSt fun st => { st with z := b }
  match ps with
  | p :: _ =>
    if !keyIsDram p.at_.key || !p.at_.mh then .ok (setZ s true).advance else
    let c := vaultCore p.at_.key
    if c == s.here then .ok (setZ s false).advance else
    trapIf (!s.permits (octetOf s.here) (octetOf c)) causeMessage (addrBadv va)
    if !x.drained then .error (.park s) else
    if !s.roomOn c || !s.welcomes c then .ok (setZ s true).advance else
    .ok ((setZ s false).advance.depart c)
  | [] => .ok (setZ s true).advance

/-- GOHOME (R307). -/
def execGohome (s : State) : Outcome := settle s .gohome s.gohomeOp

end Sys2Proof.Machine
end

