-- ==== Sys2Proof/Machine/Vector.lean ====
section
/-! DEFINITION. Vector instructions on accumulator rows (R185 to R197): element-wise arithmetic, comparison, selection,
conversion, reduction, single lanes, permutation, quantisation. -/

namespace Sys2Proof.Machine
open Sys2Proof

/-! ### Shared steps -/

/-- Check 1 of R178: a required OPX. -/
def State.needOpx {α : Type} (s : State) : Option α → Except Stop α
  | some a => .ok a
  | none => s.missingOpx

/-- Check 7 of a destination row whose lanes are not read: a row that holds a block format or I8 is exempt (R175). -/
def State.laneDest (s : State) (r : RowRef) (n : Nat) : Except Stop Unit :=
  if blockTag (s.row r).tag || (s.row r).tag == 1 then .ok () else s.rowSize r n

/-- Check 7 of every named row, in order: those among `srcs` as sources. -/
def State.laneChecks (s : State) (srcs : List RowRef) (n : Nat) (tag : BitVec 4) : List RowRef → Except Stop Unit
  | [] => .ok ()
  | r :: rs => do
    (if srcs.contains r then s.laneSource r n tag else s.laneDest r n)
    State.laneChecks s srcs n tag rs

/-- Writes a row with lanes of `n` bits once no raised exception traps (R73, R180). -/
def State.vecResult (s : State) (d : RowRef) (n : Nat) (tag : BitVec 4) (r : List Nat × Flags) : Res := do
  s.fpCheck r.2
  .ok ((s.setRow d (laneRow n tag r.1)).orFlags r.2).advance

/-- Lane results and the union of their exceptions (R180). -/
def gather (xs : List (Nat × Flags)) : List Nat × Flags := (xs.map (·.1), xs.foldl (fun f x => f ||| x.2) 0)

/-! ### Element-wise arithmetic (R185, R186) -/

/-- The first and second operand rows: two OPX give both, one gives the second (R185). -/
def State.operandRows (s : State) (d : RowRef) (a b : Option RowRef) : Except Stop (RowRef × RowRef) := do
  let a ← s.needOpx a
  match b with
  | some b => .ok (a, b)
  | none => .ok (d, a)

/-- A lane operation: from the lane type, the mode, the saturation bit and two lanes. -/
abbrev LaneOp := RMode → Bool → Nat → Nat → Nat × Flags

/-- A two-operand element-wise instruction. -/
def State.arith (s : State) (ty : LaneTy) (d : RowRef) (a b : Option RowRef) (md : MD) (f : LaneOp) : Res := do
  let (x, y) ← s.operandRows d a b
  let rows := d :: a.toList ++ b.toList
  s.rowsReady rows
  let n := laneBits ty
  s.laneChecks [x, y] n (laneTag ty) rows
  let m := s.mode md.rnd
  s.vecResult d n (laneTag ty) (gather (List.zipWith (f m md.sat) (s.lanes n x) (s.lanes n y)))

/-- An integer lane: an exact result wrapped, or saturated (R186). -/
def intLane (n : Nat) (sat : Bool) (x : Int) : Nat × Flags := (narrow n sat x, 0)

/-- The sum of lanes (R185). -/
def addLane (ty : LaneTy) : LaneOp := fun m sat x y =>
  match ty with
  | .int _ => intLane (laneBits ty) sat (signed (laneBits ty) x + signed (laneBits ty) y)
  | .fp t => addF (fpFmt t) m (unpackF (fpFmt t) x) (unpackF (fpFmt t) y)
/-- The difference of lanes (R185). -/
def subLane (ty : LaneTy) : LaneOp := fun m sat x y =>
  match ty with
  | .int _ => intLane (laneBits ty) sat (signed (laneBits ty) x - signed (laneBits ty) y)
  | .fp t => addF (fpFmt t) m (unpackF (fpFmt t) x) (unpackF (fpFmt t) y).neg
/-- The product of lanes (R185). -/
def mulLane (ty : LaneTy) : LaneOp := fun m sat x y =>
  match ty with
  | .int _ => intLane (laneBits ty) sat (signed (laneBits ty) x * signed (laneBits ty) y)
  | .fp t => mulF (fpFmt t) m (unpackF (fpFmt t) x) (unpackF (fpFmt t) y)
/-- The minimum or maximum of lanes (R72, R185). -/
def pickLane (ty : LaneTy) (isMax : Bool) : LaneOp := fun _ _ x y =>
  match ty with
  | .int _ => (if (signed (laneBits ty) x < signed (laneBits ty) y) = isMax then y else x, 0)
  | .fp t => minmaxF (fpFmt t) isMax x y

/-- VADD (R185). -/
def execVadd (ty : LaneTy) (d : RowRef) (a b : Option RowRef) (md : MD) (s : State) : Outcome :=
  settle s (.vadd ty d a b md) (s.arith ty d a b md (addLane ty))
/-- VSUB (R185). -/
def execVsub (ty : LaneTy) (d : RowRef) (a b : Option RowRef) (md : MD) (s : State) : Outcome :=
  settle s (.vsub ty d a b md) (s.arith ty d a b md (subLane ty))
/-- VMUL (R185). -/
def execVmul (ty : LaneTy) (d : RowRef) (a b : Option RowRef) (md : MD) (s : State) : Outcome :=
  settle s (.vmul ty d a b md) (s.arith ty d a b md (mulLane ty))
/-- VMIN (R185). -/
def execVmin (ty : LaneTy) (d : RowRef) (a b : Option RowRef) (s : State) : Outcome :=
  settle s (.vmin ty d a b) (s.arith ty d a b MD.zero (pickLane ty false))
/-- VMAX (R185). -/
def execVmax (ty : LaneTy) (d : RowRef) (a b : Option RowRef) (s : State) : Outcome :=
  settle s (.vmax ty d a b) (s.arith ty d a b MD.zero (pickLane ty true))

/-- A fused instruction: a × b + d, or d − a × b, with one rounding (R185). -/
def State.fused (s : State) (ty : FpTy) (d : RowRef) (a b : Option RowRef) (md : MD) (minus : Bool) : Res := do
  let x ← s.needOpx a
  let y ← s.needOpx b
  s.rowsReady [d, x, y]
  let k := fpFmt ty
  let n := laneBits (.fp ty)
  s.laneChecks [d, x, y] n (laneTag (.fp ty)) [d, x, y]
  let m := s.mode md.rnd
  let one (p q r : Nat) : Nat × Flags :=
    fmaF k m (if minus then (unpackF k p).neg else unpackF k p) (unpackF k q) (unpackF k r)
  s.vecResult d n (laneTag (.fp ty))
    (gather ((List.zip (s.lanes n x) (List.zip (s.lanes n y) (s.lanes n d))).map fun e => one e.1 e.2.1 e.2.2))

/-- VFMA (R185). -/
def execVfma (ty : FpTy) (d : RowRef) (a b : Option RowRef) (md : MD) (s : State) : Outcome :=
  settle s (.vfma ty d a b md) (s.fused ty d a b md false)
/-- VFMS (R185). -/
def execVfms (ty : FpTy) (d : RowRef) (a b : Option RowRef) (md : MD) (s : State) : Outcome :=
  settle s (.vfms ty d a b md) (s.fused ty d a b md true)

/-- A one-operand instruction on the base-word row. -/
def State.unary (s : State) (ty : LaneTy) (d : RowRef) (f : Nat → Nat) : Res := do
  s.rowsReady [d]
  s.laneSource d (laneBits ty) (laneTag ty)
  s.vecResult d (laneBits ty) (laneTag ty) ((s.lanes (laneBits ty) d).map f, 0)

/-- |x| of a lane (R185, R186): on FP lanes only the sign bit changes. -/
def absLane (ty : LaneTy) (sat : Bool) (x : Nat) : Nat :=
  match ty with
  | .int _ => narrow (laneBits ty) sat (signed (laneBits ty) x).natAbs
  | .fp _ => x % 2 ^ (laneBits ty - 1)
/-- −x of a lane (R185, R186). -/
def negLane (ty : LaneTy) (sat : Bool) (x : Nat) : Nat :=
  match ty with
  | .int _ => narrow (laneBits ty) sat (-(signed (laneBits ty) x))
  | .fp _ => (x + 2 ^ (laneBits ty - 1)) % 2 ^ laneBits ty

/-- VABS (R185, R186). -/
def execVabs (ty : LaneTy) (d : RowRef) (md : MD) (s : State) : Outcome :=
  settle s (.vabs ty d md) (s.unary ty d (absLane ty md.sat))
/-- VNEG (R185, R186). -/
def execVneg (ty : LaneTy) (d : RowRef) (md : MD) (s : State) : Outcome :=
  settle s (.vneg ty d md) (s.unary ty d (negLane ty md.sat))

/-! ### Bitwise operations and shifts (R187) -/

/-- d ← d op a, bit by bit. -/
def State.bitwise (s : State) (ty : IntTy) (d : RowRef) (a : Option RowRef) (f : Nat → Nat → Nat) : Res := do
  let a ← s.needOpx a
  s.rowsReady [d, a]
  let n := laneBits (.int ty)
  s.laneChecks [d, a] n (laneTag (.int ty)) [d, a]
  s.vecResult d n (laneTag (.int ty)) (List.zipWith f (s.lanes n d) (s.lanes n a), 0)

/-- VAND (R187). -/
def execVand (ty : IntTy) (d : RowRef) (a : Option RowRef) (s : State) : Outcome :=
  settle s (.vand ty d a) (s.bitwise ty d a Nat.land)
/-- VOR (R187). -/
def execVor (ty : IntTy) (d : RowRef) (a : Option RowRef) (s : State) : Outcome :=
  settle s (.vor ty d a) (s.bitwise ty d a Nat.lor)
/-- VXOR (R187). -/
def execVxor (ty : IntTy) (d : RowRef) (a : Option RowRef) (s : State) : Outcome :=
  settle s (.vxor ty d a) (s.bitwise ty d a Nat.xor)

/-- Shifts every lane of d by a count. -/
def State.shifted (s : State) (ty : IntTy) (d : RowRef) (k : Option (BitVec 6)) (f : Nat → Nat → Nat → Nat) : Res := do
  let k ← s.needOpx k
  s.unary (.int ty) d (f (laneBits (.int ty)) k.toNat)

/-- VSHL of an n-bit lane. -/
def shlLane (n k x : Nat) : Nat := x * 2 ^ k % 2 ^ n
/-- VSHR of an n-bit lane. -/
def shrLane (_n k x : Nat) : Nat := x / 2 ^ k
/-- VSAR of an n-bit lane. -/
def sarLane (n k x : Nat) : Nat := wrapNat n (signed n x / (2 ^ k : Nat))

/-- VSHL (R187). -/
def execVshl (ty : IntTy) (d : RowRef) (k : Option (BitVec 6)) (s : State) : Outcome :=
  settle s (.vshl ty d k) (s.shifted ty d k shlLane)
/-- VSHR (R187). -/
def execVshr (ty : IntTy) (d : RowRef) (k : Option (BitVec 6)) (s : State) : Outcome :=
  settle s (.vshr ty d k) (s.shifted ty d k shrLane)
/-- VSAR (R187). -/
def execVsar (ty : IntTy) (d : RowRef) (k : Option (BitVec 6)) (s : State) : Outcome :=
  settle s (.vsar ty d k) (s.shifted ty d k sarLane)

/-! ### Compare and select (R188, R189) -/

/-- Whether a VCMP condition holds of two lanes, with the exceptions raised (R188). -/
def cmpLane (ty : LaneTy) (c : VCond) (x y : Nat) : Bool × Flags :=
  match ty with
  | .int _ =>
    let a := signed (laneBits ty) x
    let b := signed (laneBits ty) y
    (match c with
     | .eq => x == y | .ne => x != y | .lt => a < b | .le => a ≤ b | .ltu => x < y | .leu => x ≤ y | .uo => false, 0)
  | .fp t =>
    let a := unpackF (fpFmt t) x
    let b := unpackF (fpFmt t) y
    (match c with
     | .eq => eqF a b | .ne => !eqF a b | .lt => ltF a b | .le => ltF a b || eqF a b | .ltu => false | .leu => false
     | .uo => a.isNan || b.isNan, snanFlags [a, b])

/-- VCMP (R188). -/
def execVcmp (ty : LaneTy) (d : RowRef) (a : Option RowRef) (c : Option VCond) (s : State) : Outcome :=
  settle s (.vcmp ty d a c) (do
    let x ← s.needOpx a
    let k ← s.needOpx c
    s.rowsReady [d, x]
    let n := laneBits ty
    s.laneChecks [d, x] n (laneTag ty) [d, x]
    let rs := List.zipWith (cmpLane ty k) (s.lanes n d) (s.lanes n x)
    s.vecResult d n (intTag n) (gather (rs.map fun r => (if r.1 then 2 ^ n - 1 else 0, r.2))))

/-- VSEL (R189). -/
def execVsel (ty : LaneTy) (d : RowRef) (a m : Option RowRef) (s : State) : Outcome :=
  settle s (.vsel ty d a m) (do
    let x ← s.needOpx a
    let k ← s.needOpx m
    s.rowsReady [d, x, k]
    let n := laneBits ty
    s.laneChecks [d, x] n (laneTag ty) [d, x]
    s.laneSource k n (intTag n)
    let picks := List.zip (s.lanes n k) (List.zip (s.lanes n x) (s.lanes n d))
    s.vecResult d n (laneTag ty) (picks.map (fun e => if e.1 != 0 then e.2.1 else e.2.2), 0))

/-! ### Conversion (R190) -/

/-- Convert of one lane (R75, R190). -/
def convertLane (src : Option LaneTy) (dst : LaneTy) (m : RMode) (sat : Bool) (x : Nat) : Nat × Flags :=
  let n := laneBits dst
  match src, dst with
  | some (.fp f), .fp g => cvtF (fpFmt g) m (unpackF (fpFmt f) x)
  | some (.fp f), .int _ =>
    let r := fToInt m (-(2 ^ (n - 1) : Int)) ((2 ^ (n - 1) : Int) - 1) (unpackF (fpFmt f) x)
    (wrapNat n r.1, r.2)
  | some (.int t), .fp g => intToF (fpFmt g) m (signed (laneBits (.int t)) x)
  | some (.int t), .int _ => intLane n sat (signed (laneBits (.int t)) x)
  | none, .fp g => intToF (fpFmt g) m (signed 8 x)
  | none, .int _ => intLane n sat (signed 8 x)

/-- Whether a VCVT source is an integer type; none stands for I8. -/
def cvtIntSource : Option LaneTy → Bool
  | some (.fp _) => false
  | _ => true
/-- Whether a lane type is an integer type. -/
def isIntLane : LaneTy → Bool
  | .int _ => true
  | .fp _ => false

/-- VCVT (R190). -/
def State.convert (s : State) (ty : LaneTy) (d : RowRef) (a : Option RowRef) (md : MD) : Res := do
  let x ← s.needOpx a
  s.rowsReady [d, x]
  let n := laneBits ty
  s.laneDest d n
  let tag := (s.row x).tag
  trapIf (tag.toNat < 1 || tag.toNat > 8) causeFormat (rowBadv x)
  let src := tagLane tag
  let k := match src with | some t => laneBits t | none => 8
  match src with | some t => s.rowSize x (laneBits t) | none => .ok ()
  trapIf (src == some ty) causeReserved (addrBadv s.baseAddr)
  let ints := cvtIntSource src && isIntLane ty
  trapIf (md.sat && !ints) causeReserved (addrBadv s.mdAddr)
  trapIf (md.rnd != .none && ints) causeReserved (addrBadv s.mdAddr)
  let lanes := (s.lanes k x).take (2048 / n)
  s.vecResult d n (laneTag ty) (gather (lanes.map (convertLane src ty (s.mode md.rnd) md.sat)))

/-- VCVT (R190). -/
def execVcvt (ty : LaneTy) (d : RowRef) (a : Option RowRef) (md : MD) (s : State) : Outcome :=
  settle s (.vcvt ty d a md) (s.convert ty d a md)

/-! ### Reduction and single lanes (R191, R192) -/

/-- One level of the tree of R96. -/
def treeLevel (f : Nat → Nat → Nat × Flags) : List Nat → List Nat × Flags
  | x :: y :: r =>
    let p := f x y
    let q := treeLevel f r
    (p.1 :: q.1, p.2 ||| q.2)
  | xs => (xs, 0)

/-- The tree of R96, `k` levels deep. -/
def treeReduce (f : Nat → Nat → Nat × Flags) : Nat → List Nat → Flags → Nat × Flags
  | 0, xs, fl => (xs.headD 0, fl)
  | k + 1, xs, fl => let p := treeLevel f xs; treeReduce f k p.1 (fl ||| p.2)

/-- VRED (R191): its operation is chosen by A[1:0]; an MD field that the operation does not take is reserved (R198). -/
def State.reduce (s : State) (ty : LaneTy) (d : RowRef) (md : MD) : Res := do
  s.rowsReady [d]
  let n := laneBits ty
  s.laneSource d n (laneTag ty)
  let op := s.me.a.toNat % 4
  trapIf (op != 0 && (md.sat || md.rnd != .none)) causeReserved (addrBadv s.mdAddr)
  trapIf (op == 3) causeReserved (addrBadv s.baseAddr)
  let f := if op = 0 then addLane ty else pickLane ty (op == 2)
  let r := treeReduce (f (s.mode md.rnd) md.sat) 7 (s.lanes n d) 0
  s.fpCheck r.2
  .ok ((s.setA (if isIntLane ty then sext64 n r.1 else zext64 n r.1)).orFlags r.2).advance

/-- VRED (R191). -/
def execVred (ty : LaneTy) (d : RowRef) (md : MD) (s : State) : Outcome := settle s (.vred ty d md) (s.reduce ty d md)

/-- VBCA (R192). -/
def execVbca (ty : LaneTy) (d : RowRef) (s : State) : Outcome :=
  settle s (.vbca ty d) (do
    s.rowsReady [d]
    let n := laneBits ty
    s.laneDest d n
    s.vecResult d n (laneTag ty) (List.replicate (2048 / n) (s.me.a.toNat % 2 ^ n), 0))

/-- VGETA (R192). -/
def execVgeta (ty : LaneTy) (d : RowRef) (k : Option (BitVec 7)) (s : State) : Outcome :=
  settle s (.vgeta ty d k) (do
    let n := laneBits ty
    let i := (k.getD 0).toNat
    trapIf (i ≥ 2048 / n) causeReserved (addrBadv s.opx1Addr)
    s.rowsReady [d]
    s.laneSource d n (laneTag ty)
    let v := laneAt n (s.row d).elems i
    .ok (s.setA (if isIntLane ty then sext64 n v else zext64 n v)).advance)

/-! ### Permutation (R193) -/

/-- One lane of VPERM: from a, from the old d, or zero. -/
def permLane (n : Nat) (a d : List Nat) (k : Nat) : Nat := if k < n then a.getD k 0 else d.getD (k - n) 0

/-- VPERM (R193); the rows are judged in the order base word, first OPX, second OPX (log 85). -/
def execVperm (w : PermWidth) (d : RowRef) (a x : Option RowRef) (s : State) : Outcome :=
  settle s (.vperm w d a x) (do
    let a ← s.needOpx a
    let x ← s.needOpx x
    s.rowsReady [d, a, x]
    let n := permBits w
    s.rowSize d n
    trapIf ((s.row d).tag != 0 && (s.row d).tag != (s.row a).tag) causeFormat (rowBadv d)
    s.rowSize a n
    s.laneSource x n (intTag n)
    let out := (s.lanes n x).map (permLane (2048 / n) (s.lanes n a) (s.lanes n d))
    .ok (s.setRow d { tag := (s.row a).tag, elems := packLanes n out, scales := (s.row d).scales }).advance)

/-! ### Block spans (R194 to R197) -/

/-- Rows of a span for a wide tag 5 to 8 (R194). -/
def spanLen (wide : BitVec 4) (k4 : Bool) : Nat :=
  let m := if wide.toNat ≤ 6 then 2 else if wide = 7 then 4 else 8
  if k4 then 2 * m else m

/-- The element format that VQMX and VQNT select (R194). -/
def qElem : QFmt → ElemFmt
  | .e4m3 => .e4m3 | .e5m2 => .e5m2 | .e3m2 => .e3m2 | .e2m3 => .e2m3 | .i8b => .i8b
  | .k4f => .k4 1 | .k4i => .k4 0 | .k4h => .k4 3
/-- The row tag of a block format (R66). -/
def qTag : QFmt → BitVec 4
  | .e4m3 => 9 | .e5m2 => 10 | .e3m2 => 11 | .e2m3 => 12 | .i8b => 14
  | .k4f | .k4i | .k4h => 13
/-- The floating-point format of a wide tag. -/
def wideFmt (tag : BitVec 4) : FFmt :=
  match tag.toNat with | 5 => .f16 | 6 => .bf16 | 7 => .f32 | _ => .f64

/-- Whether a tag is one of the wide types 5 to 8. -/
def isWide (t : BitVec 4) : Bool := 5 ≤ t.toNat && t.toNat ≤ 8

/-- Check 7 of a span: every row of the span's own tag, in a tile of its size. -/
def State.spanTagged (s : State) (tag : BitVec 4) : List RowRef → Except Stop Unit
  | [] => .ok ()
  | r :: rs => do
    s.rowSize r (wideFmt tag).width
    trapIf ((s.row r).tag != tag) causeFormat (rowBadv r)
    State.spanTagged s tag rs

/-- A row whose tag fixes the length of a span parks while it is pending: its tag is not known before. -/
def State.tagSettled (s : State) (r : RowRef) : Except Stop Unit :=
  if !s.rowGated r && s.mayUse (s.tileOf r) && s.rowPending r then .error (.park s) else .ok ()

/-- The lanes of a span, through its rows in order (R194). -/
def State.spanLanes (s : State) (tag : BitVec 4) (rows : List RowRef) : List Nat :=
  rows.flatMap fun r => s.lanes (wideFmt tag).width r

/-- Cuts a list into `g` blocks of `n`. -/
def blocksOf {α : Type} (n : Nat) : Nat → List α → List (List α)
  | 0, _ => []
  | g + 1, xs => xs.take n :: blocksOf n g (xs.drop n)

/-- The larger magnitude of two data of a format, sign bits dropped (R195). -/
def maxBits (xs : List Nat) : Nat := xs.foldl (fun a b => if a < b then b else a) 0

/-- The largest |x| over the finite values of a block, or +0, as bits of the source type (R195). -/
def blockMaxBits (f : FFmt) (xs : List Nat) : Nat :=
  maxBits ((xs.map fun x => x % 2 ^ (f.width - 1)).filter fun x => x < f.inf false)

/-! VQMX -/

/-- The cores of the issuing core's row of the launch's sub-torus (R195, R210). -/
def torusRow (c w : Nat) : List Nat := (span (c / w * w) w)

/-- The slots that take part in a slot's agreement rounds. -/
def State.agreeSlots (s : State) (t : Nat) : List Nat :=
  (torusRow (coreOf t) (s.launch (s.slot t).launch).f.subW).map fun c => 16 * c + t % 16

/-- The maxima that an agreement gives (R195): each the largest that a participant sent. What a round gives whose
participants sent values of different source types is left open. -/
def agreedMaxima (salt : Nat) (sent : List (List W64)) : List W64 :=
  let tags := sent.map fun v => v.headD 0
  let vals := sent.map fun v => v.drop 1
  (upto 8).map fun g =>
    if tags.any (fun t => t != tags.headD 0) then BitVec.ofNat 64 (Config.pick (salt * 8 + g))
    else BitVec.ofNat 64 (maxBits (vals.map fun v => (v.getD g 0).toNat))

/-- VQMX: checks, sends, and once agreed writes the maxima (R195). A slot's round counter is kept with its thread: it is 0 for
each new thread of a slot and goes with a saved context (DESIGN CHOICE, log 117). -/
def State.vqmxOp (s : State) (q : QFmt) (d : RowRef) : Res := do
  s.tagSettled d
  let k4 := qTag q == 13
  let tag := (s.row d).tag
  let m := spanLen tag k4
  if isWide tag then spanFits d (m + 1) s.baseAddr else .ok ()
  let rows := if isWide tag then spanRows d m else [d]
  s.rowsReady (if isWide tag then spanRows d (m + 1) else [d])
  trapIf (!isWide tag) causeFormat (rowBadv d)
  s.spanTagged tag rows
  let e := rowOf (rowTile d) (rowNum d + m)
  s.laneDest e (wideFmt tag).width
  let blocks := blocksOf (if k4 then 64 else 32) 8 (s.spanLanes tag rows)
  let mine : List W64 := tag.zeroExtend 64 :: blocks.map fun b => BitVec.ofNat 64 (blockMaxBits (wideFmt tag) b)
  let parties := s.agreeSlots s.cur
  let agreed := if parties.length ≤ 1 then some (agreedMaxima 0 [mine]) else s.me.vmax
  match agreed with
  | some v =>
    let s1 := s.setMe { s.me with vsent := none, vmax := none, vround := s.me.vround + 1 }
    .ok (s1.setRow e (laneRow (wideFmt tag).width tag (v.map (·.toNat)))).advance
  | none => .error (.park (s.setMe { s.me with vsent := some mine }))

/-- VQMX (R195). -/
def execVqmx (q : QFmt) (d : RowRef) (s : State) : Outcome := settle s (.vqmx q d) (s.vqmxOp q d)

/-! VQNT -/

/-- The maximum that a lane of VQNT's row x gives, as m × 2^e. VQMX writes finite values that are not negative; for
any other value the spec states no maximum, and it is free. -/
def givenMax (salt : Nat) : FVal → Nat × Int
  | .fin neg m e => if neg && m != 0 then (1, (Config.pick salt % 601 : Nat) - 300) else (m, e)
  | _ => (1, (Config.pick salt % 601 : Nat) - 300)

/-- Packs eight quantised blocks into a row of a block format (R85, R86). -/
def blockRow (tag : BitVec 4) (bs : List (BitVec 8 × List Nat)) : Row :=
  { tag := tag,
    elems := BitVec.ofNat 2048 (packNat 256 (bs.map fun b => packNat (if tag = 13 then 4 else 8) b.2)),
    scales := BitVec.ofNat 64 (packNat 8 (bs.map fun b => b.1.toNat)) }

/-- VQNT (R196). -/
def State.vqntOp (s : State) (q : QFmt) (d : RowRef) (x : Option RowRef) (md : MD) : Res := do
  s.tagSettled d
  let k4 := qTag q == 13
  let tag := (s.row d).tag
  let m := spanLen tag k4
  if isWide tag then spanFits d m s.baseAddr else .ok ()
  let rows := if isWide tag then spanRows d m else [d]
  s.rowsReady (rows ++ x.toList)
  trapIf (!isWide tag) causeFormat (rowBadv d)
  s.spanTagged tag rows
  match x with | some r => s.spanTagged tag [r] | none => .ok ()
  let f := wideFmt tag
  let blocks := (blocksOf (if k4 then 64 else 32) 8 (s.spanLanes tag rows)).map fun b => b.map (unpackF f)
  let given (g : Nat) : Option (Nat × Int) :=
    x.map fun r => givenMax (s.nd * 2 ^ 64 + g) (unpackF f (laneAt f.width (s.row r).elems g))
  let rs := blocks.zipIdx.map fun b => quantise (qElem q) (s.mode md.rnd) (given b.2) b.1
  let fl : Flags := rs.foldl (fun a r => a ||| r.2.2) 0
  s.fpCheck fl
  .ok ((s.setRow d (blockRow (qTag q) (rs.map fun r => (r.1, r.2.1)))).orFlags fl).advance

/-- VQNT (R196). -/
def execVqnt (q : QFmt) (d : RowRef) (x : Option RowRef) (md : MD) (s : State) : Outcome :=
  settle s (.vqnt q d x md) (s.vqntOp q d x md)

/-! VDQ -/

/-- The element codes of a block row with their scale bytes (R79, R86). -/
def blockCodes (r : Row) : List (BitVec 8 × Nat) :=
  let n := if r.tag = 13 then 4 else 8
  (lanesOf n r.elems).zipIdx.map fun e =>
    (BitVec.ofNat 8 (r.scales.toNat / 2 ^ (8 * (e.2 / blockElems r.tag))), e.1)

/-- A list of rows each receives its part of the lanes. -/
def State.putLanes (s : State) (n : Nat) (tag : BitVec 4) : List RowRef → List Nat → State
  | [], _ => s
  | r :: rs, xs => State.putLanes (s.setRow r (laneRow n tag (xs.take (2048 / n)))) n tag rs (xs.drop (2048 / n))

/-- VDQ (R197). The span's length depends on the format of row a. -/
def State.vdqOp (s : State) (ty : FpTy) (d : RowRef) (a : Option RowRef) : Res := do
  let a ← s.needOpx a
  s.tagSettled a
  let row := s.row a
  let k := fpFmt ty
  let tag := laneTag (.fp ty)
  let m := spanLen tag (row.tag == 13)
  if blockTag row.tag then spanFits d m s.baseAddr else .ok ()
  let rows := if blockTag row.tag then spanRows d m else [d]
  s.rowsReady (rows ++ [a])
  s.laneChecks [] k.width tag rows
  trapIf (!blockTag row.tag) causeFormat (rowBadv a)
  let rs := (blockCodes row).map fun e => cvtF k (s.mode .none) (scaledValue row.tag e.1 e.2)
  let r := gather rs
  s.fpCheck r.2
  .ok ((s.putLanes k.width tag rows r.1).orFlags r.2).advance

/-- VDQ (R197). -/
def execVdq (ty : FpTy) (d : RowRef) (a : Option RowRef) (s : State) : Outcome :=
  settle s (.vdq ty d a) (s.vdqOp ty d a)

end Sys2Proof.Machine
end

