-- ==== Sys2Proof/Machine/Issue.lean ====
section
/-! DEFINITION. Issuing an instruction in the name of a slot or of a sequence: the boundary between two instructions
(R139, R146, R229), the pre-emption trap and what it sets aside (R303, R168, R221), and the events PARK_RESUME,
GUTTER_TRAP, PREEMPTION_TRAP, SEQUENCE_STEP and SEQUENCE_RETIRE. -/

namespace Sys2Proof.Machine
open Sys2Proof

/-- An instruction in the name of the slot that the state names; a row of another agent is no thread's instruction. -/
def issue (i : Instr) (s : State) : Outcome :=
  match i with
  | .ld w o md => execLd w o md s
  | .st w o md => execSt w o md s
  | .add w o md => execAdd w o md s
  | .sub w o md => execSub w o md s
  | .rsub w o md => execRsub w o md s
  | .and w o md => execAnd w o md s
  | .or w o md => execOr w o md s
  | .xor w o md => execXor w o md s
  | .min w o md => execMin w o md s
  | .max w o md => execMax w o md s
  | .minu w o md => execMinu w o md s
  | .maxu w o md => execMaxu w o md s
  | .cmp w o md => execCmp w o md s
  | .mul w o md => execMul w o md s
  | .mulh w o md => execMulh w o md s
  | .mulhu w o md => execMulhu w o md s
  | .div w o md => execDiv w o md s
  | .divu w o md => execDivu w o md s
  | .rem w o md => execRem w o md s
  | .fadd w o md => execFadd w o md s
  | .fsub w o md => execFsub w o md s
  | .fmul w o md => execFmul w o md s
  | .fma w o q md => execFma w o q md s
  | .fdiv w o md => execFdiv w o md s
  | .fsqrt w o md => execFsqrt w o md s
  | .fmin w o md => execFmin w o md s
  | .fmax w o md => execFmax w o md s
  | .fcmp w o md => execFcmp w o md s
  | .ldi imm => execLdi imm s
  | .ldih imm => execLdih imm s
  | .addi imm => execAddi imm s
  | .andi imm => execAndi imm s
  | .ori imm => execOri imm s
  | .xori imm => execXori imm s
  | .shl k => execShl k s
  | .shr k => execShr k s
  | .sar k => execSar k s
  | .rol k => execRol k s
  | .pset p imm => execPset p imm s
  | .pstep p imm => execPstep p imm s
  | .paddi p imm => execPaddi p imm s
  | .padda p k => execPadda p k s
  | .movap p => execMovap p s
  | .movpa p => execMovpa p s
  | .pcmp p q => execPcmp p q s
  | .clz w => execClz w s
  | .ctz w => execCtz w s
  | .popc w => execPopc w s
  | .bswap w => execBswap w s
  | .cvt mode su du src dst => execCvt mode su du src dst s
  | .b off => execB off s
  | .bz off => execBz off s
  | .bnz off => execBnz off s
  | .blt off => execBlt off s
  | .bge off => execBge off s
  | .bltu off => execBltu off s
  | .bgeu off => execBgeu off s
  | .loop off => execLoop off s
  | .call off => execCall off s
  | .ret => execRet s
  | .jmpa => execJmpa s
  | .nop => execNop s
  | .yield => execYield s
  | .halt => execHalt s
  | .wait l st c t => execWait l st c t s
  | .rep n stagger len => execRep n stagger len s
  | .sfuExp2 row => execSfuExp2 row s
  | .sfuLog2 row => execSfuLog2 row s
  | .sfuRcp row => execSfuRcp row s
  | .sfuRsqrt row => execSfuRsqrt row s
  | .sfuSin row => execSfuSin row s
  | .sfuCos row => execSfuCos row s
  | .sfuTanh row => execSfuTanh row s
  | .sfuErf row => execSfuErf row s
  | .tage p => execTage p s
  | .tagf p => execTagf p s
  | .tcfg t e mask owner => execTcfg t e mask owner s
  | .trel t => execTrel t s
  | .vld p row md => execVld p row md s
  | .vst p row md => execVst p row md s
  | .vadd ty d a b md => execVadd ty d a b md s
  | .vsub ty d a b md => execVsub ty d a b md s
  | .vmul ty d a b md => execVmul ty d a b md s
  | .vfma ty d a b md => execVfma ty d a b md s
  | .vfms ty d a b md => execVfms ty d a b md s
  | .vmin ty d a b => execVmin ty d a b s
  | .vmax ty d a b => execVmax ty d a b s
  | .vabs ty d md => execVabs ty d md s
  | .vneg ty d md => execVneg ty d md s
  | .vand ty d a => execVand ty d a s
  | .vor ty d a => execVor ty d a s
  | .vxor ty d a => execVxor ty d a s
  | .vshl ty d k => execVshl ty d k s
  | .vshr ty d k => execVshr ty d k s
  | .vsar ty d k => execVsar ty d k s
  | .vcmp ty d a c => execVcmp ty d a c s
  | .vsel ty d a m => execVsel ty d a m s
  | .vcvt ty d a md => execVcvt ty d a md s
  | .vred ty d md => execVred ty d md s
  | .vbca ty d => execVbca ty d s
  | .vgeta ty d k => execVgeta ty d k s
  | .vperm w d a x => execVperm w d a x s
  | .vqmx f d => execVqmx f d s
  | .vqnt f d x md => execVqnt f d x md s
  | .vdq ty d a => execVdq ty d a s
  | .mldb p => execMldb p s
  | .mma p => execMma p s
  | .mmrot p => execMmrot p s
  | .mzero d n => execMzero d n s
  | .mdrain d p => execMdrain d p s
  | .mstat t clr => execMstat t clr s
  | .mrot skew row p => execMrot skew row p s
  | .fnew p st => execFnew p st s
  | .fprf p src => execFprf p src s
  | .cst p sel => execCst p sel s
  | .pld p sel => execPld p sel s
  | .flock p => execFlock p s
  | .fdrop p => execFdrop p s
  | .fdropRetire p => execFdropRetire p s
  | .fsend p o => execFsend p o s
  | .ftake p o => execFtake p o s
  | .candle lo hi off => execCandle lo hi off s
  | .snuff => execSnuff s
  | .douse => execDouse s
  | .gutret off => execGutret off s
  | .time sel => execTime sel s
  | .pace imm => execPace imm s
  | .trap imm => execTrap imm s
  | .rtt => execRtt s
  | .mfs r => execMfs r s
  | .mts r => execMts r s
  | .tlbiPage => execTlbiPage s
  | .tlbiSpace => execTlbiSpace s
  | .gohome => execGohome s
  | .barm => execBarm s
  | .arrive b => execArrive b s
  | .bwait b => execBwait b s
  | .wptr c => execWptr c s
  | .cwait c => execCwait c s
  | .copy p c => execCopy p c s
  | .wback p scope => execWback p scope s
  | .discard p => execDiscard p s
  | .fence scope => execFence scope s
  | .amoadd w o md => execAmoadd w o md s
  | .amoand w o md => execAmoand w o md s
  | .amoor w o md => execAmoor w o md s
  | .amoxor w o md => execAmoxor w o md s
  | .amomin w o md => execAmomin w o md s
  | .amomax w o md => execAmomax w o md s
  | .amominu w o md => execAmominu w o md s
  | .amomaxu w o md => execAmomaxu w o md s
  | .amoswap w o md => execAmoswap w o md s
  | .amocas w o q md => execAmocas w o q md s
  | .afadd w o md => execAfadd w o md s
  | .afmin w o md => execAfmin w o md s
  | .afmax w o md => execAfmax w o md s
  | .ldfut w o md => execLdfut w o md s
  | .stfut w o md => execStfut w o md s
  | .lpost p => execLpost p s
  | .lwait => execLwait s
  | .lseq => execLseq s
  | .lcast p plane => execLcast p plane s
  | .lbred p => execLbred p s
  | .gbind p => execGbind p s
  | .gemit p => execGemit p s
  | .gdone => execGdone s
  | .caseadd p => execCaseadd p s
  | .caseget p val => execCaseget p val s
  | .casenxt p first => execCasenxt p first s
  | .gclose => execGclose s
  | .gfront => execGfront s
  | .parkResume _ | .gutterTrap _ | .publishEntry _ | .sequenceStep _ _ | .sequenceRetire _ _ | .vldComplete _ _
  | .storePerformed _ _ | .mldbComplete _ | .matrixOpComplete _ | .operandRoundTransfer _ | .sfuResult _
  | .vqmxAgreement _ | .barrierRelease _ _ | .copyBeat _ _ | .copyDiscard _ _ | .migrationArrival _
  | .rcbSnoopWalk _ _ | .lamplighterDecide _ | .budgetExpiry _ _ | .oilExhausted _ | .preemptionTrap _
  | .watchdogExpiry _ _ | .sliceSave _ _ | .sliceRestore _ _ | .deadlinePassed _ | .lightsOutSweep _ | .slugArrival _
  | .stageDispatch _ | .replayRetry _ | .replayTimeout _ | .ldfutRetry _ | .invalidationComplete _ | .energyCharge _ _
  | .eventRecord _ | .machineCheck _ _ _ | .thermalThrottle _ _ | .thermalTrip _ _ | .reset | .bringupComplete _
  | .rootWrite _ _ | .llrootWrite _ | .s2reqPage _ _ | .s2reqAll _ | .omapWrite _ _ | .kctlWrite _ _ | .lgrpWrite _
  | .hostRegisterWrite _ _ _ | .hostMemRead _ _ | .hostMemWrite _ _ | .hostAtomic _ _ _ _ _ | .hostSnoop _ _
  | .fabricRequest _ | .fabricResend _ | .stompedPacket _ | .fabricAuthFail _ | .rateDecrease _ | .rateIncrease _
  | .portStateChange _ _ | .flameHold _ _ _ | .orderEventApply | .bulkHoldApply _ | .flameTimeout _ | .lanthornLeave
  | .timebaseAlign _ | .memoryAccessComplete _ | .weakWritePropagation _ _ | .thermalRecovery _ _ | .correctableError
  | .managementRequest _ => .next s

/-! ### Pre-emption (R146, R303) -/

/-- The group of a slot's thread. -/
def State.groupOf (s : State) (t : Nat) : Option Group := (s.launch (s.slot t).launch).group? (s.slot t).gidx

/-- Whether every thread of a slot's group has no candle open (R146). -/
def State.groupDark (s : State) (t : Nat) : Bool :=
  let x := s.slot t
  (s.groupSlots x.launch x.gidx).all (fun u => (s.slot u).st.cd == 0)
    && s.migrants.all fun m => m.ctx.launch != x.launch || m.ctx.gidx != x.gidx || m.ctx.st.cd == 0

/-- The reason of the pre-emption trap that a thread takes at its boundary now (R303, R230, R327). -/
def State.preemptDue (s : State) (t : Nat) : Option Nat :=
  let x := s.slot t
  match (s.groupOf t).bind (·.due) with
  | some (_, why) => if !x.preempted && x.st.tl != 2 && x.replay.isEmpty && s.groupDark t then some why else none
  | none => none

/-- What the matrix unit does for a pre-empted thread: transfers that have begun are finished, a multiply stops at a K-step
boundary, an MMA of which none is left completes, and the A staging is discarded (R221, R222). -/
def State.stopUnit (s : State) (c t : Nat) : State :=
  let mine (s : State) : Bool := (s.core c).unitHead.any fun e => e.2.slot == t
  let s0 := (if mine s then s.transferRound c true else s).unitProgress c t
  match (s0.core c).unitHead with
  | some (i, o) =>
    if o.slot != t || !o.mulDone then s0
    else if o.kind == .mma then s0.retireOp c i o
    else s0.setCore c { s0.core c with astage := [], atag := 0 }
  | none => s0

/-- A matrix operation as it is set aside: what it reads it reads again, the thread's own stores then being in the history
(R222), and an MDRAIN stores all of its rows again (R221). -/
def EngOp.setAside (o : EngOp) : EngOp := if o.kind == .mdrain then o.drainFrom 0 else { o with bytes := [] }

/-- A thread's count of copies joins what its record still counts, with the number of its saved sequences (R303, R306);
where the record of a stage thread cannot be written, its tag is broken and the fault domain of its group killed (R371). -/
def State.moveCopies (s : State) (t : Nat) : State :=
  let x := s.slot t
  let l := s.launch x.launch
  let before := if x.copyBase = 0 then 0 else s.recordCopies l x
  let s := if x.copyBase = 0 then s else s.lampTouched l (x.record + 0xB0) 1
  let bytes := toBytes 8 (256 * x.saved.length + before + x.copies)
  let fault := x.stage && (match s.parts l.space .write 2 (x.record + 0xB0) 8 with | .ok _ => false | .error _ => true)
  let s1 := (s.setSlot t { x with copies := 0, copyBase := s.nd + 1 }).lampWrite l (x.record + 0xB0) bytes
  if fault then (s1.breakTag x.launch x.stag).killDomain x.launch x.gidx 3 else s1

/-- A pre-empted thread's engines are set aside: its sequences and its matrix operations with their counts, the latch of its
launch, its copies (R303, R168, R222). -/
def State.setAside (s : State) (t : Nat) : State :=
  let c := coreOf t
  let s0 := (s.publishAll t).stopUnit c t
  let k := s0.core c
  let seqs := k.seqs.filter fun q => q.slot == t
  let ops := k.ops.filter fun o => o.slot == t && o.isMatrix
  let own := ops.filter fun o => o.seq.isNone
  let lds := (own.filter fun o => o.kind.isLoad).length
  let sts := (own.filter fun o => o.kind.isStore).length
  let s1 := s0.setCore c { k with seqs := k.seqs.filter (fun q => q.slot != t),
                                  ops := k.ops.filter fun o => !(o.slot == t && o.isMatrix) }
  let x := s1.slot t
  (s1.setSlot t { x with
    saved := x.saved ++ seqs, savedOps := x.savedOps ++ ops.map EngOp.setAside, loads := x.loads - lds,
    stores := x.stores - sts, tiles := x.tiles - (own.length - lds - sts) - seqs.length, preempted := true,
    latch := if !ops.isEmpty && k.latch.serial == x.serial then some k.latch else x.latch }).moveCopies t

/-- Takes the pre-emption trap: entry at the save routine, then the engines (R228, R303). -/
def State.takePreempt (s : State) (t why : Nat) : State :=
  let x := s.slot t
  let srtn := (s.launch x.launch).f.srtn
  (s.enterAt t x.pc { code := causePreempt } (BitVec.ofNat 64 why) fun _ => srtn).setAside t

/-! ### The boundary between two instructions (R229) -/

/-- Whether a slot's thread stands between two instructions or at a parked one, with no access to complete. -/
def State.atBoundary (s : State) (t : Nat) : Bool :=
  let x := s.slot t
  x.mode == .running && !x.busy && !x.lanBegun

/-- The trap that is taken at a slot's boundary, in the order of R229. -/
def State.boundaryTrap (s : State) (t : Nat) : Option State :=
  if !s.atBoundary t then none else
  match s.gutterDue t with
  | some (l, f) => some (s.takeGutter t l f)
  | none =>
    match (s.slot t).seqFault with
    | some f => some (s.takeSeqFault t f)
    | none => (s.preemptDue t).map fun why => s.takePreempt t why

/-- Whether a slot is ready (R152); a request whose hold has begun keeps its thread where it is (R437). -/
def State.slotReady (s : State) (t : Nat) : Bool :=
  let x := s.slot t
  s.atBoundary t && x.park.isNone && x.ready ≤ s.cycle

/-- Whether the 8 cycles of a ready slot end now. -/
def State.slotDue (s : State) (t : Nat) : Bool := s.slotReady t && (s.slot t).ready == s.cycle

/-- The slots of a core that stay passed over when a slot takes a turn in the cycle in which they are due (R150). -/
def State.passedBy (s : State) (t : Nat) : List Nat :=
  let c := coreOf t
  ((upto 16).filter fun i => ((s.core c).passed.contains i || s.slotDue (16 * c + i)) && i != t % 16)

/-- Marks a turn of a slot (R152): its next is 8 cycles of its core's clock later, its core's one cycle (R126). -/
def State.turn (s : State) (t : Nat) : State :=
  let k := s.core (coreOf t)
  let s1 := s.setSlot t { s.slot t with ready := k.clock.after s.cycle issueGap }
  s1.setCore (coreOf t) { k with last := some (t % 16), next := k.clock.after s.cycle 1, passed := s.passedBy t }

/-- Completes or tries again a slot's parked instruction (R58). -/
def State.retryPark (s : State) (t : Nat) (p : Instr × Chain) : Outcome :=
  let s1 : State := { s with cur := t, chain := p.2, inSeq := none }
  issue p.1 (s1.setSlot t { s1.slot t with park := none })

/-- PARK_RESUME: a boundary trap ends the park, else the instruction is tried in this turn (R58, R59, R160). -/
def execParkResume (t : Nat) (s : State) : Outcome :=
  match (s.slot t).park with
  | none => .next s
  | some p =>
    match s.boundaryTrap t with
    | some s' => .next s'
    | none => if (s.slot t).mode == .running && !(s.slot t).busy then s.retryPark t p else .next s

/-- GUTTER_TRAP (R139 to R141). -/
def execGutterTrap (t : Nat) (s : State) : Outcome :=
  match if s.atBoundary t then s.gutterDue t else none with
  | some (l, f) => .next (s.takeGutter t l f)
  | none => .next s

/-- PREEMPTION_TRAP (R303). -/
def execPreemptionTrap (t : Nat) (s : State) : Outcome :=
  if !s.atBoundary t || (s.gutterDue t).isSome || (s.slot t).seqFault.isSome then .next s else
  match s.preemptDue t with
  | some why => .next (s.takePreempt t why)
  | none => .next s

/-! ### The sequencer (R164 to R167) -/

/-- The captured instruction that a sequence stands at, its row fields moved on by the passes done (R164). -/
def Seq.nextInstr (q : Seq) : Option (Instr × Chain) :=
  if q.j ≥ q.n then none else
  q.instrs[q.i]?.map fun p => (mapRows (staggered (q.j * staggerRows q.code)) p.1, p.2)

/-- Whether no earlier sequence of the thread remains on its core. -/
def Core.firstOfSlot (c : Core) (q : Seq) : Bool := c.seqs.all fun r => r.slot != q.slot || q.id ≤ r.id

/-- Whether an access of a sequence that acquires has still to be performed: the accesses after it wait (R322, R323). -/
def Core.seqHeld (c : Core) (q : Seq) : Bool := c.ops.any fun o => o.seq == some q.id && (o.holds || (o.acq && !o.written))

/-- SEQUENCE_STEP: the sequencer starts the next captured instruction of a sequence, at most one in a cycle; one that its unit
does not accept yet leaves the sequence where it stands (R164, R165). -/
def execSequenceStep (c i : Nat) (s : State) : Outcome :=
  match (s.core c).seqs[i]? with
  | none => .next s
  | some q =>
    let k := s.core c
    match if k.seqNext ≤ s.cycle && k.firstOfSlot q && !k.seqHeld q && (s.slot q.slot).seqFault.isNone then q.nextInstr
      else none with
    | none => .next s
    | some p => issue p.1 { s with cur := q.slot, chain := p.2, inSeq := some { core := c, idx := i } }

/-- Whether every effect of a sequence has completed (R164). -/
def State.seqDone (s : State) (c : Nat) (q : Seq) : Bool :=
  q.j ≥ q.n && (s.core c).ops.all (fun o => o.seq != some q.id)
    && s.octets.all fun o => o.2.ch.all fun k => k.2.queue.all fun m => m.core != c || m.seq != some q.id

/-- SEQUENCE_RETIRE: the marks go with the sequence, the tile count falls, the flags wait for their merge (R164,
R166). -/
def execSequenceRetire (c i : Nat) (s : State) : Outcome :=
  match (s.core c).seqs[i]? with
  | none => .next s
  | some q =>
    if !s.seqDone c q then .next s else
    let k := s.core c
    let s1 := (s.setCore c { k with seqs := ldel k.seqs i }).joinCaptured q.slot
    let x := s1.slot q.slot
    .next (s1.setSlot q.slot { x with tiles := x.tiles - 1, seqFlags := x.seqFlags ||| q.flags })

end Sys2Proof.Machine
end

