-- ==== Sys2Proof/Machine/SfuFun.lean ====
section
/-! DEFINITION. The special functions of R170: each lane's result is the exact value of the function rounded to F32
under RNE. Transcendental values are computed in fixed point with 640 fraction bits, far beyond the distance at which
any F32 result of these functions can lie from a rounding boundary, and rounded once with a sticky part. -/

namespace Sys2Proof.Machine
open Sys2Proof

/-- Fraction bits of the fixed-point values. -/
def sfuBits : Nat := 640

/-- 1 in fixed point. -/
def sfuOne : Nat := 2 ^ sfuBits

/-- π in fixed point, rounded down. -/
def sfuPi : Nat := 0x3243f6a8885a308d313198a2e03707344a4093822299f31d0082efa98ec4e6c89452821e638d01377be5466cf34e90c6cc0ac29b7c97c50dd3f84d5b5b54709179216d5d98979fb1bd1310ba698dfb5ac

/-- ln 2 in fixed point, rounded down. -/
def sfuLn2 : Nat := 0xb17217f7d1cf79abc9e3b39803f2f6af40f343267298b62d8a0d175b8baafa2be7b876206debac98559552fb4afa1b10ed2eae35c138214427573b291169b8253e96ca16224ae8c51acbda11317c387e

/-- 2/√π in fixed point, rounded down. -/
def sfuErfScale : Nat := 0x120dd750429b6d11ae3a914fed7fd8688281341d7587cea2e7342b06199cc416180eb39f0b24e1e2281806c12d98f35d77a3e9ddc91c394f0e9eedf0efffd84a2a4ac3b98489b8cbd3845e8fef6ff6af9

/-- m × 2^e in fixed point, rounded down. -/
def toFixed (m : Nat) (e : Int) : Nat :=
  let s := e + sfuBits
  if s ≥ 0 then m * 2 ^ s.toNat else m / 2 ^ (-s).toNat

/-- The product of two fixed-point values, rounded down. -/
def mulFixed (a b : Nat) : Nat := a * b / sfuOne

/-- The sum of t^n/n! from term `n` on, given the term; `k` terms. -/
def expTerms : Nat → Nat → Nat → Nat → Nat
  | 0, _, _, _ => 0
  | k + 1, t, n, term => term + expTerms k t (n + 1) (mulFixed term t / (n + 1))

/-- e^t − 1 for fixed-point t below about 90 (R170's tanh) or below 1 (exp2). -/
def expm1Fixed (t : Nat) : Nat := expTerms 400 t 1 t

/-- Alternating series with the given ratio numerators: Σ (−1)^n term_n, term_(n+1) = term_n × x² / (a (a + 1)),
a rising by 2. -/
def altTerms : Nat → Nat → Nat → Nat → Int
  | 0, _, _, _ => 0
  | k + 1, x2, a, term => (term : Int) - altTerms k x2 (a + 2) (mulFixed term x2 / (a * (a + 1)))

/-- sin of a fixed-point argument below 1. -/
def sinFixed (x : Nat) : Nat := (altTerms 120 (mulFixed x x) 2 x).toNat
/-- cos of a fixed-point argument below 1. -/
def cosFixed (x : Nat) : Nat := (altTerms 120 (mulFixed x x) 1 sfuOne).toNat

/-- Σ z^(2n+1)/(2n+1): atanh of a fixed-point argument of at most 1/3. -/
def atanhTerms : Nat → Nat → Nat → Nat → Nat
  | 0, _, _, _ => 0
  | k + 1, z2, n, p => p / n + atanhTerms k z2 (n + 2) (mulFixed p z2)

/-- erf's series Σ (−1)^n x^(2n+1) / (n! (2n+1)) from power x^(2n+1)/n! on. -/
def erfTerms : Nat → Nat → Nat → Nat → Int
  | 0, _, _, _ => 0
  | k + 1, x2, n, p => (p / (2 * n + 1) : Nat) - erfTerms k x2 (n + 1) (mulFixed p x2 / (n + 1))

/-- A positive fixed-point value that is not exact, rounded to F32 under RNE. -/
def roundFixed (neg : Bool) (x : Nat) : Nat × Flags := roundTo .f32 .rne neg x (-(sfuBits : Int)) true

/-- exp2 of a finite value. -/
def sfuExp2 (neg : Bool) (m : Nat) (e : Int) : Nat × Flags :=
  -- |x| ≥ 512 overflows or underflows; 512 stands for it
  let big := m != 0 && e + (Nat.log2 m : Int) ≥ 9
  if big then (if neg then roundTo .f32 .rne false 1 (-600) true else roundTo .f32 .rne false 1 600)
  else if m = 0 then roundTo .f32 .rne false 1 0
  else
    let mag : Nat := toFixed m e
    let whole := mag / sfuOne
    let frac := mag % sfuOne
    let exact := e ≥ 0 || m % 2 ^ (-e).toNat = 0
    if exact then roundTo .f32 .rne false 1 (if neg then -(whole : Int) else whole)
    else
      let k : Int := if neg then -(whole : Int) - 1 else whole
      let f := if neg then sfuOne - frac else frac
      roundTo .f32 .rne false (sfuOne + expm1Fixed (mulFixed f sfuLn2)) (k - sfuBits) true

/-- log2 of a positive finite value. -/
def sfuLog2 (m : Nat) (e : Int) : Nat × Flags :=
  let l := Nat.log2 m
  let E := e + (l : Int)
  let t := m - 2 ^ l
  if t = 0 then intToF .f32 .rne E
  else
    -- m = 2^l + t, ln(m / 2^l) = 2 atanh(t / (2^(l+1) + t))
    let z := t * sfuOne / (2 ^ (l + 1) + t)
    let ln := 2 * atanhTerms 260 (mulFixed z z) 1 z
    let f := ln * sfuOne / sfuLn2
    let v : Int := E * sfuOne + f
    roundFixed (v < 0) v.natAbs

/-- sin (`phase` 0) or cos (`phase` 1) of a finite value: reduction by π/2 and the series. -/
def sfuTrig (phase : Nat) (neg : Bool) (m : Nat) (e : Int) : Nat × Flags :=
  -- exact multiple: x = m × 2^e; quarter turns q and remainder r in fixed point
  let x := toFixed m e
  let q := 2 * x / sfuPi
  let r := (2 * x - q * sfuPi) / 2
  let quad := (q + phase) % 4
  let v := if quad % 2 = 0 then sinFixed' r else cosFixed' r
  let sgn := (quad ≥ 2) != (neg && phase = 0)
  roundFixed sgn v
where
  /-- sin on [0, π/2). -/
  sinFixed' (r : Nat) : Nat := if r < sfuOne then sinFixed r else cosFixed (sfuPi / 2 - r)
  /-- cos on [0, π/2). -/
  cosFixed' (r : Nat) : Nat := if r < sfuOne then cosFixed r else sinFixed (sfuPi / 2 - r)

/-- tanh of a finite value. -/
def sfuTanh (neg : Bool) (m : Nat) (e : Int) : Nat × Flags :=
  if e + (Nat.log2 m : Int) ≥ 5 then roundTo .f32 .rne neg (2 ^ 60 - 1) (-60) true
  else
    let y := expm1Fixed (2 * toFixed m e)
    roundFixed neg (y * sfuOne / (y + 2 * sfuOne))

/-- erf of a finite value. -/
def sfuErf (neg : Bool) (m : Nat) (e : Int) : Nat × Flags :=
  if e + (Nat.log2 m : Int) ≥ 3 then roundTo .f32 .rne neg (2 ^ 60 - 1) (-60) true
  else
    let x := toFixed m e
    let s := erfTerms 400 (mulFixed x x) 0 x
    roundFixed neg (mulFixed s.toNat sfuErfScale)

/-- 1/√x of a positive finite value. -/
def sfuRsqrt (m : Nat) (e : Int) : Nat × Flags :=
  -- x = m' × 2^e' with e' even; 1/√x = √(2^(2s) / m') × 2^(−s − e'/2)
  let m' := if e % 2 = 0 then m else 2 * m
  let e' := if e % 2 = 0 then e else e - 1
  let s := 200 + Nat.log2 m'
  let n := 2 ^ (2 * s) / m'
  let r := isqrt n
  roundTo .f32 .rne false r (-(s : Int) - e' / 2) (r * r * m' != 2 ^ (2 * s))

/-- The result of a special function on one F32 lane (R170): bits and exceptions. -/
def sfuLane (fn : SfuFn) (bits : Nat) : Nat × Flags :=
  let f := FFmt.f32
  match unpackF f bits with
  | .nan s => (f.qnan, if s then flagNV else 0)
  | .inf neg =>
    match fn with
    | .exp2 => (if neg then f.zero false else f.inf false, 0)
    | .log2 => if neg then (f.qnan, flagNV) else (f.inf false, 0)
    | .rcp => (f.zero neg, 0)
    | .rsqrt => if neg then (f.qnan, flagNV) else (f.zero false, 0)
    | .sin | .cos => (f.qnan, flagNV)
    | .tanh | .erf => roundTo f .rne neg 1 0
  | .fin neg m e =>
    match fn with
    | .exp2 => sfuExp2 neg m e
    | .log2 =>
      if m = 0 then (f.inf true, flagDZ) else if neg then (f.qnan, flagNV) else sfuLog2 m e
    | .rcp => divF f .rne (.fin false 1 0) (.fin neg m e)
    | .rsqrt =>
      if m = 0 then (f.inf neg, flagDZ) else if neg then (f.qnan, flagNV) else sfuRsqrt m e
    | .sin => if m = 0 then (f.zero neg, 0) else sfuTrig 0 neg m e
    | .cos => if m = 0 then roundTo f .rne false 1 0 else sfuTrig 1 neg m e
    | .tanh => if m = 0 then (f.zero neg, 0) else sfuTanh neg m e
    | .erf => if m = 0 then (f.zero neg, 0) else sfuErf neg m e

end Sys2Proof.Machine
end

