-- ==== Sys2Proof/Machine/EngineEvents.lean ====
section
/-! DEFINITION. The events of the engines, of memory and of the units that cores share: loads and stores performed (R155,
R182, R183), the matrix unit and the links (R201 to R212), the special-function unit (R171), VQMX's rounds (R195), barrier
trees (R247), the copy hart (R258, R261), the publish and replay queues (R135, R327), futures (R333), completions and
propagation of accesses (R153, R320), invalidations (R354 to R356). -/

namespace Sys2Proof.Machine
open Sys2Proof

/-- The responses of the fabric requests of a slot's step, or of a step of a thread that has left its slot, have come (R422). -/
def State.fromFabric (s : State) (t born : Nat) : State :=
  let its (o : Outstanding) : Bool :=
    o.born == born && (o.slot == some t || (o.slot.isNone && o.copy.isNone && o.lamp.isNone && !o.writeBack))
  if s.fab.out.any its then { s with fab := { s.fab with out := s.fab.out.filter fun o => !its o } } else s

/-- VLD_COMPLETE (R182). -/
def execVldComplete (c i : Nat) (s : State) : Outcome :=
  match (s.core c).ops[i]? with
  | some o => if o.kind == .vld then .next ((s.finishVld c i o).fromFabric o.slot o.born) else .next s
  | none => .next s

/-! ### Row and line stores (R155, R320) -/

/-- The row that an MDRAIN stores next, as a store of its own: the bytes, ordered as the row's pages say (R217, R315). -/
def EngOp.nextRow (o : EngOp) : EngOp :=
  let c := o.rowCls.getD o.kdone .unordered
  let r := orderOf c MD.zero
  { o with bytes := o.unstored.take (o.lens.getD o.kdone 0), strong := r.strong, scope := r.scope, acq := r.acq,
           unord := c == .unordered }

/-- Whether the next row of an MDRAIN may be stored: a row on a page of class S once those before it have been performed, U pages
aside (R217, R323). -/
def State.rowReady (s : State) (o : EngOp) : Bool :=
  s.storeReady { o with strong := o.nextRow.strong, scope := o.nextRow.scope } && (!o.nextRow.strong ||
    s.hist.all fun w => !(w.writer == some o.slot && w.born == o.born) || w.unord || s.performedIn w .system o.slot)

/-- The author of an outstanding store's write: its rows are single-copy atomic for each aligned word (R184), and while its
sequence has not retired it is unordered with the accesses of its thread (R165). -/
def State.storeAuthor (s : State) (c : Nat) (o : EngOp) : Author :=
  { writer := some o.slot, agent := o.slot, upto := if o.strong then widerScope .core o.scope else .core,
    done := o.strong && o.scope == .system,
    kind := if (s.core c).seqs.any (fun q => o.seq == some q.id) then .captured else if o.kind == .mdrain then .drained else .engine,
    unord := o.unord, launch := some (s.slot o.slot).launch, born := o.born, via := o.via }

/-- The write of an outstanding row store, or of one row of it: with respect to every agent, or to the writer's core or instance;
one that is an acquire as well is then an ordering point of its thread (R319, R323). -/
def State.writeRow (s : State) (c : Nat) (o : EngOp) (va : Option VA) : State :=
  let s0 := s.write { s.storeAuthor c o with va := va } o.bytes
  if o.acq then s0.orderPoint o.slot o.scope false else s0

/-- Whether a write of an operation has still to be performed with respect to some agent. -/
def State.writesOpen (s : State) (o : EngOp) : Bool := s.hist.any fun w => w.writer == some o.slot && w.born == o.born && !w.done

/-- The first performance of an outstanding row store, or of the next row of an MDRAIN, under its address (R217); once everything
has been performed with respect to every agent it leaves its engine. -/
def State.performStore (s : State) (c i : Nat) (o : EngOp) : State :=
  let s1 := if o.kind == .mdrain then s.writeRow c o.nextRow (some (rowAddr o.va o.fmt o.geo (o.kdone * o.step)))
    else s.writeRow c o none
  let o' := if o.kind == .mdrain then o.drainFrom (o.kdone + 1) else { o with written := true }
  if o'.written && !s1.writesOpen o then (s1.retireStore c i o).fromFabric o.slot o.born else
  let k := s1.core c
  s1.setCore c { k with ops := lset k.ops i o' }

/-- STORE_PERFORMED: an outstanding store is performed, of an MDRAIN row by row, then performed with respect to every agent; a
WBACK at once (R155, R184, R217, R320, R337). -/
def execStorePerformed (c i : Nat) (s : State) : Outcome :=
  match (s.core c).ops[i]? with
  | none => .next s
  | some o =>
    if o.kind == .wback then
      if s.writeBackReady c o then .next (((s.writeBack o.src o.scope).retireStore c i o).fromFabric o.slot o.born) else .next s
    else if !o.kind.isStore then .next s
    else if o.written then
      .next (((s.finishWrites o.slot fun w => w.kind != .access && w.born == o.born).retireStore c i o).fromFabric o.slot o.born)
    else if o.kind == .mdrain && (s.core c).unitHead.map (·.1) != some i then .next s
    else if !(if o.kind == .mdrain then s.rowReady o else s.storeReady o) then .next s
    else .next (s.performStore c i o)

/-! ### The matrix unit (R201, R206, R207, R211, R216) -/

/-- MLDB_COMPLETE (R206). -/
def execMldbComplete (c : Nat) (s : State) : Outcome :=
  match (s.core c).unitHead with
  | some (i, o) => if o.kind == .mldb && s.storeReady o then .next ((s.fillLatch c o).retireOp c i o) else .next s
  | none => .next s

/-- MATRIX_OP_COMPLETE: an MMA or MZERO completes; an MMROT has done its multiply and keeps the panel that it read in the A
operand latch for the transfer (R207, R211, R216, R220). -/
def execMatrixOpComplete (c : Nat) (s : State) : Outcome :=
  match (s.core c).unitHead with
  | none => .next s
  | some (i, o) =>
    match o.kind with
    | .mma => if s.storeReady o then .next ((s.multiply c o o.steps).retireOp c i o) else .next s
    | .mzero => .next ((s.zeroRows c o).retireOp c i o)
    | .mmrot =>
      if o.mulDone || !s.storeReady o then .next s else
      let s1 := s.multiply c o o.steps
      let k := s1.core c
      .next (s1.setCore c { k with ops := lset k.ops i { o with kdone := o.steps, mulDone := true }, astage := s.stagedPanel c o,
                                     atag := o.fmt })
    | .vld | .vst | .mldb | .mrotStep | .mrotSkew | .mdrain | .wback => .next s

/-- OPERAND_ROUND_TRANSFER: once the multiply of every core of the sub-torus is done, panels are sent, and then received with
the latches, and the round completes (R211, R212). -/
def execOperandRoundTransfer (c : Nat) (s : State) : Outcome := .next (s.transferRound c false)

/-! ### The special-function unit and VQMX (R169, R171, R195) -/

/-- The result of a special function on a row of 64 F32 lanes. -/
def sfuRow (fn : SfuFn) (r : Row) : SfuResult :=
  let xs := (lanesOf 32 r.elems).map (sfuLane fn)
  { elems := packLanes 32 (xs.map (·.1)), flags := xs.foldl (fun f x => f ||| x.2) 0 }

/-- SFU_RESULT: the request that has reached the unit first is evaluated; its result returns to the slot that waits for it,
which completes, or is discarded (R169, R171). -/
def execSfuResult (o : Nat) (s : State) : Outcome :=
  match (s.octet o).sfu with
  | [] => .next s
  | r :: rest =>
    if s.cycle < r.arrives then .next s else
    let s1 := s.setOctet o { s.octet o with sfu := rest }
    if !r.live then .next s1 else
    let v := sfuRow r.fn ((s.core (coreOf r.slot)).row r.row)
    execParkResume r.slot (s1.setSlot r.slot { s1.slot r.slot with sfu := some v })

/-- VQMX_AGREEMENT: every participant of a slot's round has sent (R195). -/
def execVqmxAgreement (t : Nat) (s : State) : Outcome :=
  let x := s.slot t
  let ts := s.agreeSlots t
  let sent := ts.filterMap fun u => let y := s.slot u
    if y.launch == x.launch && y.vround == x.vround then y.vsent else none
  if x.vsent.isSome && x.vmax.isNone && sent.length == ts.length then
    let v := agreedMaxima (s.nd * 2 ^ 64) sent
    .next (ts.foldl (fun s u => s.setSlot u { s.slot u with vmax := some v }) s)
  else .next s

/-! ### Barrier trees and the copy hart (R247, R258, R261) -/

/-- BARRIER_RELEASE (R247). -/
def execBarrierRelease (cl b : Nat) (s : State) : Outcome :=
  let t := (s.cluster cl).tree b
  if s.treeReady t then .next (s.setCluster cl ((s.cluster cl).setTree b t.release)) else .next s

/-- COPY_BEAT: half of the next beat, its write or its performance (R258, R259). -/
def execCopyBeat (o ch : Nat) (s : State) : Outcome :=
  match ((s.octet o).chan ch).queue with
  | m :: rest => .next (s.moveBeat o ch m rest)
  | [] => .next s

/-- COPY_DISCARD (R261). -/
def execCopyDiscard (o ch : Nat) (s : State) : Outcome :=
  match ((s.octet o).chan ch).queue with
  | m :: rest => if m.killed then .next (s.discardCopy o ch m rest) else .next s
  | [] => .next s

/-! ### Accesses that complete and writes that spread (R153, R320) -/

/-- Whether a fabric request of a slot is not for an access that holds its thread: for an engine operation, a store that waits or
is retried, or a write that some agent does not yet observe. -/
def State.requestStays (s : State) (t : Nat) (o : Outstanding) : Bool :=
  let x := s.slot t
  (s.core (coreOf t)).ops.any (fun p => p.slot == t && p.born == o.born)
    || x.replay.any (fun r => r.made == o.born) || (x.pubq ++ x.drain).any (fun h => h.born == o.born)
    || s.hist.any fun w => w.writer == some t && w.born == o.born && !w.done

/-- The fabric requests of a slot's own accesses are answered; those of its engine operations and of its other stores are not. -/
def State.accessesAnswered (s : State) (t : Nat) : State :=
  if s.fab.out.any (fun o => o.slot == some t) then
    { s with fab := { s.fab with out := s.fab.out.filter fun o => o.slot != some t || s.requestStays t o } }
  else s

/-- The access that holds a slot's thread has completed: its writes have been performed with respect to every agent (R153,
R320). -/
def State.completed (s : State) (t : Nat) : State :=
  let s1 := ((s.finishWrites t fun w => w.kind == .access).finishWake t).accessesAnswered t
  s1.setSlot t { s1.slot t with busy := false, flight := none }

/-- MEMORY_ACCESS_COMPLETE: the access that holds a slot's thread completes; one on its way is performed, and its instruction has
its effect (R143, R151, R153). Requests of a thread that nothing holds are answered. -/
def execMemoryAccessComplete (t : Nat) (s : State) : Outcome :=
  let x := s.slot t
  if !x.busy then .next (s.accessesAnswered t) else
  if s.invals.any (fun v => v.slot == some t)
      || (s.core (coreOf t)).ops.any (fun o => o.slot == t && o.holds) then .next s else
  match x.flight with
  | none => .next (s.completed t)
  | some f =>
    let s1 : State := { s with cur := t, chain := f.chain, inSeq := none }
    match issue f.instr (s1.setSlot t { x with busy := false }) with
    | .next s2 => .next (s2.completed t)
    | .fault f => .fault f
    | .refused r => .refused r

/-- Whether a write of a slot's agent completes by itself: a published or a retried store, one of a thread that has left the
slot, and an access that no longer holds its thread; the engines complete theirs. -/
def State.completesAlone (s : State) (t : Nat) (w : WriteRec) : Bool :=
  w.agent == t && !w.done && (w.writer != some t ||
    match w.kind with
    | .published | .retried => true
    | .access => !(s.slot t).busy
    | .engine | .captured | .drained | .panel => false)

/-- The entries of a replay queue of which a retry has been performed with respect to every agent leave it (R327). -/
def State.clearReplay (s : State) (t : Nat) : State :=
  let x := s.slot t
  if x.replay.isEmpty then s else
  s.setSlot t { x with replay := x.replay.filter fun r =>
    !r.written || s.hist.any fun w => w.writer == some t && w.kind == .retried && w.born == r.made && !w.done }

/-- The oldest write of a slot's agent that completes by itself is performed with respect to every agent; of a retried store
no stale copy then remains (R320, R327, R361). -/
def State.completeOldest (s : State) (t : Nat) : State :=
  match (s.hist.filter (s.completesAlone t)).getLast? with
  | some v =>
    (({ s with hist := finishIn (v.kind == .retried) (fun w => w == v) s.hist [] } : State).clearReplay t).fromFabric t v.born
  | none => s

/-- The next store that a slot's earlier thread has left is performed, or the next published store of its thread. -/
def State.publishNext (s : State) (t : Nat) : Option State :=
  match s.ghosts.find? fun g => g.slot == t with
  | some g => some (({ s with ghosts := s.ghosts.erase g } : State).performHeld none t g.launch g.store)
  | none =>
    let x := s.slot t
    match x.drain with
    | h :: rest =>
      if x.publishWaits h then none else some ((s.setSlot t { x with drain := rest }).performHeld (some t) t x.launch h)
    | [] => none

/-- PUBLISH_ENTRY: the next published store of a slot is performed; where none can be, the oldest write that some agent does
not yet observe becomes performed for every agent (R135, R320). -/
def execPublishEntry (t : Nat) (s : State) : Outcome := .next ((s.publishNext t).getD (s.completeOldest t))

/-- A write becomes performed with respect to an agent: one that is to reach the instance of a scope in one instant is performed
with respect to all of it then, another with respect to that agent alone (R320). -/
def WriteRec.reaches (r : WriteRec) (agent : Nat) : WriteRec :=
  match r.reach with
  | some sc => { r with upto := widerScope r.upto sc, done := r.done || sc == .system, reach := none }
  | none => { r with seenBy := agent :: r.seenBy }

/-- WEAK_WRITE_PROPAGATION: a write becomes performed with respect to one more agent (R320), in the place in the coherence order
that it then takes (R318). -/
def execWeakWritePropagation (w agent : Nat) (s : State) : Outcome :=
  match s.hist[w]? with
  | none => .next s
  | some r =>
    if r.performedAt agent || !s.maySpread w agent r then .next s else
    let (i, s1) := s.placeLate w r
    match s1.hist[i]? with
    | some v => .next { s1 with hist := lset s1.hist i (v.reaches agent) }
    | none => .next s1

/-! ### The replay queue and futures (R327, R333) -/

/-- The published stores of a thread that come before the store of a step are performed, as far as they do not themselves wait
(R135, R318). -/
def State.publishBefore (s : State) (t made : Nat) : Nat → State
  | 0 => s
  | fuel + 1 =>
    let x := s.slot t
    match x.drain with
    | h :: rest =>
      if h.made < made && !x.publishWaits h then
        State.publishBefore ((s.setSlot t { x with drain := rest }).performHeld (some t) t x.launch h) t made fuel
      else s
    | [] => s

/-- The author of the retry of an entry: it reaches its own core, and the other agents in its time (R327). -/
def State.retryAuthor (s : State) (t : Nat) (r : Replay) (ps : List Part) : Author :=
  let strong := partsClass ps == .strong
  { writer := some t, agent := t, upto := if strong then .system else .core, done := strong, kind := .retried,
    unord := partsClass ps == .unordered, launch := some (s.slot t).launch, born := r.made, va := some r.va,
    via := viaOf s.space ps, bytewise := !oneWord (partKeys ps) }

/-- Tries the entries of a slot's replay queue in turn: `late` are the pages of entries that still wait, `kept` those tried,
newest first; an entry of a late page waits as well. One that faults in the second stage again is reported (R327, R351). -/
def State.retryEntries (s : State) (t : Nat) : List Replay → List Nat → List Replay → State
  | [], _, kept => (s.setSlot t { s.slot t with replay := kept.reverse, replayDue := false }).clearReplay t
  | r :: rs, late, kept =>
    if r.written then State.retryEntries s t rs late (r :: kept) else
    let pages := pagesOf r.va r.bytes.length
    let keep (s : State) := State.retryEntries s t rs (pages ++ late) (r :: kept)
    if pages.any late.contains then keep s else
    let s0 : State := { (s.publishBefore t r.made (s.slot t).drain.length) with cur := t, inSeq := none }
    if (s0.slot t).drain.any (fun h => h.made < r.made) then keep s0 else
    match s0.parts s0.space .write 3 r.va r.bytes.length with
    | .error i => keep (s0.stage2Event t i true)
    | .ok ps =>
      let keys := partKeys ps
      let s0 := s0.bringTables s0.space ps (s0.slotRequest t r.made)
      let s1 := ((s0.askPeers (dieOf (coreOf t)) keys true (s0.slotRequest t r.made)).remoteMessages (s0.slot t).launch
        (coreOf t) keys).write (s0.retryAuthor t r ps) (zipBytes keys r.bytes)
      let r' := { r with written := true }
      let s2 := s1.setSlot t { s1.slot t with replay := kept.reverse ++ r' :: rs }
      State.retryEntries s2 t rs late (r' :: kept)

/-- REPLAY_RETRY (R327). -/
def execReplayRetry (t : Nat) (s : State) : Outcome :=
  let x := s.slot t
  if x.replayDue then .next (s.retryEntries t x.replay [] []) else .next s

/-- The cycles that an entry waits at most: 50 µs (R327). -/
def replayLimit : Nat := 70000

/-- REPLAY_TIMEOUT (R327). -/
def execReplayTimeout (t : Nat) (s : State) : Outcome :=
  if (s.slot t).replay.any fun r => !r.written && r.since + replayLimit ≤ s.cycle then .next (s.killSlotDomain t 2) else .next s

/-- LDFUT_RETRY (R333). -/
def execLdfutRetry (t : Nat) (s : State) : Outcome :=
  match (s.slot t).retry with
  | some due => if due ≤ s.now then execParkResume t s else .next s
  | none => .next s

/-! ### Invalidations (R354 to R356, R399) -/

/-- Whether a translation that an invalidation covers is among some. -/
def Cover.meets (c : Cover) (vs : List Via) : Bool := vs.any c.holds

/-- Whether every request that was translated with a covered translation has been performed (R354 clause 3): held, published
and left stores, accesses on their way, and the writes of the history (DEDUCED, log 100). -/
def State.requestsDone (s : State) (c : Cover) : Bool :=
  s.slots.all (fun e => (e.2.pubq ++ e.2.drain).all fun h => !c.meets h.via)
    && s.slots.all (fun e => e.2.flight.all fun f => !c.meets f.via)
    && s.ghosts.all (fun g => !c.meets g.store.via)
    && (s.migrants.map (·.ctx) ++ s.stored.map (·.ctx)).all (fun x => (x.pubq ++ x.drain).all fun h => !c.meets h.via)
    && s.hist.all fun w => w.done || !c.meets w.via

/-- Whether every accepted engine operation that holds a covered translation has performed its accesses (R354 clause 4). -/
def State.enginesDone (s : State) (c : Cover) : Bool :=
  s.cores.all (fun k => k.2.ops.all fun o => !c.meets o.via)
    && s.octets.all fun o => o.2.ch.all fun k => k.2.queue.all fun m => !c.meets m.via

/-- Whether an invalidation may complete (R354); the host's complete in the order written (R399). -/
def State.invalReady (s : State) (v : Inval) : Bool :=
  s.requestsDone v.cover && s.enginesDone v.cover
    && (!v.cover.stage2 || s.invals.all fun w => !w.cover.stage2 || v.id ≤ w.id)

/-- The former second-stage roots after an invalidation: those of a tenant whose whole second stage it covers are gone
(R352, R356). -/
def State.coverRoots (s : State) (c : Cover) : List OldRoot :=
  if !c.stage2 then s.oldRoots else
  s.oldRoots.filterMap fun o =>
    if o.tenant != c.tenant then some o else if c.page.isNone then none else some { o with covers := c :: o.covers }

/-- The completion of an invalidation: no older translation is used any more; the thread that waits is ready again; a
second-stage one counts in S2DONE and makes the replay queues retry (R327, R352, R399). -/
def State.completeInval (s : State) (v : Inval) : State :=
  let s1 : State := { s with invals := s.invals.filter (fun w => w.id != v.id),
                             hist := s.hist.map (fun w => { w with covers := v.cover :: w.covers }),
                             oldRoots := s.coverRoots v.cover }
  let s2 := match v.slot with | some t => s1.setSlot t { s1.slot t with busy := false } | none => s1
  if v.cover.stage2 then
    { s2 with regs := { s2.regs with s2done := s2.regs.s2done + 1 },
              slots := s2.slots.map fun e => (e.1, { e.2 with replayDue := e.2.replayDue || !e.2.replay.isEmpty }) }
  else s2

/-- INVALIDATION_COMPLETE (R354). -/
def execInvalidationComplete (i : Nat) (s : State) : Outcome :=
  match s.invals.find? fun v => v.id == i with
  | some v => if s.invalReady v then .next (s.completeInval v) else .next s
  | none => .next s

/-! ### Slugs (R365) -/

/-- The entries of a core's consolidation buffer (R365). -/
def bufferEntries : Nat := 512

/-- Merges a slug into the first entry of its launch and identity whose weight then stays in range; none when there is no
such entry. -/
def mergeSlug (l : Nat) (v : Slug) : List Consol → Option (List Consol)
  | [] => none
  | e :: es =>
    let sum := e.slug.wt.toInt + v.wt.toInt
    if e.launch == l && sameSlug e.slug v && inWeight sum then
      some (if sum = 0 then es else { e with slug := { e.slug with wt := BitVec.ofInt 32 sum, merged := true } } :: es)
    else (mergeSlug l v es).map (e :: ·)

/-- The consolidation buffer after taking a slug; none when it is full (R365). -/
def takeSlug (l : Nat) (v : Slug) (es : List Consol) : Option (List Consol) :=
  match mergeSlug l v es with
  | some r => some r
  | none => if es.length ≥ bufferEntries then none else some (es ++ [{ launch := l, slug := v }])

/-- The place of an emitting slot in the order of slugs that arrive in one cycle: the die index of its core, then the slot. -/
def emitterOrder (t : Nat) : Nat := coreOf t % 768 * 16 + t % 16

/-- Whether a home has already taken in this cycle a slug of the same identity that another emitter would come before: the
slug has then not arrived in this cycle (R365). -/
def State.comesLate (s : State) (f : Flight) : Bool :=
  let k := s.core f.home
  k.tookAt == s.cycle && k.took.any fun q =>
    q.launch == f.launch && sameSlug q.slug f.slug && emitterOrder f.slot < emitterOrder q.slot

/-- A home takes a slug: its buffer, and what it has taken in this cycle. -/
def Core.take (k : Core) (now : Nat) (f : Flight) (es : List Consol) : Core :=
  let q : Taken := { launch := f.launch, slug := f.slug, slot := f.slot }
  { k with consol := es, took := if k.tookAt == now then q :: k.took else [q], tookAt := now }

/-- The closure domain of a launch and a tag, for its counts (R367). -/
def tagDomain (l : Nat) (tag : BitVec 16) : Nat := l * 2 ^ 16 + tag.toNat
/-- Counts a slug of a tag as sent at one core and received at another (R308, R367). -/
def State.countSlug (s : State) (f : Flight) : State :=
  let d := tagDomain f.launch f.slug.tag
  let bump (s : State) (c : Nat) (g : Counts → Counts) : State :=
    let k := s.core c
    s.setCore c { k with tagCounts := aset {} k.tagCounts d (g (aget {} k.tagCounts d)) }
  bump (bump ((s.msgSent f.launch (coreOf f.slot)).msgRcvd f.launch f.home) (coreOf f.slot) fun n => { n with sent := n.sent + 1 })
    f.home fun n => { n with rcvd := n.rcvd + 1 }

/-- SLUG_ARRIVAL: the home takes a slug in one step, the slug counts, and the GEMIT that sent it completes (R365, R375,
R308). -/
def execSlugArrival (i : Nat) (s : State) : Outcome :=
  match s.flights[i]? with
  | none => .next s
  | some f =>
    match s.boundaryTrap f.slot with
    | some s' => .next s'
    | none =>
      if (s.slot f.slot).mode != .running || s.comesLate f then .next s else
      match takeSlug f.launch f.slug (s.core f.home).consol, (s.slot f.slot).park with
      | some es, some (_, ch) =>
        let s1 := (s.setCore f.home ((s.core f.home).take s.cycle f es)).countSlug f
        let s2 : State := { s1.hasEmitted f.launch with flights := ldel s1.flights i, cur := f.slot, chain := ch }
        .next (s2.setMe { s2.me with park := none }).advance
      | _, _ => .next s

end Sys2Proof.Machine
end

