-- ==== Sys2Proof/Machine/Save.lean ====
section
/-! DEFINITION. Saving and restoring a group (R305, R306): thread records, core records, what a slice begins with (R31, R33,
R299, R300), sequences captured again (R168), stopped matrix operations (R222, R354); SLICE_SAVE, SLICE_RESTORE,
MIGRATION_ARRIVAL. -/

namespace Sys2Proof.Machine
open Sys2Proof

/-! ### Records (R306) -/

/-- The address of the record of core `k` of group `g`. -/
def Launch.coreRecord (l : Launch) (g k : Nat) : VA :=
  let cr := (l.f.save.toNat + l.f.maxg * l.f.threads * 0x400 + 0x3FFF) / 0x4000 * 0x4000
  BitVec.ofNat 48 (cr + 0x14000 * (8 * g + k))

/-- 64-bit words as bytes. -/
def wordBytes (ws : List W64) : List (BitVec 8) := ws.flatMap fun w => toBytes 8 w.toNat

/-- The pointers as a list. -/
def Pointers.toList (p : Pointers) : List W64 := [p.p0, p.p1, p.p2, p.p3, p.p4, p.p5, p.p6, p.p7]
/-- Pointers from a list. -/
def Pointers.ofList (ws : List W64) : Pointers :=
  { p0 := ws.getD 0 0, p1 := ws.getD 1 0, p2 := ws.getD 2 0, p3 := ws.getD 3 0, p4 := ws.getD 4 0, p5 := ws.getD 5 0,
    p6 := ws.getD 6 0, p7 := ws.getD 7 0 }

/-- A sequence record. -/
def Seq.record (q : Seq) : List (BitVec 8) :=
  let w : W64 := 0#16 ++ q.rm ++ q.flags ++ 0#6 ++ q.code ++ BitVec.ofNat 8 (q.instrs.length - 1) ++ BitVec.ofNat 8 (q.n - 1)
    ++ BitVec.ofNat 8 q.i ++ BitVec.ofNat 8 q.j
  wordBytes ([q.addr.zeroExtend 64, w] ++ q.ptrs.toList ++ [q.xi.pack]) ++ toBytes 40 0

/-- A sequence with what its record holds; its instructions are captured again from its address (R168). -/
def Seq.fromRecord (q : Seq) (bs : List (BitVec 8)) : Seq :=
  let w (i : Nat) : W64 := BitVec.ofNat 64 (bytesField bs (8 * i) 8)
  let addr : VA := evenAddr ((w 0).truncate 48)
  let len := ((w 1).extractLsb' 24 8).toNat % 16 + 1
  { q with addr := addr, start := addr + (q.start - q.addr), rm := (w 1).extractLsb' 45 3, flags := (w 1).extractLsb' 40 5,
           code := (w 1).extractLsb' 32 2, instrs := (q.instrs ++ List.replicate len (Instr.nop, ({} : Chain))).take len,
           n := ((w 1).extractLsb' 16 8).toNat + 1, i := ((w 1).extractLsb' 8 8).toNat,
           j := ((w 1).extractLsb' 0 8).toNat, ptrs := Pointers.ofList ((upto 8).map fun k => w (k + 2)),
           xi := Index.unpack (w 10) }

/-- A sequence of a slot of which only the record is known: its REP is one halfword long (R162). -/
def blankSeq (t id : Nat) : Seq :=
  { slot := t, id := id, addr := 0, start := 2, n := 1, code := 0, instrs := [], ptrs := {}, xi := {}, rm := 0, rows := [],
    latch := false, tiles := [] }

/-- The words of a slot's two banks. -/
def Slot.bankWords (x : Slot) : List W64 :=
  [x.bank1.epc.zeroExtend 64, x.bank1.cause.pack, x.bank1.badv, x.bank2.epc.zeroExtend 64, x.bank2.cause.pack, x.bank2.badv]

/-- The part of a thread record that the lamplighter writes. -/
def State.threadBytes (s : State) (x : Slot) (t debt : Nat) : List (BitVec 8) :=
  let counts : W64 := BitVec.ofNat 64 (256 * x.saved.length + s.copiesOf x)
  wordBytes (contextWords t x ++ x.bankWords ++ [counts, if x.thread == 0 then BitVec.ofNat 64 debt else 0])
    ++ (x.saved.take 4).flatMap Seq.record ++ toBytes (128 * (4 - x.saved.length)) 0

/-- A slot with the context that a thread record holds, with its counts of sequences and of copies; the banks are those of
the record in the slot that the thread was saved in and zero in any other (R224, log 89). What the record has no field for
stays, but for a latch, which the record of the core holds (R306). -/
def Slot.fromRecord (x : Slot) (t id : Nat) (bs : List (BitVec 8)) : Slot :=
  let w (i : Nat) : W64 := BitVec.ofNat 64 (bytesField bs (8 * i) 8)
  let bank (i : Nat) : Bank :=
    if x.left == some t then { epc := evenAddr ((w i).truncate 48), cause := Cause.unpack (w (i + 1)), badv := w (i + 2) } else {}
  { x with a := w 0, ptrs := Pointers.ofList ((upto 8).map fun k => w (k + 1)), pc := evenAddr ((w 9).truncate 48),
           st := { Status.unpack (w 10) with cd := x.st.cd }, lk := (w 11).truncate 48, xi := Index.unpack (w 12),
           savp := (w 13).truncate 48 &&& ~~~0x7F#48, bank1 := bank 16, bank2 := bank 19, latch := none,
           saved := (upto (min 4 (bytesField bs 0xB1 1))).map fun k =>
             (x.saved.getD k (blankSeq t (id + k))).fromRecord (bs.drop (0xC0 + 128 * k)) }

/-- The tile word of a core record. -/
def Tile.word (t : Tile) : W64 :=
  flagBit t.alloc ++ (match t.size with | .e16 => 0#2 | .e32 => 1#2 | .e64 => 2#2) ++ t.banks
    ++ flagBit (t.owner == .shared) ++ (match t.owner with | .shared => 0#4 | .slot n => n) ++ t.flags ++ 0#15 ++ t.ks

/-- A tile from its word. -/
def Tile.ofWord (l : Nat) (w : W64) : Tile :=
  { alloc := w.getLsbD 63, size := (match (w.extractLsb' 61 2).toNat with | 0 => .e16 | 1 => .e32 | _ => .e64),
    banks := w.extractLsb' 57 4, owner := if w.getLsbD 56 then .shared else .slot (w.extractLsb' 52 4), launch := l,
    flags := w.extractLsb' 47 5, ks := w.extractLsb' 0 32 }

/-- The bytes of a command block from the fields that an accepted operation copied. -/
def MatBlock.bytes (b : MatBlock) : List (BitVec 8) :=
  toBytes 8 (0xFF8000000000 + b.aoff) ++ toBytes 4 b.astr ++ toBytes 2 b.k
    ++ toBytes 1 (b.tile.toNat + 4 * bnat b.zero + 8 * bnat b.tri) ++ toBytes 1 0 ++ toBytes 4 (wrapNat 32 b.diag)
    ++ toBytes 4 0 ++ toBytes 8 b.mask.toNat ++ toBytes 8 (0xFF8000000000 + b.boff) ++ toBytes 4 b.bstr ++ toBytes 2 b.n
    ++ toBytes 2 0 ++ toBytes 8 b.afwd ++ toBytes 8 0

/-- The number of an operation's kind in a core record. -/
def EngKind.number : EngKind → Nat
  | .mldb => 1 | .mma => 2 | .mmrot => 3 | .mrotStep => 4 | .mrotSkew => 5 | .mzero => 6 | .mdrain => 7
  | .vld | .vst | .wback => 0

/-- The kind of an operation by its number in a core record. -/
def kindOf : Nat → Option EngKind
  | 1 => some .mldb | 2 => some .mma | 3 => some .mmrot | 4 => some .mrotStep | 5 => some .mrotSkew | 6 => some .mzero
  | 7 => some .mdrain | _ => none

/-- The record of a stopped matrix operation of a thread: the copied block, then kind, K-steps, round, thread, format, geometry,
first row, whether its multiply is done, and the address and step of an MDRAIN (log 36). -/
def EngOp.record (o : EngOp) (thread : BitVec 7) : List (BitVec 8) :=
  o.blk.bytes ++ toBytes 8 o.kind.number ++ toBytes 8 o.kdone ++ toBytes 8 o.round ++ toBytes 8 thread.toNat
    ++ toBytes 1 o.fmt.toNat ++ toBytes 1 o.geo.toNat ++ toBytes 1 (o.rows.headD 0).toNat ++ toBytes 1 (bnat o.mulDone)
    ++ toBytes 4 o.rows.length ++ toBytes 8 o.va.toNat ++ toBytes 8 (wrapNat 64 o.step) ++ toBytes 8 0

/-- The fields of a command block as a record holds them. -/
def MatBlock.ofBytes (bs : List (BitVec 8)) : MatBlock :=
  let f (off n : Nat) : Nat := bytesField bs off n
  let ctl := f 0x0E 1
  { aoff := f 0 8 % 2 ^ 48 - 0xFF8000000000, astr := f 8 4, k := f 0x0C 2, tri := bit ctl 3, zero := bit ctl 2,
    tile := BitVec.ofNat 2 ctl, diag := signed 32 (f 0x10 4), mask := BitVec.ofNat 64 (f 0x18 8),
    boff := f 0x20 8 % 2 ^ 48 - 0xFF8000000000, bstr := f 0x28 4, n := f 0x2C 2, afwd := f 0x30 8 }

/-- A stopped operation with what the record of its core holds; none where the record holds no operation. -/
def EngOp.fromRecord (o : EngOp) (bs : List (BitVec 8)) : Option EngOp :=
  let f (off n : Nat) : Nat := bytesField bs off n
  (kindOf (f 0x40 8)).map fun kind =>
    let fmt := BitVec.ofNat 4 (f 0x60 1)
    let geo := BitVec.ofNat 2 (f 0x61 1)
    let row : RowRef := BitVec.ofNat 8 (f 0x62 1)
    { o with blk := { MatBlock.ofBytes bs with fmt := fmt, geo := geo }, kind := kind, kdone := f 0x48 8, round := f 0x50 8,
             fmt := fmt, geo := geo, mulDone := bit (f 0x63 1) 0, va := BitVec.ofNat 48 (f 0x68 8), step := signed 64 (f 0x70 8),
             rows := (upto (min 64 (f 0x64 4))).map fun i => rowOf (rowTile row) (rowNum row + i) }

/-- The record of a latch: tag, K, N, serial, then scale bytes and element bytes. -/
def Latch.record (l : Latch) : List (BitVec 8) :=
  toBytes 4 l.tag.toNat ++ toBytes 4 l.k ++ toBytes 4 l.n ++ toBytes 4 l.serial.toNat ++ toBytes 256 l.scales.toNat
    ++ toBytes 8192 l.elems.toNat

/-- A latch from its record. -/
def Latch.ofRecord (bs : List (BitVec 8)) : Latch :=
  { tag := BitVec.ofNat 4 (bytesField bs 0 4), k := bytesField bs 4 4, n := bytesField bs 8 4,
    serial := BitVec.ofNat 32 (bytesField bs 12 4), scales := BitVec.ofNat 2048 (bytesField bs 16 256),
    elems := BitVec.ofNat 65536 (bytesField bs 272 8192) }

/-- The 264 bytes of a row: in each granule 32 element bytes and then its scale byte (R85). -/
def Row.bytes (r : Row) : List (BitVec 8) :=
  let es := toBytes 256 r.elems.toNat
  let ss := toBytes 8 r.scales.toNat
  (upto 8).flatMap fun g => (es.drop (32 * g)).take 32 ++ (ss.drop g).take 1

/-- A row from its 264 bytes (R85): the scale bytes of the tags 1 to 8 are ignored (R86). -/
def Row.ofBytes (tag : BitVec 4) (bs : List (BitVec 8)) : Row :=
  { tag := tag, elems := BitVec.ofNat 2048 (Sys2Proof.Machine.ofBytes ((upto 8).flatMap fun g => (bs.drop (33 * g)).take 32)),
    scales := if 1 ≤ tag.toNat && tag.toNat ≤ 8 then 0
      else BitVec.ofNat 64 (Sys2Proof.Machine.ofBytes ((upto 8).map fun g => bs.getD (33 * g + 32) 0)) }

/-- The tiles that a launch holds on a core. -/
def Core.tilesOf (k : Core) (l : Nat) : List (BitVec 2) :=
  allTiles.filter fun t => (k.tile t).alloc && (k.tile t).launch == l

/-! ### Saving a group (R305) -/

/-- The slots that hold a group's ordinary threads. -/
def State.ordinarySlots (s : State) (l g : Nat) : List Nat := (s.groupSlots l g).filter fun t => !(s.slot t).stage

/-- Whether nothing of a slot's thread but its context remains on its core. -/
def State.quiet (s : State) (t : Nat) : Bool :=
  let c := coreOf t
  (s.slot t).drain.isEmpty && (s.core c).ops.all (fun o => o.slot != t)
    && (s.octet (octetOf c)).sfu.all fun r => r.slot != t

/-- Whether a group stands in retention and can be stored. -/
def State.canSave (s : State) (l g : Nat) : Bool :=
  match (s.launch l).group? g with
  | some x => x.state == .suspended && !x.saved && (s.ordinarySlots l g).all s.quiet
  | none => false

/-- Writes a thread's record and gates its slot; what the slot itself holds stays (R34, R152), and the thread stays a member of its
barrier trees (R246). -/
def State.saveThread (s : State) (l : Launch) (debt t : Nat) : State :=
  let x := s.slot t
  let s1 := s.lampWrite l (l.threadRecord x.gidx x.thread.toNat) (s.threadBytes x t debt)
  let id := 2 ^ 64 + s.nd * 2 ^ 20 + t
  let s2 : State := { s1.renameWriter t id with stored := s1.stored ++ [{ ctx := { x with copies := 0 }, slot := t, id := id }] }
  let k := clusterOf (coreOf t)
  (s2.moveMember k (t % 3072) k id x.uid).setSlot t x.gone

/-- The tiles that a launch holds on a core go to the record of the core: rows, tags, words. -/
def State.saveTiles (s : State) (i : Nat) (l : Launch) (g c : Nat) : State :=
  let k := s.core c
  let at_ (off : Nat) : VA := l.coreRecord g (c % 8) + BitVec.ofNat 48 off
  (k.tilesOf i).foldl (fun s t =>
    let rows := (upto 64).map fun r => k.row (rowOf t r)
    let s1 := rows.zipIdx.foldl (fun s r => s.lampWrite l (at_ (0x4200 * t.toNat + 0x108 * r.2)) r.1.bytes) s
    let s2 := s1.lampWrite l (at_ (0x10800 + 64 * t.toNat)) (rows.map fun r => r.tag.zeroExtend 8)
    s2.lampWrite l (at_ (0x10900 + 16 * t.toNat)) (wordBytes [(k.tile t).word, 0])) s

/-- The latch that a group keeps on a core: that of a pre-empted thread, else the core's, when it is the launch's. -/
def State.keptLatch (s : State) (l : Launch) (c : Nat) (mine : List Nat) : Option Latch :=
  let v := (mine.findSome? fun t => (s.slot t).latch).getD (s.core c).latch
  if v.serial == l.serial then some v else none

/-- The record of a core of a group: the tiles of the launch, its stopped operation, the latch when it is the launch's, and
the places that are zero. -/
def State.saveCore (s : State) (i : Nat) (l : Launch) (g c : Nat) (ts : List Nat) : State :=
  let at_ (off : Nat) : VA := l.coreRecord g (c % 8) + BitVec.ofNat 48 off
  let mine := ts.filter fun t => coreOf t == c
  let stopped := mine.findSome? fun t => (s.slot t).savedOps.head?.map fun o => o.record (s.slot t).thread
  let s1 := (s.saveTiles i l g c).lampWrite l (at_ 0x10940) (stopped.getD (toBytes 128 0) ++ toBytes 64 0)
  let s2 := match s.keptLatch l c mine with | some v => s1.lampWrite l (at_ 0x10A00) v.record | none => s1
  s2.lampWrite l (at_ 0x12B10) (toBytes 5360 0)

/-- Stores a group of a launch to its save area and gates its slots, and its tiles where no other thread of the launch
stands. -/
def State.saveGroup (s : State) (i g : Nat) : State :=
  let l := s.launch i
  match l.group? g with
  | none => s
  | some x =>
    let ts := s.ordinarySlots i g
    let cores := span (8 * x.octet) 8
    let held := cores.flatMap fun c => ((s.core c).tilesOf i).map fun t => (c % 8, t.toNat)
    let latches := (cores.filter fun c => (s.keptLatch l c (ts.filter fun t => coreOf t == c)).isSome).map (· % 8)
    let s1 := cores.foldl (fun s c => s.saveCore i l g c ts) s
    let s2 := ts.foldl (fun s t => s.saveThread l x.debt t) s1
    let s3 := cores.foldl (fun s c =>
      let own (o : TileOwner) : Bool := ts.any fun t => coreOf t == c && o == .slot (BitVec.ofNat 4 t)
      let last := (s.launchSlotsOn i c).isEmpty
      s.setCore c ((s.core c).gateTiles fun y => y.launch == i && (own y.owner || (last && y.owner == .shared)))) s2
    let rounds := cores.map fun c => (c % 8, aget 0 (s.core c).rounds i)
    s3.setLaunch i ((s3.launch i).setGroup g fun y =>
      { y with saved := true, tiles := held, rounds := rounds, latches := latches })

/-- SLICE_SAVE; its end is a scheduling event (R305, R296). -/
def execSliceSave (l g : Nat) (s : State) : Outcome :=
  if s.canSave l g then .next (((s.lampAnswered (s.launch l).die).saveGroup l g).decideAt (s.launch l).die) else .next s

/-- The groups that stand in retention on an octet, but for one. -/
def State.retainedOn (s : State) (o l g : Nat) : List (Nat × Nat) :=
  s.launches.flatMap fun e => (e.2.groups.filter fun x =>
    x.state == .suspended && !x.saved && !(e.1 == l && x.index == g)
      && (s.ordinarySlots e.1 x.index).any fun t => octetOf (coreOf t) == o).map fun x => (e.1, x.index)

/-! ### What a slice begins with (R299, R300, R33) -/

/-- The registers that the lamplighter loads from the RCB before each slice (R225). -/
def Slot.loadRcb (x : Slot) (l : Launch) : Slot := { x with tvb := l.f.tvb, tbase := l.f.root, rcbp := l.rcb }

/-- The time base as it will stand in a cycle (R125). -/
def State.timeAt (s : State) (cycle : Nat) : Nat := s.now + 5 * ((s.phase7 + (cycle - s.cycle)) / 7)

/-- The start of a slice of some threads: the time base in the first cycle in which one of them may issue (R299, R152). -/
def State.sliceStart (s : State) (ts : List Nat) : Nat :=
  match ts.map fun t => Nat.max s.cycle (Nat.max (s.slot t).ready (s.core (coreOf t)).next) with
  | [] => s.now
  | c :: cs => s.timeAt (cs.foldl Nat.min c)

/-- A group whose slice begins: its start, its budget and the debt carried forward (R299, R300). -/
def Group.begin (g : Group) (l : Launch) (start : Nat) : Group :=
  { g with state := .placed, start := start, budget := Nat.max 1000 (l.f.slice - g.debt), debt := g.debt + 1000 - l.f.slice,
           due := none, restoring := false, saved := false, tiles := [], rounds := [], latches := [], energy := 0 }

/-- The position at which a capture from an address fails, and why; none when it does not (R168). -/
def State.captureFault (s : State) (q : Seq) : Option (Nat × TrapInfo) :=
  (upto q.instrs.length).findSome? fun k =>
    match s.capture q.ptrs (fun _ => false) (k + 1) q.start [] [] with
    | .error (.trap t) => some (k, t)
    | _ => none

/-- Captures a thread's saved sequences again (R168), at the thread's privilege as it now is, which the rules do not settle (DESIGN
CHOICE, log 121); from one that cannot be captured on, they are discarded and the thread
takes the trap as a sequence fault. -/
def State.recapture (s : State) (t : Nat) : List Seq → State
  | [] => s
  | q :: qs =>
    let s0 : State := { s with cur := t, inSeq := none }
    match s0.captureFault q, s0.capture q.ptrs (fun _ => false) q.instrs.length q.start [] [] with
    | none, .ok (_, is, ts) =>
      let k := s.core (coreOf t)
      let q' : Seq := { q with slot := t, instrs := is, rows := passRows q.n (staggerRows q.code) is ts,
                               latch := is.any (fun i => usesLatch i.1), tiles := ts }
      let s1 := s.setCore (coreOf t) { k with seqs := k.seqs ++ [q'] }
      State.recapture (s1.setSlot t { s1.slot t with tiles := (s1.slot t).tiles + 1 }) t qs
    | some (i, f), _ =>
      let s1 := s.stage2Event t f false
      let x := s1.slot t
      s1.setSlot t { x with seqFault := some { info := f, j := BitVec.ofNat 5 q.j, i := BitVec.ofNat 4 i },
                            seqFlags := x.seqFlags ||| q.flags }
    | none, .error _ => s

/-- A stopped matrix operation translates again (R354): its panel, or the rows that it stores. -/
def State.retranslate (s : State) (o : EngOp) : Except Stop EngOp :=
  let panel (base stride n : Nat) : Except Stop EngOp := do
    let p : Panel := { base := BitVec.ofNat 48 (0xFF8000000000 + base), stride := stride, count := n }
    let ps ← s.panelRows o.fmt p (panelLen o.fmt o.geo o.blk.k) n 0
    let ord := orderOf (strongestClass ps) MD.zero
    .ok { o with strong := ord.strong, scope := ord.scope, unord := strongestClass ps == .unordered, pages := pageClasses ps,
                 via := viaOf s.space ps }
  match o.kind with
  | .mdrain => do
    let (xs, bytes) ← s.drainRows o.va o.step o.fmt o.geo 0 o.rows
    .ok (EngOp.drainFrom { o with bytes := bytes, lens := xs.map (·.all.length), rowCls := rowClasses xs,
                                  via := viaOf s.space (xs.flatMap (·.parts)) } 0)
  | .mldb => panel o.blk.boff o.blk.bstr o.blk.n
  | .mma | .mmrot | .mrotStep | .mrotSkew => panel o.blk.aoff o.blk.astr 64
  | .vld | .vst | .mzero | .wback => .ok o

/-- A thread's stopped matrix operations continue (R222); a fault in their translation, which the host is told when it is the
second stage's (R351), kills the context (R354). -/
def State.resumeOps (s : State) (t : Nat) : List EngOp → State
  | [] => s
  | o :: os =>
    let s0 : State := { s with cur := t, inSeq := none }
    match s0.retranslate o with
    | .ok o' =>
      let k := s.core (coreOf t)
      let s1 := s.setCore (coreOf t) { k with ops := k.ops ++ [{ o' with slot := t }] }
      let x := s1.slot t
      State.resumeOps (if o.seq.isSome then s1
        else if o.kind.isLoad then s1.setSlot t { x with loads := x.loads + 1 }
        else if o.kind.isStore then s1.setSlot t { x with stores := x.stores + 1 }
        else s1.setSlot t { x with tiles := x.tiles + 1 }) t os
    | .error (.trap i) =>
      (s.stage2Event t i false).killContext t (s.slot t).pc { ppl := (s.slot t).st.pl, s2 := i.s2, acc := i.acc, code := i.code } i.badv
    | .error (.park _) => s

/-- The read of a stage thread's record that faults breaks its tag and kills the fault domain of its group (R371). -/
def State.recordRead (s : State) (l : Launch) (x : Slot) : State :=
  match s.parts l.space .read 2 (x.record + 0xB0) 8 with
  | .ok _ => s
  | .error _ => if x.stage then (s.breakTag x.launch x.stag).killDomain x.launch x.gidx 3 else s

/-- A thread of a slice that begins again: the latch, its sequences, its operations, its counters (R305). -/
def State.resumeThread (s : State) (l : Launch) (t : Nat) : State :=
  let x := s.slot t
  let c := coreOf t
  let s0 := match x.latch with
    | some v => let s1 := s.keepLatch c v.serial
      s1.setCore c { s1.core c with latch := v }
    | none => s
  let moved := x.preempted || x.left.isSome
  let y := { x.loadRcb l with mode := .running, saved := [], savedOps := [], latch := none, preempted := false, left := none,
                              copies := if moved then x.copies + s.recordCopies l x else x.copies, copyBase := 0 }
  let s1 := (s0.setSlot t y).recapture t x.saved
  let live := (s1.core c).seqs.map (·.id)
  let s2 := s1.resumeOps t (x.savedOps.filter fun o => match o.seq with | some q => live.contains q | none => true)
  if moved then (s2.lampTouched l (x.record + 0xB0) 8).recordRead l x else s2

/-! ### Restoring a group (R305) -/

/-- Installs what the record of a core holds: the tiles that were saved and the latch. The owner of a private tile is the
slot in which its thread stands now. -/
def State.restoreCore (s : State) (i : Nat) (l : Launch) (x : Group) (ts : List Nat) (c : Nat) : State :=
  let at_ (off : Nat) : VA := l.coreRecord x.index (c % 8) + BitVec.ofNat 48 off
  let tiles := (x.tiles.filter fun e => e.1 == c % 8).map fun e => BitVec.ofNat 2 e.2
  let owner (o : TileOwner) : TileOwner :=
    match o with
    | .shared => .shared
    | .slot n =>
      match ts.find? fun t => coreOf t == c && (s.slot t).left.map (· % 16) == some n.toNat with
      | some t => .slot (BitVec.ofNat 4 t)
      | none => .slot n
  let touched (s : State) (t : BitVec 2) : State :=
    ((s.lampTouched l (at_ (0x4200 * t.toNat)) 0x4200).lampTouched l (at_ (0x10800 + 64 * t.toNat)) 64).lampTouched l
      (at_ (0x10900 + 16 * t.toNat)) 16
  let s1 := tiles.foldl (fun s t =>
    let y := Tile.ofWord i (BitVec.ofNat 64 (ofBytes (s.lampRead l (at_ (0x10900 + 16 * t.toNat)) 8)))
    let tags := s.lampRead l (at_ (0x10800 + 64 * t.toNat)) 64
    let row (r : Nat) : Row := Row.ofBytes ((tags.getD r 0).truncate 4) (s.lampRead l (at_ (0x4200 * t.toNat + 0x108 * r)) 264)
    let k := (s.core c).setTile t { y with owner := owner y.owner }
    touched (s.setCore c ((upto 64).foldl (fun k r => k.setRow (rowOf t r) (row r)) k)) t) s
  let s1 := if x.latches.contains (c % 8) then (s1.lampTouched l (at_ 0x10A00) 8464).keepLatch c l.serial else s1
  let k := s1.core c
  let v := if x.latches.contains (c % 8) then Latch.ofRecord (s.lampRead l (at_ 0x10A00) 8464) else k.latch
  let rounds := match x.rounds.find? fun e => e.1 == c % 8 with | some e => aset 0 k.rounds i e.2 | none => k.rounds
  s1.setCore c { k with rounds := rounds, latch := if v.serial == l.serial then v else k.latch }

/-- Where a stopped operation of a thread stands in the record of its core. -/
def Launch.stoppedAt (l : Launch) (g t : Nat) : VA := l.coreRecord g (coreOf t % 8) + 0x10940

/-- The first stopped operation of a thread as the record of its core holds it. -/
def State.restoreOp (s : State) (l : Launch) (g t : Nat) (x : Slot) : Slot :=
  let bs := s.lampRead l (l.stoppedAt g t) 128
  if bytesField bs 0x58 8 != x.thread.toNat then x else
  match x.savedOps with
  | o :: os => { x with savedOps := match o.fromRecord bs with | some p => p :: os | none => os }
  | [] => x

/-- The stage threads of a launch that wait on an octet (R370). -/
def State.waitingStages (s : State) (i o : Nat) : List Nat :=
  (s.slots.filter fun e => e.2.stage && e.2.mode == .suspended && e.2.launch == i && octetOf (coreOf e.1) == o).map (·.1)

/-- Stage threads of a launch that wait on an octet join the group whose slice begins there (R370); their TID shows it from then
on (DESIGN CHOICE, log 37); one that a kill has ended meanwhile does not (R371). -/
def State.joinStages (s : State) (i g o : Nat) : State :=
  (s.waitingStages i o).foldl (fun s t =>
    if !((s.slot t).stage && (s.slot t).mode == .suspended) then s
    else (s.setSlot t { s.slot t with gidx := g, group := BitVec.ofNat 32 g }).resumeThread (s.launch i) t) s

/-- The debt that stands in a group's record (R300); where it cannot be read, the debt that was written (DEDUCED,
log 98). -/
def State.recordDebt (s : State) (l : Launch) (x : Group) : Nat :=
  match s.parts l.space .read 2 (l.threadRecord x.index 0 + 0xB8) 8 with
  | .ok _ => ofBytes (s.lampRead l (l.threadRecord x.index 0 + 0xB8) 8)
  | .error _ => x.debt

/-- Begins the slice of a group whose threads stand in their slots, with the debt of its record, where what is carried forward
then stands (R299, R300). -/
def State.beginSlice (s : State) (i g : Nat) : State :=
  let l := s.launch i
  match l.group? g with
  | none => s
  | some x =>
    let debt := s.recordDebt l x
    let start := s.sliceStart (s.ordinarySlots i g)
    let s1 := (s.lampTouched l (l.threadRecord x.index 0 + 0xB8) 8).setLaunch i
      (l.setGroup g fun y => ({ y with debt := debt }).begin l start)
    (s1.writeDebt i g).joinStages i g x.octet

/-- The slots of a group whose restore is still to come. -/
def State.restoringSlots (s : State) (l g : Nat) : List Nat :=
  (s.ordinarySlots l g).filter fun t => (s.slot t).mode == .restoring

/-- A placed group finds its state retained or has its records loaded, and its slice begins (R305, R299); one of which no thread
is left ends (R312), and a thread that a kill has ended meanwhile does not begin (R371). -/
def State.restoreGroup (s : State) (l g : Nat) : State :=
  let x := s.launch l
  match x.group? g with
  | none => s
  | some y =>
    let ts := s.restoringSlots l g
    let s1 := if !y.saved then s else
      let s0 := ts.foldl (fun s t =>
        let z := s.slot t
        let at_ := x.threadRecord g z.thread.toNat
        let w := z.fromRecord t s.nd (s.lampRead x at_ 0x2C0)
        let s1 := (s.setSlot t (s.restoreOp x g t w)).lampTouched x at_ 0x2C0
        if w.savedOps.isEmpty then s1 else s1.lampTouched x (x.stoppedAt g t) 128) s
      (span (8 * y.octet) 8).foldl (fun s c => s.restoreCore l x y ts c) s0
    let begin_ (s : State) (t : Nat) : State := if (s.slot t).mode == .restoring then s.resumeThread (s.launch l) t else s
    ((ts.foldl begin_ (s1.beginSlice l g)).decideAt x.die).checkGroup l g

/-- Whether a launch is a gang launch (R295). -/
def Fields.gang (f : Fields) : Bool := f.subW * f.subH > 1

/-- SLICE_RESTORE: the slice of a placed group begins, and those of the other groups of a gang with it (R295, R305); its end is a
scheduling event (R296). While its launch is Dry the group waits (R298). -/
def execSliceRestore (l g : Nat) (s : State) : Outcome :=
  let x := s.launch l
  match x.group? g with
  | none => .next s
  | some y =>
    if !(y.state == .placed && y.restoring) || x.state == .dry then .next s else
    let gs := if x.f.gang then (x.groups.filter fun q => q.state == .placed && q.restoring).map (·.index) else [g]
    .next (gs.foldl (fun s g => s.restoreGroup l g) (s.lampAnswered x.die))

/-! ### Migration (R307, R35) -/

/-- The lowest-numbered slot of a core that no running slice configures and no stage thread holds. -/
def State.freeSlot (s : State) (c : Nat) : Option Nat :=
  ((upto 16).map (16 * c + ·)).find? fun t => !s.configured t && !(s.slot t).stage

/-- Stores the groups in retention that hold a slot (R305); none where one of them cannot be stored yet. -/
def State.clearSlot (s : State) (t : Nat) : Option State :=
  let x := s.slot t
  if !x.live then some s
  else if s.canSave x.launch x.gidx then some (s.saveGroup x.launch x.gidx) else none

/-- Whether a slice runs on a core, or one is placed there for stage threads that wait for it (R126, R370). -/
def State.coreBusy (s : State) (c : Nat) : Bool := ((upto 16).map (16 * c + ·)).any fun t => s.configured t || s.awaitsSlice t

/-- A core receives a thread of a region that declares candles at 1.4 GHz: one whose clock is lowered is first returned to it,
when no slice runs there (R127); none where one does. -/
def State.pinClock (s : State) (l : Launch) (c : Nat) : Option State :=
  let k := s.core c
  if !l.f.cdl || k.clock == .full then some s
  else if s.coreBusy c then none else some (s.setCore c { k with clock := .full })

/-- MIGRATION_ARRIVAL: the context is installed in the target core's lowest free slot, with the system registers of its region
(R307, R308, R225); the trap banks of the slot are zero then (DESIGN CHOICE, log 89). -/
def execMigrationArrival (i : Nat) (s : State) : Outcome :=
  match s.migrants[i]? with
  | none => .next s
  | some m =>
    let l := s.launch m.ctx.launch
    match (s.freeSlot m.core).bind fun t => ((s.clearSlot t).bind fun s1 => s1.pinClock l m.core).map fun s1 => (t, s1) with
    | none => .next s
    | some (t, s1) =>
      let s2 : State := { s1.renameWriter m.id t with migrants := ldel s1.migrants i }
      .next ((s2.msgRcvd m.ctx.launch m.core).setSlot t { m.ctx.loadRcb l with ready := (s.slot t).ready })

end Sys2Proof.Machine
end

