-- ==== Sys2Proof/Machine/Lamplighter.lean ====
section
/-! DEFINITION. The lamplighters: walking the region tree (R291 to R294, R393, R450), placing groups (R295, R243 to R245),
the decision at a scheduling event (R296 to R298), slices that end (R299 to R303), deadlines, watchdogs, lights-out and
closure (R308 to R310, R367), the dispatch of slugs (R368, R370). -/

namespace Sys2Proof.Machine
open Sys2Proof

/-! ### Region control blocks (R291 to R293) -/

/-- The image of an RCB; none where its address acts as a null link (R450). -/
def State.rcbImage (s : State) (rcb : VA) : Option (List (BitVec 8)) :=
  if rcb = 0 then none else (s.llLoc rcb true).map fun k => s.readKeys (span k 256)

/-- A link field of an RCB: PARENT, CHILD or NEXT. -/
def rcbLink (im : List (BitVec 8)) (off : Nat) : VA := BitVec.ofNat 48 (bytesField im off 8) &&& ~~~0xFF#48

/-- The image of a node that fixes its fields: that of its first walk, once it has been walked (R292). -/
def State.fixedImage (s : State) (d : Nat) (rcb : VA) : Option (List (BitVec 8)) :=
  match s.nodes.find? fun n => n.die == d && n.rcb == rcb with
  | some n => some n.image
  | none => s.rcbImage rcb

/-- The images from a node up to its root; a loop of links ends the path. -/
def rcbPath (image : VA → Option (List (BitVec 8))) : Nat → List VA → VA → List (List (BitVec 8))
  | 0, _, _ => []
  | fuel + 1, seen, rcb =>
    if seen.contains rcb then [] else
    match image rcb with
    | none => []
    | some im => im :: rcbPath image fuel (rcb :: seen) (rcbLink im 0)

/-- The value that a path resolves a field to: from the nearest node with the override bit set, zero where none has
(R292). -/
def resolved (path : List (List (BitVec 8))) (i off n : Nat) : Nat :=
  match path.find? fun im => bit (bytesField im 0x18 4) i with
  | some im => bytesField im off n
  | none => 0

/-- The fields of a launch from its path (R291). -/
def fieldsOf (path : List (List (BitVec 8))) : Fields :=
  let f := resolved path
  { ntf := bit (f 20 0x1C 1) 2, cdl := bit (f 20 0x1C 1) 1, prio := f 0 0x1D 1, fdp := f 1 0x1E 1 % 4,
    ten := BitVec.ofNat 4 (f 2 0x1F 1), key := BitVec.ofNat 8 (f 2 0x2C 2), dln := f 3 0x20 8, slice := f 4 0x28 4,
    oil := f 5 0x30 8, units := f 6 0x2E 1 % 16, fused := bit (f 6 0x2E 1) 4, subW := 2 ^ (f 7 0x2F 1 % 8),
    subH := Nat.max 1 (f 7 0x2F 1 / 16), tplan := BitVec.ofNat 16 (f 8 0x38 2), btree := BitVec.ofNat 16 (f 9 0x3A 2),
    entry := BitVec.ofNat 48 (f 10 0x40 8), threads := f 11 0x3C 2 % 128 + 1, maxg := f 12 0x48 4,
    gcnt := BitVec.ofNat 48 (f 13 0x50 8), save := BitVec.ofNat 48 (f 14 0x58 8), arg := BitVec.ofNat 48 (f 15 0x60 8),
    tvb := BitVec.ofNat 48 (f 16 0x68 8), srtn := BitVec.ofNat 48 (f 17 0x70 8), root := BitVec.ofNat 52 (f 18 0x78 8),
    mgrp := BitVec.ofNat 16 (f 19 0x3E 2) }

/-- The four fields that are resolved again at every walk (R292). -/
def Fields.renew (f g : Fields) : Fields := { f with prio := g.prio, dln := g.dln, slice := g.slice, oil := g.oil }

/-- Whether a number has a bit set outside [hi:lo]. -/
def outside (x hi lo : Nat) : Bool := x % 2 ^ lo != 0 || x / 2 ^ (hi + 1) != 0

/-- Whether a zero field or a reserved encoding is set (R293 code 1); PRIO is judged as it now resolves. -/
def badFields (im : List (BitVec 8)) (path live : List (List (BitVec 8))) : Bool :=
  let f := resolved path
  let own := bytesField im
  own 0x18 4 ≥ 2 ^ 21 || [0, 8, 0x10].any (fun o => outside (own o 8) 47 8) || own 0x4C 4 != 0 || own 0x80 64 != 0
    || own 0xE0 32 != 0 || own 0x1C 1 ≥ 8 || f 20 0x1C 1 ≥ 8 || resolved live 0 0x1D 1 ≥ 8 || f 1 0x1E 1 ≥ 3 || f 2 0x1F 1 ≥ 16
    || f 2 0x2C 2 ≥ 256 || f 6 0x2E 1 ≥ 32 || bit (f 7 0x2F 1) 3 || f 7 0x2F 1 % 8 > 4 || f 8 0x38 2 ≥ 4096
    || (upto 4).any (fun t => f 8 0x38 2 / 2 ^ (3 * t) % 4 == 3) || f 11 0x3C 2 ≥ 128 || outside (f 10 0x40 8) 47 1
    || outside (f 13 0x50 8) 47 2 || outside (f 14 0x58 8) 47 12 || outside (f 15 0x60 8) 47 0
    || outside (f 16 0x68 8) 47 6 || outside (f 17 0x70 8) 47 1 || outside (f 18 0x78 8) 51 12

/-- The octets of a die. -/
def dieOctets (d : Nat) : List Nat := span (96 * d) 96

/-- Whether the host gives an octet to a tenant (R391 OMAP). -/
def State.octetGiven (s : State) (o : Nat) (ten : BitVec 4) : Bool :=
  let v := s.regs.omapOf o
  v.getLsbD 7 && v.extractLsb' 0 4 == ten

/-- Whether an octet is a tenant's now: that of the slice that runs there, which a change of OMAP leaves to its end, else the one
that the host gives it to (R14, R398). -/
def State.octetNow (s : State) (o : Nat) (ten : BitVec 4) : Bool :=
  match s.launches.find? fun e => e.2.groups.any fun g => g.octet == o && (g.state == .placed || g.state == .saving) with
  | some e => e.2.f.ten == ten
  | none => s.octetGiven o ten

/-- The octets that the sub-tori of a shape cover together: `unit` of a cluster (R210). An octet is half a row of the
grid. -/
def torusUnits (w h cl : Nat) : List (List Nat) :=
  if w = 16 then (upto (12 / h)).map fun b => span (24 * cl + 2 * h * b) (2 * h)
  else (upto (12 / h)).flatMap fun b => (upto 2).map fun half => (upto h).map fun r => 24 * cl + 2 * (h * b + r) + half

/-- The reject code of a node; 0 for none (R293). It is judged by the fields as they resolve at this walk: `path` fixes all but
four, which come from the path as it stands, `live` (R292). -/
def State.rejectCode (s : State) (d : Nat) (im : List (BitVec 8)) (path live : List (List (BitVec 8))) : Nat :=
  let f := (fieldsOf path).renew (fieldsOf live)
  let h := resolved path 7 0x2F 1 / 16
  if badFields im path live then 1
  else if f.slice < 1000 || f.maxg = 0 || f.units > 12 || !([0, 1, 2, 3, 4, 6, 12].contains h) || f.entry = 0 || f.gcnt = 0
      || f.save = 0 then 2
  else if path.length > 2 && f.ten != BitVec.ofNat 4 (resolved path.tail 2 0x1F 1) then 3
  else if f.fused && f.units = 12 then 4
  else if f.gang && !((upto 4).any fun k => (torusUnits f.subW f.subH (4 * d + k)).any fun u =>
      u.all fun o => s.octetNow o f.ten) then 4
  else 0

/-! ### Walks (R294) -/

/-- The most links that a walk follows. -/
def walkFuel : Nat := 2 ^ 20

/-- The path that fixes a node's fields (R292). -/
def State.fixedPath (s : State) (d : Nat) (rcb : VA) : List (List (BitVec 8)) := rcbPath (s.fixedImage d) walkFuel [] rcb
/-- The path as it stands, for the fields that are resolved again at every walk (R292). -/
def State.livePath (s : State) (rcb : VA) : List (List (BitVec 8)) := rcbPath s.rcbImage walkFuel [] rcb

/-- The launch of a die whose node stands at an address and has not come to its end. -/
def State.launchAt (s : State) (d : Nat) (rcb : VA) : Option (Nat × Launch) :=
  s.launches.find? fun e => e.2.die == d && e.2.rcb == rcb && e.2.state.open_

/-- The number from which a die's lamplighter takes the next launch's serial: one that no launch of the die that still exists
holds (R29). -/
def State.freeSerial (s : State) (d : Nat) : Nat :=
  let n := aget 1 s.serials d
  let held (k : Nat) : Bool := s.launches.any fun e => e.2.die == d && e.2.state.open_ && e.2.serial == BitVec.ofNat 32 k
  ((upto (s.launches.length + 1)).map (n + ·)).find? (fun k => !held k) |>.getD n

/-- The first walk of a launch node: its serial, its fields, Waiting or Rejected (R292, R293, R295, R311). -/
def State.firstWalk (s : State) (d : Nat) (rcb : VA) (im : List (BitVec 8)) : State :=
  let path := s.fixedPath d rcb
  let serial := s.freeSerial d
  let f := (fieldsOf path).renew (fieldsOf (s.livePath rcb))
  let code := s.rejectCode d im path (s.livePath rcb)
  let l : Launch := { die := d, serial := BitVec.ofNat 32 serial, rcb := rcb, parent := rcbLink im 0,
                      state := if code = 0 then .waiting else .rejected, reject := code, f := f }
  let s1 : State := { s with serials := aset 1 s.serials d (serial + 1) }
  s1.setStatus (4 * serial + d) l

/-- Whether a Dry launch runs again: its OIL is zero or above what it has been charged (R298, R311). -/
def Launch.refilled (l : Launch) : Bool := l.state == .dry && !l.domainKilled && (l.f.oil = 0 || l.oilc < 1000 * l.f.oil)

/-- A later walk of a launch node resolves PRIO, DLN, SLICE and OIL again (R292, R298). -/
def State.walkAgain (s : State) (d : Nat) (rcb : VA) : State :=
  match s.launchAt d rcb with
  | some (i, l) =>
    let l1 := { l with f := l.f.renew (fieldsOf (s.livePath rcb)) }
    if l1.refilled then (s.setStatus i { l1 with state := .running }).checkClosing i else s.setLaunch i l1
  | none => s

/-- Whether a node that has left the tree stands in it as a new one: its STATUS is zero again (R291, R294). -/
def Node.renewed (n : Node) (im : List (BitVec 8)) : Bool := n.gone && bytesField im 0xC7 1 / 16 == 0

/-- Watches a node and walks it. What a node is, and all but four of its fields, its first walk fixes; whether a node has been
walked the lamplighter knows by itself, and a host's write to the lamplighter's own fields has no effect, but that a launch node
which has been unlinked is linked anew with its STATUS zero (R291, R292, R294; DEDUCED, log 97). -/
def State.walkNode (s : State) (d : Nat) (rcb : VA) : State :=
  match s.rcbImage rcb, s.llLoc rcb true with
  | some im, some k =>
    let here (n : Node) : Bool := n.die == d && n.rcb == rcb
    match s.nodes.find? fun n => here n && !n.renewed im with
    | some n =>
      let s1 : State := { s with nodes := s.nodes.map fun q => if here q then { q with loc := k, old := false, gone := false } else q }
      if bit (bytesField n.image 0x1C 1) 0 then s1.walkAgain d rcb else s1
    | none =>
      let s1 : State := { s with nodes := (s.nodes.filter fun n => !here n) ++ [{ die := d, rcb := rcb, loc := k, image := im }] }
      if bit (bytesField im 0x1C 1) 0 then s1.firstWalk d rcb im else s1
  | _, _ => s

/-- The nodes reached from a list of addresses through CHILD and NEXT, `seen` in the order of the walk. -/
def State.reach (s : State) : Nat → List VA → List VA → List VA
  | 0, _, seen => seen
  | _, [], seen => seen
  | fuel + 1, a :: work, seen =>
    if seen.contains a then State.reach s fuel work seen else
    match s.rcbImage a with
    | none => State.reach s fuel work seen
    | some im => State.reach s fuel (rcbLink im 8 :: rcbLink im 0x10 :: work) (seen ++ [a])

/-- The root of a die's tree. -/
def State.rootOf (s : State) (d : Nat) : VA := aget 0 s.regs.roots d

/-- Launches of a die without a placed group that its root no longer reaches are Withdrawn; other nodes that it no longer
reaches are watched on only for a launch that has had a group placed, and a launch node stays known to have been walked (R294,
R311, R393). -/
def State.unlink (s : State) (d : Nat) : State :=
  let live := s.reach walkFuel [s.rootOf d] []
  let gone := s.launches.filter fun e => e.2.die == d && e.2.state == .waiting && e.2.groups.isEmpty && !live.contains e.2.rcb
  let s1 := gone.foldl (fun s e => s.setStatus e.1 { e.2 with state := .withdrawn, linked := false }) s
  let keep (n : Node) : Bool := n.die != d || live.contains n.rcb || (s1.launchAt d n.rcb).isSome
  let known (n : Node) : Bool := keep n || bit (bytesField n.image 0x1C 1) 0
  { s1 with nodes := (s1.nodes.filter known).map (fun n =>
              if n.die == d && !live.contains n.rcb then { n with old := true, gone := n.gone || !keep n } else n),
            snoops := s1.snoops.filter fun q => s1.nodes.any fun n => keep n && n.die == q.1 && n.rcb == q.2 }

/-- Walks a subtree again, and the scheduling event that its end is (R294, R296). -/
def State.walkFrom (s : State) (d : Nat) (rcb : VA) : State :=
  let s1 := (s.reach walkFuel [rcb] []).foldl (fun s a => s.walkNode d a) s
  (s1.unlink d).decideAt d

/-- RCB_SNOOP_WALK: a write has reached a watched line; a node of a tree that has been replaced is walked alone (R294,
R393). -/
def execRcbSnoopWalk (d : Nat) (rcb : VA) (s : State) : Outcome :=
  if !s.snoops.contains (d, rcb) then .next s else
  let s1 : State := ({ s with snoops := s.snoops.filter fun n => n != (d, rcb) } : State).lampAnswered d
  if s.nodes.any fun n => n.die == d && n.rcb == rcb && n.old then
    .next (if (s1.rcbImage rcb).isSome then (s1.walkAgain d rcb).decideAt d else s1)
  else .next (s1.walkFrom d rcb)

/-! ### Whether a group can be placed (R295) -/

/-- The thread numbers of a group that has not ended: those of its contexts, or every one when it has never run. -/
def State.threadsOf (s : State) (i : Nat) (l : Launch) (g : Nat) : List Nat :=
  match l.group? g with
  | none => upto l.f.threads
  | some _ =>
    sortBy (· ≤ ·) ((s.ordinarySlots i g).map (fun t => (s.slot t).thread.toNat)
      ++ (s.stored.filter fun m => m.ctx.launch == i && m.ctx.gidx == g && !m.ctx.stage).map fun m => m.ctx.thread.toNat)

/-- The context of a thread that stands in a slot or in the save area. -/
def State.contextOf (s : State) (i g n : Nat) : Option Slot :=
  match (s.ordinarySlots i g).find? fun t => (s.slot t).thread.toNat == n with
  | some t => some (s.slot t)
  | none => (s.stored.find? fun m => m.ctx.launch == i && m.ctx.gidx == g && !m.ctx.stage && m.ctx.thread.toNat == n).map (·.ctx)

/-- Whether a slot is taken for a placement that leaves some groups aside: a running slice configures it, or a stage thread
holds it. -/
def State.taken (s : State) (skip : List (Nat × Nat)) (t : Nat) : Bool :=
  let x := s.slot t
  x.stage || (s.configured t && !skip.contains (x.launch, x.gidx))

/-- The tiles that a group needs on core `k` of its octet: those of the launch's plan and those that it has saved. -/
def Launch.needsTiles (l : Launch) (g k : Nat) : List (BitVec 2) :=
  let plan := allTiles.filter fun t => l.f.tplan.getLsbD (3 * t.toNat + 2)
  match l.group? g with
  | some x => plan ++ (x.tiles.filter fun e => e.1 == k).map fun e => BitVec.ofNat 2 e.2
  | none => plan

/-- The groups that leave an octet before a placement there: those in retention, and those left aside that stand on it. -/
def State.leaving (s : State) (skip : List (Nat × Nat)) (i g o : Nat) : List (Nat × Nat) :=
  s.retainedOn o i g ++ skip.filter fun v => ((s.launch v.1).group? v.2).any fun x => x.octet == o

/-- Whether a tile is gated, held by the launch, or gated once the groups that leave the octet have been stored (R295, R305). -/
def State.tileFree (s : State) (gone : List (Nat × Nat)) (i c : Nat) (t : BitVec 2) : Bool :=
  let y := (s.core c).tile t
  let goes (u : Nat) : Bool := let x := s.slot u; x.live && gone.contains (x.launch, x.gidx) && !x.stage
  !y.alloc || y.launch == i ||
    match y.owner with
    | .slot n => goes (16 * c + n.toNat)
    | .shared => gone.any (fun v => v.1 == y.launch) && (s.launchSlotsOn y.launch c).all goes

/-- Whether a core can receive threads of a launch: the launches that it holds have its split and its tenant, its plan's tiles
and those that the group has saved can be given, and its clock is 1.4 GHz, or can be, where the region declares candles (R295,
R126, R127). -/
def State.coreTakes (s : State) (skip gone : List (Nat × Nat)) (i : Nat) (l : Launch) (g c : Nat) : Bool :=
  let k := s.core c
  let busy := ((upto 16).map (16 * c + ·)).any fun t =>
    s.awaitsSlice t || (s.configured t && !skip.contains ((s.slot t).launch, (s.slot t).gidx))
  k.held.all (fun h => h == i || (k.units == l.f.units && (s.launch h).f.fused == l.f.fused && (s.launch h).f.ten == l.f.ten))
    && (l.needsTiles g (c % 8)).all (s.tileFree gone i c)
    && (!l.f.cdl || k.clock == .full || !busy)

/-- Whether a core can receive the threads of a group and the stage threads of the launch that wait there (R295). -/
def State.coreFits (s : State) (skip gone : List (Nat × Nat)) (i : Nat) (l : Launch) (g c : Nat) (ns : List Nat) : Bool :=
  let k := s.core c
  let mine := ns.filter fun n => n % 8 == c % 8
  let slots := (upto 16).map (16 * c + ·)
  let waiting := (s.waitingStages i (octetOf c)).filter fun t => coreOf t == c
  let seqs := ((mine.filterMap fun n => s.contextOf i g n) ++ waiting.map s.slot).foldl (fun n x => n + x.saved.length) 0
  let held := (k.seqs.filter fun q => !skip.contains ((s.slot q.slot).launch, (s.slot q.slot).gidx)).length
  (mine.isEmpty && waiting.isEmpty) ||
    (s.coreTakes skip gone i l g c
      && mine.length + (s.migrants.filter fun m => m.core == c).length ≤ (slots.filter fun t => !s.taken skip t).length
      && (seqs = 0 || held + s.seqsReserved c + seqs ≤ 4))

/-- Whether an octet is given to a tenant and no thread or launch of another one stands on it: a change of OMAP takes effect
at the end of the slices that run there (R14, R398; DEDUCED, log 90). -/
def State.octetOwn (s : State) (o : Nat) (ten : BitVec 4) : Bool :=
  s.octetGiven o ten
    && (span (8 * o) 8).all (fun c => (s.core c).held.all fun h => (s.launch h).f.ten == ten)
    && (span (128 * o) 128).all (fun t => !(s.slot t).live || (s.slot t).tenant == ten)
    && s.migrants.all fun m => octetOf m.core != o || m.ctx.tenant == ten

/-- Whether a group can be placed on an octet, some groups being left aside (R295). -/
def State.octetFits (s : State) (skip : List (Nat × Nat)) (i : Nat) (l : Launch) (g o : Nat) : Bool :=
  let ns := s.threadsOf i l g
  let gone := s.leaving skip i g o
  s.octetOwn o l.f.ten
    && l.groups.all (fun x => x.octet != o || x.index == g || !(x.state == .placed || x.state == .saving) || skip.contains (i, x.index))
    && (span (8 * o) 8).all (fun c => s.coreFits skip gone i l g c ns)
    && (upto 16).all (fun b => !l.f.btree.getLsbD b || (let t := (s.cluster (o / 24)).tree b; t.owner.isNone || t.owner == some i))
    && (s.retainedOn o i g).all fun e => s.canSave e.1 e.2

/-- Whether the threads of a gang launch fill whole sub-tori of the octets that it stands on (R210, R295). -/
def Fields.wholeTori (f : Fields) : Bool := f.threads ≥ 8 || (f.subW ≤ 8 && f.threads % f.subW = 0)

/-- The slots in which the threads of a suspended group would stand on an octet, as slot and thread. -/
def State.seats (s : State) (o : Nat) (ns : List Nat) : List (Nat × Nat) :=
  ns.foldl (fun (out : List (Nat × Nat)) n =>
    let c := 8 * o + n % 8
    match ((upto 16).map (16 * c + ·)).find? fun t => !s.configured t && !(s.slot t).stage && !out.any (fun e => e.1 == t) with
    | some t => out ++ [(t, n)]
    | none => out) []

/-- Whether every thread of a group stands in retention in the slot in which it would be placed. -/
def State.seated (s : State) (i g : Nat) (seats : List (Nat × Nat)) : Bool :=
  seats.all fun e => let x := s.slot e.1; x.live && x.launch == i && x.gidx == g && x.thread.toNat == e.2 && !x.stage

/-- Whether a suspended group finds its threads where they are to stand, or can be stored and seated anew (R305). -/
def State.canResume (s : State) (i : Nat) (l : Launch) (g o : Nat) : Bool :=
  match l.group? g with
  | some x => x.saved || s.canSave i g || s.seated i g (s.seats o (s.threadsOf i l g))
  | none => true

/-- The octets on which the groups of one decision are placed, or none (R295). Groups that have run stay on their octets (R14);
of the octets that fit a new one, which is open; a gang takes whole sub-tori in ascending order. -/
def State.choose (s : State) (skip : List (Nat × Nat)) (i : Nat) (l : Launch) (gs : List Nat) : Option (List Nat) :=
  let old := gs.filterMap fun g => (l.group? g).map fun x => (g, x.octet)
  if !old.isEmpty then
    if old.all fun e => s.octetFits skip i l e.1 e.2 && s.canResume i l e.1 e.2 then some (old.map (·.2)) else none
  else if l.f.gang then
    let fits (u : List Nat) : Bool := u.all fun o => gs.all fun g => s.octetFits skip i l g o
    let units := ((upto 4).flatMap fun k => torusUnits l.f.subW l.f.subH (4 * l.die + k)).filter fits
    let n := match torusUnits l.f.subW l.f.subH 0 with | u :: _ => u.length | [] => 1
    let need := (gs.length + n - 1) / n
    if l.f.wholeTori && gs.length % n = 0 && need ≤ units.length then some ((units.take need).flatten.take gs.length) else none
  else
    match gs, (dieOctets l.die).filter (fun o => gs.all fun g => s.octetFits skip i l g o) with
    | [_], o :: os => some [(o :: os).getD (Config.pick (s.nd * 2 ^ 64 + 2 ^ 32 * i + gs.length) % (os.length + 1)) o]
    | _, _ => none

/-! ### Placing a group (R295, R31, R243 to R245, R174) -/

/-- Clears a core's scratchpad and full bits (R243): every agent reads zero from then on. -/
def State.clearCore (s : State) (c : Nat) : State :=
  let b := (Loc.spm c 0).key
  let inside (k : Nat) : Bool := b ≤ k && k < b + 0x80000
  ({ s.setCore c { s.core c with full := [] } with mem := s.mem.filter fun e => !inside e.1 } : State).forget inside

/-- Grants a cluster's fused L1 while a launch that asks for it holds all of its octets with one split on every core, and ends
it else; a change leaves no line in the L1s (R244; DEDUCED, log 91). -/
def State.grantFused (s : State) (cl : Nat) : State :=
  let cores := span (192 * cl) 192
  let first := s.core (192 * cl)
  let whole (i : Nat) : Bool := (s.launch i).f.fused && cores.all fun c => (s.core c).held.contains i && (s.core c).units == first.units
  let now := first.held.any whole
  if now == first.fused then s else
  let lines := (s.lines.filter fun r => r.copies.any fun q => clusterOf q.cache == cl).map (·.line)
  let s1 := lines.foldl (fun s n =>
    let s1 := s.writeBackL1 n
    match s1.lineEntry n with
    | some r => s1.setEntry { r with copies := r.copies.filter fun q => clusterOf q.cache != cl }
    | none => s1) s
  cores.foldl (fun s c => s.setCore c { s.core c with fused := now }) s1

/-- A clock that the energy planner may choose for a core that runs no slice (R126, R127, R408). -/
def State.plannedClock (s : State) (d c : Nat) (cdl : Bool) : Clock :=
  if cdl then .full else
  let n := Config.pick (s.nd * 2 ^ 64 + c)
  if (aget {} s.thermal d).throttled then (if n % 2 = 0 then .mid else .low)
  else if n % 3 = 0 then .full else if n % 3 = 1 then .mid else .low

/-- A core receives a launch: its clock where no slice runs, and, the first time, its split, a cleared scratchpad where no
other launch is held, and the tiles of the plan (R243, R174, R242). -/
def State.holdCore (s : State) (i : Nat) (l : Launch) (c : Nat) : State :=
  let k0 := s.core c
  let s0 := if s.coreBusy c then s else s.setCore c { k0 with clock := s.plannedClock l.die c l.f.cdl }
  if k0.held.contains i then s0 else
  let s1 := if k0.held.isEmpty then s0.clearCore c else s0
  let k1 := s1.core c
  let known := k1.heldAt.any fun h => h.1 == l.f.ten && h.2.1 == l.f.root
  let k := { k1 with units := l.f.units, held := nput k0.held i,
                     heldAt := if known then k1.heldAt else (l.f.ten, l.f.root, s.nd) :: k1.heldAt }
  let size (t : BitVec 2) : ElemSize :=
    match (l.f.tplan.toNat / 2 ^ (3 * t.toNat)) % 4 with | 0 => .e16 | 1 => .e32 | _ => .e64
  let s2 := s1.setCore c ((allTiles.filter fun t => l.f.tplan.getLsbD (3 * t.toNat + 2)).foldl (fun k t =>
    if (k.tile t).alloc then k else
    (k.gateTile t).setTile t { alloc := true, size := size t, banks := 0xF, owner := .shared, launch := i }) k)
  if k.fused then s2 else s2.shrinkL1 c

/-- The cores of an octet that a group's slice occupies: those of its threads and those where stage threads of the launch
wait (R295, R370). -/
def State.groupCores (s : State) (i o : Nat) (ns : List Nat) : List Nat :=
  (span (8 * o) 8).filter fun c => ns.any (fun n => n % 8 == c % 8) || (s.waitingStages i o).any fun t => coreOf t == c

/-- The permission table of an octet on which a launch is placed (R245). -/
def State.permTable (s : State) (ten : BitVec 4) : BitVec 384 :=
  BitVec.ofNat 384 (packNat 1 ((upto 384).map fun q => bnat (s.octetNow q ten)))

/-- What a placement does to its octet: groups in retention are stored first (R305); trees are granted (R246), cores hold
the launch, the permission table is written. -/
def State.prepare (s : State) (i : Nat) (l : Launch) (g o : Nat) (ns : List Nat) : State :=
  let s1 := (s.retainedOn o i g).foldl (fun s e => s.saveGroup e.1 e.2) s
  let k := s1.cluster (o / 24)
  let k' := (upto 16).foldl (fun k b =>
    if l.f.btree.getLsbD b && (k.tree b).owner.isNone then k.setTree b { owner := some i } else k) k
  let s2 := s1.setCluster (o / 24) k'
  let s3 := (s.groupCores i o ns).foldl (fun s c => s.holdCore i l c) s2
  let s3 := if l.f.fused then s3.grantFused (o / 24) else s3
  s3.setOctet o { s3.octet o with perm := s3.permTable l.f.ten }

/-- A number that no other thread has: the step that starts the thread, and its slot. -/
def State.newUid (s : State) (t : Nat) : Nat := (s.nd + 1) * 2 ^ 16 + t

/-- A thread as it starts (R31, R28, R29). -/
def startSlot (l : Launch) (i g n uid ready : Nat) : Slot :=
  let record := l.threadRecord g n
  ({ mode := .running, a := BitVec.ofNat 64 (g * 65536 + n), ptrs := { p0 := l.f.arg.zeroExtend 64 }, pc := evenAddr l.f.entry,
     savp := record, record := record, group := BitVec.ofNat 32 g, thread := BitVec.ofNat 7 n, serial := l.serial,
     tenant := l.f.ten, key := l.f.key, launch := i, gidx := g, uid := uid, ready := ready } : Slot).loadRcb l

/-- Starts the threads of a group in the lowest free slots of their cores. -/
def State.startThreads (s : State) (i : Nat) (l : Launch) (g o : Nat) (ns : List Nat) : State :=
  ns.foldl (fun s n =>
    match s.freeSlot (8 * o + n % 8) with
    | some t => s.setSlot t (startSlot l i g n (s.newUid t) (s.slot t).ready)
    | none => s) s

/-- Places a group that has never run and starts its slice. -/
def State.placeFresh (s : State) (i g o : Nat) : State :=
  let l := s.launch i
  let ns := upto l.f.threads
  let s1 := (s.prepare i l g o ns).startThreads i l g o ns
  let x : Group := ({ index := g, octet := o } : Group).begin l (s1.sliceStart (s1.ordinarySlots i g))
  let l1 := { s1.launch i with state := .running, next := g + 1, groups := (s1.launch i).groups ++ [x] }
  ((if l.state == .running then s1.setLaunch i l1 else s1.setStatus i l1).writeDebt i g).joinStages i g o

/-- A stored context takes its slot, its restore still to come, and its place in its barrier trees (R246, R305). -/
def State.seatStored (s : State) (i g : Nat) (e : Nat × Nat) : State :=
  match s.stored.find? fun m => m.ctx.launch == i && m.ctx.gidx == g && !m.ctx.stage && m.ctx.thread.toNat == e.2 with
  | none => s
  | some m =>
    let s1 : State := { s.renameWriter m.id e.1 with stored := s.stored.filter fun q => q.id != m.id }
    let s2 := s1.moveMember (clusterOf (coreOf m.slot)) m.id (clusterOf (coreOf e.1)) (e.1 % 3072) m.ctx.uid
    s2.setSlot e.1 { m.ctx with mode := .restoring, left := some m.slot, ready := (s.slot e.1).ready }

/-- Places a suspended group: retained in its slots, or stored and seated anew (R295, R305). -/
def State.placeAgain (s : State) (i g o : Nat) : State :=
  let l := s.launch i
  let ns := s.threadsOf i l g
  let s1 := s.prepare i l g o ns
  let kept := s1.seated i g (s1.seats o ns)
  let s2 := if !kept && s1.canSave i g then s1.saveGroup i g else s1
  let seats := s2.seats o ns
  let s3 :=
    if kept then seats.foldl (fun s e => s.setSlot e.1 { s.slot e.1 with mode := .restoring }) s2
    else seats.foldl (fun s e => s.seatStored i g e) s2
  let l3 := (s3.launch i).setGroup g fun x => { x with state := .placed, octet := o, restoring := true, due := none }
  s3.setLaunch i l3

/-- Places a group on an octet. -/
def State.placeGroup (s : State) (i g o : Nat) : State :=
  match (s.launch i).group? g with
  | none => s.placeFresh i g o
  | some _ => s.placeAgain i g o

/-! ### Pre-emption falls due (R299, R303) -/

/-- A pre-emption of a placed group falls due. -/
def Launch.fallDue (l : Launch) (at_ why g : Nat) : Launch :=
  l.setGroup g fun x => if x.state == .placed && x.due.isNone && !x.restoring
    then { x with state := .saving, due := some (at_, why) } else x

/-- The groups that are pre-empted with a group: those of a gang together (R295). -/
def Launch.together (l : Launch) (g : Nat) : List Nat := if l.f.gang then l.groups.map (·.index) else [g]

/-- Pre-empts a group. -/
def State.preempt (s : State) (i g at_ why : Nat) : State :=
  let l := s.launch i
  s.setLaunch i ((l.together g).foldl (fun l g => l.fallDue at_ why g) l)

/-! ### The decision (R296 to R298) -/

/-- The order of R296 as a list of numbers, smaller first. -/
def Launch.orderKey (l : Launch) : List Nat := [7 - l.f.prio, if l.f.dln = 0 then 1 else 0, l.f.dln, l.serial.toNat]
/-- Whether one launch comes before another, or is it. -/
def lexLe : List Nat → List Nat → Bool
  | a :: as, b :: bs => a < b || (a == b && lexLe as bs)
  | [], _ => true
  | _ :: _, [] => false

/-- Whether a launch has groups that have never been placed or discarded. -/
def Launch.pending (l : Launch) : Bool := l.next < l.f.maxg
/-- The suspended groups of a launch, lowest index first. -/
def Launch.suspended (l : Launch) : List Nat := sortBy (· ≤ ·) ((l.groups.filter fun x => x.state == .suspended).map (·.index))

/-- The launches that a die's lamplighter considers, in order. -/
def State.candidates (s : State) (d : Nat) : List (Nat × Launch) :=
  sortBy (fun a b => lexLe a.2.orderKey b.2.orderKey) (s.launches.filter fun e => e.2.die == d
    && !e.2.domainKilled && (e.2.state == .waiting || e.2.state == .running || e.2.state == .dry) && (e.2.pending || !e.2.suspended.isEmpty))

/-- The group count as the lamplighter reads it: 0 where it cannot be read (R296, R450). -/
def State.groupCount (s : State) (l : Launch) : Nat :=
  match s.llLoc l.f.gcnt false with
  | some k => ofBytes (s.readKeys (span k 4))
  | none => 0

/-- What a launch's turn in the decision finds to place. -/
inductive NextGroups where
  | none
  | discard
  | groups (gs : List Nat) (limit : Nat)

/-- The groups to place next (R296); a gang resumes together (R295). -/
def State.nextGroups (s : State) (l : Launch) : NextGroups :=
  match l.suspended with
  | g :: gs =>
    if l.f.gang then
      if l.groups.any fun x => x.state == .placed || x.state == .saving then .none else .groups (g :: gs) l.f.maxg
    else .groups [g] l.f.maxg
  | [] =>
    if !l.pending then .none else
    let limit := Nat.min (s.groupCount l) l.f.maxg
    if l.next ≥ limit then .discard
    else if l.f.gang then .groups (span l.next (limit - l.next)) limit else .groups [l.next] l.f.maxg

/-- Discards every index from the next on (R296). -/
def State.discardRest (s : State) (i : Nat) : State :=
  let l := s.launch i
  (s.setLaunch i { l with discarded := l.discarded + (l.f.maxg - l.next), next := l.f.maxg }).checkClosing i

/-- Project of a group in thousandths of a µJ (R298). -/
def Launch.project (l : Launch) (g : Nat) : Nat :=
  let b := match l.group? g with | some x => Nat.max 1000 (l.f.slice - x.debt) | none => l.f.slice
  match l.group? g with
  | some x => if x.lastNs = 0 then b * Nat.min l.f.threads 8 else b * x.lastUj * 1000 / x.lastNs
  | none => b * Nat.min l.f.threads 8

/-- The running groups that come after a launch in the order, from its end (R297). -/
def State.victims (s : State) (d : Nat) (l : Launch) : List (Nat × Nat) :=
  let after := (s.launches.filter fun e => e.2.die == d && !lexLe e.2.orderKey l.orderKey)
  let ordered := sortBy (fun a b => lexLe b.2.orderKey a.2.orderKey) after
  ordered.flatMap fun e =>
    let running := e.2.groups.filter fun x => (x.state == .placed && !x.restoring) || x.state == .saving
    (sortBy (fun a b => b ≤ a) (running.map (·.index))).map fun g => (e.1, g)

/-- The shortest run of victims whose room lets the groups be placed; those of a gang go together. -/
def State.room (s : State) (i : Nat) (l : Launch) (gs : List Nat) : List (Nat × Nat) → List (Nat × Nat) → Option (List (Nat × Nat))
  | [], _ => none
  | v :: vs, picked =>
    let now := picked ++ [v]
    let whole := match vs with | w :: _ => !((s.launch v.1).f.gang && w.1 == v.1) | [] => true
    if whole && (s.choose now i l gs).isSome then some now else State.room s i l gs vs now

/-- What a launch's turn ends with: the next launch's turn, or the end of the decision. -/
inductive Turn where
  | on (s : State)
  | stop (s : State)

/-- Whether no slice of a region with CDL set is dispatched: the die is too hot (R408), or the time base is being brought into
line (R432). -/
def State.cdlHeld (s : State) (d : Nat) : Bool := (aget {} s.thermal d).throttled || s.lan.lstat == .aligning

/-- A launch's turn in the decision; `fuel` bounds its repetitions, each of which places a group on an octet (R296). -/
def State.decideLaunch (s : State) (d i : Nat) : Nat → Turn
  | 0 => .on s
  | fuel + 1 =>
    let l := s.launch i
    match s.nextGroups l with
    | .none => .on s
    | .discard => .on (s.discardRest i)
    | .groups gs limit =>
      let need : Nat := (gs.map l.project).foldl (· + ·) 0
      if (need : Int) > 1000 * s.regs.eleft || (l.f.cdl && s.cdlHeld d) then .on s else
      match s.choose [] i l gs with
      | some os =>
        let s1 := (gs.zip os).foldl (fun s e => s.placeGroup i e.1 e.2) s
        State.decideLaunch (if limit < l.f.maxg then s1.discardRest i else s1) d i fuel
      | none =>
        match s.room i l gs (s.victims d l) [] with
        | some vs => .stop (vs.foldl (fun s v => s.preempt v.1 v.2 s.now 2) s)
        | none => .on s

/-- A running launch whose energy has reached its budget becomes Dry: its running groups are pre-empted with reason 3, and the
event is raised (R298, R401). -/
def State.runDry (s : State) (i : Nat) : State :=
  let l := s.launch i
  let y := (l.groups.map (·.index)).foldl (fun y g => y.fallDue s.now 3 g) l
  let s1 := s.setStatus i { y with state := .dry }
  if l.f.ntf then s1.raise (launchEvent l 8 (BitVec.ofNat 64 (l.oilc / 1000)) (BitVec.ofNat 64 l.f.oil)) else s1

/-- A Dry launch with oil left runs again, one without becomes Dry (R296). -/
def State.oilState (s : State) (i : Nat) : State × Bool :=
  let l := s.launch i
  if l.f.oil != 0 && l.oilc ≥ 1000 * l.f.oil then (if l.state == .running then s.runDry i else s, false)
  else (if l.state == .dry then (s.setStatus i { l with state := .running }).checkClosing i else s, true)

/-- The launches of a decision in turn; a region with CDL set stays in its state while its die is too hot (R408). -/
def State.decideAll (s : State) (d : Nat) : List Nat → State
  | [] => s
  | i :: is =>
    let l := s.launch i
    let r := if l.f.cdl && (aget {} s.thermal d).throttled then (s, false) else s.oilState i
    if !r.2 then State.decideAll r.1 d is else
    match r.1.decideLaunch d i 97 with
    | .on s' => State.decideAll s' d is
    | .stop s' => s'

/-- LAMPLIGHTER_DECIDE (R296). -/
def execLamplighterDecide (d : Nat) (s : State) : Outcome :=
  if !s.decide.contains d then .next s else
  let s1 : State := ({ s with decide := ndel s.decide d } : State).lampAnswered d
  .next (s1.decideAll d ((s1.candidates d).map (·.1)))

/-! ### Budgets, oil, watchdogs, deadlines (R298 to R302) -/

/-- BUDGET_EXPIRY (R299). -/
def execBudgetExpiry (l g : Nat) (s : State) : Outcome :=
  match (s.launch l).group? g with
  | some x =>
    if x.state == .placed && x.due.isNone && !x.restoring && x.start + x.budget ≤ s.now
    then .next (s.preempt l g (x.start + x.budget) 1) else .next s
  | none => .next s

/-- OIL_EXHAUSTED (R298). -/
def execOilExhausted (l : Nat) (s : State) : Outcome :=
  let x := s.launch l
  if x.state == .running && !x.domainKilled && x.f.oil != 0 && x.oilc ≥ 1000 * x.f.oil then .next (s.runDry l) else .next s

/-- The watchdog's limit in ns (R301). -/
def watchdogNs : Nat := 50000

/-- WATCHDOG_EXPIRY (R301, R16). -/
def execWatchdogExpiry (l g : Nat) (s : State) : Outcome :=
  match (s.launch l).group? g with
  | some x =>
    match x.due with
    | some (d, _) => if x.state == .saving && d + watchdogNs ≤ s.now then .next (s.killDomain l g 1) else .next s
    | none => .next s
  | none => .next s

/-- DEADLINE_PASSED: while the launch is not Ended, MISS is set and the event raised for each deadline that it has been given
and that has come (R302). -/
def execDeadlinePassed (l : Nat) (s : State) : Outcome :=
  let x := s.launch l
  if !(x.state != .unwalked && x.state != .ended && x.f.dln != 0 && x.f.dln ≤ s.now && x.dlnDone != some x.f.dln) then .next s else
  let s1 := s.setStatus l { x with miss := true, dlnDone := some x.f.dln }
  .next (if x.f.ntf then s1.raise (launchEvent x 2 (BitVec.ofNat 64 x.f.dln) 0) else s1)

/-! ### Lights-out (R308 to R310) -/

/-- ΣSENT and ΣRCVD of a launch. -/
def State.sums (s : State) (i : Nat) : BitVec 32 × BitVec 32 :=
  s.cores.foldl (fun a c => let n := c.2.count i; (a.1 + n.sent, a.2 + n.rcvd)) (0, 0)

/-- Whether every core is idle for a launch (R309). -/
def State.idle (s : State) (i : Nat) : Bool :=
  s.slots.all (fun e => !e.2.live || e.2.launch != i) && s.migrants.all (fun m => m.ctx.launch != i)
    && s.cores.all (fun c => c.2.ops.all (fun o => (s.slot o.slot).launch != i) && c.2.seqs.all fun q => (s.slot q.slot).launch != i)
    && s.octets.all (fun o => o.2.ch.all fun k => k.2.queue.all fun m => m.owner.launch != i)
    && s.flights.all (fun f => f.launch != i) && s.stored.all fun m => m.ctx.launch != i

/-- The formes of a launch are pied where they still compose, then freed (R280). -/
def State.freeFormes (s : State) (l : Launch) : State :=
  let own (x : Forme) : Bool := x.state != .free && x.ownerDie == l.die && x.ownerSerial == l.serial
  let mine (s : State) (p : Forme → Bool) (c : FormeChange) (f : Forme → Forme) : State :=
    let hits := (s.clusters.filter fun k => k.1 < 16).flatMap fun k => (k.2.formes.filter fun e => p e.2).map fun e => (k.1, e)
    hits.foldl (fun s e => (s.formeEvent e.1 e.2.1 e.2.2 c).setCluster e.1 ((s.cluster e.1).setForme e.2.1 (f e.2.2))) s
  let s1 := mine s (fun x => own x && x.state == .composing) .pied fun x => { x with state := .pied, holder := none }
  mine s1 own .freed Forme.freed

/-- A launch's hold on a core ends: tiles, round counters, message counts, stages (R310, R363). -/
def Core.letGo (k : Core) (i : Nat) : Core :=
  let k1 := k.gateTiles fun t => t.launch == i
  { k1 with held := ndel k1.held i, rounds := aerase k1.rounds i, counts := aerase k1.counts i,
            tagCounts := k1.tagCounts.filter fun e => e.1 / 2 ^ 16 != i,
            stages := k1.stages.filter fun e => e.launch != i, consol := k1.consol.filter fun e => e.launch != i }

/-- Every access made for a launch has been performed at system scope (R310 step 4). -/
def State.finishLaunch (s : State) (i : Nat) : State :=
  let mine := s.ghosts.filter fun g => g.launch == i
  let s1 := mine.foldl (fun s g => s.performHeld none g.slot i g.store) { s with ghosts := s.ghosts.filter fun g => g.launch != i }
  { s1 with hist := finishIn false (fun w => w.launch == some i) s1.hist [] }

/-- Lights-out of a launch (R310, R311). -/
def State.lightsOut (s0 : State) (i : Nat) : State :=
  let s := s0.finishLaunch i
  let l := s.launch i
  let s1 := s.freeFormes l
  let s2 : State := { s1 with
    clusters := s1.clusters.map (fun k => (k.1, { k.2 with trees := k.2.trees.filter fun t => t.2.owner != some i })),
    cores := s1.cores.map (fun c => (c.1, c.2.letGo i)), bindings := s1.bindings.filter fun b => b.launch != i }
  let s2 := if l.f.fused then (span (4 * l.die) 4).foldl (fun s k => s.grantFused k) s2 else s2
  let s3 := ((s2.writeRcb l 0xC8 s.timeb).writeRcb l 0xD0 (BitVec.ofNat 64 (l.oilc / 1000))).writeRcb l 0xD8 l.gsum
  let l1 : Launch := { l with state := if l.domainKilled then .killed else .ended, sums := none }
  let s4 := (s3.setStatus i l1).decideAt l.die
  let s5 : State := { s4 with nodes := s4.nodes.map fun n => if n.old && n.die == l.die && n.rcb == l.rcb then { n with gone := true } else n }
  if l.f.ntf && !l.domainKilled then s5.raise (launchEvent l1 1 l1.status l1.gsum) else s5

/-! ### Closure (R366, R367) -/

/-- The least time through which a launch's input is not sealed: 0 while a group index below the group count has been neither
placed nor discarded (R366). -/
def State.sealOf (s : State) (i : Nat) : Nat :=
  let l := s.launch i
  if l.next < Nat.min (s.groupCount l) l.f.maxg then 0 else
  let xs := (s.slots.map (·.2) ++ s.migrants.map (·.ctx) ++ s.stored.map (·.ctx)).filter fun x =>
    x.live && x.launch == i && !x.stage
  xs.foldl (fun n x => Nat.min n x.sealT) (2 ^ 32)

/-- Whether as many slugs of a tag have been received as sent (R308, R367). -/
def State.slugsSettled (s : State) (i : Nat) (tag : BitVec 16) : Bool :=
  let n := s.cores.foldl (fun (a : BitVec 32 × BitVec 32) c =>
    let x := aget {} c.2.tagCounts (tagDomain i tag); (a.1 + x.sent, a.2 + x.rcvd)) (0, 0)
  n.1 == n.2

/-- The times of slugs of a tag that are pending, travelling or held by a stage thread (R367 clause 3). -/
def State.slugTimes (s : State) (i : Nat) (tag : BitVec 16) : List Nat :=
  let buffered := s.cores.flatMap fun c => (c.2.consol.filter fun e => e.launch == i && e.slug.tag == tag).map fun e => e.slug.time.toNat
  let flying := (s.flights.filter fun f => f.launch == i && f.slug.tag == tag).map fun f => f.slug.time.toNat
  let held := ((s.slots.map (·.2) ++ s.migrants.map (·.ctx)).filter fun x => x.stage && x.launch == i).filterMap fun x =>
    match x.slug with | some v => if v.tag == tag then some v.time.toNat else none | none => none
  buffered ++ flying ++ held

/-- The frontiers of a launch's tags in ascending order, `top` being the least time that is open for the lower ones. -/
def State.closeTags (s : State) (i : Nat) : List Binding → Nat → State
  | [], _ => s
  | b :: bs, top =>
    let f := if s.slugsSettled i b.tag then Nat.max b.front ((s.slugTimes i b.tag).foldl Nat.min top) else b.front
    let b' := { b with front := f, changes := b.changes.filter fun c => f ≤ c.rec_.time.toNat }
    State.closeTags (s.setBinding b') i bs (Nat.min top f)

/-- Declares the closures of a launch (R367). -/
def State.declareClosures (s : State) (i : Nat) : State :=
  s.closeTags i (sortBy (fun a b => a.tag ≤ b.tag) (s.bindings.filter fun b => b.launch == i)) (s.sealOf i)

/-- What a sweep does for one launch (R309, R310, R367). -/
def State.sweepLaunch (s : State) (i : Nat) : State :=
  let s1 := s.declareClosures i
  let l := s1.launch i
  let n := s1.sums i
  if ((l.state == .closing && l.finished) || l.domainKilled) && s1.idle i && n.1 == n.2 then
    if l.sums == some n then s1.lightsOut i else s1.setLaunch i { l with sums := some n }
  else if l.sums.isSome then s1.setLaunch i { l with sums := none } else s1

/-- LIGHTS_OUT_SWEEP (R309). -/
def execLightsOutSweep (d : Nat) (s : State) : Outcome :=
  .next (((s.launches.filter fun e => e.2.die == d && e.2.state.open_).map (·.1)).foldl (fun s i => s.sweepLaunch i)
    (s.lampAnswered d))

/-! ### Stage threads (R368, R370) -/

/-- Whether a consolidation entry is ripe (R368). -/
def State.ripe (s : State) (e : Consol) : Bool :=
  e.slug.time.toNat < s.sealOf e.launch
    && s.bindings.all fun b => b.launch != e.launch || e.slug.tag ≤ b.tag || e.slug.time.toNat < b.front

/-- Whether a stage thread of an entry's launch, tag and key runs on its home. -/
def State.keyRuns (s : State) (c : Nat) (e : Consol) : Bool :=
  ((upto 16).map (16 * c + ·)).any fun t =>
    let x := s.slot t
    x.stage && x.launch == e.launch && match x.slug with | some v => v.tag == e.slug.tag && v.key == e.slug.key | none => false

/-- The group of a launch that runs a slice on an octet. -/
def Launch.hostOn (l : Launch) (o : Nat) : Option Group :=
  l.groups.find? fun x => x.octet == o && (x.state == .placed || x.state == .saving) && !x.restoring

/-- The entry that a home dispatches next. -/
def State.nextSlug (s : State) (c : Nat) : Option Consol :=
  let es := (s.core c).consol.filter fun e =>
    s.ripe e && !s.keyRuns c e && ((s.launch e.launch).hostOn (octetOf c)).isSome
  (sortBy (fun a b => a.slug.order < b.slug.order
    || (a.slug.order == b.slug.order && (s.launch a.launch).serial ≤ (s.launch b.launch).serial)) es).head?

/-- A stage thread as it starts (R370). -/
def stageSlot (l : Launch) (b : Binding) (x : Group) (v : Slug) (frame rec_ : VA) (n uid ready : Nat) : Slot :=
  ({ mode := .running, a := v.wt.signExtend 64, ptrs := { p0 := frame.zeroExtend 64, p1 := b.arg }, pc := evenAddr b.entry,
     savp := rec_, record := rec_, group := BitVec.ofNat 32 x.index, thread := BitVec.ofNat 7 n, stage := true, serial := l.serial,
     stag := b.tag, tenant := l.f.ten, key := l.f.key, launch := b.launch, gidx := x.index, slug := some v, uid := uid,
     ready := ready } : Slot).loadRcb l

/-- Starts the stage thread of an entry in a slot: the slug is written to its frame first, and its thread observes it and what
the emitters had performed (R381); where that faults, the tag breaks and the hosting group's fault domain is killed (R370,
R371). -/
def State.startStage (s : State) (c : Nat) (e : Consol) (b : Binding) (x : Group) (t : Nat) : State :=
  let l := s.launch e.launch
  let i := c - s.homeCore b 0
  let frame := b.slugb + BitVec.ofNat 48 (32 * (16 * i + t % 16))
  let rec_ := b.ssav + BitVec.ofNat 48 (0x400 * (16 * i + t % 16))
  let k := s.core c
  let s1 := s.setCore c { k with consol := k.consol.erase e }
  match s1.parts { l.space with core := c } .write 2 frame 32 with
  | .error f => ((s1.lampFault l f).breakTag e.launch b.tag).killDomain e.launch x.index 3
  | .ok ps =>
    let s2 := s1.setSlot t (stageSlot l b x e.slug frame rec_ (t % 16) (s.newUid t) (s.slot t).ready)
    (s2.write { Author.agentNow t with writer := some t, born := s.nd } (zipBytes (partKeys ps) (slugBytes e.slug))).orderPoint
      t .die false

/-- A core receives a stage thread of a launch: as it receives one of a group (R295, R127, R370); none where it cannot yet. -/
def State.receiveStage (s : State) (i : Nat) (l : Launch) (g c : Nat) : Option State :=
  if s.coreTakes [] [] i l g c then (s.holdCore i l c).pinClock l c else none

/-- STAGE_DISPATCH (R368, R370). -/
def execStageDispatch (c : Nat) (s : State) : Outcome :=
  match s.nextSlug c with
  | none => .next s
  | some e =>
    match s.binding e.launch e.slug.tag, (s.launch e.launch).hostOn (octetOf c), s.freeSlot c with
    | some b, some x, some t =>
      match (s.clearSlot t).bind fun s1 => s1.receiveStage e.launch (s1.launch e.launch) x.index c with
      | some s1 => .next (s1.startStage c e b x t)
      | none => .next s
    | _, _, _ => .next s

end Sys2Proof.Machine
end

