-- ==== Sys2Proof/Machine/HostEvents.lean ====
section
/-! DEFINITION. The package and its host (R391 to R410): energy, events and interrupts, machine checks, heat, reset and
bring-up, the host's writes of BAR0 and its accesses of memory, management. -/

namespace Sys2Proof.Machine
open Sys2Proof

/-! ### Energy (R404, R405) -/

/-- Charges energy in µJ to a launch, and to its running slices in equal parts. -/
def State.charge (s : State) (i uj : Nat) : State :=
  let l := s.launch i
  if !l.state.open_ then s else
  let run (g : Group) : Bool := (g.state == .placed && !g.restoring) || g.state == .saving
  let n := Nat.max 1 (l.groups.filter run).length
  s.setLaunch i { l with oilc := l.oilc + uj,
                         groups := l.groups.map fun g => if run g then { g with energy := g.energy + uj / n } else g }

/-- ENERGY_CHARGE: the shares in µJ of launches, and what is not attributed; the allowance under the cap and the burst of the
interval that ends, and those of PCAP for the next one (R404, R405). -/
def execEnergyCharge (shares : List (Nat × Nat)) (unatt : Nat) (s : State) : Outcome :=
  let known := shares.filter fun e => (s.launch e.1).state.open_
  let lost := (shares.filter fun e => !(s.launch e.1).state.open_).foldl (fun n e => n + e.2) unatt
  let total := known.foldl (fun n e => n + e.2) lost
  let s1 := known.foldl (fun s e => s.charge e.1 e.2) s
  let r := s1.regs
  let filled : Int := r.eleft + r.capNow.toNat
  let burst : Int := 1000 * r.burstNow.toNat
  .next { s1 with power := total,
                  regs := { r with eleft := (if filled ≤ burst then filled else burst) - total, eunatt := r.eunatt + lost,
                                   capNow := r.cap, burstNow := r.burst } }

/-! ### Events (R400 to R403) -/

/-- log2 of the entries of the event log: a value outside 8 to 16 is read as 8 (R392). -/
def HostRegs.logBits (r : HostRegs) : Nat := if 8 ≤ r.evctl.toNat && r.evctl.toNat ≤ 16 then r.evctl.toNat else 8
/-- Whether the arbiter accepts an event: the log has a base and is not full (R394, R400). -/
def HostRegs.accepts (r : HostRegs) : Bool := r.evb != 0 && (r.evp - r.evc).toNat != 2 ^ r.logBits

/-- The record of an event (R400). -/
def Event.record (e : Event) (now : W64) (seq : BitVec 32) : List (BitVec 8) :=
  wordBytes [BitVec.ofNat 4 e.kind ++ flagBit e.pkg ++ e.tenant ++ 0#55, e.a, e.b, e.c, now,
             seq ++ BitVec.ofNat 2 e.die ++ BitVec.ofNat 2 e.cluster ++ BitVec.ofNat 8 e.core ++ BitVec.ofNat 4 e.slot ++ 0#16, 0, 0]

/-- The MSI-X vector that an event's cause-table entry signals, when enabled (R403). -/
def HostRegs.vector (r : HostRegs) (e : Event) : Option (BitVec 11) :=
  let v := aget (0 : BitVec 32) r.ctab (16 * (if e.pkg then 16 else e.tenant.toNat) + e.kind)
  if v.getLsbD 31 then some (v.extractLsb' 0 11) else none

/-- EVENT_RECORD: the arbiter accepts the oldest event of a source (R400, R402, R403). -/
def execEventRecord (i : Nat) (s : State) : Outcome :=
  match s.events[i]? with
  | none => .next s
  | some e =>
    if !s.regs.accepts || (s.events.take i).any (fun q => q.source == e.source) then .next s else
    let at_ := hostBase + s.regs.evb.toNat + 64 * (s.regs.evp.toNat % 2 ^ s.regs.logBits)
    let s1 := s.write (Author.agentNow Agent.package.num) (zipBytes (span at_ 64) (e.record s.timeb s.evseq))
    .next { s1 with events := ldel s1.events i, evseq := s1.evseq + 1, regs := { s1.regs with evp := s1.regs.evp + 1 },
                    msix := s1.msix ++ (s1.regs.vector e).toList }

/-! ### Machine checks (R262, R406, R407) -/

/-- Kills the fault domains of groups by `kill`; one that has ended already is left alone, and a stage thread that waits for a
group stands in its launch's domain alone (R16). -/
def State.endGroups (s : State) (kill : State → Nat → Nat → State) (gs : List (Nat × Nat)) : State :=
  gs.foldl (fun s e =>
    let l := s.launch e.1
    match l.group? e.2 with
    | some x => if x.state == .ended then s else kill s e.1 e.2
    | none => if l.f.fdp = 0 || !l.state.open_ || l.domainKilled then s else kill s e.1 e.2) s

/-- Kills the fault domains of groups for a reason, with their events (R401, R407). -/
def State.killGroups (s : State) (gs : List (Nat × Nat)) (why : Nat) : State := s.endGroups (fun s i g => s.killDomain i g why) gs

/-- Kills by `kill` every fault domain of a launch: groups where FDP makes each a domain, else the whole launch, with or without
a group that is placed (R16). -/
def State.endLaunch (s : State) (kill : State → Nat → Nat → State) (i : Nat) : State :=
  let l := s.launch i
  if !l.state.open_ || l.domainKilled then s
  else if l.f.fdp = 0 then s.endGroups kill (l.groups.map fun x => (i, x.index))
  else kill s i 0

/-- Kills by `kill` every fault domain of the launches that `p` names (R16, R407, R408). -/
def State.endEvery (s : State) (p : Launch → Bool) (kill : State → Nat → Nat → State) : State :=
  s.launches.foldl (fun s e => if p (s.launch e.1) then s.endLaunch kill e.1 else s) s

/-- The groups of a launch. -/
def State.groupsOf (s : State) (i : Nat) : List (Nat × Nat) := (s.launch i).groups.map fun x => (i, x.index)

/-- The groups of slots. -/
def State.groupsAt (s : State) (ts : List Nat) : List (Nat × Nat) := ts.map fun t => ((s.slot t).launch, (s.slot t).gidx)

/-- The groups that run a slice with a thread on one of some cores. -/
def State.groupsOn (s : State) (cs : List Nat) : List (Nat × Nat) :=
  s.groupsAt ((s.slots.filter fun e => s.configured e.1 && cs.contains (coreOf e.1)).map (·.1))

/-- The group of the thread that copy commands name, wherever the thread now is. -/
def State.groupOfOwner (s : State) (o : CopyOwner) : List (Nat × Nat) :=
  (((s.slots.map (·.2)).filter (·.live) ++ s.migrants.map (·.ctx) ++ s.stored.map (·.ctx)).filter
    fun x => x.copyOwner == o).map fun x => (x.launch, x.gidx)

/-- The groups that a fabric request is for: a thread's, also where the thread has left its slot since, that of a copy command's
thread, or, of an access that a lamplighter makes, those of its launch. -/
def State.requestGroups (s : State) (o : Outstanding) : List (Nat × Nat) :=
  if o.writeBack then [] else
  match o.group, o.copy with
  | some g, _ => [(o.launch, g)]
  | none, some c => s.groupOfOwner c
  | none, none => s.groupsOf o.launch

/-- Whether a thread, by the number under which its writes stand, has written a location that a condition names without the
write having been performed yet; the condition is told the core that the write came from as well. -/
def State.writing (s : State) (p : Nat → Nat → Bool) (t : Nat) : Bool :=
  s.hist.any fun w => w.writer == some t && !w.done && w.new.any fun b => p (coreOf w.agent) b.1

/-- The slots with an access under way to a location that a condition names: a write that is not performed yet, an engine
operation, an access on its way, and, of an access of which only that it holds its thread is known, by a free choice (DESIGN
CHOICE, log 99). -/
def State.accessing (s : State) (p : Nat → Nat → Bool) : List Nat :=
  (s.slots.filter fun e => let q := p (coreOf e.1); e.2.live &&
    (s.writing p e.1
      || (s.core (coreOf e.1)).ops.any (fun o => o.slot == e.1 && (o.src.any q || o.bytes.any (fun b => q b.1) || (o.unread (coreOf e.1)).any q))
      || (match e.2.flight with
          | some f => f.reads.any fun r => (partKeys r.2.2).any q
          | none => e.2.busy && Config.pick (s.nd * 2 ^ 64 + e.1) % 2 == 1))).map (·.1)

/-- The groups with such an access: of their threads, wherever these are, and of their copy commands, whose hart is no core
(R407). -/
def State.reaching (s : State) (p : Nat → Nat → Bool) : List (Nat × Nat) :=
  let away := (s.migrants.map (fun m => (m.ctx, m.id)) ++ s.stored.map fun m => (m.ctx, m.id)).filter fun m => s.writing p m.2
  s.groupsAt (s.accessing p) ++ away.map (fun m => (m.1.launch, m.1.gidx))
    ++ s.octets.flatMap fun o => o.2.ch.flatMap fun c =>
      (c.2.queue.filter fun m => m.src.any (p (3072 + o.1)) || m.dst.flatten.any (p (3072 + o.1))).flatMap fun m => s.groupOfOwner m.owner

/-- Whether a location is a line of an L2 slice, or of the directory beside it (R358, R359). -/
def inSlice (die slice k : Nat) : Bool := keyIsDram k && sliceOf (homeDie 0 (lineOf k)) (lineOf k) == 64 * die + slice

/-- Whether an access of a core goes over the package torus: every one but those of its own scratchpad. -/
def overTorus (c k : Nat) : Bool := !(keyIsSpm k && spmCore k == c)

/-- The groups with an operation in a failed unit (R262, R406, R407). -/
def State.affected (s : State) : FailUnit → List (Nat × Nat)
  | .scratchpad c | .coreUnit c => s.groupsOn [c]
  | .fusedL1 k =>
    if !(s.core (192 * k)).fused then [] else
    (s.launches.filter fun e => e.2.f.fused && (span (192 * k) 192).all fun c => (s.core c).held.contains e.1).flatMap
      fun e => s.groupsOf e.1
  | .operandLink c => s.launches.flatMap fun e =>
    let os := (torusOf c e.2.f.subW e.2.f.subH).map octetOf
    let on := e.2.groups.filter fun g => (g.state == .placed || g.state == .saving) && os.contains g.octet
    if on.any fun g => g.octet == octetOf c then on.map fun g => (e.1, g.index) else []
  | .barrierTree k b => match ((s.cluster k).tree b).owner with | some i => s.groupsOf i | none => []
  | .formeTable k =>
    let fs := (s.cluster k).formes.map (·.2)
    (s.launches.filter fun e => fs.any fun f => f.state != .free && f.ownerDie == e.2.die && f.ownerSerial == e.2.serial).flatMap
      fun e => s.groupsOf e.1
  | .sfu o => s.groupsAt (((s.octet o).sfu.filter (·.live)).map (·.slot))
  | .copyHart o => (s.octet o).ch.flatMap fun c => c.2.queue.flatMap fun m => s.groupOfOwner m.owner
  | .lamplighter d => (s.launches.filter fun e => e.2.die == d).flatMap fun e => s.groupsOf e.1
  | .l2Slice d n | .directory d n => s.reaching fun _ => inSlice d n
  | .vault v => s.reaching fun _ k => keyIsDram k && vaultCore k == v
  | .packageTorus => s.reaching overTorus ++ (s.migrants.map fun m => (m.ctx.launch, m.ctx.gidx))
      ++ s.groupsAt (s.flights.map (·.slot))
  | .hostLink => s.reaching fun _ => keyIsHost
  | .fabricLink _ => s.reaching (fun _ => keyIsPeer) ++ s.fab.out.flatMap s.requestGroups
  | .packageWide => s.launches.flatMap fun e => s.groupsOf e.1

/-- The kind-6 event of a machine check (R401). -/
def State.checkEvent (s : State) (u : FailUnit) (kind : Nat) (addr : Nat) : State :=
  s.raise (packageEvent 6 (Config.unitId u) (BitVec.ofNat 64 kind) (BitVec.ofNat 64 addr))

/-- The package fails: it accepts no ROOT write until it is reset (R407, R408). -/
def State.fail (s : State) : State := { s with regs := { s.regs with devst := .failed } }

/-- MACHINE_CHECK (R407). -/
def execMachineCheck (u : FailUnit) (kind addr : Nat) (s : State) : Outcome :=
  let s1 := s.checkEvent u kind addr
  .next (if u == .packageWide then (s1.endEvery (fun _ => true) fun s i g => s.killDomain i g 3).fail else s1.killGroups (s.affected u) 3)

/-- CORRECTABLE_ERROR (R406, R407). -/
def execCorrectableError (s : State) : Outcome := .next { s with corrected := s.corrected + 1 }

/-! ### Heat (R408) -/

/-- The thermal event of a die: 1 throttled, 2 candles held, 3 trip (R401). -/
def State.heatEvent (s : State) (d temp : Nat) (c : W64) : State :=
  s.raise { packageEvent 7 (BitVec.ofNat 64 d) (BitVec.ofNat 64 temp) c with die := d, source := dieSource d }

/-- Lowers the clock of every core of a die on which no slice runs (R408, R126). -/
def State.lowerClocks (s : State) (d : Nat) : State :=
  (span (768 * d) 768).foldl (fun s c =>
    if s.coreBusy c then s else s.setCore c { s.core c with clock := s.plannedClock d c false }) s

/-- Whether a die has a region with CDL set that has not come to its end. -/
def State.hasCandles (s : State) (d : Nat) : Bool := s.launches.any fun e => e.2.die == d && e.2.f.cdl && e.2.state.open_

/-- THERMAL_THROTTLE: from 95 °C on (R408). -/
def execThermalThrottle (d temp : Nat) (s : State) : Outcome :=
  if temp < 95 then .next s else
  let x := aget {} s.thermal d
  let s1 : State := { s with thermal := aset {} s.thermal d { x with temp := temp, throttled := true } }
  if x.throttled then .next s1 else
  .next ((s1.lowerClocks d).heatEvent d temp (if s.hasCandles d then 2 else 1))

/-- THERMAL_RECOVERY: below 95 °C again (R408). -/
def execThermalRecovery (d temp : Nat) (s : State) : Outcome :=
  let x := aget {} s.thermal d
  if temp ≥ 95 || !x.throttled then .next s else
  let s1 : State := { s with thermal := aset {} s.thermal d { x with temp := temp, throttled := false } }
  .next ((s1.heatEvent d temp s.freeWord).decideAt d)

/-- THERMAL_TRIP: at 105 °C every fault domain is killed and the package fails; the thermal event is the change's alone, and
the kills raise no event of kind 5 (R401, R408). -/
def execThermalTrip (d temp : Nat) (s : State) : Outcome :=
  if temp < 105 then .next s else
  let x := aget {} s.thermal d
  let s1 : State := { s with thermal := aset {} s.thermal d { x with temp := temp, tripped := true } }
  let s2 := (s1.endEvery (fun _ => true) State.endDomain).fail
  .next (if x.tripped then s2 else s2.heatEvent d temp 3)

/-! ### Reset, bring-up, management (R394, R409, R410) -/

/-- The bytes of memory outside the package as a reset leaves them: those of lines that its caches held dirty are open. -/
def State.outsideMemory (s : State) : Memory :=
  let lines := (s.lines.filter (·.isDirty)).map (·.line) ++ (s.l2.filter (·.2.dirty)).map (·.2.line)
  let lost := (lines.filter fun n => keyIsUnbounded (n * 64)).flatMap fun n => span (n * 64) 64
  setBytes (s.mem.filter fun e => keyIsUnbounded e.1) (lost.map fun k => (k, BitVec.ofNat 8 (Config.pick (s.nd * 2 ^ 64 + k))))

/-- The images after a reset: of each of the three kinds the one staged last takes the place of the one before (R409, R410); an
image's number modulo 3 is its kind (DESIGN CHOICE, log 62). -/
def State.imagesNext (s : State) : List Nat :=
  (upto 3).map fun k => (s.staged.reverse.find? fun i => i % 3 == k).getD (s.images.getD k k)

/-- RESET: the machine right after reset; memory outside the package, the images that take effect, and the model's own
fields stay (R394, R410). -/
def execReset (s : State) : Outcome :=
  .next { State.reset with mem := s.outsideMemory, inputs := s.inputs, nd := s.nd, images := s.imagesNext,
                           fab := { era := s.nd + 1, wrote := s.fab.wrote.filter fun k => !s.lines.any fun r => r.line == lineOf k && r.isDirty } }

/-- BRINGUP_COMPLETE (R409). -/
def execBringupComplete (ok : Bool) (s : State) : Outcome :=
  if s.regs.devst == .reset || s.regs.devst == .firmware then
    .next { s with regs := { s.regs with devst := if ok then .ready else .failed, beenReady := ok } }
  else .next s

/-- The state code of DEVST (R391). -/
def DevState.code : DevState → Nat
  | .reset => 0 | .firmware => 1 | .ready => 2 | .failed => 3

/-- MANAGEMENT_REQUEST (R409, R410): an attestation report holds the images that the boot firmware has verified, none before DEVST
has shown ready (DEDUCED, log 124). -/
def execManagementRequest (r : MgmtReq) (s : State) : Outcome :=
  match r with
  | .readStatus =>
    let temps := (upto 4).map fun d => BitVec.ofNat 64 (aget {} s.thermal d).temp
    .next { s with mgmt := [BitVec.ofNat 64 (16 * s.regs.devst.code)] ++ temps
                     ++ [BitVec.ofNat 64 s.power, BitVec.ofNat 64 s.corrected] ++ s.images.map Config.firmwareVersion }
  | .stageImage i => .next { s with staged := s.staged ++ [i] }
  | .attest =>
    let digest (i : Nat) : List W64 := (upto 8).map fun k => (Config.imageDigest i).extractLsb' (64 * (7 - k)) 64
    let known := if s.regs.beenReady then s.images else []
    let sign : List W64 := (upto 17).map fun k => ((Config.imageSignature known).zeroExtend 1088).extractLsb' (64 * (16 - k)) 64
    .next { s with mgmt := known.flatMap digest ++ sign }

/-! ### The host's writes of BAR0, BAR2 and BAR4 (R391 to R399, R417, R433) -/

/-- Whether the host's writes of registers are heeded: from the time on at which DEVST shows ready (R394). -/
def State.ready (s : State) : Bool := s.regs.beenReady

/-- ROOT_WRITE (R393, R392); a package that has failed accepts none until it is reset (R407). -/
def execRootWrite (d : Nat) (v : W64) (s : State) : Outcome :=
  let root : VA := v.truncate 48 &&& ~~~0xFF#48
  if !s.ready || s.regs.devst == .failed || d ≥ 4 then .next s else
  let s0 : State := { s with regs := { s.regs with rooted := true } }
  if root == s.rootOf d then .next s0 else
  let s1 : State := { s0 with regs := { s0.regs with roots := aset 0 s0.regs.roots d root } }
  .next (if root == 0 then s1.unlink d else s1.walkFrom d root)

/-- LLROOT_WRITE (R450). -/
def execLlrootWrite (v : W64) (s : State) : Outcome :=
  if !s.ready then .next s else
  let s1 : State := { s with regs := { s.regs with llroot := v.truncate 52 &&& ~~~0xFFF#52 } }
  .next { s1 with nodes := s1.nodes.map fun n => { n with loc := (s1.llLoc n.rcb true).getD n.loc } }

/-- The most second-stage requests that are in progress or queued (R399). -/
def s2reqLimit : Nat := 9

/-- A host request for a second-stage invalidation (R399, R356). -/
def State.requestS2 (s : State) (tenant : BitVec 4) (page : Option (Nat × Nat)) (v : W64) : State :=
  if !s.ready || (s.invals.filter fun q => q.cover.stage2).length ≥ s2reqLimit then s else
  let c : Cover := { stage2 := true, die := 0, tenant := tenant, root := 0, page := page }
  { s with invals := s.invals ++ [{ cover := c, slot := none, id := s.invNext }], invNext := s.invNext + 1,
           regs := { s.regs with s2req := v } }

/-- The pages of the largest second-stage mapping that holds an IPA page, now or in what a cache may still hold. -/
def State.ipaPages (s : State) (tenant : BitVec 4) (page : Nat) : Nat × Nat :=
  let sp : Space := { tenant := tenant, root := 0, user := false, core := 0, key := 0, candle := false, agent := Agent.num .package }
  s.largestMapping true sp 0 page fun rd => s.stage2 rd tenant (BitVec.ofNat 52 (page * 4096))

/-- S2REQ_PAGE (R399). -/
def execS2reqPage (tenant : BitVec 4) (page : BitVec 40) (s : State) : Outcome :=
  .next (s.requestS2 tenant (some (s.ipaPages tenant page.toNat)) (0#12 ++ page ++ tenant ++ 1#8))

/-- S2REQ_ALL (R399). -/
def execS2reqAll (tenant : BitVec 4) (s : State) : Outcome := .next (s.requestS2 tenant none (0#52 ++ tenant ++ 3#8))

/-- OMAP_WRITE (R391, R398). -/
def execOmapWrite (q : Nat) (v : BitVec 8) (s : State) : Outcome :=
  if s.ready && q < 384 then .next { s with regs := { s.regs with omap := aset 0 s.regs.omap q (v &&& 0x8F#8) } } else .next s

/-- KCTL_WRITE (R418). -/
def execKctlWrite (k : Nat) (v : W64) (s : State) : Outcome :=
  if !s.ready || k ≥ 256 then .next s else
  let x : FabricKey := aget {} s.fab.keys k
  let y : FabricKey :=
    if v.getLsbD 63 then
      { x with valid := true, tenant := v.extractLsb' 0 4, current := some x.staging, previous := x.current }
    else { x with valid := false, tenant := v.extractLsb' 0 4, current := none, previous := none }
  .next { s with fab := { s.fab with keys := aset {} s.fab.keys k y } }

/-- A new second-stage root of a tenant governs the walks from then on; what the caches hold under the old one stays until an
invalidation removes it (R352, R398). -/
def State.setS2root (s : State) (tenant : BitVec 4) (root : BitVec 52) : State :=
  let old := s.s2root tenant
  { s with regs := { s.regs with s2root := aset 0 s.regs.s2root tenant.toNat root },
           oldRoots := if old == 0 || old == root then s.oldRoots else s.oldRoots ++ [{ tenant := tenant, root := old }] }

/-- A write of S2REQ: with GO a request, without it the register alone is written (R391, R399). -/
def State.writeS2req (s : State) (v : W64) : State :=
  let tenant : BitVec 4 := v.extractLsb' 8 4
  let page : BitVec 40 := v.extractLsb' 12 40
  let w := v &&& 0x000FFFFFFFFFFF03#64
  if !v.getLsbD 0 then { s with regs := { s.regs with s2req := w } }
  else s.requestS2 tenant (if v.getLsbD 1 then none else some (s.ipaPages tenant page.toNat)) w

/-- A write of a BAR0 register without behaviour of its own, or of S2REQ. -/
def State.writeBar0 (s : State) (off : Nat) (v : W64) : State :=
  let r := s.regs
  let set (r : HostRegs) : State := { s with regs := r }
  if off = 8 then
    if r.rooted || (v.extractLsb' 0 10).toNat = 1023 then s else set { r with pkgid := v.extractLsb' 0 10 }
  else if off = 0x38 then set { r with burst := v.extractLsb' 32 32, cap := v.extractLsb' 0 16 }
  else if off = 0x300 then s.writeS2req v
  else if off = 0x80 then set { r with evb := v.truncate 52 &&& ~~~0xFFF#52 }
  else if off = 0x88 then set { r with evctl := v.extractLsb' 0 5 }
  else if off = 0x98 then set { r with evc := v.extractLsb' 0 32 }
  else if 0x100 ≤ off && off < 0x200 && off % 16 = 0 then
    s.setS2root (BitVec.ofNat 4 ((off - 0x100) / 16)) (v.truncate 52 &&& ~~~0xFFF#52)
  else if 0x100 ≤ off && off < 0x200 && off % 16 = 8 then
    set { r with waym := aset 0xFFFF r.waym ((off - 0x100) / 16) (v.extractLsb' 0 16) }
  else if 0x800 ≤ off && off < 0xC40 && off % 4 = 0 then
    set { r with ctab := aset 0 r.ctab ((off - 0x800) / 4) (v.extractLsb' 0 32 &&& 0xFFFF07FF#32) }
  else s

/-- A write of a BAR2 register without behaviour of its own (R417). -/
def State.writeBar2 (s : State) (off : Nat) (v : W64) : State :=
  let f := s.fab
  let set (f : Fabric) : State := { s with fab := f }
  if 0x100 ≤ off && off < 0x200 && off % 16 = 0 then
    let t := (off - 0x100) / 16
    let x : Rate := aget {} f.rates t
    set { f with rates := aset {} f.rates t { x with red := v.getLsbD 63, floor := v.extractLsb' 32 16 } }
  else if 0x2000 ≤ off && off < 0x3FF8 && off % 8 = 0 then set { f with routes := aset 0 f.routes ((off - 0x2000) / 8) v }
  else if 0x4000 ≤ off && off < 0x8000 && off % 64 < 32 && off % 8 = 0 then
    let k := (off - 0x4000) / 64
    let x : FabricKey := aget {} f.keys k
    let at_ := 8 * (off % 64)
    let m : BitVec 256 := BitVec.ofNat 256 ((2 ^ 64 - 1) * 2 ^ at_)
    set { f with keys := aset {} f.keys k { x with staging := (x.staging &&& ~~~m) ||| BitVec.ofNat 256 (v.toNat * 2 ^ at_) } }
  else s

/-- A write of a BAR4 register without behaviour of its own: only while LSTAT shows off or left (R433). -/
def State.writeBar4 (s : State) (off : Nat) (v : W64) : State :=
  let l := s.lan
  if !(l.lstat == .off || l.lstat == .left) then s else
  if 0x100 ≤ off && off < 0x200 && off % 16 = 0 then
    { s with lan := { l with llog := aset 0 l.llog ((off - 0x100) / 16) (v.truncate 52 &&& 0xFFFFFFFFFF01F#52) } }
  else if 0x310 ≤ off && off < 0x480 && off % 16 = 0 then
    { s with lan := { l with lpln := aset 0 l.lpln ((off - 0x300) / 16) (v &&& 0x80FFFFFFFFFE0000#64) } }
  else s

/-- HOST_REGISTER_WRITE (R391, R417, R433). -/
def execHostRegisterWrite (bar off : Nat) (v : W64) (s : State) : Outcome :=
  .next (if !s.ready then s
    else match bar with
      | 0 => s.writeBar0 off v
      | 2 => s.writeBar2 off v
      | 4 => s.writeBar4 off v
      | _ => s)

/-! ### The host's reads of BAR0, BAR2 and BAR4 (R391, R417, R433): no event of the table is one, and these say what each
aligned doubleword reads as. Bytes that no register names, and keys, read as zero. -/

/-- An index of a bank of registers at an offset: `n` registers from `base` on, `step` bytes apart, at `at_` in each. -/
def bankIndex (off base step at_ n : Nat) : Option Nat :=
  if base + at_ ≤ off && (off - base) % step = at_ && (off - base) / step < n then some ((off - base) / step) else none

/-- A doubleword of BAR0; ELEFT and EUNATT in whole mJ (R391). -/
def State.bar0 (s : State) (off : Nat) : W64 :=
  let r := s.regs
  if off = 0 then BitVec.ofNat 64 (16 * r.devst.code)
  else if off = 8 then r.pkgid.zeroExtend 64
  else if off = 0x30 then r.llroot.zeroExtend 64
  else if off = 0x38 then r.burst ++ 0#16 ++ r.cap
  else if off = 0x40 then BitVec.ofInt 64 (r.eleft / 1000)
  else if off = 0x48 then BitVec.ofNat 64 (r.eunatt / 1000)
  else if off = 0x50 then s.timeb
  else if off = 0x80 then r.evb.zeroExtend 64
  else if off = 0x88 then r.evctl.zeroExtend 64
  else if off = 0x90 then r.evp.zeroExtend 64
  else if off = 0x98 then r.evc.zeroExtend 64
  else if off = 0x300 then r.s2req
  else if off = 0x308 then r.s2done.zeroExtend 64
  else match bankIndex off 0x10 8 0 4 with
  | some d => (s.rootOf d).zeroExtend 64
  | none => match bankIndex off 0x100 16 0 16 with
  | some t => (s.s2root (BitVec.ofNat 4 t)).zeroExtend 64
  | none => match bankIndex off 0x100 16 8 16 with
  | some t => (r.waymOf t).zeroExtend 64
  | none => match bankIndex off 0x400 8 0 48 with
  | some i => ((upto 8).map fun k => r.omapOf (8 * i + 7 - k)).foldl (fun v b => (v <<< 8) ||| b.zeroExtend 64) 0
  | none => match bankIndex off 0x800 8 0 136 with
  | some i => aget (0 : BitVec 32) r.ctab (2 * i + 1) ++ aget (0 : BitVec 32) r.ctab (2 * i)
  | none => 0

/-- A doubleword of BAR2 (R417). -/
def State.bar2 (s : State) (off : Nat) : W64 :=
  let f := s.fab
  let rate (t : Nat) : Rate := aget {} f.rates t
  if off = 0 then f.ports
  else if off = 0x600 then f.fretry
  else if off = 0x608 then f.fauth
  else match bankIndex off 0x100 16 0 16 with
  | some t => flagBit (rate t).red ++ 0#15 ++ (rate t).floor ++ 0#32
  | none => match bankIndex off 0x100 16 8 16 with
  | some t => BitVec.ofNat 64 (rate t).rate
  | none => match bankIndex off 0x200 8 0 64 with
  | some p => (aget (0 : BitVec 32) f.stomp p).zeroExtend 64
  | none => match bankIndex off 0x2000 8 0 1023 with
  | some j => aget 0 f.routes j
  | none => match bankIndex off 0x4000 64 0x20 256 with
  | some k => let x : FabricKey := aget {} f.keys k; flagBit x.valid ++ 0#59 ++ x.tenant
  | none => 0

/-- The state code of LSTAT (R433). -/
def LanState.code : LanState → Nat
  | .off => 0 | .aligning => 1 | .member => 2 | .left => 3

/-- A doubleword of BAR4 (R433). -/
def State.bar4 (s : State) (off : Nat) : W64 :=
  let l := s.lan
  if off = 0 then l.lgrp
  else if off = 8 then BitVec.ofNat 64 (16 * l.lstat.code)
  else if off = 0x10 then l.levt
  else match bankIndex off 0x100 16 0 16 with
  | some t => (aget (0 : BitVec 52) l.llog t).zeroExtend 64
  | none => match bankIndex off 0x100 16 8 16 with
  | some t => aget 0 l.lapp t
  | none => match bankIndex off 0x310 16 0 23 with
  | some p => aget 0 l.lpln (p + 1)
  | none => 0

/-! ### The host's accesses of memory (R395 to R397) -/

/-- Whether a range of bytes lies in package DRAM. -/
def inDram (a n : Nat) : Bool := a + n ≤ dramSize

/-- The dirty lines of a range are written back. -/
def State.cleanRange (s : State) (keys : List Nat) : State := keys.foldl (fun s k => s.cleanLine (lineOf k)) s

/-- HOST_MEM_READ: a strong access of system scope, which returns the newest write that has been performed with respect to the
host (R396, R237). -/
def execHostMemRead (a n : Nat) (s : State) : Outcome :=
  if !inDram a n then .next s else
  .next { s.cleanRange (span a n) with hostData := s.observe { agent := Agent.host.num, strong := true } (span a n) }

/-- HOST_MEM_WRITE (R396). -/
def execHostMemWrite (a : Nat) (bytes : List (BitVec 8)) (s : State) : Outcome :=
  if !inDram a bytes.length then .next s
  else .next (s.write Author.host (zipBytes (span a bytes.length) bytes))

/-- An atomic of another agent than a thread on locations of memory: what it read, the newest write, which has then been
performed with respect to it, and the state after it (R331). -/
def State.agentAtomic (s0 : State) (a : Author) (keys : List Nat) (fn : AmoFn) (w : LongWidth) (rnd : RMode) (x y : W64) :
    List (BitVec 8) × State :=
  let s := s0.observeAll a.agent keys
  let n := w.width.bytes
  let old := s.readKeys keys
  let v := (amoResult fn w rnd (ofBytes old) (x.toNat % 2 ^ (8 * n)) (y.toNat % 2 ^ (8 * n))).1
  (old, match v with
    | some v => s.write a (zipBytes keys (toBytes n v))
    | none => s.cleanRange keys)

/-- HOST_ATOMIC (R397). -/
def execHostAtomic (a : Nat) (fn : AmoFn) (w : LongWidth) (x y : W64) (s : State) : Outcome :=
  let n := w.width.bytes
  if !inDram a n || a % n != 0 then .next s else
  let r := s.agentAtomic Author.host (span a n) fn w .rne x y
  .next { r.2 with hostData := r.1 }

/-- A line of memory outside the package that its owner may write: its bytes are open from then on. -/
def State.lineOpened (s : State) (a : Author) (k : Nat) : State :=
  s.write a ((span (k / 64 * 64) 64).map fun k => (k, BitVec.ofNat 8 (Config.pick (s.nd * 2 ^ 64 + k))))

/-- HOST_SNOOP: the device's copies of a line of host memory are written back; one that invalidates lets the host write the
line (R395). -/
def execHostSnoop (a : Nat) (inv : Bool) (s : State) : Outcome :=
  if a ≥ 2 ^ 42 then .next s else
  let k := hostBase + a
  .next (if inv then s.lineOpened Author.host k else s.cleanLine (lineOf k))

end Sys2Proof.Machine
end

