-- ==== Sys2Proof/Machine/FabricEvents.lean ====
section
/-! DEFINITION. The events of the scale-up fabric (R412 to R424): requests of peers that this package performs as their home,
resends, discarded and rejected packets, rate control and ports. -/

namespace Sys2Proof.Machine
open Sys2Proof

/-! ### The home of a request (R413, R414, R422) -/

/-- The author of a write that this package performs for a peer as the home of the line. -/
def peerAuthor (p : Nat) : Author := Author.agentNow (Agent.peer p).num

/-- The cycles after which a request without its response is sent again: 2 µs (R422). -/
def resendGap : Nat := 2800

/-- The most sends of one request (R422). -/
def sendLimit : Nat := 8

/-- The cycles in which a request may be resent: its eight sends and the wait after the last (R422). -/
def resendSpan : Nat := sendLimit * resendGap

/-- The lines of some locations are held by a package from then on (R413). -/
def Fabric.holdBy (f : Fabric) (p : Nat) (keys : List Nat) : Fabric :=
  { f with holders := (cachedLines keys).foldl (fun h l => aset [] h l (nput (aget [] h l) p)) f.holders }

/-- A package holds the lines of some locations no longer. -/
def Fabric.letGoBy (f : Fabric) (p : Nat) (keys : List Nat) : Fabric :=
  { f with holders := (cachedLines keys).foldl (fun h l => aset [] h l (ndel (aget [] h l) p)) f.holders }

/-- The home's performance of a request, and what it answers: the newest bytes that have been performed with respect to the
peer (R413); the home's directory records which packages hold a line, an atomic's sender gives its copies up before (R414). An
invalidation is of a line whose home is the requester: its owner may then write it. -/
def State.perform (s : State) (r : FabricReq) : State × List (BitVec 8) :=
  match r.op with
  | .read n =>
    if inDram r.addr n then
      ({ s.cleanRange (span r.addr n) with fab := (s.cleanRange (span r.addr n)).fab.holdBy r.src (span r.addr n) },
        s.observe { agent := (Agent.peer r.src).num, strong := true } (span r.addr n))
    else (s, [])
  | .write bs =>
    if inDram r.addr bs.length then (s.write (peerAuthor r.src) (zipBytes (span r.addr bs.length) bs), [])
    else (s, [])
  | .invalidate =>
    (if r.addr < 2 ^ 42 then s.lineOpened (peerAuthor r.src) (peerBase + r.src * 2 ^ 42 + r.addr) else s, [])
  | .atomic fn w rnd x y =>
    if inDram r.addr w.width.bytes && r.addr % w.width.bytes == 0 then
      let s1 : State := { s with fab := s.fab.letGoBy r.src (span r.addr w.width.bytes) }
      let q := s1.agentAtomic (peerAuthor r.src) (span r.addr w.width.bytes) fn w rnd x y
      (q.2, q.1)
    else (s, [])

/-- Whether a packet under a key identifier can be authentic: the identifier has a key (R418). -/
def Fabric.hasKey (f : Fabric) (key : BitVec 8) : Bool :=
  let k : FabricKey := aget {} f.keys key.toNat
  k.current.isSome || k.previous.isSome

/-- FABRIC_REQUEST: one under a key identifier without a key fails authentication and is counted (R418, R420); another is
performed once, and one that comes again is answered from what was answered (R422); the answer is a packet of its own. -/
def execFabricRequest (r : FabricReq) (s0 : State) : Outcome :=
  let s : State := { s0 with fab := s0.fab.countNonce r.key }
  if !s0.fab.hasKey r.key then .next { s with fab := { s.fab with fauth := s.fab.fauth + 1 } } else
  let kept := s.fab.answered.filter fun a => s.cycle < a.at_ + resendSpan
  if kept.any (fun a => a.src == r.src && a.tag == r.tag) then .next { s with fab := { s.fab with answered := kept } } else
  let p := s.perform r
  .next { p.1 with fab := { p.1.fab with
    answered := kept ++ [{ src := r.src, tag := r.tag, resp := p.2, at_ := s.cycle }] } }

/-! ### The sender of a request (R420, R422) -/

/-- Kills the fault domain whose access a request was (R420). -/
def State.killRequester (s : State) (o : Outstanding) : State :=
  if (s.launch o.launch).f.fdp = 0 then s.killGroups (s.requestGroups o) 3
  else s.endLaunch (fun s i g => s.killDomain i g 3) o.launch

/-- A request that is lost: its machine check with the access's address, and the kill of R420; the data of a write-back are
lost. -/
def State.requestLost (s : State) (i : Nat) (o : Outstanding) (kind : Nat) : State :=
  let s1 : State := { s with fab := { s.fab with out := ldel s.fab.out i } }
  let s2 := s1.raise (packageEvent 6 s.freeWord (BitVec.ofNat 64 kind) (BitVec.ofNat 64 o.at_))
  if o.writeBack then
    (s2.lineOpened (peerAuthor (o.addr / 2 ^ 42)) (peerBase + o.addr)).endEvery
      (fun l => l.f.ten == o.tenant) fun s i g => s.killDomain i g 3
  else s2.killRequester o

/-- FABRIC_RESEND: after 2 µs without a response, under the key that is current then with a nonce not used before (R418); after
the eighth send a machine check (R422). -/
def execFabricResend (i : Nat) (s : State) : Outcome :=
  match s.fab.out[i]? with
  | none => .next s
  | some o =>
    if s.cycle < o.sent + resendGap then .next s
    else if o.sends < sendLimit then
      let o' := { o with sends := o.sends + 1, sent := s.cycle, nonce := s.fab.nonceOf o.key }
      .next { s with fab := { s.fab.countNonce o.key with out := lset s.fab.out i o', fretry := s.fab.fretry + 1 } }
    else .next (s.requestLost i o 0x20)

/-- STOMPED_PACKET (R422). -/
def execStompedPacket (port : Nat) (s : State) : Outcome :=
  if port < 64 then .next { s with fab := { s.fab with stomp := aset 0 s.fab.stomp port (aget 0 s.fab.stomp port + 1) } }
  else .next s

/-- FABRIC_AUTH_FAIL: a packet that this package received fails, and is counted; or a request of this package is rejected
by its receiver (R420). -/
def execFabricAuthFail (i : Option Nat) (s : State) : Outcome :=
  match i with
  | none => .next { s with fab := { s.fab with fauth := s.fab.fauth + 1 } }
  | some i =>
    match s.fab.out[i]? with
    | none => .next s
    | some o => .next (s.requestLost i o 0x21)

/-! ### Rates and ports (R417, R423) -/

/-- The largest rate in GB/s (R423). -/
def topRate : Nat := 10240

/-- A rate after a decrease: a floor of 0 is read as 1 (R417, R423), and one above the largest rate is kept as it was written
(DESIGN CHOICE, log 114). -/
def Rate.lowered (x : Rate) : Nat := Nat.max (Nat.max 1 x.floor.toNat) (x.rate - x.rate / 8)

/-- RATE_DECREASE: a marked response; the rate falls at most once in 2 µs (R423). -/
def execRateDecrease (t : Nat) (s : State) : Outcome :=
  if t ≥ 16 then .next s else
  let x : Rate := aget {} s.fab.rates t
  let due : Bool := match x.lastDown with | some d => decide (d + 2000 ≤ s.now) | none => true
  let y : Rate := if due then { x with rate := x.lowered, lastDown := some s.now, lastMark := s.now }
    else { x with lastMark := s.now }
  .next { s with fab := { s.fab with rates := aset {} s.fab.rates t y } }

/-- RATE_INCREASE: 10 µs with no mark (R423). -/
def execRateIncrease (t : Nat) (s : State) : Outcome :=
  let x : Rate := aget {} s.fab.rates t
  if t ≥ 16 || s.now < x.lastMark + 10000 then .next s else
  let y : Rate := { x with rate := Nat.min topRate (x.rate + 160), lastMark := s.now }
  .next { s with fab := { s.fab with rates := aset {} s.fab.rates t y } }

/-- PORT_STATE_CHANGE (R417). -/
def execPortStateChange (port : Nat) (up : Bool) (s : State) : Outcome :=
  if port ≥ 64 then .next s else
  let bit : W64 := 1#64 <<< port
  .next { s with fab := { s.fab with ports := if up then s.fab.ports ||| bit else s.fab.ports &&& ~~~bit } }

end Sys2Proof.Machine
end

