-- ==== Sys2Proof/Machine/LanthornEvents.lean ====
section
/-! DEFINITION. The events of the Lanthorn (R426 to R441): joining and leaving a group, the alignment of the time base, holds
of the flame, the application of order events and of bulk holds, the removal of a silent member. -/

namespace Sys2Proof.Machine
open Sys2Proof

/-! ### Joining and leaving (R426, R429, R431 to R434) -/

/-- The requests of this package that no hold has begun for are withdrawn; their threads start again (R59, R437). -/
def State.withdrawOrders (s : State) : State :=
  { s with
    lan := { s.lan with oq := [], oqOut := [], bq := [] },
    slots := s.slots.map fun e =>
      (e.1, if e.2.lan == .queued then
        { e.2 with lan := .idle, lred := e.2.lred.filter fun r => r.round.isSome } else e.2) }

/-- Whether an instruction is one of LPOST, LWAIT, LCAST and LBRED. -/
def isLanthornWait : Instr → Bool
  | .lpost _ | .lwait | .lcast .. | .lbred _ => true
  | _ => false

/-- Whether a thread has an LPOST, LWAIT, LCAST or LBRED in progress: it is parked on one, or an LBRED's contribution waits for
its round. -/
def Slot.inLanthorn (x : Slot) : Bool :=
  x.lred.isSome || !x.lkept.isEmpty || (match x.park with | some p => isLanthornWait p.1 | none => false)

/-- The groups that a machine check of the Lanthorn reaches, wherever their threads are (R429). -/
def State.lanthornGroups (s : State) : List (Nat × Nat) :=
  let fs := (s.clusters.filter fun k => k.1 < 16).flatMap fun k => (k.2.formes.filter fun f => f.2.g).map (·.2)
  (((s.slots.map (·.2)).filter (·.live) ++ s.migrants.map (·.ctx) ++ s.stored.map (·.ctx)).filter (·.inLanthorn)).map
      (fun x => (x.launch, x.gidx))
    ++ (s.launches.filter fun e => fs.any fun f => f.ownerDie == e.2.die && f.ownerSerial == e.2.serial).flatMap
        fun e => s.groupsOf e.1

/-- A member leaves its group, with a machine check and the kills that it makes (R429). -/
def State.leaveGroup (s : State) : State :=
  let s1 : State := { s with lan := { s.lan with lstat := .left, holds := [], bholds := [] } }
  ((s1.raise (packageEvent 6 s.freeWord 0x30 0)).killGroups s.lanthornGroups 3).withdrawOrders

/-- LGRP_WRITE (R433): EN = 1 starts the join, which of a member is ignored; EN = 0 leaves the group, as a member with the machine
check of every leave (R429; DEDUCED, log 47). -/
def execLgrpWrite (v : W64) (s : State) : Outcome :=
  if !s.ready then .next s else
  let reg : W64 := v &&& 0x8000000000003F3F#64
  if v.getLsbD 63 then
    if s.lan.lstat == .member then .next s
    else .next { s with lan := { s.lan with lgrp := reg, lstat := .aligning }, aligning := none }
  else
    let s1 := if s.lan.lstat == .member then s.leaveGroup else s.withdrawOrders
    let st : LanState := if s.lan.lstat == .off then .off else .left
    .next { s1 with lan := { s1.lan with lgrp := reg, lstat := st }, aligning := none }

/-- The planes of a group. -/
def planes : List Nat := upto 24

/-- Whether a package that joins is the first of its group; of a group of more than one that no register says (R426, R434). -/
def State.formsGroup (s : State) : Bool := s.lan.members = 1 || Config.pick (s.nd * 2 ^ 64 + 48) % 2 == 0

/-- The members that are not in the group's rotation when a package joins: those that have not joined yet, which no register
says; its own index is in it, and member 0, whose beacon the join needs (R426, R432). -/
def State.notJoined (s : State) : List Nat :=
  (upto s.lan.members).filter fun m => m != 0 && m != s.lan.index && Config.pick (s.nd * 2 ^ 64 + 64 + m) % 2 == 1

/-- The state of a package that becomes a member: in a group that forms, every count is 0 and member 0 holds the flames first; of
a formed one it takes the present counts, and the flames are with any other member that is in it (R426, R434). -/
def State.becomeMember (s : State) : State :=
  let l := s.lan
  let free (i : Nat) : Nat := Config.pick (s.nd * 2 ^ 64 + i)
  let absent := s.notJoined
  let others := (upto l.members).filter fun m => m != l.index && !absent.contains m
  let forms := s.formsGroup || others.isEmpty
  let tseq : Assoc W64 := if forms then [] else (upto 16).foldl (fun m t => aset 0 m t (BitVec.ofNat 64 (free t))) []
  let holder : Assoc Nat := if forms then [] else
    planes.foldl (fun m p => aset 0 m p (others.getD (free (16 + p) % others.length) 0)) []
  let lapp := (upto 16).foldl (fun m t =>
    if (l.logSize (BitVec.ofNat 4 t)).isSome then aset 0 m t (aget 0 tseq t) else m) l.lapp
  { s with
    lan := { l with lstat := .member, holder := holder, gone := [], absent := absent, heard := planes.foldl (fun m p => aset 0 m p s.cycle) [],
                    holds := [], bholds := [], tseq := tseq, lapp := lapp, contribs := [], rcounts := [], lostRounds := [] },
    aligning := none }

/-- Whether no thread of the package has ST.CD > 0 and no slice of a region with CDL set runs (R432). -/
def State.mayAlign (s : State) : Bool :=
  let open_ (x : Slot) : Bool := x.live && x.st.cd != 0
  !(s.slots.any fun e => open_ e.2) && !(s.migrants.any fun m => open_ m.ctx) && !(s.stored.any fun m => open_ m.ctx)
    && !(s.launches.any fun e => e.2.f.cdl && e.2.groups.any fun g => g.state == .placed || g.state == .saving)

/-- TIMEBASE_ALIGN: the adjustment to member 0's corrected count: forward in one cycle, or the time base holds until the
count has reached it (R432). -/
def execTimebaseAlign (target : W64) (s : State) : Outcome :=
  if s.lan.lstat != .aligning || s.aligning.isSome || !s.mayAlign then .next s
  else if target < s.timeb then .next { s with aligning := some target }
  else .next ({ s with timeb := target } : State).becomeMember

/-! ### Holds (R426 to R428) -/

/-- Whether a member that was not in the rotation has joined the group: which no register says (R426). -/
def State.joined (s : State) (p m : Nat) : Bool := Config.pick (s.nd * 2 ^ 64 + 128 + 64 * p + m) % 2 == 1

/-- The member that follows in a plane's rotation: one that is in it, or that joins the group as the rotation reaches it
(R426). -/
def State.nextHolder (s : State) (p h : Nat) : Nat :=
  let n := s.lan.members
  (((upto n).map fun i => (h + 1 + i) % n).find? fun m => !s.lan.isOut m || s.joined p m).getD h

/-- Passes the flame of a plane on from a member; the plane has had light. -/
def State.passFlame (s : State) (p h : Nat) : State :=
  let m := s.nextHolder p h
  { s with lan := { s.lan with holder := aset 0 s.lan.holder p m, gone := ndel s.lan.gone m, absent := ndel s.lan.absent m,
                               heard := aset 0 s.lan.heard p s.cycle } }

/-- The contributions of a member to a tenant's reduction id that have been applied. -/
def Lanthorn.rcount (l : Lanthorn) (t : BitVec 4) (id : BitVec 16) (m : Nat) : Nat :=
  match l.rcounts.find? fun r => r.tenant == t && r.id == id && r.member == m with
  | some r => r.count
  | none => 0

/-- Whether a unit of the order plane contributes to a tenant's reduction id. -/
def reducesId (b : OrderBody) (t : BitVec 4) (id : BitVec 16) : Bool :=
  match b with
  | .reduce t' id' _ _ => t' == t && id' == id
  | .post .. | .transfer .. | .forme .. => false

/-- The contributions of a member that it has sent, applied or not. -/
def Lanthorn.sentCount (l : Lanthorn) (t : BitVec 4) (id : BitVec 16) (m : Nat) : Nat :=
  l.rcount t id m + (l.holds.filter fun h => h.sender == m && reducesId h.body t id).length

/-- The hold that sends a thread's request has begun (R437); a contribution has its round (R441). -/
def State.holdBegins (s : State) (t : Nat) (b : Option OrderBody) : State :=
  let x := s.slot t
  match b, x.lred with
  | some (.reduce tenant id _ _), some r =>
    s.setSlot t { x with lan := .idle, lred := some { r with round := some (s.lan.sentCount tenant id s.lan.index) } }
  | _, _ => s.setSlot t { x with lan := .held }

/-- A hold of plane 0. -/
def State.orderHold (s : State) (theirs : Option OrderBody) : State :=
  let h := aget 0 s.lan.holder 0
  let add (s : State) (b : OrderBody) (t : Option Nat) : State :=
    { s with lan := { s.lan with holds := s.lan.holds ++ [{ sender := h, body := b, slot := t }] } }
  if h = s.lan.index then
    match s.lan.oq with
    | [] => s
    | q :: rest =>
      let s1 : State := { s with lan := ({ s.lan with oq := rest } : Lanthorn).takeIn }
      let s2 := match q.slot with | some t => s1.holdBegins t (some q.body) | none => s1
      add s2 q.body q.slot
  else match theirs with
    | some b => add s b none
    | none => s

/-- A hold of a bulk plane. -/
def State.bulkHold (s : State) (p : Nat) (theirs : Option BulkBody) : State :=
  let h := aget 0 s.lan.holder p
  let add (s : State) (b : BulkBody) (t : Option Nat) : State :=
    { s with lan := { s.lan with bholds := aset [] s.lan.bholds p (aget [] s.lan.bholds p ++ [{ sender := h, body := b, slot := t }]) } }
  if h = s.lan.index then
    match aget [] s.lan.bq p with
    | [] => s
    | q :: rest =>
      let s1 : State := { s with lan := { s.lan with bq := aset [] s.lan.bq p rest } }
      add (s1.holdBegins q.slot none) q.body (some q.slot)
  else match theirs with
    | some b => add s b none
    | none => s

/-- FLAME_HOLD: the holder of a plane's flame sends at most one unit and passes the flame on; what another member sends is
given with the event (R426). -/
def execFlameHold (plane : Nat) (order : Option OrderBody) (bulk : Option BulkBody) (s : State) : Outcome :=
  if s.lan.lstat != .member || plane ≥ 24 then .next s else
  let s1 := if plane = 0 then s.orderHold order else s.bulkHold plane bulk
  .next (s1.passFlame plane (aget 0 s1.lan.holder plane))

/-! ### Applying order events (R428, R434, R437, R441, R277) -/

/-- What the request of a thread waits for has been done. -/
def State.lanDone (s : State) (t : Option Nat) (w : LanWait) : State :=
  match t with
  | some t => s.setSlot t { s.slot t with lan := w }
  | none => s

/-- The bytes of an entry of the order log (R434). -/
def logEntry (seq : W64) (sender : Nat) (channel : BitVec 16) (pay : BitVec 384) : List (BitVec 8) :=
  wordBytes [seq, 1#4 ++ BitVec.ofNat 6 sender ++ 0#38 ++ channel] ++ toBytes 48 pay.toNat

/-- The author of the writes of the package itself. -/
def packageAuthor : Author := Author.agentNow Agent.package.num

/-- The Lanthorn's write of bytes at a system address in this package's DRAM (R433); nothing elsewhere. -/
def State.writeOwn (s : State) (a : Nat) (bs : List (BitVec 8)) : State :=
  match s.sysLoc (BitVec.ofNat 52 a) with
  | some (.dram off) => if inDram off bs.length then s.write packageAuthor (zipBytes (span off bs.length) bs) else s
  | _ => s

/-- Applies event `seq` of a tenant: its entry, then LAPP (R434). -/
def State.applyPost (s : State) (h : OrderHold) (t : BitVec 4) (ch : BitVec 16) (pay : BitVec 384) : State :=
  let seq : W64 := aget 0 s.lan.tseq t.toNat + 1
  let s1 : State := { s with lan := { s.lan with tseq := aset 0 s.lan.tseq t.toNat seq } }
  let s2 := match s.lan.logSize t with
    | none => s1
    | some k =>
      let base := aget (0 : BitVec 52) s.lan.llog t.toNat &&& ~~~0xFFF#52
      let w := s1.writeOwn (base.toNat + 64 * (seq.toNat % 2 ^ k)) (logEntry seq h.sender ch pay)
      { w with lan := { w.lan with lapp := aset 0 w.lan.lapp t.toNat seq } }
  s2.lanDone h.slot (.done seq)

/-- Applies a contribution: it belongs to its member's next round (R441). -/
def State.applyReduce (s : State) (h : OrderHold) (t : BitVec 4) (id : BitVec 16) (ty : BitVec 4) (lanes : BitVec 384) : State :=
  let n := s.lan.rcount t id h.sender
  let others := s.lan.rcounts.filter fun r => !(r.tenant == t && r.id == id && r.member == h.sender)
  { s with lan := { s.lan with
      rcounts := others ++ [{ tenant := t, id := id, member := h.sender, count := n + 1 }],
      contribs := s.lan.contribs ++ [{ tenant := t, id := id, round := n, member := h.sender, ty := ty, lanes := lanes }] } }

/-- The entry that an order event tells of: one of a peer's table that this package does not hold is the Composing entry of the
event's generation, its other fields open (R277). -/
def State.toldForme (s : State) (k entry : Nat) (gen : BitVec 8) : Forme :=
  let e := s.formeAt k entry
  if k < 16 || ((s.cluster k).forme entry).told then e else { e with state := .composing, gen := gen }

/-- Applies the transfer of a forme to a word of another package; whether that word is full is not this package's to hold
(R277, R158). A transfer of an entry that is freed or pied by then has no effect, and its FSEND meets check 5 or 6 (R270). -/
def State.applyTransfer (s : State) (h : OrderHold) (v : W64) (target : Nat) : State :=
  let e := s.toldForme (s.tableOf v) (handleEntry v) (handleGen v)
  if e.state != .composing || e.gen != handleGen v || Config.pick (s.nd * 2 ^ 64) % 2 == 1 then s.lanDone h.slot .refused else
  let own := peerBase + s.regs.pkgid.toNat * 2 ^ 42
  let s1 := if own ≤ target && inDram (target - own) 8 then
      s.write packageAuthor (zipBytes (span (target - own) 8) (toBytes 8 v.toNat))
    else if keyIsPeer target then s.write (peerAuthor (peerPackage target)) (zipBytes (span target 8) (toBytes 8 v.toNat))
    else s
  let s2 := s1.setFormeOf v { e with holder := none, xfr := true, target := target, ina := false, g := true }
  s2.lanDone h.slot (.done 0)

/-- An entry after a transition that another package has made: a lock-up or a kill changes an entry that is Composing
(R267). -/
def Forme.changed (e : Forme) (c : FormeChange) : Forme :=
  match c with
  | .locked => if e.state == .composing then e.locked else e
  | .pied => if e.state == .composing then { e with state := .pied, holder := none } else e
  | .freed => e.freed

/-- Applies a transition of a forme, of this package or of another one, that another member has made; for those that this
package makes, its tables have theirs already (R277). An entry that a peer has freed is told of no longer. -/
def State.applyForme (s : State) (h : OrderHold) (pkg cluster entry : Nat) (gen : Nat) (c : FormeChange) : State :=
  if h.sender = s.lan.index then s else
  let k := if pkg = s.regs.pkgid.toNat then cluster else 16 * (pkg + 1) + cluster
  let e := s.toldForme k entry (BitVec.ofNat 8 gen)
  if e.gen.toNat != gen || e.state == .free then s else s.setCluster k ((s.cluster k).setForme entry (e.changed c))

/-- The effect of an order event (R428). -/
def State.applyOrder (s : State) (h : OrderHold) : State :=
  match h.body with
  | .post t ch pay => s.applyPost h t ch pay
  | .reduce t id ty lanes => s.applyReduce h t id ty lanes
  | .transfer v target => s.applyTransfer h v target
  | .forme pkg cluster entry gen c => s.applyForme h pkg cluster entry gen c

/-- ORDER_EVENT_APPLY: the oldest order event that this member has not applied (R428). -/
def execOrderEventApply (s : State) : Outcome :=
  match s.lan.holds with
  | [] => .next s
  | h :: rest =>
    let s1 : State := { s with lan := { s.lan with holds := rest, levt := s.lan.levt + 1 } }
    .next (s1.applyOrder h)

/-! ### Bulk holds (R440) -/

/-- The receive-region base of a plane (R433). -/
def Lanthorn.region (l : Lanthorn) (p : Nat) : Nat := (l.plane p &&& 0x000FFFFFFFFE0000#64).toNat

/-- BULK_HOLD_APPLY: the bytes of the oldest hold of a plane, then its sender's header word; the waiters of that word wake
(R440, R333). -/
def execBulkHoldApply (plane : Nat) (s : State) : Outcome :=
  match aget [] s.lan.bholds plane with
  | [] => .next s
  | h :: rest =>
    let s1 : State := { s with lan := { s.lan with bholds := aset [] s.lan.bholds plane rest } }
    let s2 := match s.sysLoc (BitVec.ofNat 52 (s.lan.region plane)) with
      | some (.dram base) =>
        let data := base + 0x200 + h.body.off
        let head := base + 8 * h.sender
        if inDram data h.body.bytes.length && (s.lan.plane plane).getLsbD 63 && inDram head 8 then
          let w := s1.write packageAuthor (zipBytes (span data h.body.bytes.length) h.body.bytes)
          let n := ofBytes (w.readKeys (span head 8)) + 1
          (w.write packageAuthor (zipBytes (span head 8) (toBytes 8 n))).wakeWaiters (head / 8)
        else s1
      | _ => s1
    .next (s2.lanDone h.slot (.done 0))

/-! ### Members that fall silent, and leaving (R429, R430) -/

/-- The rounds of which something has been sent. -/
def State.openRounds (s : State) : List (BitVec 4 × BitVec 16 × Nat) :=
  (s.lan.contribs.map fun c => (c.tenant, c.id, c.round))
    ++ (((s.slots.map (·.2)) ++ s.migrants.map (·.ctx) ++ s.stored.map (·.ctx)).flatMap fun x =>
        (x.lred.toList ++ x.lkept).filterMap fun r => r.round.map fun n => (x.tenant, r.id, n))
    ++ s.lan.holds.filterMap fun h => match h.body with
        | .reduce t id _ _ => some (t, id, s.lan.rcount t id h.sender)
        | .post .. | .transfer .. | .forme .. => none

/-- The cycles without light after which a holder is silent: 1 µs (R430). -/
def silence : Nat := 1400

/-- FLAME_TIMEOUT: a holder that has been silent for 1 µs is removed, the rounds that await it are lost, and the member that
follows takes its flames (R430). -/
def execFlameTimeout (plane : Nat) (s : State) : Outcome :=
  let h := aget 0 s.lan.holder plane
  if s.lan.lstat != .member || plane ≥ 24 || h = s.lan.index || s.cycle < aget 0 s.lan.heard plane + silence then .next s else
  let lost := s.openRounds.filter fun r => s.lan.sentCount r.1 r.2.1 h ≤ r.2.2
  let fresh := lost.filter fun r => !s.lan.lostRounds.contains r
  let s1 : State := { s with lan := { s.lan with gone := nput s.lan.gone h, lostRounds := s.lan.lostRounds ++ fresh } }
  .next (planes.foldl (fun s p => if aget 0 s.lan.holder p = h then s.passFlame p h else s) s1)

/-- LANTHORN_LEAVE: a member that cannot apply a hold leaves the group with a machine check (R429); a package that is
aligning is refused (R426). -/
def execLanthornLeave (s : State) : Outcome :=
  if s.lan.lstat == .aligning then .next { s with lan := { s.lan with lstat := .left }, aligning := none }
  else .next (if s.lan.lstat == .member then s.leaveGroup else s)

end Sys2Proof.Machine
end

