-- ==== Sys2Proof/Machine/Turn.lean ====
section
/-! DEFINITION. What one step does besides its instruction: the issue of a cycle (R152), fetching and decoding of its
instruction (R46 to R49, R229), the passage of a cycle (R125, R432), and the placing of one instruction for the next step. -/

namespace Sys2Proof.Machine
open Sys2Proof

/-! ### The issue of a cycle (R152) -/

/-- The slot from which a core's search starts (R152). -/
def Core.searchFrom (c : Core) : Nat := match c.last with | some n => n + 1 | none => 0

/-- Whether a slot would be ready if 8 cycles had passed since its last issue. -/
def State.contends (s : State) (t : Nat) : Bool := s.atBoundary t && (s.slot t).park.isNone

/-- The slots of a core in the order of its search (R152). -/
def State.searchOrder (s : State) (c : Nat) : List Nat := (upto 16).map fun i => 16 * c + ((s.core c).searchFrom + i) % 16

/-- Whether a core's slots take their turns exactly 8 cycles apart: at most 8 contend, and none of them has been passed over when
it was due (R143, R150). -/
def State.exactTurns (s : State) (c : Nat) : Bool :=
  let ts := (s.searchOrder c).filter s.contends
  ts.length ≤ 8 && ts.all fun t => !(s.core c).passed.contains (t % 16)

/-- The slot of a core that issues in this cycle, when the core has not issued in it: the first ready one of the search (R152).
DEDUCED: with at most 8 slots a turn is exactly 8 cycles (R143, R150), so that one whose access completes in a cycle in which
another is due is ready only from a cycle in which none is; once a slot has been passed over in the cycle in which it was due,
the search alone decides until it has had its turn (log 92). -/
def State.coreIssue (s : State) (c : Nat) : Option Nat :=
  if s.cycle < (s.core c).next then none else
  let ts := s.searchOrder c
  match if s.exactTurns c then ts.find? s.slotDue else none with
  | some t => some t
  | none => ts.find? s.slotReady

/-- The next slot that issues in this cycle: cores in ascending order. -/
def State.nextIssue (s : State) : Option Nat := s.slots.findSome? fun e => s.coreIssue (coreOf e.1)

/-- What the turn of a slot comes to: a trap taken, or an instruction to perform. -/
inductive SlotTurn where
  | done (s : State)
  | run (i : Instr) (s : State)

/-- The state in which a slot's turn begins. -/
def State.atTurn (s : State) (t : Nat) : State := { s.turn t with cur := t, chain := {}, inSeq := none }

/-- The peer lines, those of page tables among them, that the fetch of `n` halfwords reads (R413). -/
def State.fetchLines (s : State) (pc : VA) (n : Nat) : List Nat :=
  cachedLines ((upto n).flatMap fun i =>
    let a := pc + BitVec.ofNat 48 (2 * i)
    (match s.place s.space .fetch a with | .ok p => [p.key].filter keyIsPeer | .error _ => []) ++ s.peerTables s.space a)

/-- The lines among them that the fetch has still to bring over the fabric (R413, R419). -/
def State.fetchMisses (s : State) (pc : VA) (n : Nat) : List Nat :=
  (s.fetchLines pc n).filter fun l =>
    !s.me.brought.contains l && !(s.rekey s.me.key l).peerHit (dieOf s.here) l false

/-- A fetch waits for lines of peers: its requests go out, and hold the thread until they are answered (R413, R422). -/
def State.bring (s : State) (lines : List Nat) : State :=
  let keys := lines.map (64 * ·)
  let s1 := (s.toFabric keys false).takePeers (dieOf s.here) keys s.me.tenant s.me.key
  s1.setMe { s1.me with busy := true, brought := lines }

/-- The lines that a fetch has brought have served it. -/
def State.served (s : State) : State := if s.me.brought.isEmpty then s else s.setMe { s.me with brought := [] }

/-! ### Accesses on their way (R143, R151) -/

/-- The memory operands of an instruction whose access may be performed later than it issues, with their widths: the loads of page
0 without synchronisation and the atomics. -/
def flyingOps : Instr → List (MemOp × Nat × Access)
  | .ld w o md | .add w o md | .sub w o md | .rsub w o md | .and w o md | .or w o md | .xor w o md | .min w o md | .max w o md
  | .minu w o md | .maxu w o md | .cmp w o md | .mul w o md | .mulh w o md | .mulhu w o md | .div w o md | .divu w o md
  | .rem w o md => if md.sync then [] else [(o, w.bytes, .read)]
  | .fadd w o _ | .fsub w o _ | .fmul w o _ | .fdiv w o _ | .fsqrt w o _ | .fmin w o _ | .fmax w o _ | .fcmp w o _ =>
    [(o, w.width.bytes, .read)]
  | .fma w o (some q) _ => [(o, w.width.bytes, .read), (q, w.width.bytes, .read)]
  | .amoadd w o _ | .amoand w o _ | .amoor w o _ | .amoxor w o _ | .amomin w o _ | .amomax w o _ | .amominu w o _
  | .amomaxu w o _ | .amoswap w o _ | .afadd w o _ | .afmin w o _ | .afmax w o _ => [(o, w.width.bytes, .atomic)]
  | .amocas w o (some q) _ => [(o, w.width.bytes, .atomic), (q, w.width.bytes, .read)]
  | _ => []

/-- Whether anything but the thread of a slot can have written or may write meanwhile. -/
def State.crowded (s : State) (t : Nat) : Bool :=
  s.ready || !s.hist.isEmpty || !s.launches.isEmpty || s.slots.any fun e => e.1 != t && e.2.live

/-- The stretches of an instruction's access with their translations; none where one does not translate. -/
def State.stretchesOf (s : State) : List (MemOp × Nat × Access) → Option (List (VA × Nat × List Part))
  | [] => some []
  | e :: es =>
    let va := s.ea e.1 e.2.1
    match s.access e.2.2 va e.2.1, State.stretchesOf s es with
    | .ok ps, some rest => some ((va, e.2.1, ps) :: rest)
    | _, _ => none

/-- Whether an instruction that would complete from a state, but for an access that holds its thread, has only that access before
it: no trap, no park, no request on the fabric. -/
def State.onlyHeld (s : State) (i : Instr) : Bool :=
  match issue i s with
  | .next s' => let x := s'.me
    s'.cur == s.cur && x.busy && x.park.isNone && x.mode == .running && x.pc == s.nextPc && x.st.tl == s.me.st.tl
      && s'.fab.out.length == s.fab.out.length
  | .fault _ | .refused _ => false

/-- The access with which an instruction sets out, where it is to be performed later than in its turn: when it is performed is
open (R143, R151; DEDUCED, log 95). -/
def State.flightOf (s : State) (i : Instr) : Option Flying :=
  match flyingOps i with
  | [] => none
  | ops =>
    if s.crowded s.cur && s.onlyHeld i && Config.pick (s.nd * 2 ^ 64 + 2 ^ 61) % 2 == 1 then
      (s.stretchesOf ops).map fun rs =>
        { instr := i, chain := s.chain, reads := rs, via := viaOf s.space (rs.flatMap (·.2.2)) }
    else none

/-- An access sets out and holds its thread. -/
def State.setOut (s : State) (f : Flying) : State := s.setMe { s.me with busy := true, flight := some f }

/-- The turn of a slot: the traps at its boundary first (R229), then the instruction at its PC (R46 to R49). -/
def State.turnOf (s : State) (t : Nat) : SlotTurn :=
  match s.boundaryTrap t with
  | some s' => .done s'
  | none =>
    let s1 := s.atTurn t
    match s1.fetchInstr s1.me.pc with
    | .trap i n => .done (s1.takeTrap t s1.me.pc n i)
    | .instr i ch =>
      match s1.fetchMisses s1.me.pc ch.len with
      | [] =>
        let s2 : State := { s1.served with chain := ch }
        match s2.flightOf i with
        | some f => .done (s2.setOut f)
        | none => .run i s2
      | ls => .done (s1.bring ls)

/-! ### The passage of a cycle (R125, R432, R391) -/

/-- The ns by which the time base advances at the end of the `p`-th of seven cycles: 5 ns every 7 cycles (R125, R149; DEDUCED,
log 65). -/
def nsOfPhase (p : Nat) : Nat := if p = 6 then 5 else 0

/-- One cycle of 1.4 GHz passes in which nothing issues any more. A time base that holds for an alignment goes on once the
count of member 0 has reached it (R432); a package that has been reset runs its firmware (R409). -/
def State.tick (s : State) : State :=
  let d : W64 := BitVec.ofNat 64 (nsOfPhase s.phase7)
  let s1 : State := { s with
    cycle := s.cycle + 1, phase7 := (s.phase7 + 1) % 7,
    regs := { s.regs with devst := if s.regs.devst == .reset then .firmware else s.regs.devst } }
  match s.aligning with
  | none => { s1 with timeb := s.timeb + d }
  | some m => if m + d < s.timeb then { s1 with aligning := some (m + d) } else s1.becomeMember

/-! ### The number of a step -/

/-- Counts a step: free values of different steps are different. -/
def counted (o : Outcome) : Outcome :=
  match o with
  | .next s => .next { s with nd := s.nd + 1 }
  | .fault f => .fault f
  | .refused r => .refused r

/-! ### One instruction for the next step -/

/-- Where the placed instruction stands: its address and its location in DRAM. -/
def placedAt : Nat := 0x1000

/-- A table entry as bytes at a location. -/
def entryBytes (k e : Nat) : Bytes := zipBytes (span k 8) (toBytes 8 e)

/-- The page tables of the placed instruction: stage 2 at 0x10000 and 0x20000, stage 1 at 0x21000 and 0x22000, one 1 GiB
leaf in each, with R, W and X, at stage 1 with U and class C (R346, R347). -/
def placedTables (base : Nat) : Bytes :=
  entryBytes 0x10000 (base + 0x20001) ++ entryBytes 0x20000 (base + 0x1F)
    ++ entryBytes 0x21000 0x22001 ++ entryBytes 0x22000 0x13F

/-- The thread that runs the placed instruction: slot 0 of core 0, at the address of the instruction, in user mode. -/
def placedThread : Slot :=
  { mode := .running, pc := BitVec.ofNat 48 placedAt, tbase := 0x21000, gidx := 2 ^ 33 }

/-- The state with one instruction, its words as a number of `nbits` bits, placed so that the next step fetches it: twelve
bytes, those above the words zero. -/
def State.placed (s : State) (nbits w : Nat) : State :=
  let base := s.regs.pkgid.toNat * 2 ^ 42
  let bytes := placedTables base ++ zipBytes (span placedAt 12) (toBytes 12 (w % 2 ^ nbits))
  let s1 : State := { s with
    mem := setBytes s.mem bytes, hist := [], oldRoots := [], inputs := [], inSeq := none,
    regs := { s.regs with s2root := aset 0 s.regs.s2root 0 (BitVec.ofNat 52 (base + 0x10000)) } }
  (s1.setCore 0 { s1.core 0 with last := none, next := 0 }).setSlot 0 placedThread

end Sys2Proof.Machine
end

