-- ==== Sys2Proof/Machine/Dispatch.lean ====
section
/-! DEFINITION. One arm per constructor of Instr: the meaning of every instruction and of every event. -/

namespace Sys2Proof.Machine
open Sys2Proof

/-- What an instruction or an event does to the state. -/
def exec (i : Instr) (s : State) : Host.Outcome State Fault Refusal :=
  match i with
  | .ld w o md => Sys2Proof.Machine.execLd w o md s
  | .st w o md => Sys2Proof.Machine.execSt w o md s
  | .add w o md => Sys2Proof.Machine.execAdd w o md s
  | .sub w o md => Sys2Proof.Machine.execSub w o md s
  | .rsub w o md => Sys2Proof.Machine.execRsub w o md s
  | .and w o md => Sys2Proof.Machine.execAnd w o md s
  | .or w o md => Sys2Proof.Machine.execOr w o md s
  | .xor w o md => Sys2Proof.Machine.execXor w o md s
  | .min w o md => Sys2Proof.Machine.execMin w o md s
  | .max w o md => Sys2Proof.Machine.execMax w o md s
  | .minu w o md => Sys2Proof.Machine.execMinu w o md s
  | .maxu w o md => Sys2Proof.Machine.execMaxu w o md s
  | .cmp w o md => Sys2Proof.Machine.execCmp w o md s
  | .mul w o md => Sys2Proof.Machine.execMul w o md s
  | .mulh w o md => Sys2Proof.Machine.execMulh w o md s
  | .mulhu w o md => Sys2Proof.Machine.execMulhu w o md s
  | .div w o md => Sys2Proof.Machine.execDiv w o md s
  | .divu w o md => Sys2Proof.Machine.execDivu w o md s
  | .rem w o md => Sys2Proof.Machine.execRem w o md s
  | .fadd w o md => Sys2Proof.Machine.execFadd w o md s
  | .fsub w o md => Sys2Proof.Machine.execFsub w o md s
  | .fmul w o md => Sys2Proof.Machine.execFmul w o md s
  | .fma w o q md => Sys2Proof.Machine.execFma w o q md s
  | .fdiv w o md => Sys2Proof.Machine.execFdiv w o md s
  | .fsqrt w o md => Sys2Proof.Machine.execFsqrt w o md s
  | .fmin w o md => Sys2Proof.Machine.execFmin w o md s
  | .fmax w o md => Sys2Proof.Machine.execFmax w o md s
  | .fcmp w o md => Sys2Proof.Machine.execFcmp w o md s
  | .ldi imm => Sys2Proof.Machine.execLdi imm s
  | .ldih imm => Sys2Proof.Machine.execLdih imm s
  | .addi imm => Sys2Proof.Machine.execAddi imm s
  | .andi imm => Sys2Proof.Machine.execAndi imm s
  | .ori imm => Sys2Proof.Machine.execOri imm s
  | .xori imm => Sys2Proof.Machine.execXori imm s
  | .shl k => Sys2Proof.Machine.execShl k s
  | .shr k => Sys2Proof.Machine.execShr k s
  | .sar k => Sys2Proof.Machine.execSar k s
  | .rol k => Sys2Proof.Machine.execRol k s
  | .pset p imm => Sys2Proof.Machine.execPset p imm s
  | .pstep p imm => Sys2Proof.Machine.execPstep p imm s
  | .paddi p imm => Sys2Proof.Machine.execPaddi p imm s
  | .padda p k => Sys2Proof.Machine.execPadda p k s
  | .movap p => Sys2Proof.Machine.execMovap p s
  | .movpa p => Sys2Proof.Machine.execMovpa p s
  | .pcmp p q => Sys2Proof.Machine.execPcmp p q s
  | .clz w => Sys2Proof.Machine.execClz w s
  | .ctz w => Sys2Proof.Machine.execCtz w s
  | .popc w => Sys2Proof.Machine.execPopc w s
  | .bswap w => Sys2Proof.Machine.execBswap w s
  | .cvt mode su du src dst => Sys2Proof.Machine.execCvt mode su du src dst s
  | .b off => Sys2Proof.Machine.execB off s
  | .bz off => Sys2Proof.Machine.execBz off s
  | .bnz off => Sys2Proof.Machine.execBnz off s
  | .blt off => Sys2Proof.Machine.execBlt off s
  | .bge off => Sys2Proof.Machine.execBge off s
  | .bltu off => Sys2Proof.Machine.execBltu off s
  | .bgeu off => Sys2Proof.Machine.execBgeu off s
  | .loop off => Sys2Proof.Machine.execLoop off s
  | .call off => Sys2Proof.Machine.execCall off s
  | .ret => Sys2Proof.Machine.execRet s
  | .jmpa => Sys2Proof.Machine.execJmpa s
  | .nop => Sys2Proof.Machine.execNop s
  | .yield => Sys2Proof.Machine.execYield s
  | .halt => Sys2Proof.Machine.execHalt s
  | .wait l st c t => Sys2Proof.Machine.execWait l st c t s
  | .rep n stagger len => Sys2Proof.Machine.execRep n stagger len s
  | .sfuExp2 row => Sys2Proof.Machine.execSfuExp2 row s
  | .sfuLog2 row => Sys2Proof.Machine.execSfuLog2 row s
  | .sfuRcp row => Sys2Proof.Machine.execSfuRcp row s
  | .sfuRsqrt row => Sys2Proof.Machine.execSfuRsqrt row s
  | .sfuSin row => Sys2Proof.Machine.execSfuSin row s
  | .sfuCos row => Sys2Proof.Machine.execSfuCos row s
  | .sfuTanh row => Sys2Proof.Machine.execSfuTanh row s
  | .sfuErf row => Sys2Proof.Machine.execSfuErf row s
  | .tage p => Sys2Proof.Machine.execTage p s
  | .tagf p => Sys2Proof.Machine.execTagf p s
  | .tcfg t e mask owner => Sys2Proof.Machine.execTcfg t e mask owner s
  | .trel t => Sys2Proof.Machine.execTrel t s
  | .vld p row md => Sys2Proof.Machine.execVld p row md s
  | .vst p row md => Sys2Proof.Machine.execVst p row md s
  | .vadd ty d a b md => Sys2Proof.Machine.execVadd ty d a b md s
  | .vsub ty d a b md => Sys2Proof.Machine.execVsub ty d a b md s
  | .vmul ty d a b md => Sys2Proof.Machine.execVmul ty d a b md s
  | .vfma ty d a b md => Sys2Proof.Machine.execVfma ty d a b md s
  | .vfms ty d a b md => Sys2Proof.Machine.execVfms ty d a b md s
  | .vmin ty d a b => Sys2Proof.Machine.execVmin ty d a b s
  | .vmax ty d a b => Sys2Proof.Machine.execVmax ty d a b s
  | .vabs ty d md => Sys2Proof.Machine.execVabs ty d md s
  | .vneg ty d md => Sys2Proof.Machine.execVneg ty d md s
  | .vand ty d a => Sys2Proof.Machine.execVand ty d a s
  | .vor ty d a => Sys2Proof.Machine.execVor ty d a s
  | .vxor ty d a => Sys2Proof.Machine.execVxor ty d a s
  | .vshl ty d k => Sys2Proof.Machine.execVshl ty d k s
  | .vshr ty d k => Sys2Proof.Machine.execVshr ty d k s
  | .vsar ty d k => Sys2Proof.Machine.execVsar ty d k s
  | .vcmp ty d a c => Sys2Proof.Machine.execVcmp ty d a c s
  | .vsel ty d a m => Sys2Proof.Machine.execVsel ty d a m s
  | .vcvt ty d a md => Sys2Proof.Machine.execVcvt ty d a md s
  | .vred ty d md => Sys2Proof.Machine.execVred ty d md s
  | .vbca ty d => Sys2Proof.Machine.execVbca ty d s
  | .vgeta ty d k => Sys2Proof.Machine.execVgeta ty d k s
  | .vperm w d a x => Sys2Proof.Machine.execVperm w d a x s
  | .vqmx f d => Sys2Proof.Machine.execVqmx f d s
  | .vqnt f d x md => Sys2Proof.Machine.execVqnt f d x md s
  | .vdq ty d a => Sys2Proof.Machine.execVdq ty d a s
  | .mldb p => Sys2Proof.Machine.execMldb p s
  | .mma p => Sys2Proof.Machine.execMma p s
  | .mmrot p => Sys2Proof.Machine.execMmrot p s
  | .mzero d n => Sys2Proof.Machine.execMzero d n s
  | .mdrain d p => Sys2Proof.Machine.execMdrain d p s
  | .mstat t clr => Sys2Proof.Machine.execMstat t clr s
  | .mrot skew row p => Sys2Proof.Machine.execMrot skew row p s
  | .fnew p st => Sys2Proof.Machine.execFnew p st s
  | .fprf p src => Sys2Proof.Machine.execFprf p src s
  | .cst p sel => Sys2Proof.Machine.execCst p sel s
  | .pld p sel => Sys2Proof.Machine.execPld p sel s
  | .flock p => Sys2Proof.Machine.execFlock p s
  | .fdrop p => Sys2Proof.Machine.execFdrop p s
  | .fdropRetire p => Sys2Proof.Machine.execFdropRetire p s
  | .fsend p o => Sys2Proof.Machine.execFsend p o s
  | .ftake p o => Sys2Proof.Machine.execFtake p o s
  | .candle lo hi off => Sys2Proof.Machine.execCandle lo hi off s
  | .snuff => Sys2Proof.Machine.execSnuff s
  | .douse => Sys2Proof.Machine.execDouse s
  | .gutret off => Sys2Proof.Machine.execGutret off s
  | .time sel => Sys2Proof.Machine.execTime sel s
  | .pace imm => Sys2Proof.Machine.execPace imm s
  | .trap imm => Sys2Proof.Machine.execTrap imm s
  | .rtt => Sys2Proof.Machine.execRtt s
  | .mfs r => Sys2Proof.Machine.execMfs r s
  | .mts r => Sys2Proof.Machine.execMts r s
  | .tlbiPage => Sys2Proof.Machine.execTlbiPage s
  | .tlbiSpace => Sys2Proof.Machine.execTlbiSpace s
  | .gohome => Sys2Proof.Machine.execGohome s
  | .barm => Sys2Proof.Machine.execBarm s
  | .arrive b => Sys2Proof.Machine.execArrive b s
  | .bwait b => Sys2Proof.Machine.execBwait b s
  | .wptr c => Sys2Proof.Machine.execWptr c s
  | .cwait c => Sys2Proof.Machine.execCwait c s
  | .copy p c => Sys2Proof.Machine.execCopy p c s
  | .wback p scope => Sys2Proof.Machine.execWback p scope s
  | .discard p => Sys2Proof.Machine.execDiscard p s
  | .fence scope => Sys2Proof.Machine.execFence scope s
  | .amoadd w o md => Sys2Proof.Machine.execAmoadd w o md s
  | .amoand w o md => Sys2Proof.Machine.execAmoand w o md s
  | .amoor w o md => Sys2Proof.Machine.execAmoor w o md s
  | .amoxor w o md => Sys2Proof.Machine.execAmoxor w o md s
  | .amomin w o md => Sys2Proof.Machine.execAmomin w o md s
  | .amomax w o md => Sys2Proof.Machine.execAmomax w o md s
  | .amominu w o md => Sys2Proof.Machine.execAmominu w o md s
  | .amomaxu w o md => Sys2Proof.Machine.execAmomaxu w o md s
  | .amoswap w o md => Sys2Proof.Machine.execAmoswap w o md s
  | .amocas w o q md => Sys2Proof.Machine.execAmocas w o q md s
  | .afadd w o md => Sys2Proof.Machine.execAfadd w o md s
  | .afmin w o md => Sys2Proof.Machine.execAfmin w o md s
  | .afmax w o md => Sys2Proof.Machine.execAfmax w o md s
  | .ldfut w o md => Sys2Proof.Machine.execLdfut w o md s
  | .stfut w o md => Sys2Proof.Machine.execStfut w o md s
  | .lpost p => Sys2Proof.Machine.execLpost p s
  | .lwait => Sys2Proof.Machine.execLwait s
  | .lseq => Sys2Proof.Machine.execLseq s
  | .lcast p plane => Sys2Proof.Machine.execLcast p plane s
  | .lbred p => Sys2Proof.Machine.execLbred p s
  | .gbind p => Sys2Proof.Machine.execGbind p s
  | .gemit p => Sys2Proof.Machine.execGemit p s
  | .gdone => Sys2Proof.Machine.execGdone s
  | .caseadd p => Sys2Proof.Machine.execCaseadd p s
  | .caseget p val => Sys2Proof.Machine.execCaseget p val s
  | .casenxt p first => Sys2Proof.Machine.execCasenxt p first s
  | .gclose => Sys2Proof.Machine.execGclose s
  | .gfront => Sys2Proof.Machine.execGfront s
  | .parkResume t => Sys2Proof.Machine.execParkResume t s
  | .gutterTrap t => Sys2Proof.Machine.execGutterTrap t s
  | .publishEntry t => Sys2Proof.Machine.execPublishEntry t s
  | .sequenceStep c n => Sys2Proof.Machine.execSequenceStep c n s
  | .sequenceRetire c n => Sys2Proof.Machine.execSequenceRetire c n s
  | .vldComplete c n => Sys2Proof.Machine.execVldComplete c n s
  | .storePerformed c n => Sys2Proof.Machine.execStorePerformed c n s
  | .mldbComplete c => Sys2Proof.Machine.execMldbComplete c s
  | .matrixOpComplete c => Sys2Proof.Machine.execMatrixOpComplete c s
  | .operandRoundTransfer c => Sys2Proof.Machine.execOperandRoundTransfer c s
  | .sfuResult o => Sys2Proof.Machine.execSfuResult o s
  | .vqmxAgreement t => Sys2Proof.Machine.execVqmxAgreement t s
  | .barrierRelease cl b => Sys2Proof.Machine.execBarrierRelease cl b s
  | .copyBeat o ch => Sys2Proof.Machine.execCopyBeat o ch s
  | .copyDiscard o ch => Sys2Proof.Machine.execCopyDiscard o ch s
  | .migrationArrival n => Sys2Proof.Machine.execMigrationArrival n s
  | .rcbSnoopWalk d rcb => Sys2Proof.Machine.execRcbSnoopWalk d rcb s
  | .lamplighterDecide d => Sys2Proof.Machine.execLamplighterDecide d s
  | .budgetExpiry l g => Sys2Proof.Machine.execBudgetExpiry l g s
  | .oilExhausted l => Sys2Proof.Machine.execOilExhausted l s
  | .preemptionTrap t => Sys2Proof.Machine.execPreemptionTrap t s
  | .watchdogExpiry l g => Sys2Proof.Machine.execWatchdogExpiry l g s
  | .sliceSave l g => Sys2Proof.Machine.execSliceSave l g s
  | .sliceRestore l g => Sys2Proof.Machine.execSliceRestore l g s
  | .deadlinePassed l => Sys2Proof.Machine.execDeadlinePassed l s
  | .lightsOutSweep d => Sys2Proof.Machine.execLightsOutSweep d s
  | .slugArrival n => Sys2Proof.Machine.execSlugArrival n s
  | .stageDispatch c => Sys2Proof.Machine.execStageDispatch c s
  | .replayRetry t => Sys2Proof.Machine.execReplayRetry t s
  | .replayTimeout t => Sys2Proof.Machine.execReplayTimeout t s
  | .ldfutRetry t => Sys2Proof.Machine.execLdfutRetry t s
  | .invalidationComplete n => Sys2Proof.Machine.execInvalidationComplete n s
  | .energyCharge shares unatt => Sys2Proof.Machine.execEnergyCharge shares unatt s
  | .eventRecord n => Sys2Proof.Machine.execEventRecord n s
  | .machineCheck u kind addr => Sys2Proof.Machine.execMachineCheck u kind addr s
  | .thermalThrottle d temp => Sys2Proof.Machine.execThermalThrottle d temp s
  | .thermalTrip d temp => Sys2Proof.Machine.execThermalTrip d temp s
  | .reset => Sys2Proof.Machine.execReset s
  | .bringupComplete ok => Sys2Proof.Machine.execBringupComplete ok s
  | .rootWrite d v => Sys2Proof.Machine.execRootWrite d v s
  | .llrootWrite v => Sys2Proof.Machine.execLlrootWrite v s
  | .s2reqPage tenant page => Sys2Proof.Machine.execS2reqPage tenant page s
  | .s2reqAll tenant => Sys2Proof.Machine.execS2reqAll tenant s
  | .omapWrite q v => Sys2Proof.Machine.execOmapWrite q v s
  | .kctlWrite k v => Sys2Proof.Machine.execKctlWrite k v s
  | .lgrpWrite v => Sys2Proof.Machine.execLgrpWrite v s
  | .hostRegisterWrite bar off v => Sys2Proof.Machine.execHostRegisterWrite bar off v s
  | .hostMemRead a n => Sys2Proof.Machine.execHostMemRead a n s
  | .hostMemWrite a bytes => Sys2Proof.Machine.execHostMemWrite a bytes s
  | .hostAtomic a fn w x y => Sys2Proof.Machine.execHostAtomic a fn w x y s
  | .hostSnoop a inv => Sys2Proof.Machine.execHostSnoop a inv s
  | .fabricRequest r => Sys2Proof.Machine.execFabricRequest r s
  | .fabricResend n => Sys2Proof.Machine.execFabricResend n s
  | .stompedPacket port => Sys2Proof.Machine.execStompedPacket port s
  | .fabricAuthFail n => Sys2Proof.Machine.execFabricAuthFail n s
  | .rateDecrease t => Sys2Proof.Machine.execRateDecrease t s
  | .rateIncrease t => Sys2Proof.Machine.execRateIncrease t s
  | .portStateChange port up => Sys2Proof.Machine.execPortStateChange port up s
  | .flameHold plane order bulk => Sys2Proof.Machine.execFlameHold plane order bulk s
  | .orderEventApply => Sys2Proof.Machine.execOrderEventApply s
  | .bulkHoldApply plane => Sys2Proof.Machine.execBulkHoldApply plane s
  | .flameTimeout plane => Sys2Proof.Machine.execFlameTimeout plane s
  | .lanthornLeave => Sys2Proof.Machine.execLanthornLeave s
  | .timebaseAlign target => Sys2Proof.Machine.execTimebaseAlign target s
  | .memoryAccessComplete t => Sys2Proof.Machine.execMemoryAccessComplete t s
  | .weakWritePropagation w c => Sys2Proof.Machine.execWeakWritePropagation w c s
  | .thermalRecovery d temp => Sys2Proof.Machine.execThermalRecovery d temp s
  | .correctableError => Sys2Proof.Machine.execCorrectableError s
  | .managementRequest r => Sys2Proof.Machine.execManagementRequest r s

end Sys2Proof.Machine
end

