-- ==== Sys2Proof/Machine/Step.lean ====
section
/-! DEFINITION. One step: an event of the input list, else the turn of the next slot that issues, else a cycle passes. -/

namespace Sys2Proof.Machine
open Sys2Proof

/-- A step: the event at the head of the input list is taken; with none left, the next slot that issues in this cycle has
its turn (R152), and once none does a cycle passes. -/
def step (s : State) : Host.Outcome State Fault Refusal :=
  match s.inputs with
  | i :: rest => if isEvent i then counted (exec i { s with inputs := rest }) else .fault .notAnEvent
  | [] =>
    match s.nextIssue with
    | none => counted (.next s.tick)
    | some t =>
      match s.turnOf t with
      | .done s' => counted (.next s')
      | .run i s' => counted (exec i s')

/-- The state with one instruction placed so that the next step fetches and runs it. -/
def State.withFetchWord (s : State) (nbits w : Nat) : State := s.placed nbits w

end Sys2Proof.Machine
end

