-- ==== Sys2Proof/Safety.lean ====
section
/-! DEFINITION. The terms in which claims speak of a run: a safe state and a safe run, and what one state leaves of
another unchanged. -/

namespace Sys2Proof.Machine
open Sys2Proof

/-! ### Safe runs -/

/-- Every input that waits is an event that the outside world can give. -/
def State.heedful (s : State) : Bool := s.inputs.all isEvent

/-- What every reached state has: memory in its canonical form, and only events among its inputs. -/
def State.safe (s : State) : Bool := s.mem.wf && s.heedful

/-- A run is safe when it goes on for `k` steps: it meets neither a fault nor a refusal. -/
def safeRun (k : Nat) (s : State) : Prop := ∃ t, Sys2Proof.core.run k s = .next t

/-! ### What stays unchanged -/

/-- Every thread but the issuing one keeps its whole context. -/
def SameThreads (s t : State) : Prop := ∀ u, u ≠ s.cur → t.slot u = s.slot u

/-- Every byte of memory reads as before. -/
def SameMemory (s t : State) : Prop := ∀ k, t.byte k = s.byte k

/-- Every byte of memory outside some locations reads as before. -/
def SameMemoryBut (ks : List Nat) (s t : State) : Prop := ∀ k, k ∉ ks → t.byte k = s.byte k

/-- Every accumulator row of every core is as before. -/
def SameRows (s t : State) : Prop := ∀ c r, (t.core c).row r = (s.core c).row r

/-- Every accumulator row but one of the issuing core is as before. -/
def SameRowsBut (d : RowRef) (s t : State) : Prop :=
  ∀ c r, ¬(c = s.here ∧ r = d) → (t.core c).row r = (s.core c).row r

/-- Every accumulator tile of every core is as before: allocation, size, banks, owner, count of K-steps, flags. -/
def SameTiles (s t : State) : Prop := ∀ c i, (t.core c).tile i = (s.core c).tile i

/-- The B latch of every core is as before. -/
def SameLatches (s t : State) : Prop := ∀ c, (t.core c).latch = (s.core c).latch

/-- The outstanding engine operations and the sequences of every core are as before, and so are its round counters, stages,
consolidation buffer, clock, retained owners and L1 configuration. -/
def SameEngines (s t : State) : Prop := ∀ c,
  (t.core c).ops = (s.core c).ops ∧ (t.core c).seqs = (s.core c).seqs ∧ (t.core c).rounds = (s.core c).rounds
    ∧ (t.core c).stages = (s.core c).stages ∧ (t.core c).consol = (s.core c).consol ∧ (t.core c).clock = (s.core c).clock
    ∧ (t.core c).held = (s.core c).held ∧ (t.core c).fused = (s.core c).fused ∧ (t.core c).units = (s.core c).units

/-- The full bits of every scratchpad are as before. -/
def SameFull (s t : State) : Prop := ∀ c, (t.core c).full = (s.core c).full

/-- What the cores of an octet, of a cluster or of a die share is as before: message permissions, copy channels,
special-function requests, barrier trees, forme tables, park tables. -/
def SameShared (s t : State) : Prop := t.octets = s.octets ∧ t.clusters = s.clusters ∧ t.waiters = s.waiters

/-- What the lamplighters, the host and the package hold is as before: launches, nodes, slugs on their way, contexts on
their way or in save areas, host registers, Lanthorn, heat, events, time, invalidations and former roots, published stores of
ended threads. -/
def SamePackage (s t : State) : Prop :=
  t.launches = s.launches ∧ t.nodes = s.nodes ∧ t.flights = s.flights ∧ t.migrants = s.migrants ∧ t.stored = s.stored
    ∧ t.regs = s.regs ∧ t.lan = s.lan ∧ t.thermal = s.thermal ∧ t.events = s.events ∧ t.timeb = s.timeb ∧ t.cycle = s.cycle
    ∧ t.invals = s.invals ∧ t.oldRoots = s.oldRoots ∧ t.ghosts = s.ghosts

/-- The units of every core beside rows and memory are as before. -/
structure SameUnits (s t : State) : Prop where
  tiles   : SameTiles s t
  latches : SameLatches s t
  engines : SameEngines s t
  full    : SameFull s t

/-- The bound stages and their cases are as before. -/
def SameCases (s t : State) : Prop := t.bindings = s.bindings

/-- The turn is still that of the same thread, with the same instruction, sequence and waiting inputs. -/
def SameTurn (s t : State) : Prop :=
  t.cur = s.cur ∧ t.chain = s.chain ∧ t.inSeq = s.inSeq ∧ t.nd = s.nd ∧ t.inputs = s.inputs

/-- Nothing but the issuing thread's own context changes, as far as any program can read it. -/
structure Quiet (s t : State) : Prop where
  turn    : SameTurn s t
  threads : SameThreads s t
  memory  : SameMemory s t
  rows    : SameRows s t
  units   : SameUnits s t
  shared  : SameShared s t
  cases_  : SameCases s t
  package : SamePackage s t

/-- The issuing thread's context becomes `x`, and nothing else changes. -/
structure Ran (s t : State) (x : Slot) : Prop where
  own   : t.slot s.cur = x
  quiet : Quiet s t

/-- The issuing thread's context becomes `x`, row `d` of its core becomes `r`, and nothing else changes. -/
structure RanRow (s t : State) (x : Slot) (d : RowRef) (r : Row) : Prop where
  own     : t.slot s.cur = x
  row     : (t.core s.here).row d = r
  turn    : SameTurn s t
  threads : SameThreads s t
  memory  : SameMemory s t
  rows    : SameRowsBut d s t
  units   : SameUnits s t
  shared  : SameShared s t
  cases_  : SameCases s t
  package : SamePackage s t

/-- The issuing thread's context becomes `x`, the bytes `bs` are set at the locations `ks` (a case partition among them is
then no longer a case, R372), and nothing else changes. -/
structure RanStore (s t : State) (x : Slot) (ks : List Nat) (bs : List (BitVec 8)) : Prop where
  own     : t.slot s.cur = x
  bytes   : t.mem = setBytes s.mem (zipBytes ks bs)
  memory  : SameMemoryBut ks s t
  turn    : SameTurn s t
  threads : SameThreads s t
  rows    : SameRows s t
  units   : SameUnits s t
  shared  : SameShared s t
  cases_  : t.bindings = (s.spoil (zipBytes ks bs)).bindings
  package : SamePackage s t

/-- The issuing thread's context becomes `x`, the full bit of the word that holds location `k` becomes `b`, and nothing else
changes. -/
structure RanFull (s t : State) (x : Slot) (k : Nat) (b : Bool) : Prop where
  own     : t.slot s.cur = x
  full    : t.isFull k = b
  others  : ∀ j, ¬(spmCore j = spmCore k ∧ spmOff j / 8 = spmOff k / 8) → t.isFull j = s.isFull j
  turn    : SameTurn s t
  threads : SameThreads s t
  memory  : SameMemory s t
  rows    : SameRows s t
  tiles   : SameTiles s t
  latches : SameLatches s t
  engines : SameEngines s t
  shared  : SameShared s t
  cases_  : SameCases s t
  package : SamePackage s t

/-- A thread issues an instruction of its own: it runs, and the instruction is not one of a repeat sequence. -/
def State.issuing (s : State) : Prop := s.inSeq = none ∧ s.me.mode = .running

/-! ### Operands and results -/

/-- A memory operand of `w` bytes is readable: its checks pass, its access waits for nothing, and its bytes are the
number `m`. -/
def State.reads (s : State) (o : MemOp) (w : Nat) (md : MD) (p : Operand) (m : Nat) : Prop :=
  s.readOperand o w md = .ok p ∧ ∃ t, s.loadOperand p md = .ok (m, t)

/-- The pointers of the issuing thread after an operand of `w` bytes has been used (R24). -/
def State.steppedPtrs (s : State) (o : MemOp) (w : Nat) : Pointers :=
  s.me.ptrs.set o.p (steppedOf (s.me.ptrs.get o.p) s.me.xi.mask o.am w)

/-- No synchronised access of another slot waits before the issuing slot for a word's full bit to be `full` (R160). -/
def State.firstAt (s : State) (k : Nat) (full : Bool) : Prop :=
  match s.syncs.filter (fun w => w.word == k / 8 && w.full == full) with
  | w :: _ => w.slot = s.cur
  | [] => True

/-- The issuing slot waits at the home of a word for its full bit to be `full`, after those that already do (R160). -/
def State.waitsAt (s : State) (k : Nat) (full : Bool) : State :=
  if s.syncs.any (fun w => w.word == k / 8 && w.full == full && w.slot == s.cur) then s
  else { s with syncs := s.syncs ++ [{ word := k / 8, full := full, slot := s.cur }] }

/-- A handle names an entry that the issuing thread may use (R270 checks 4 to 6): its table may be consulted, the entry is
used, of the thread's tenant and of a permitted octet, of the handle's generation, and not Pied. -/
def State.formeLive (s : State) (h : W64) : Prop :=
  let e := s.formeOf h
  (s.me.st.cd = 0#3 ∨ handlePkg h = s.regs.pkgid.toNat) ∧ (e.state = .composing ∨ e.state = .locked)
    ∧ e.tenant = s.me.tenant ∧ s.permits (octetOf s.here) e.octet = true ∧ e.gen = handleGen h

/-- A row of the issuing core is usable (R178): its bank is not gated, the thread may use its tile, and it is not pending. -/
def State.usable (s : State) (r : RowRef) : Prop :=
  s.rowGated r = false ∧ s.mayUse (s.tileOf r) = true ∧ s.rowPending r = false

/-- A row may be read as lanes of `n` bits with a tag (R175, R179). -/
def State.readable (s : State) (r : RowRef) (n : Nat) (tag : BitVec 4) : Prop :=
  s.usable r ∧ (s.tileOf r).size = sizeOfBits n ∧ ((s.row r).tag = tag ∨ (s.row r).tag = 0#4)

/-- A row may be written as lanes of `n` bits (R175): its tile has that element size, or it holds a block format or I8. -/
def State.writable (s : State) (r : RowRef) (n : Nat) : Prop :=
  s.usable r ∧ ((s.tileOf r).size = sizeOfBits n ∨ blockTag (s.row r).tag = true ∨ (s.row r).tag = 1#4)

/-- Lane `j` of `n` bits of a row (R87). -/
def Row.lane (n : Nat) (r : Row) (j : Nat) : BitVec n := r.elems.extractLsb' (n * j) n

/-- A row of lanes of `n` bits with a tag, lane `j` being `f j`. -/
def Row.holds (r : Row) (n : Nat) (tag : BitVec 4) (f : Nat → BitVec n) : Prop :=
  r.tag = tag ∧ r.scales = 0 ∧ ∀ j, j < 2048 / n → r.lane n j = f j

/-- The n-bit result of an exact integer (R104, R105): modulo 2^n, or, saturated, the nearest number of the signed n-bit
range. -/
def clampTo (n : Nat) (sat : Bool) (x : Int) : BitVec n :=
  BitVec.ofInt n (if sat then max (-(2 ^ (n - 1))) (min (2 ^ (n - 1) - 1) x) else x)

/-- Whether an integer lies in the signed n-bit range. -/
def inSigned (n : Nat) (x : Int) : Bool := -(2 ^ (n - 1) : Int) ≤ x && x < (2 ^ (n - 1) : Int)

/-- ST with N and Z of a result (R103). -/
def Status.flagsOf {n : Nat} (st : Status) (r : BitVec n) : Status := { st with n := r.msb, z := r == 0#n }

/-- An instruction completes: it answers a next state in which the issuing thread's context is `x`, but for the mark of an
access that has yet to be performed everywhere, and nothing else has changed. -/
def Completes (i : Instr) (s : State) (x : Slot) : Prop :=
  ∃ t b, exec i s = .next t ∧ Ran s t { x with busy := b }

/-- As `Completes`, with row `d` of the issuing core set. -/
def CompletesRow (i : Instr) (s : State) (x : Slot) (d : RowRef) (r : Row) : Prop :=
  ∃ t, exec i s = .next t ∧ RanRow s t x d r

/-- An instruction stores `bs` at `ks` and completes. -/
def CompletesStore (i : Instr) (s : State) (x : Slot) (ks : List Nat) (bs : List (BitVec 8)) : Prop :=
  ∃ t b, exec i s = .next t ∧ RanStore s t { x with busy := b } ks bs

/-- An instruction completes with more than its thread's context changed: the next state is `u` but for the context of the
issuing thread, which is `x` but for the mark of an access that has yet to be performed everywhere. -/
def Effect (i : Instr) (s u : State) (x : Slot) : Prop :=
  ∃ t b, exec i s = .next t ∧ Ran u t { x with busy := b }

/-- An instruction or an event answers a next state, of which something holds. -/
def Leads (i : Instr) (s : State) (p : State → Prop) : Prop := ∃ t, exec i s = .next t ∧ p t

/-- An instruction of the issuing thread traps with a cause and BADV: the thread enters its handler (R228), and nothing of
the instruction's own effect happens. -/
def Traps (i : Instr) (s : State) (code : BitVec 8) (badv : W64) : Prop :=
  exec i s = .next (s.takeTrap s.cur s.me.pc s.chain.len { code := code, badv := badv })

/-- The lanes of a result, lane by lane with its exceptions: the row is written once none of the exceptions raised by any
lane traps, else the FP-exception trap reports them all (R73, R180). -/
def LaneResult (i : Instr) (s : State) (d : RowRef) (n : Nat) (tag : BitVec 4) (f : Nat → BitVec n × Flags) : Prop :=
  let fl : Flags := (List.range (2048 / n)).foldl (fun fl j => fl ||| (f j).2) 0
  if fl &&& s.me.st.te = 0#5 then
    ∃ t r, exec i s = .next t ∧ r.holds n tag (fun j => (f j).1)
      ∧ RanRow s t { s.me with st := { s.me.st with fl := s.me.st.fl ||| fl }, pc := s.nextPc } d r
  else Traps i s 0x09 (fl.zeroExtend 64)

/-- An instruction of the issuing thread parks: it waits where it stands, with `t` what the park has begun (R58). -/
def Parks (i : Instr) (s t : State) : Prop :=
  exec i s = .next (t.setMe { t.me with park := some (i, t.chain) })

end Sys2Proof.Machine
end

