-- ==== Sys2Proof/Certificates/Slice0/Obligations.lean ====
section
/-! DEFINITION. The statements for the provers, one definition for each. Each docstring cites the rules of spec/ that it
states. -/

open Sys2Proof Sys2Proof.Machine

/-! ### Integer arithmetic and logic -/

/-- R103 to R105: ADD, SUB, RSUB and MUL of width n: r is the exact result wrapped, or with MD[3] = 1 saturated; A
becomes r sign-extended, N and Z are those of r, C and V those of the operation; the pointer steps and the PC advances.
R103, R104: CMP writes the flags of A − m and nothing else. -/
def Obligations.IntegerArithmetic : Prop :=
  (∀ (s : State) (w : Width) (o : MemOp) (md : MD) (p : Operand) (m : Nat), s.issuing → s.reads o w.bytes md p m →
    let n := w.bits
    let a := BitVec.ofNat n s.me.a.toNat
    let b := BitVec.ofNat n m
    let runs (i : Instr) (x : Int) (c : Bool) : Prop :=
      let r := clampTo n md.sat x
      Completes i s { s.me with
        a := r.signExtend 64, st := { s.me.st.flagsOf r with c := c, v := !inSigned n x },
        ptrs := s.steppedPtrs o w.bytes, pc := s.nextPc }
    runs (.add w o md) (a.toInt + b.toInt) (decide (2 ^ n ≤ a.toNat + b.toNat))
      ∧ runs (.sub w o md) (a.toInt - b.toInt) (decide (b.toNat ≤ a.toNat))
      ∧ runs (.rsub w o md) (b.toInt - a.toInt) (decide (a.toNat ≤ b.toNat))
      ∧ runs (.mul w o md) (a.toInt * b.toInt) (decide (2 ^ n ≤ a.toNat * b.toNat)))
  ∧ (∀ (s : State) (w : Width) (o : MemOp) (md : MD) (p : Operand) (m : Nat), s.issuing → s.reads o w.bytes md p m →
    let n := w.bits
    let a := BitVec.ofNat n s.me.a.toNat
    let b := BitVec.ofNat n m
    Completes (.cmp w o md) s { s.me with
      st := { s.me.st.flagsOf (a - b) with c := decide (b.toNat ≤ a.toNat), v := !inSigned n (a.toInt - b.toInt) },
      ptrs := s.steppedPtrs o w.bytes, pc := s.nextPc })

/-- R103, R104: AND, OR, XOR, MIN, MAX, MINU, MAXU, MULH and MULHU: A becomes the n-bit result sign-extended, N and Z
are those of the result, C and V stay. R103 to R106: DIV and DIVU give the quotient truncated toward zero and REM the
remainder with the sign of the dividend; N and Z are those of the result, V is set where the quotient of DIV lies
outside the range, C stays; a zero divisor traps with cause 0x08 and the operand's address. -/
def Obligations.IntegerLogicAndDivide : Prop :=
  (∀ (s : State) (w : Width) (o : MemOp) (md : MD) (p : Operand) (m : Nat), s.issuing → s.reads o w.bytes md p m →
    let n := w.bits
    let a := BitVec.ofNat n s.me.a.toNat
    let b := BitVec.ofNat n m
    let runs (i : Instr) (r : BitVec n) : Prop :=
      Completes i s { s.me with a := r.signExtend 64, st := s.me.st.flagsOf r,
                                ptrs := s.steppedPtrs o w.bytes, pc := s.nextPc }
    runs (.and w o md) (a &&& b) ∧ runs (.or w o md) (a ||| b) ∧ runs (.xor w o md) (a ^^^ b)
      ∧ runs (.min w o md) (if a.toInt ≤ b.toInt then a else b) ∧ runs (.max w o md) (if a.toInt ≤ b.toInt then b else a)
      ∧ runs (.minu w o md) (if a.toNat ≤ b.toNat then a else b) ∧ runs (.maxu w o md) (if a.toNat ≤ b.toNat then b else a)
      ∧ runs (.mulh w o md) (BitVec.ofInt n (a.toInt * b.toInt / 2 ^ n))
      ∧ runs (.mulhu w o md) (BitVec.ofNat n (a.toNat * b.toNat / 2 ^ n)))
  ∧ (∀ (s : State) (w : Width) (o : MemOp) (md : MD) (p : Operand) (m : Nat), s.issuing → s.reads o w.bytes md p m →
    let n := w.bits
    let a := BitVec.ofNat n s.me.a.toNat
    let b := BitVec.ofNat n m
    let runs (i : Instr) (r : BitVec n) (v : Bool) : Prop :=
      if b = 0#n then Traps i s 0x08 (p.ea.zeroExtend 64)
      else Completes i s { s.me with a := r.signExtend 64, st := { s.me.st.flagsOf r with v := v },
                                     ptrs := s.steppedPtrs o w.bytes, pc := s.nextPc }
    runs (.div w o md) (clampTo n md.sat (a.toInt.tdiv b.toInt)) (!inSigned n (a.toInt.tdiv b.toInt))
      ∧ runs (.divu w o md) (BitVec.ofNat n (a.toNat / b.toNat)) false
      ∧ runs (.rem w o md) (BitVec.ofInt n (a.toInt.tmod b.toInt)) false)

/-- R24: the address that a memory operand of w bytes uses and the pointer after it. Plain leaves the pointer; post- and
pre-step add step × w to its address, before or after the use; circular replaces the address bits of XI's wrap mask; the
step field stays. -/
def Obligations.AddressingModes : Prop :=
∀ (v : W64) (mask : BitVec 16) (w : Nat),
    let a : VA := v.truncate 48
    let next : VA := a + BitVec.ofInt 48 ((v.extractLsb' 48 16).toInt * w)
    let m : VA := mask.zeroExtend 48
    AMode.ofBits 0 = .plain ∧ AMode.ofBits 1 = .post ∧ AMode.ofBits 2 = .pre ∧ AMode.ofBits 3 = .circ
      ∧ eaOf v .plain w = a ∧ steppedOf v mask .plain w = v
      ∧ eaOf v .post w = a ∧ steppedOf v mask .post w = v.extractLsb' 48 16 ++ next
      ∧ eaOf v .pre w = next ∧ steppedOf v mask .pre w = v.extractLsb' 48 16 ++ next
      ∧ eaOf v .circ w = a
      ∧ steppedOf v mask .circ w = v.extractLsb' 48 16 ++ ((a &&& ~~~m) ||| (next &&& m))

/-! ### Loads and stores -/

/-- R104, R159, R160: LD loads m sign-extended, with N and Z; a synchronised LD does so once the word is full and no
other waits for that before it, and leaves it empty; it parks, in the order of arrival, until then. R104, R129, R130: ST
outside a candle sets the operand's bytes to the low bytes of A; inside one the bytes wait in the thread's publish queue
at the innermost level and memory stays. R159, R160: a synchronised ST stores once the word is empty and no other waits
for that before it, and leaves it full; it parks until then. R326, R351: a store that meets a second-stage fault, or a
page for which an entry already waits, enters the replay queue in program order and completes; memory stays. -/
def Obligations.LoadsAndStores : Prop :=
  (∀ (s : State) (w : Width) (o : MemOp) (md : MD) (p : Operand) (m : Nat), s.issuing → s.reads o w.bytes md p m →
    let r (m : Nat) := BitVec.ofNat w.bits m
    let after (m : Nat) : Slot := { s.me with
      a := (r m).signExtend 64, st := s.me.st.flagsOf (r m), ptrs := s.steppedPtrs o w.bytes, pc := s.nextPc }
    (md.sync = false → Completes (.ld w o md) s (after m))
      ∧ ∀ k ks, md.sync = true → partKeys p.parts = k :: ks →
        (s.isFull k = false ∨ ¬s.firstAt k true → Parks (.ld w o md) s (s.waitsAt k true))
          ∧ (s.isFull k = true → s.firstAt k true →
              ∃ t b v, exec (.ld w o md) s = .next t ∧ RanFull s t { after v with busy := b } k false
                ∧ v = ofBytes (s.loadBytes p.parts { p.order md with strong := true })))
  ∧ (∀ (s : State) (w : Width) (o : MemOp) (md : MD) (ps : List Part), s.issuing → md.sync = false →
    s.storeOperand o.p (s.ea o w.bytes) w.bytes md = .ok (.parts ps) →
    let ord := orderOf (partsClass ps) md
    let keys := partKeys ps
    let bytes := toBytes w.bytes s.me.a.toNat
    let x := s.me
    (x.holding = false → x.drain = [] → s.awaitRelease ord.rel ord.scope = .ok () →
        CompletesStore (.st w o md) s { x with ptrs := s.steppedPtrs o w.bytes, pc := s.nextPc } keys bytes)
      ∧ (x.holding = true → Completes (.st w o md) s { x with
          pubq := x.pubq ++ [{ level := x.st.cd.toNat - 1, bytes := zipBytes keys bytes, strong := ord.strong,
                               scope := ord.scope, born := s.nd, made := s.nd, vas := ps.map (fun q => (q.va.toNat, q.n)),
                               via := viaOf s.space ps, unord := partsClass ps == .unordered }],
          ptrs := s.steppedPtrs o w.bytes, pc := s.nextPc }))
  ∧ (∀ (s : State) (w : Width) (o : MemOp) (md : MD) (ps : List Part) (k : Nat) (ks : List Nat), s.issuing →
    md.sync = true → s.storeOperand o.p (s.ea o w.bytes) w.bytes md = .ok (.parts ps) → partKeys ps = k :: ks →
    (let ord := orderOf (partsClass ps) md
     s.awaitRelease (ord.rel && !s.me.holding) ord.scope = .ok ()) →
    (s.isFull k = true ∨ ¬s.firstAt k false → s.me.drain = [] →
        Parks (.st w o md) s (s.waitsAt k false))
      ∧ (s.isFull k = false → s.firstAt k false → s.me.drain = [] →
          ∃ t b, exec (.st w o md) s = .next t
            ∧ t.slot s.cur = { s.me with ptrs := s.steppedPtrs o w.bytes, pc := s.nextPc, busy := b }
            ∧ t.mem = setBytes s.mem (zipBytes (k :: ks) (toBytes w.bytes s.me.a.toNat))
            ∧ SameMemoryBut (k :: ks) s t ∧ t.isFull k = true ∧ SameThreads s t ∧ SameRows s t ∧ SameTiles s t))
  ∧ (∀ (s : State) (w : Width) (o : MemOp) (md : MD) (f : Option TrapInfo) (c : PageClass), s.issuing →
    s.storeOperand o.p (s.ea o w.bytes) w.bytes md = .ok (.replay f c) →
    ∃ t, exec (.st w o md) s = .next t
      ∧ t.slot s.cur = { s.me with
          replay := s.me.replay ++
            [{ va := s.ea o w.bytes, bytes := toBytes w.bytes s.me.a.toNat, cls := c, since := s.cycle, made := s.nd }],
          ptrs := s.steppedPtrs o w.bytes, pc := s.nextPc }
      ∧ SameThreads s t ∧ SameMemory s t ∧ SameRows s t ∧ SameUnits s t ∧ SameShared s t)

/-! ### Floating point -/

/-- R73, R108: FADD, FSUB, FMUL, FDIV, FSQRT, FMIN and FMAX: A becomes the rounded result zero-extended and the
exceptions raised join ST[8:4], where none of them has its trap enabled; else the FP-exception trap with them in BADV.
R110: FCMP sets C and V where the operands are unordered, else N where A is less, C where it is not less, Z where they
are equal; a signalling NaN raises NV; A stays. R109: FMA gives m1 × m2 + a with one rounding, where m1 is the operand
of the base word and m2 that of the OPX; both pointers step. -/
def Obligations.FloatingPoint : Prop :=
  (∀ (s : State) (w : LongWidth) (o : MemOp) (md : MD) (p : Operand) (m : Nat), s.issuing →
    s.reads o w.width.bytes md p m →
    let n := w.width.bits
    let k := longFmt w
    let a := s.me.a.toNat % 2 ^ n
    let r := s.mode md.rnd
    let runs (i : Instr) (v : Nat × Flags) : Prop :=
      if v.2 &&& s.me.st.te = 0#5 then
        Completes i s { s.me with a := zext64 n v.1, st := { s.me.st with fl := s.me.st.fl ||| v.2 },
                                  ptrs := s.steppedPtrs o w.width.bytes, pc := s.nextPc }
      else Traps i s 0x09 (v.2.zeroExtend 64)
    runs (.fadd w o md) (addF k r (unpackF k a) (unpackF k m))
      ∧ runs (.fsub w o md) (addF k r (unpackF k a) (unpackF k m).neg)
      ∧ runs (.fmul w o md) (mulF k r (unpackF k a) (unpackF k m))
      ∧ runs (.fdiv w o md) (divF k r (unpackF k a) (unpackF k m))
      ∧ runs (.fsqrt w o md) (sqrtF k r (unpackF k m))
      ∧ runs (.fmin w o md) (minmaxF k false a m)
      ∧ runs (.fmax w o md) (minmaxF k true a m))
  ∧ (∀ (s : State) (w : LongWidth) (o : MemOp) (md : MD) (p : Operand) (m : Nat), s.issuing →
    s.reads o w.width.bytes md p m →
    let k := longFmt w
    let x := unpackF k (s.me.a.toNat % 2 ^ w.width.bits)
    let y := unpackF k m
    let f := snanFlags [x, y]
    let un := x.isNan || y.isNan
    if f &&& s.me.st.te = 0#5 then
      Completes (.fcmp w o md) s { s.me with
        st := { s.me.st with fl := s.me.st.fl ||| f, n := !un && ltF x y, z := !un && !ltF x y && !ltF y x,
                             c := !un && !ltF x y, v := un },
        ptrs := s.steppedPtrs o w.width.bytes, pc := s.nextPc }
    else Traps (.fcmp w o md) s 0x09 (f.zeroExtend 64))
  ∧ (∀ (s : State) (w : LongWidth) (o q : MemOp) (md : MD) (ps qs : List Part) (m1 m2 : Nat) (s1 s2 : State), s.issuing →
    let n := w.width.bytes
    s.notHandle o.p = .ok () → s.notHandle q.p = .ok () →
    orderedAligned (s.ea o n) n md = .ok () → orderedAligned (s.ea q n) n md = .ok () →
    s.access .read (s.ea o n) n = .ok ps → s.access .read (s.ea q n) n = .ok qs →
    s.candleClass ps (addrBadv (s.ea o n)) = .ok () → s.candleClass qs (addrBadv (s.ea q n)) = .ok () →
    s.loadOperand { ea := s.ea o n, parts := ps } md = .ok (m1, s1) →
    s1.otherChoice.loadOperand { ea := s.ea q n, parts := qs } md = .ok (m2, s2) →
    (∃ m3 s3, s1.loadOperand { ea := s.ea q n, parts := qs } md = .ok (m3, s3)) →
    let k := longFmt w
    let v := fmaF k (s.mode md.rnd) (unpackF k m1) (unpackF k m2) (unpackF k (s.me.a.toNat % 2 ^ (8 * n)))
    let x := s.me
    if v.2 &&& x.st.te = 0#5 then
      Completes (.fma w o (some q) md) s { x with
        a := zext64 (8 * n) v.1, st := { x.st with fl := x.st.fl ||| v.2 },
        ptrs := (s.steppedPtrs o n).set q.p (steppedOf ((s.steppedPtrs o n).get q.p) x.xi.mask q.am n), pc := s.nextPc }
    else Traps (.fma w o (some q) md) s 0x09 (v.2.zeroExtend 64))

/-! ### Immediates, shifts, bit counts, conversion -/

/-- R103, R111: LDI, LDIH, ADDI, ANDI, ORI and XORI write A and N, Z of its 64 bits; ADDI C and V as well. R103, R113:
SHL, SHR, SAR and ROL write A, N and Z, and C with the last bit shifted out, for ROL with bit 0 of the result, and 0 for
a count of 0; V stays. R103, R114: CLZ, CTZ, POPC and BSWAP of the low n bits of A write A and N, Z. -/
def Obligations.ImmediatesAndShifts : Prop :=
  (∀ (s : State) (v : W64), s.issuing →
    let a := s.me.a
    let runs (i : Instr) (r : W64) (c o : Bool) : Prop :=
      Completes i s { s.me with a := r, st := { s.me.st.flagsOf r with c := c, v := o }, pc := s.nextPc }
    let c := s.me.st.c
    let o := s.me.st.v
    runs (.ldi v) v c o ∧ runs (.ldih v) (v.extractLsb' 0 32 ++ a.extractLsb' 0 32) c o
      ∧ runs (.addi v) (a + v) (decide (2 ^ 64 ≤ a.toNat + v.toNat)) (!inSigned 64 (a.toInt + v.toInt))
      ∧ runs (.andi v) (a &&& v) c o ∧ runs (.ori v) (a ||| v) c o ∧ runs (.xori v) (a ^^^ v) c o)
  ∧ (∀ (s : State) (k : BitVec 6), s.issuing →
    let a := s.me.a
    let runs (i : Instr) (r : W64) (out : Bool) : Prop :=
      Completes i s { s.me with a := r, st := { s.me.st.flagsOf r with c := k != 0#6 && out }, pc := s.nextPc }
    runs (.shl k) (BitVec.ofNat 64 (a.toNat * 2 ^ k.toNat)) (a.getLsbD (64 - k.toNat))
      ∧ runs (.shr k) (BitVec.ofNat 64 (a.toNat / 2 ^ k.toNat)) (a.getLsbD (k.toNat - 1))
      ∧ runs (.sar k) (BitVec.ofInt 64 (a.toInt / 2 ^ k.toNat)) (a.getLsbD (k.toNat - 1))
      ∧ (let r := (a <<< k.toNat) ||| (a >>> (64 - k.toNat)); runs (.rol k) r (r.getLsbD 0)))
  ∧ (∀ (s : State) (w : Width), s.issuing →
    let n := w.bits
    let a := BitVec.ofNat n s.me.a.toNat
    let runs (i : Instr) (r : BitVec n) : Prop :=
      Completes i s { s.me with a := r.signExtend 64, st := s.me.st.flagsOf r, pc := s.nextPc }
    (∀ z, z ≤ n → (∀ j, n - z ≤ j → j < n → a.getLsbD j = false) → (z < n → a.getLsbD (n - 1 - z) = true) →
        runs (.clz w) (BitVec.ofNat n z))
      ∧ (∀ z, z ≤ n → (∀ j, j < z → a.getLsbD j = false) → (z < n → a.getLsbD z = true) → runs (.ctz w) (BitVec.ofNat n z))
      ∧ runs (.popc w) (BitVec.ofNat n ((List.range n).filter fun j => a.getLsbD j).length)
      ∧ ∀ r : BitVec n, (∀ i j, i < w.bytes → j < 8 → r.getLsbD (8 * i + j) = a.getLsbD (8 * (w.bytes - 1 - i) + j)) →
          runs (.bswap w) r)

/-- R115, R116: CVT converts between integers as the exact number wrapped or clamped, from an integer and between
formats as the rounded number, and to an integer as R75 says; A is written, the flags stay, exceptions are reported or
trapped. -/
def Obligations.Conversion : Prop :=
∀ (s : State) (m : BitVec 3) (su du : Bool) (src dst : CvtTy), s.issuing →
    let x := s.me.a.toNat % 2 ^ cvtBits src
    let n := cvtBits dst
    let put (v : Int) : W64 := if du then (BitVec.ofInt n v).zeroExtend 64 else (BitVec.ofInt n v).signExtend 64
    let num : Int := if su then (BitVec.ofNat (cvtBits src) x).toNat else (BitVec.ofNat (cvtBits src) x).toInt
    let lo : Int := if du then 0 else -(2 ^ (n - 1))
    let hi : Int := if du then 2 ^ n - 1 else 2 ^ (n - 1) - 1
    let mode : RMode := if m = 0#3 then rmodeOf s.me.st.rm else rmodeOf (m - 1)
    let runs (v : W64) (f : Flags) : Prop :=
      if f &&& s.me.st.te = 0#5 then
        Completes (.cvt m su du src dst) s
          { s.me with a := v, st := { s.me.st with fl := s.me.st.fl ||| f }, pc := s.nextPc }
      else Traps (.cvt m su du src dst) s 0x09 (f.zeroExtend 64)
    match cvtFmt src, cvtFmt dst with
    | none, none => runs (put (if m = 1#3 then max lo (min hi num) else num)) 0
    | none, some g => let r := intToF g mode num; runs (zext64 n r.1) r.2
    | some f, none => let r := fToInt mode lo hi (unpackF f x); runs (put r.1) r.2
    | some f, some g => let r := cvtF g mode (unpackF f x); runs (zext64 n r.1) r.2

/-! ### Pointers -/

/-- R118, R119: PSET, PSTEP, PADDI and PADDA change the address or the step of Pn modulo 2^48 and 2^16 and nothing else;
PCMP writes the flags of the 48-bit difference; a handle in a named pointer traps with cause 0x07 and BADV zero. R118,
R119, R265: MOVAP and MOVPA copy 64 bits where no handle is involved; a proof handle moves: its linear-handle bit and
its value change place, and its source becomes 0. -/
def Obligations.PointerRegisters : Prop :=
  (∀ (s : State) (p q : PReg) (v : W64) (k : BitVec 5), s.issuing →
    let x := s.me
    let old := x.ptrs.get p
    let addr : VA := old.truncate 48
    let step : BitVec 16 := old.extractLsb' 48 16
    let runs (i : Instr) (new : W64) : Prop :=
      if x.st.lh.getLsbD p.toNat then Traps i s 0x07 0
      else Completes i s { x with ptrs := x.ptrs.set p new, pc := s.nextPc }
    runs (.pset p v) (0#16 ++ v.extractLsb' 0 48) ∧ runs (.pstep p v) (v.extractLsb' 0 16 ++ addr)
      ∧ runs (.paddi p v) (step ++ (addr + v.truncate 48))
      ∧ runs (.padda p k) (step ++ (addr + BitVec.ofNat 48 (x.a.toNat * 2 ^ k.toNat)))
      ∧ (let b : VA := (x.ptrs.get q).truncate 48
         if x.st.lh.getLsbD p.toNat || x.st.lh.getLsbD q.toNat then Traps (.pcmp p q) s 0x07 0
         else Completes (.pcmp p q) s { x with
           st := { x.st.flagsOf (addr - b) with c := decide (b.toNat ≤ addr.toNat),
                                                v := !inSigned 48 (addr.toInt - b.toInt) },
           pc := s.nextPc }))
  ∧ (∀ (s : State) (p : PReg), s.issuing →
    let x := s.me
    let v := x.ptrs.get p
    (x.st.lh.getLsbD p.toNat = true → Traps (.movap p) s 0x07 0)
      ∧ (x.st.lh.getLsbD p.toNat = false → isHandle x.a = false →
          Completes (.movap p) s { x with ptrs := x.ptrs.set p x.a, pc := s.nextPc })
      ∧ (x.st.lh.getLsbD p.toNat = false → isHandle x.a = true → isCompose x.a = false →
          Completes (.movap p) s { x with
            ptrs := x.ptrs.set p x.a, st := { x.st with lh := x.st.lh ||| (1#8 <<< p.toNat) }, a := 0, pc := s.nextPc })
      ∧ (x.st.lh.getLsbD p.toNat = false → Completes (.movpa p) s { x with a := v, pc := s.nextPc })
      ∧ (x.st.lh.getLsbD p.toNat = true → isCompose v = false →
          Completes (.movpa p) s { x with
            a := v, ptrs := x.ptrs.set p 0, st := { x.st with lh := x.st.lh &&& ~~~(1#8 <<< p.toNat) }, pc := s.nextPc }))

/-! ### Control transfer -/

/-- R39, R120: a branch goes to the next PC plus twice its offset, with bit 0 clear, where its condition holds, and to
the next PC where not; no flag changes. R20, R122: CALL saves the next PC in LK and goes to its target, RET goes to LK,
JMPA to A, each with bit 0 cleared; NOP goes on. -/
def Obligations.ControlTransfer : Prop :=
  (∀ (s : State) (off : W64), s.issuing →
    let st := s.me.st
    let target : VA := (s.nextPc + BitVec.ofNat 48 (off.toNat * 2)) &&& ~~~1#48
    let runs (i : Instr) (taken : Bool) : Prop :=
      Completes i s { s.me with pc := if taken then target else s.nextPc }
    runs (.b off) true ∧ runs (.bz off) st.z ∧ runs (.bnz off) (!st.z)
      ∧ runs (.blt off) (st.n != st.v) ∧ runs (.bge off) (st.n == st.v)
      ∧ runs (.bltu off) (!st.c) ∧ runs (.bgeu off) st.c)
  ∧ (∀ (s : State) (off : W64), s.issuing →
    Completes (.call off) s { s.me with
        lk := s.nextPc, pc := (s.nextPc + BitVec.ofNat 48 (off.toNat * 2)) &&& ~~~1#48 }
      ∧ Completes .ret s { s.me with pc := s.me.lk &&& ~~~1#48 }
      ∧ Completes .jmpa s { s.me with pc := s.me.a.truncate 48 &&& ~~~1#48 }
      ∧ Completes .nop s { s.me with pc := s.nextPc })

/-- R121: LOOP with a count of 2 or more counts down and branches; with 1 or 0 the count becomes 0 and it falls through;
the wrap mask stays. -/
def Obligations.LoopCount : Prop :=
∀ (s : State) (off : W64), s.issuing →
    let c := s.me.xi.count
    let target : VA := (s.nextPc + BitVec.ofNat 48 (off.toNat * 2)) &&& ~~~1#48
    Completes (.loop off) s (if 2 ≤ c.toNat
      then { s.me with xi := { mask := s.me.xi.mask, count := c - 1 }, pc := target }
      else { s.me with xi := { mask := s.me.xi.mask, count := 0 }, pc := s.nextPc })

/-! ### Traps and system registers -/

/-- R227, R228: trap entry from level l − 1 writes EPC, CAUSE and BADV of level l, makes TL = l and PL = supervisor,
merges the flags of retired sequences, and goes to TVB + 0x40 × (l − 1); the rest of the context, every other thread,
memory and the cores stay. R228, R231, R232: TRAP enters the handler with cause 0x16 and its immediate in BADV; at trap
level 2 it kills the context instead: the slot is gated, no bank is written, and event 3 tells the host what the entry
would have written. R142, R233: RTT restores PC and PL from the bank of its trap level and lowers TL; outside supervisor
mode it traps with cause 0x14, at level 0 and in a gutter with 0x15, with a candle open at its level with 0x10. GUTRET
leaves a gutter for its target with PL as it is; where no gutter is current, or its gutter frame is still open, it traps
with 0x10. -/
def Obligations.TrapsAndReturns : Prop :=
  (∀ (s : State) (u : Nat) (epc : VA) (n : Nat) (i : TrapInfo), (s.slot u).st.tl.toNat < 2 → i.ipa = none →
    let x := s.slot u
    let l := x.st.tl + 1
    let t := s.takeTrap u epc n i
    let y := t.slot u
    let short := i.code = 0x01#8 ∨ i.code = 0x03#8 ∨ i.code = 0x13#8 ∨ i.code = 0x17#8
    y.bank l = { epc := epc &&& ~~~1#48, badv := i.badv, cause := {
        ppl := x.st.pl, len := if short then 0 else BitVec.ofNat 4 n, s2 := i.s2, acc := i.acc, code := i.code } }
      ∧ (if l = 2#2 then y.bank1 = x.bank1 else y.bank2 = x.bank2)
      ∧ y.st = { x.st with tl := l, pl := 1, fl := x.st.fl ||| x.seqFlags }
      ∧ y.pc = (x.tvb + if l = 2#2 then 0x40 else 0) &&& ~~~1#48
      ∧ y.a = x.a ∧ y.ptrs = x.ptrs ∧ y.lk = x.lk ∧ y.xi = x.xi ∧ y.savp = x.savp ∧ y.tvb = x.tvb ∧ y.tbase = x.tbase
      ∧ y.frames = x.frames ∧ y.pubq = x.pubq ∧ y.replay = x.replay ∧ y.loads = x.loads ∧ y.stores = x.stores
      ∧ y.copies = x.copies ∧ y.tiles = x.tiles ∧ y.mode = x.mode ∧ y.park = none
      ∧ (∀ w, w ≠ u → t.slot w = s.slot w) ∧ SameMemory s t ∧ t.cores = s.cores ∧ t.launches = s.launches
      ∧ t.regs = s.regs ∧ t.events = s.events)
  ∧ (∀ (s : State) (imm : W64), s.issuing →
    let x := s.me
    let l := x.st.tl + 1
    let cause : Cause := { ppl := x.st.pl, len := BitVec.ofNat 4 s.chain.len, code := 0x16 }
    (x.st.tl.toNat < 2 → ∃ t, exec (.trap imm) s = .next t
        ∧ t.me.bank l = { epc := x.pc &&& ~~~1#48, cause := cause, badv := imm }
        ∧ t.me.st = { x.st with tl := l, pl := 1, fl := x.st.fl ||| x.seqFlags }
        ∧ t.me.pc = (x.tvb + if l = 2#2 then 0x40 else 0) &&& ~~~1#48 ∧ t.me.a = x.a ∧ t.me.ptrs = x.ptrs
        ∧ t.cur = s.cur ∧ SameThreads s t ∧ SameMemory s t ∧ t.cores = s.cores)
      ∧ (x.st.tl = 2#2 → ∃ t, exec (.trap imm) s = .next t
        ∧ t.slot s.cur = { bank1 := x.bank1, bank2 := x.bank2, ready := x.ready }
        ∧ t.events = s.events ++ [slotEvent s.cur x 3 ((x.pc &&& ~~~1#48).zeroExtend 64) cause.pack imm]))
  ∧ (∀ (s : State) (off : W64), s.issuing →
    let x := s.me
    let b := x.bank x.st.tl
    let gutter := b.cause.code = 0x13#8
    let candle := x.frames.any fun f => f.tlf == x.st.tl
    let open_ := x.frames.any fun f => f.g && f.tlf == x.st.tl
    (x.st.pl ≠ 1#2 → Traps .rtt s 0x14 0)
      ∧ (x.st.pl = 1#2 → x.st.tl = 0#2 ∨ gutter → Traps .rtt s 0x15 0)
      ∧ (x.st.pl = 1#2 → x.st.tl ≠ 0#2 → ¬gutter → candle = true → Traps .rtt s 0x10 0)
      ∧ (x.st.pl = 1#2 → x.st.tl ≠ 0#2 → ¬gutter → candle = false → Completes .rtt s { x with
          pc := b.epc, st := { x.st with pl := b.cause.ppl, tl := x.st.tl - 1 },
          preempted := x.preempted && b.cause.code != 0x17#8 })
      ∧ (x.st.tl = 0#2 ∨ ¬gutter ∨ open_ = true → Traps (.gutret off) s 0x10 0)
      ∧ (x.st.tl ≠ 0#2 → gutter → open_ = false → Completes (.gutret off) s { x with
          pc := (s.nextPc + BitVec.ofNat 48 (off.toNat * 2)) &&& ~~~1#48, st := { x.st with tl := x.st.tl - 1 } }))

/-- R225, R234: MFS loads a register into A; a user may read ST to CTAG, codes 10 to 15, and a supervisor codes 10 to
25; any other code traps with cause 0x02 and the base word's address. R20, R23, R225, R227, R234: MTS writes the bits of
its register that are writable and no other register; a user writes ST, LK and XI alone, of ST neither PL nor CD, LH and
TL; RM of 5 and above, and PL or PPL of 2 and above, trap with cause 0x02, and so do the codes that are not writable.
R235, R354, R355: TLBI of supervisor mode and with no candle open begins an invalidation of the page that A names, as
large as its mapping, or of the whole address space, and holds the thread; in user mode it traps with cause 0x14, with a
candle open with 0x10. -/
def Obligations.SystemRegisters : Prop :=
  (∀ (s : State) (r : BitVec 6), s.issuing →
    let x := s.me
    let gives (v : W64) : Prop :=
      if x.st.pl = 0#2 ∧ 16 ≤ r.toNat then Traps (.mfs r) s 0x14 0
      else Completes (.mfs r) s { x with a := v, pc := s.nextPc }
    (r = 10 → gives x.st.pack) ∧ (r = 11 → gives (x.lk.zeroExtend 64)) ∧ (r = 12 → gives (0#16 ++ x.xi.mask ++ x.xi.count))
      ∧ (r = 13 → gives (x.savp.zeroExtend 64)) ∧ (r = 14 → gives (tidWord s.cur x)) ∧ (r = 15 → gives (ctagWord x))
      ∧ (r = 16 → gives (x.tvb.zeroExtend 64)) ∧ (r = 17 → gives (x.bank1.epc.zeroExtend 64))
      ∧ (r = 18 → gives x.bank1.cause.pack) ∧ (r = 19 → gives x.bank1.badv) ∧ (r = 20 → gives (x.bank2.epc.zeroExtend 64))
      ∧ (r = 21 → gives x.bank2.cause.pack) ∧ (r = 22 → gives x.bank2.badv) ∧ (r = 23 → gives (x.tbase.zeroExtend 64))
      ∧ (r = 24 → gives (x.rcbp.zeroExtend 64))
      ∧ (r = 25 → gives (BitVec.ofNat 64 ((s.launch x.launch).oilc / 1000)))
      ∧ (r.toNat < 10 ∨ 25 < r.toNat → Traps (.mfs r) s 0x02 (s.baseAddr.zeroExtend 64)))
  ∧ (∀ (s : State) (r : BitVec 6), s.issuing →
    let x := s.me
    let v := x.a
    let user := x.st.pl = 0#2
    let rm := v.extractLsb' 9 3
    let refused : Prop := Traps (.mts r) s 0x02 (s.baseAddr.zeroExtend 64)
    let sets (y : Slot) : Prop := Completes (.mts r) s { y with pc := s.nextPc }
    let ppl := v.extractLsb' 34 2
    (r.toNat < 10 ∨ r = 14 ∨ r = 15 ∨ 22 < r.toNat → refused)
      ∧ (user → r = 13 ∨ (16 ≤ r.toNat ∧ r.toNat ≤ 22) → Traps (.mts r) s 0x14 0)
      ∧ (r = 10 → 5 ≤ rm.toNat ∨ (¬user ∧ 2 ≤ (v.extractLsb' 19 2).toNat) → refused)
      ∧ (r = 10 → rm.toNat < 5 → user ∨ (v.extractLsb' 19 2).toNat < 2 → sets { x with
          st := { x.st with te := v.extractLsb' 12 5, rm := rm, fl := v.extractLsb' 4 5, n := v.getLsbD 3,
                            z := v.getLsbD 2, c := v.getLsbD 1, v := v.getLsbD 0,
                            pl := if user then x.st.pl else v.extractLsb' 19 2 } })
      ∧ (r = 11 → sets { x with lk := v.extractLsb' 0 48 })
      ∧ (r = 12 → sets { x with xi := { mask := v.extractLsb' 32 16, count := v.extractLsb' 0 32 } })
      ∧ (¬user → r = 13 → sets { x with savp := v.extractLsb' 0 48 &&& ~~~0x7F#48 })
      ∧ (¬user → r = 16 → sets { x with tvb := v.extractLsb' 0 48 &&& ~~~0x3F#48 })
      ∧ (¬user → r = 17 → sets { x with bank1 := { x.bank1 with epc := v.extractLsb' 0 48 &&& ~~~1#48 } })
      ∧ (¬user → r = 20 → sets { x with bank2 := { x.bank2 with epc := v.extractLsb' 0 48 &&& ~~~1#48 } })
      ∧ (¬user → r = 19 → sets { x with bank1 := { x.bank1 with badv := v } })
      ∧ (¬user → r = 22 → sets { x with bank2 := { x.bank2 with badv := v } })
      ∧ (¬user → r = 18 ∨ r = 21 → 2 ≤ ppl.toNat → refused)
      ∧ (¬user → r = 18 → ppl.toNat < 2 → sets { x with bank1 := { x.bank1 with cause := { x.bank1.cause with ppl := ppl } } })
      ∧ (¬user → r = 21 → ppl.toNat < 2 → sets { x with bank2 := { x.bank2 with cause := { x.bank2.cause with ppl := ppl } } }))
  ∧ (∀ (s : State), s.issuing →
    let x := s.me
    let begins (i : Instr) (page : Option (Nat × Nat)) : Prop :=
      (x.st.pl = 0#2 → Traps i s 0x14 0) ∧ (x.st.pl ≠ 0#2 → x.st.cd ≠ 0#3 → Traps i s 0x10 0)
        ∧ (x.st.pl ≠ 0#2 → x.st.cd = 0#3 → ∃ t, exec i s = .next t
          ∧ t.me = { x with pc := s.nextPc, busy := true } ∧ SameThreads s t ∧ SameMemory s t ∧ t.cores = s.cores
          ∧ t.invals = s.invals ++ [{ slot := some s.cur, id := s.invNext, cover := {
              stage2 := false, die := dieOf s.here, tenant := x.tenant, root := x.tbase, page := page } }])
    begins .tlbiPage (some (s.mappingPages (x.a.extractLsb' 0 48))) ∧ begins .tlbiSpace none)

/-- R172, R173, R376: YIELD, HALT and GDONE park while a counter is not zero or a store waits for its replay, and HALT while
a row of a tile that it releases is pending (R177); with a candle open they trap with cause 0x10. While another thread of
the group goes on, YIELD leaves its thread yielded, standing after it, with the flags of its sequences merged; HALT, and
GDONE of a stage thread, gate the slot and leave its trap banks (R34); GDONE of any other thread is a galley fault. That
GDONE gates the private tiles too, and without the wait for pending rows, is the model's reading (R376 gates the slot, R174
names HALT; DEDUCED, log 57). R156, R166: WAIT completes once each counter is at most its field, and merges the flags of
retired sequences into ST; it parks until then. R35, R307: GOHOME of an address in this package's DRAM that may be moved to,
at another core that the octet's mask permits, with nothing outstanding, a slot free there and a slice of the launch or of
its migration group, leaves with its context but its trap banks, Z cleared, and its slot is gated; at its own core it clears
Z and stays; elsewhere it sets Z and stays. -/
def Obligations.WaitingAndLeaving : Prop :=
  (∀ (s : State), s.issuing →
    let x := s.me
    let drained := x.loads = 0 ∧ x.stores = 0 ∧ x.copies = 0 ∧ x.tiles = 0 ∧ x.replay = []
    let other := ∃ u, u ∈ s.groupSlots x.launch x.gidx ∧ u ≠ s.cur ∧ (s.slot u).mode = .running
    let ends (i : Instr) : Prop := ∃ t, exec i s = .next t
      ∧ t.slot s.cur = { bank1 := x.bank1, bank2 := x.bank2, ready := x.ready } ∧ SameMemory s t
      ∧ ∀ j, (s.myCore.tile j).alloc = true → (s.myCore.tile j).owner = .slot (BitVec.ofNat 4 s.cur) →
          (s.myCore.tile j).launch = x.launch →
          (t.core s.here).tile j = {}
    (x.st.cd ≠ 0#3 → Traps .yield s 0x10 0 ∧ Traps .halt s 0x10 0 ∧ (x.stage = true → Traps .gdone s 0x10 0))
      ∧ (x.stage = false → Traps .gdone s 0x1A (0x07#8 ++ 0#56))
      ∧ (x.st.cd = 0#3 → ¬drained → Parks .yield s s ∧ Parks .halt s s ∧ (x.stage = true → Parks .gdone s s))
      ∧ (x.st.cd = 0#3 → drained → other → Completes .yield s { x with
          st := { x.st with fl := x.st.fl ||| x.seqFlags }, seqFlags := 0, pc := s.nextPc, mode := .yielded })
      ∧ (x.st.cd = 0#3 → s.releasesPending = true → Parks .halt s s)
      ∧ (x.st.cd = 0#3 → drained → other → s.holdsCompose = false →
          (s.releasesPending = false → x.stage = false ∨ s.settled false .die = true → ends .halt)
            ∧ (x.stage = true → s.settled false .die = true → ends .gdone)))
  ∧ (∀ (s : State) (l st : BitVec 3) (c : BitVec 2) (t : BitVec 3), s.issuing →
    let x := s.me
    let met := x.loads ≤ l.toNat ∧ x.stores ≤ st.toNat ∧ x.copies ≤ c.toNat ∧ x.tiles ≤ t.toNat
    (met → Completes (.wait l st c t) s { x with
        st := { x.st with fl := x.st.fl ||| x.seqFlags }, seqFlags := 0, pc := s.nextPc })
      ∧ (¬met → Parks (.wait l st c t) s s))
  ∧ (∀ (s : State) (q : Part) (qs : List Part), s.issuing →
    let x := s.me
    let va : VA := x.a.extractLsb' 0 48
    let c := vaultCore q.at_.key
    let z (b : Bool) : Slot := { x with st := { x.st with z := b }, pc := s.nextPc }
    let movable := keyIsDram q.at_.key = true ∧ q.at_.mh = true
    let permitted := s.permits (octetOf s.here) (octetOf c) = true
    let bound := x.st.tl ≠ 0#2 ∨ s.inTree s.cur = true ∨ s.ownsTile s.cur = true
    let drained := x.loads = 0 ∧ x.stores = 0 ∧ x.copies = 0 ∧ x.tiles = 0 ∧ x.replay = []
    (bound → Traps .gohome s 0x15 0) ∧ (¬bound → x.st.cd ≠ 0#3 → x.pubq ≠ [] → Traps .gohome s 0x10 0)
      ∧ (¬bound → x.st.cd = 0#3 ∨ x.pubq = [] → s.access .read va 1 = .ok (q :: qs) →
        (¬movable → Completes .gohome s (z true)) ∧ (movable → c = s.here → Completes .gohome s (z false))
          ∧ (movable → c ≠ s.here → ¬permitted → Traps .gohome s 0x1C (va.zeroExtend 64))
          ∧ (movable → c ≠ s.here → permitted → ¬drained → Parks .gohome s s)
          ∧ (movable → c ≠ s.here → permitted → drained → s.roomOn c = false ∨ s.welcomes c = false →
            Completes .gohome s (z true))
          ∧ (movable → c ≠ s.here → permitted → drained → s.roomOn c = true → s.welcomes c = true → x.drain = [] →
            ∃ t id, exec .gohome s = .next t
              ∧ t.slot s.cur = { bank1 := x.bank1, bank2 := x.bank2, ready := x.ready }
              ∧ t.migrants = s.migrants ++ [{ ctx := { z false with bank1 := {}, bank2 := {} }, core := c, id := id }]
              ∧ SameThreads s t ∧ SameMemory s t ∧ SameRows s t ∧ SameTiles s t)))

/-! ### Sequences, shared units, rows -/

/-- R162 to R164: REP captures the len + 1 instructions that follow, hands them to the sequencer with N + 1 passes and
the pointers, XI and RM of the thread, counts a tile operation and goes on behind them; it parks while the repeat
buffer is full, a row that the passes name is pending, or the tile counter stands at 15; with a candle open it traps.
That the sequence keeps the privilege of the thread at the REP as well is the model's reading (R163 names P0 to P7, XI and
ST.RM alone; DEDUCED, log 82).
R164 to R166: a sequence, where none has started in this cycle and none of its acquires is outstanding, performs the
captured instruction at which it stands, its rows moved on by stagger rows for each pass done, in the name of its
thread; a sequence whose passes and effects are done leaves its core, its thread's count of tile operations falls, and
its flags wait to be merged. -/
def Obligations.RepeatSequences : Prop :=
  (∀ (s : State) (n : BitVec 5) (stag : BitVec 2) (len : BitVec 4) (a : VA) (is : List (Instr × Chain))
    (ts : List (BitVec 2)), s.issuing →
    let x := s.me
    let c := s.myCore
    let rows := passRows (n.toNat + 1) (staggerRows stag) is ts
    let room := c.seqs.length + s.seqsReserved s.here < 4 ∧ (∀ r, r ∈ rows → s.rowPending r = false) ∧ x.tiles < 15
    let q : Seq := {
      slot := s.cur, id := s.nd, addr := x.pc, start := s.nextPc, n := n.toNat + 1, code := stag, instrs := is,
      ptrs := x.ptrs, xi := x.xi, rm := x.st.rm, pl := x.st.pl, rows := rows, latch := is.any (fun i => usesLatch i.1), tiles := ts }
    (x.st.cd ≠ 0#3 → Traps (.rep n stag len) s 0x10 0)
      ∧ (x.st.cd = 0#3 → s.capture x.ptrs x.st.handle (len.toNat + 1) s.nextPc [] [] = .ok (a, is, ts) →
        is.length = len.toNat + 1 ∧ (∀ e, e ∈ is → capturable e.1 = true)
          ∧ (room → Effect (.rep n stag len) s (s.setMyCore { c with seqs := c.seqs ++ [q] })
              { x with tiles := x.tiles + 1, pc := a &&& ~~~1#48 })
          ∧ (¬room → Parks (.rep n stag len) s s)))
  ∧ (∀ (s : State) (c i : Nat) (q : Seq), (s.core c).seqs[i]? = some q →
    let x := s.slot q.slot
    (∀ p, (s.core c).firstOfSlot q = true → x.seqFault = none → (s.core c).seqNext ≤ s.cycle →
        (s.core c).seqHeld q = false → q.j < q.n → q.instrs[q.i]? = some p → isEvent p.1 = false →
        Leads (.sequenceStep c i) s fun u =>
          exec (mapRows (fun r => rowOf (rowTile r) ((rowNum r + q.j * staggerRows q.code) % 64)) p.1)
            { s with cur := q.slot, chain := p.2, inSeq := some { core := c, idx := i } } = .next u)
      ∧ (q.n ≤ q.j → (∀ o, o ∈ (s.core c).ops → o.seq ≠ some q.id) →
        (∀ o k m, o ∈ s.octets → k ∈ o.2.ch → m ∈ k.2.queue → m.core = c → m.seq ≠ some q.id) →
        Leads (.sequenceRetire c i) s fun u =>
          (u.core c).seqs = ldel (s.core c).seqs i ∧ SameMemory s u ∧ SameRows s u
            ∧ u.slot q.slot = { x with tiles := x.tiles - 1, seqFlags := x.seqFlags ||| q.flags }))

/-- R169 to R171: a special function sends its row, of F32 lanes, to the octet's unit, where it stands in the order of
arrival, and waits; a slot whose earlier request is still there parks; with the result at hand it writes the row with
tag 7 and reports the exceptions, or traps with them. -/
def Obligations.SpecialFunctions : Prop :=
∀ (s : State) (row : RowRef), s.issuing →
    let x := s.me
    let o := s.octet (octetOf s.here)
    let fns := [(SfuFn.exp2, Instr.sfuExp2 row), (.log2, .sfuLog2 row), (.rcp, .sfuRcp row), (.rsqrt, .sfuRsqrt row),
      (.sin, .sfuSin row), (.cos, .sfuCos row), (.tanh, .sfuTanh row), (.erf, .sfuErf row)]
    ∀ p, p ∈ fns →
      (x.sfuSent = false → s.readable row 32 7 →
        if ∃ q, q ∈ o.sfu ∧ q.slot = s.cur then Parks p.2 s s
        else
          let r : SfuReq := { slot := s.cur, row := row, fn := p.1, live := true, arrives := s.cycle + sfuTransit s.cur }
          Effect p.2 s (s.setOctet (octetOf s.here) { o with sfu := sfuInsert r o.sfu })
          { x with sfuSent := true, park := some (p.2, s.chain) })
        ∧ ∀ r, x.sfuSent = true → x.sfu = some r →
          if r.flags &&& x.st.te = 0#5 then
            CompletesRow p.2 s { x with sfuSent := false, sfu := none, st := { x.st with fl := x.st.fl ||| r.flags },
                                        pc := s.nextPc } row { tag := 7, elems := r.elems, scales := 0 }
          else Traps p.2 s 0x09 (r.flags.zeroExtend 64)

/-- R158, R159, R161: TAGE and TAGF make the full bit of the word at Pn empty or full and change nothing else; they park
while a row load, a row store, a panel read or a panel transfer of the thread's at that word is outstanding, or a store
of it to that word waits for its replay; an address that is neither in the cluster window nor in the
local alias traps with cause 0x0E, a handle with 0x07, and a thread that holds stores with 0x11. -/
def Obligations.FullBits : Prop :=
∀ (s : State) (p : PReg) (ps : List Part) (k : Nat) (ks : List Nat), s.issuing →
    let x := s.me
    let a : VA := (x.ptrs.get p).extractLsb' 0 48
    let inWindow := 0xFF0000000000 ≤ a.toNat ∧ a.toNat < 0xFF0006000000
    let ok := inWindow ∨ inAlias a = true
    let o := orderOf (partsClass ps) MD.zero
    let does (i : Instr) (full : Bool) : Prop :=
      (x.st.lh.getLsbD p.toNat = true → Traps i s 0x07 0)
        ∧ (x.st.lh.getLsbD p.toNat = false → s.access .write a 1 = .ok ps → partKeys ps = k :: ks →
          (¬ok → Traps i s 0x0E (a.zeroExtend 64)) ∧ (ok → x.holding = true → Traps i s 0x11 0)
            ∧ (ok → x.holding = false → s.awaitRelease o.rel o.scope = .ok () → x.drain = [] →
              if s.wordOutstanding (k / 8) = true then Parks i s s else ∃ t b, exec i s = .next t
                ∧ RanFull s t { x with pc := s.nextPc, busy := b } k full))
    does (.tage p) false ∧ does (.tagf p) true

/-- R175, R176: TCFG allocates a tile or ungates further banks of one that the thread may use: the banks of the mask
join, element size and owner are set, and the rows of the banks ungated read as zero; a tile that another may use,
another size, a mask without an ungated bank and an owner slot without a thread of the launch trap. R175, R177: TREL of
a tile that is not allocated does nothing; of one that the thread may not use it traps with cause 0x0C; while a row of
the tile is pending it parks; else the tile is gated and its rows are lost. -/
def Obligations.Tiles : Prop :=
  (∀ (s : State) (t : BitVec 2) (e : ElemSize) (mask : BitVec 4) (owner : Option TileOwner), s.issuing →
    let i := Instr.tcfg t e mask owner
    let own := owner.getD (.slot (BitVec.ofNat 4 s.cur))
    let k := s.myCore.tile t
    let badv : W64 := (t ++ 0#6).zeroExtend 64
    let ownerOk := match own with
      | .shared => True
      | .slot n => (s.slot (16 * s.here + n.toNat)).mode ≠ .gated ∧ (s.slot (16 * s.here + n.toNat)).launch = s.me.launch
    let mine := k.launch = s.me.launch ∧ (k.owner = .shared ∨ k.owner = .slot (BitVec.ofNat 4 s.cur))
    let fits := k.alloc = true → mine ∧ e = k.size ∧ k.banks &&& ~~~mask = 0#4
    let had := if k.alloc then k.banks else 0#4
    (¬ownerOk → Traps i s 0x0C badv) ∧ (ownerOk → ¬fits → Traps i s 0x0D badv)
      ∧ (ownerOk → fits → ∃ u, exec i s = .next u ∧ u.me = { s.me with pc := s.nextPc } ∧ u.cur = s.cur
        ∧ (u.core s.here).tile t =
            { k with alloc := true, size := e, banks := had ||| mask, owner := own, launch := s.me.launch }
        ∧ (∀ j, j ≠ t → (u.core s.here).tile j = s.myCore.tile j)
        ∧ (∀ r : RowRef, (u.core s.here).row r =
            if rowTile r = t ∧ had.getLsbD (rowNum r / 16) = false then {} else s.myCore.row r)
        ∧ (∀ c, c ≠ s.here → u.core c = s.core c) ∧ (u.core s.here).latch = s.myCore.latch
        ∧ (u.core s.here).ops = s.myCore.ops ∧ SameThreads s u ∧ SameMemory s u ∧ SamePackage s u))
  ∧ (∀ (s : State) (t : BitVec 2), s.issuing →
    let k := s.myCore.tile t
    let x := s.me
    let mine := k.launch = x.launch ∧ (k.owner = .shared ∨ k.owner = .slot (BitVec.ofNat 4 s.cur))
    (k.alloc = false → Completes (.trel t) s { x with pc := s.nextPc })
      ∧ (k.alloc = true → ¬mine → Traps (.trel t) s 0x0C ((t ++ 0#6).zeroExtend 64))
      ∧ (k.alloc = true → mine → s.tilePending t = true → Parks (.trel t) s s)
      ∧ (k.alloc = true → mine → s.tilePending t = false → ∃ u, exec (.trel t) s = .next u
        ∧ u.me = { x with pc := s.nextPc } ∧ u.cur = s.cur ∧ (u.core s.here).tile t = {}
        ∧ (∀ j, j ≠ t → (u.core s.here).tile j = s.myCore.tile j)
        ∧ (∀ r : RowRef, (u.core s.here).row r = if rowTile r = t then {} else s.myCore.row r)
        ∧ (∀ c, c ≠ s.here → u.core c = s.core c) ∧ (u.core s.here).latch = s.myCore.latch
        ∧ (u.core s.here).ops = s.myCore.ops ∧ SameThreads s u ∧ SameMemory s u ∧ SamePackage s u))

/-- R153, R155, R181, R182, R184: VLD of a usable row is accepted: the operation joins the core's outstanding ones with the
bytes' locations, the loads counter rises, and the pointer moves on by its step in rows; at 15 outstanding loads it parks,
and that it parks before the row's address is translated is the model's choice (DESIGN CHOICE, log 85). R153, R181, R183,
R184: VST of a usable row is accepted with the row's bytes as its page stores them, the stores counter rises, and the
pointer moves on; a thread that holds stores puts the bytes into its publish queue instead. -/
def Obligations.RowLoadsAndStores : Prop :=
  (∀ (s : State) (p : PReg) (row : RowRef) (md : MD) (r : RowAccess), s.issuing →
    let x := s.me
    let v := x.ptrs.get p
    let a : VA := v.extractLsb' 0 48
    let o := orderOf (partsClass r.parts) md
    let c := s.myCore
    x.st.lh.getLsbD p.toNat = false → s.usable row →
    (15 ≤ x.loads → Parks (.vld p row md) s s)
      ∧ (x.loads < 15 → s.rowAccess .read a = .ok r → s.candleClass r.parts (a.zeroExtend 64) = .ok () →
        s.awaitRelease o.rel o.scope = .ok () →
        Effect (.vld p row md) s (s.setMyCore { c with ops := c.ops ++ [{
            kind := .vld, slot := s.cur, rows := [row], fmt := r.fmt, geo := r.geo, src := r.all.map (·.2),
            bytes := s.rowAhead r.all, strong := o.strong, scope := o.scope, unord := partsClass r.parts == .unordered,
            holds := o.acq, born := s.nd, seq := none, since := s.hist.length, via := viaOf s.space r.parts }] })
          { x with loads := x.loads + 1, pc := s.nextPc,
                   ptrs := x.ptrs.set p (v.extractLsb' 48 16 ++ rowAddr a r.fmt r.geo (v.extractLsb' 48 16).toInt) }))
  ∧ (∀ (s : State) (p : PReg) (row : RowRef) (md : MD) (r : RowAccess), s.issuing →
    let x := s.me
    let v := x.ptrs.get p
    let a : VA := v.extractLsb' 0 48
    let o := orderOf (partsClass r.parts) md
    let c := s.myCore
    let bytes := zipBytes (r.all.map (·.2)) (storedRow r.fmt r.geo (s.row row))
    let after := x.ptrs.set p (v.extractLsb' 48 16 ++ rowAddr a r.fmt r.geo (v.extractLsb' 48 16).toInt)
    x.st.lh.getLsbD p.toNat = false → s.usable row → s.rowStore row a = .ok r →
    (x.holding = false → 15 ≤ x.stores → Parks (.vst p row md) s s)
      ∧ (x.holding = false → x.stores < 15 → x.drain = [] →
        Effect (.vst p row md) s (s.setMyCore { c with ops := c.ops ++ [{
            kind := .vst, slot := s.cur, rows := [row], fmt := r.fmt, geo := r.geo, bytes := bytes, strong := o.strong,
            scope := o.scope, unord := partsClass r.parts == .unordered, acq := o.acq, born := s.nd, seq := none,
            since := s.hist.length, via := viaOf s.space r.parts }] })
          { x with stores := x.stores + 1, pc := s.nextPc, ptrs := after })
      ∧ (x.holding = true → 32 ≤ x.pubq.length → Traps (.vst p row md) s 0x12 (a.zeroExtend 64))
      ∧ (x.holding = true → x.pubq.length < 32 → Completes (.vst p row md) s { x with
          pubq := x.pubq ++ [{ level := x.st.cd.toNat - 1, bytes := bytes, strong := o.strong, scope := o.scope,
                               born := s.nd, made := s.nd, vas := r.parts.map (fun q => (q.va.toNat, q.n)),
                               via := viaOf s.space r.parts, unord := partsClass r.parts == .unordered }],
          pc := s.nextPc, ptrs := after }))

/-! ### Vector instructions -/

/-- R73, R180, R185, R186: lane by lane, VADD, VSUB, VMUL, VMIN and VMAX of two rows, with two OPX both named, with one
the destination being the first: integer lanes are exact results wrapped or saturated, FP lanes rounded once. R185: VFMA
gives a × b + d and VFMS d − a × b in every lane with one rounding. -/
def Obligations.VectorArithmetic : Prop :=
  (∀ (s : State) (ty : LaneTy) (d x y : RowRef) (md : MD), s.issuing →
    let n := laneBits ty
    let p (j : Nat) := (s.row x).lane n j
    let q (j : Nat) := (s.row y).lane n j
    let m := s.mode md.rnd
    let lanes (int : Int → Int → Int) (fp : FFmt → Nat → Nat → Nat × Flags) (j : Nat) : BitVec n × Flags :=
      match ty with
      | .int _ => (clampTo n md.sat (int (p j).toInt (q j).toInt), 0)
      | .fp f => let r := fp (fpFmt f) (p j).toNat (q j).toNat; (BitVec.ofNat n r.1, r.2)
    s.readable x n (laneTag ty) → s.readable y n (laneTag ty) → s.writable d n →
    ∀ (a : RowRef) (b : Option RowRef), (a = x ∧ b = some y) ∨ (a = y ∧ b = none ∧ x = d) →
      let runs (i : Instr) (int : Int → Int → Int) (fp : FFmt → Nat → Nat → Nat × Flags) : Prop :=
        LaneResult i s d n (laneTag ty) (lanes int fp)
      runs (.vadd ty d (some a) b md) (· + ·) (fun k u v => addF k m (unpackF k u) (unpackF k v))
        ∧ runs (.vsub ty d (some a) b md) (· - ·) (fun k u v => addF k m (unpackF k u) (unpackF k v).neg)
        ∧ runs (.vmul ty d (some a) b md) (· * ·) (fun k u v => mulF k m (unpackF k u) (unpackF k v))
        ∧ runs (.vmin ty d (some a) b) min (fun k u v => minmaxF k false u v)
        ∧ runs (.vmax ty d (some a) b) max (fun k u v => minmaxF k true u v))
  ∧ (∀ (s : State) (t : FpTy) (d x y : RowRef) (md : MD), s.issuing →
    let n := laneBits (.fp t)
    let tag := laneTag (.fp t)
    let k := fpFmt t
    let p (j : Nat) := unpackF k ((s.row x).lane n j).toNat
    let q (j : Nat) := unpackF k ((s.row y).lane n j).toNat
    let o (j : Nat) := unpackF k ((s.row d).lane n j).toNat
    let m := s.mode md.rnd
    s.readable x n tag → s.readable y n tag → s.readable d n tag →
    LaneResult (.vfma t d (some x) (some y) md) s d n tag
        (fun j => let r := fmaF k m (p j) (q j) (o j); (BitVec.ofNat n r.1, r.2))
      ∧ LaneResult (.vfms t d (some x) (some y) md) s d n tag
        (fun j => let r := fmaF k m (p j).neg (q j) (o j); (BitVec.ofNat n r.1, r.2)))

/-- R185 to R187: VABS and VNEG, of FP lanes the sign bit alone; VAND, VOR and VXOR of rows d and a; VSHL, VSHR and VSAR
of every lane by a count. R188, R189: VCMP makes each lane all ones where its condition holds of d and a, else zero,
with the integer tag of the width; VSEL takes each lane of a where the mask row's lane is not zero, else the lane of d. -/
def Obligations.VectorBitsAndCompare : Prop :=
  (∀ (s : State) (d a : RowRef), s.issuing →
    (∀ (ty : LaneTy) (md : MD), s.readable d (laneBits ty) (laneTag ty) →
      let n := laneBits ty
      let top := BitVec.ofNat n (2 ^ (n - 1))
      let p (j : Nat) := (s.row d).lane n j
      LaneResult (.vabs ty d md) s d n (laneTag ty) (fun j => match ty with
          | .int _ => (clampTo n md.sat (p j).toInt.natAbs, 0)
          | .fp _ => (p j &&& ~~~top, 0))
        ∧ LaneResult (.vneg ty d md) s d n (laneTag ty) (fun j => match ty with
          | .int _ => (clampTo n md.sat (-(p j).toInt), 0)
          | .fp _ => (p j ^^^ top, 0)))
      ∧ ∀ (t : IntTy), s.readable d (laneBits (.int t)) (laneTag (.int t)) →
        let n := laneBits (.int t)
        let tag := laneTag (.int t)
        let p (j : Nat) := (s.row d).lane n j
        let q (j : Nat) := (s.row a).lane n j
        (s.readable a n tag →
          LaneResult (.vand t d (some a)) s d n tag (fun j => (p j &&& q j, 0))
            ∧ LaneResult (.vor t d (some a)) s d n tag (fun j => (p j ||| q j, 0))
            ∧ LaneResult (.vxor t d (some a)) s d n tag (fun j => (p j ^^^ q j, 0)))
          ∧ ∀ k : BitVec 6,
            LaneResult (.vshl t d (some k)) s d n tag (fun j => (p j <<< k.toNat, 0))
              ∧ LaneResult (.vshr t d (some k)) s d n tag (fun j => (p j >>> k.toNat, 0))
              ∧ LaneResult (.vsar t d (some k)) s d n tag (fun j => ((p j).sshiftRight k.toNat, 0)))
  ∧ (∀ (s : State) (ty : LaneTy) (d a k : RowRef), s.issuing →
    let n := laneBits ty
    let p (j : Nat) := (s.row d).lane n j
    let q (j : Nat) := (s.row a).lane n j
    let mask (b : Bool) : BitVec n := if b then BitVec.allOnes n else 0#n
    s.readable d n (laneTag ty) → s.readable a n (laneTag ty) →
    let runs (c : VCond) (int : BitVec n → BitVec n → Bool) (fp : FVal → FVal → Bool) : Prop :=
      c.ok ty = true → LaneResult (.vcmp ty d (some a) (some c)) s d n (intTag n) (fun j => match ty with
        | .int _ => (mask (int (p j) (q j)), 0)
        | .fp t =>
          let u := unpackF (fpFmt t) (p j).toNat
          let v := unpackF (fpFmt t) (q j).toNat
          (mask (fp u v), snanFlags [u, v]))
    runs .eq (fun u v => u == v) eqF ∧ runs .ne (fun u v => u != v) (fun u v => !eqF u v)
      ∧ runs .lt (fun u v => u.toInt < v.toInt) ltF ∧ runs .le (fun u v => u.toInt ≤ v.toInt) (fun u v => ltF u v || eqF u v)
      ∧ runs .ltu (fun u v => u.toNat < v.toNat) (fun _ _ => false)
      ∧ runs .leu (fun u v => u.toNat ≤ v.toNat) (fun _ _ => false)
      ∧ runs .uo (fun _ _ => false) (fun u v => u.isNan || v.isNan)
      ∧ (s.readable k n (intTag n) → LaneResult (.vsel ty d (some a) (some k)) s d n (laneTag ty)
          (fun j => (if (s.row k).lane n j = 0#n then p j else q j, 0))))

/-- R75, R190: VCVT converts the lanes of row a, whose tag names their type, to the type of the instruction, as many as
both rows have; the other lanes of d become zero. -/
def Obligations.VectorConvert : Prop :=
∀ (s : State) (ty : LaneTy) (d a : RowRef) (md : MD) (src : Option LaneTy), s.issuing →
    let n := laneBits ty
    let k := match src with | some t => laneBits t | none => 8
    let v (j : Nat) := (s.row a).lane k j
    let m := s.mode md.rnd
    let lo : Int := -(2 ^ (n - 1))
    let hi : Int := 2 ^ (n - 1) - 1
    let bothInt := cvtIntSource src && isIntLane ty
    s.usable a → (s.row a).tag = (match src with | some t => laneTag t | none => 1#4) →
    (match src with | some t => (s.tileOf a).size = sizeOfBits (laneBits t) | none => True) →
    s.writable d n → src ≠ some ty → (md.sat = true → bothInt = true) → (md.rnd ≠ .none → bothInt = false) →
    LaneResult (.vcvt ty d (some a) md) s d n (laneTag ty) (fun j =>
      if 2048 / k ≤ j then (0#n, 0) else
      match src, ty with
      | some (.fp f), .fp g => let r := cvtF (fpFmt g) m (unpackF (fpFmt f) (v j).toNat); (BitVec.ofNat n r.1, r.2)
      | some (.fp f), .int _ => let r := fToInt m lo hi (unpackF (fpFmt f) (v j).toNat); (BitVec.ofInt n r.1, r.2)
      | some (.int _), .fp g | none, .fp g => let r := intToF (fpFmt g) m (v j).toInt; (BitVec.ofNat n r.1, r.2)
      | some (.int _), .int _ | none, .int _ => (clampTo n md.sat (v j).toInt, 0))

/-- R96, R191, R192: VRED reduces the lanes pair by pair and writes the sum, the minimum or the maximum to A; VBCA
writes the low bits of A to every lane; VGETA writes one lane to A. R193: VPERM of n lanes takes lane x[i] of a where
x[i] < n, lane x[i] − n of the old d where n ≤ x[i] < 2n, else zero; d takes the tag of a. -/
def Obligations.VectorScalarAndPermute : Prop :=
  (∀ (s : State) (ty : LaneTy) (d : RowRef) (md : MD) (k : BitVec 7), s.issuing →
    let n := laneBits ty
    let x := s.me
    let ext (v : Nat) : W64 := if isIntLane ty then (BitVec.ofNat n v).signExtend 64 else (BitVec.ofNat n v).zeroExtend 64
    let op : Nat → Nat → Nat × Flags :=
      (if x.a.toNat % 4 = 0 then addLane ty else pickLane ty (x.a.toNat % 4 == 2)) (s.mode md.rnd) md.sat
    let h := if n = 16 then 7 else if n = 32 then 6 else 5
    (s.readable d n (laneTag ty) → x.a.toNat % 4 = 3 → md.sat = false → md.rnd = .none →
        Traps (.vred ty d md) s 0x02 (s.baseAddr.zeroExtend 64))
      ∧ (∀ L : Nat → Nat → Nat, s.readable d n (laneTag ty) → x.a.toNat % 4 ≠ 3 →
        (x.a.toNat % 4 = 0 ∨ (md.sat = false ∧ md.rnd = .none)) → (∀ j, L 0 j = ((s.row d).lane n j).toNat) →
        (∀ i j, L (i + 1) j = (op (L i (2 * j)) (L i (2 * j + 1))).1) →
        let f : Flags := (List.range h).foldl (fun f i => (List.range (2 ^ (h - 1 - i))).foldl
          (fun f j => f ||| (op (L i (2 * j)) (L i (2 * j + 1))).2) f) 0
        if f &&& x.st.te = 0#5 then
          Completes (.vred ty d md) s { x with a := ext (L h 0), st := { x.st with fl := x.st.fl ||| f }, pc := s.nextPc }
        else Traps (.vred ty d md) s 0x09 (f.zeroExtend 64))
      ∧ (s.writable d n → LaneResult (.vbca ty d) s d n (laneTag ty) (fun _ => (x.a.truncate n, 0)))
      ∧ (s.readable d n (laneTag ty) → k.toNat < 2048 / n → Completes (.vgeta ty d (some k)) s
          { x with a := ext ((s.row d).lane n k.toNat).toNat, pc := s.nextPc })
      ∧ (s.readable d n (laneTag ty) → Completes (.vgeta ty d none) s { x with a := ext ((s.row d).lane n 0).toNat, pc := s.nextPc })
      ∧ (2048 / n ≤ k.toNat → Traps (.vgeta ty d (some k)) s 0x02 (s.opx1Addr.zeroExtend 64)))
  ∧ (∀ (s : State) (w : PermWidth) (d a x : RowRef), s.issuing →
    let n := permBits w
    let c := 2048 / n
    let k (j : Nat) := ((s.row x).lane n j).toNat
    s.usable d → s.usable a → s.readable x n (intTag n) → (s.tileOf d).size = sizeOfBits n → (s.tileOf a).size = sizeOfBits n →
    (s.row d).tag = 0#4 ∨ (s.row d).tag = (s.row a).tag →
    ∃ t r, exec (.vperm w d (some a) (some x)) s = .next t ∧ RanRow s t { s.me with pc := s.nextPc } d r
      ∧ r.tag = (s.row a).tag
      ∧ ∀ j, j < c → r.lane n j =
          if k j < c then (s.row a).lane n (k j) else if k j < 2 * c then (s.row d).lane n (k j - c) else 0#n)

/-- R194, R195: VQMX takes the largest magnitude of the finite values of each block of its span, or +0. Where the
thread's row of the sub-torus is its own core alone, it writes these to lanes 0 to 7 of the row after the span, 0 to the
other lanes; with other participants it sends them and waits, and once the round has agreed it writes what was agreed;
as it completes, its round counter rises. R89, R196: VQNT quantises the eight blocks of its span into row d, with the
maximum that lane g of row x gives for block g where it names an x, else with each block's own, and reports the
exceptions or traps with them. R90, R197: VDQ decodes the block row a into the span at d, rounded, and reports the
exceptions or traps with them. R178, R194: a span, for VQMX with the row after it, that runs past row 63 traps with
cause 0x02, and a row of another tag, where one from 5 to 8 or a block format is needed, with cause 0x0A. -/
def Obligations.Quantisation : Prop :=
  (∀ (s : State) (q : QFmt) (d : RowRef), s.issuing →
    let tag := (s.row d).tag
    let f := wideFmt tag
    let w := f.width
    let m := spanLen tag (qTag q == 13)
    let b := if qTag q = 13#4 then 64 else 32
    let c := 2048 / w
    let at_ (i : Nat) : RowRef := rowOf (rowTile d) (rowNum d + i)
    let mag (i : Nat) : Nat := ((s.row (at_ (i / c))).lane w (i % c)).toNat % 2 ^ (w - 1)
    let finite (i : Nat) : Prop := mag i < f.inf false
    let largest (g y : Nat) : Prop := (∀ i, i < b → finite (b * g + i) → mag (b * g + i) ≤ y)
      ∧ (y = 0 ∨ ∃ i, i < b ∧ finite (b * g + i) ∧ y = mag (b * g + i))
    let x := s.me
    let alone := (s.agreeSlots s.cur).length ≤ 1
    let writes (p : Row → Prop) : Prop := ∃ t r, exec (.vqmx q d) s = .next t ∧ r.tag = tag ∧ r.scales = 0 ∧ p r
      ∧ RanRow s t { x with vsent := none, vmax := none, vround := x.vround + 1, pc := s.nextPc } (at_ m) r
    (s.usable d → isWide tag = false → Traps (.vqmx q d) s 0x0A (d.zeroExtend 64))
      ∧ (s.usable d → isWide tag = true → 64 ≤ rowNum d + m → Traps (.vqmx q d) s 0x02 (s.baseAddr.zeroExtend 64))
      ∧ (isWide tag = true → rowNum d + m < 64 →
        (∀ i, i < m → s.usable (at_ i) ∧ (s.tileOf (at_ i)).size = sizeOfBits w ∧ (s.row (at_ i)).tag = tag) →
        s.writable (at_ m) w →
        (alone → writes fun r => (∀ g, g < 8 → largest g (r.lane w g).toNat) ∧ ∀ j, 8 ≤ j → j < c → r.lane w j = 0)
          ∧ (¬alone → x.vmax = none → ∃ t v, exec (.vqmx q d) s = .next t ∧ Quiet s t
            ∧ t.me = { x with vsent := some (tag.zeroExtend 64 :: v), park := some (.vqmx q d, s.chain) }
            ∧ v.length = 8 ∧ ∀ g, g < 8 → largest g (v.getD g 0).toNat)
          ∧ (¬alone → ∀ v, x.vmax = some v → writes fun r => ∀ j, j < c → r.lane w j = BitVec.ofNat w (v.getD j 0).toNat)))
  ∧ (∀ (s : State) (q : QFmt) (d : RowRef) (x : Option RowRef) (md : MD), s.issuing →
    let tag := (s.row d).tag
    let f := wideFmt tag
    let m := spanLen tag (qTag q == 13)
    let at_ (i : Nat) : RowRef := rowOf (rowTile d) (rowNum d + i)
    let source (r : RowRef) : Prop := s.usable r ∧ (s.tileOf r).size = sizeOfBits f.width ∧ (s.row r).tag = tag
    let blocks := (blocksOf (if qTag q = 13#4 then 64 else 32) 8 (s.spanLanes tag (spanRows d m))).map (·.map (unpackF f))
    let given (g : Nat) : Option (Nat × Int) :=
      x.map fun r => givenMax (s.nd * 2 ^ 64 + g) (unpackF f ((s.row r).lane f.width g).toNat)
    let rs := blocks.zipIdx.map fun b => quantise (qElem q) (s.mode md.rnd) (given b.2) b.1
    let fl : Flags := rs.foldl (fun u r => u ||| r.2.2) 0
    (∀ salt k e, givenMax salt (.fin false k e) = (k, e))
      ∧ (s.usable d → (∀ r, x = some r → s.usable r) → isWide tag = false → Traps (.vqnt q d x md) s 0x0A (d.zeroExtend 64))
      ∧ (s.usable d → isWide tag = true → 64 < rowNum d + m → Traps (.vqnt q d x md) s 0x02 (s.baseAddr.zeroExtend 64))
      ∧ (isWide tag = true → rowNum d + m ≤ 64 → (∀ i, i < m → source (at_ i)) → (∀ r, x = some r → source r) →
        if fl &&& s.me.st.te = 0#5 then
          CompletesRow (.vqnt q d x md) s { s.me with st := { s.me.st with fl := s.me.st.fl ||| fl }, pc := s.nextPc } d
            (blockRow (qTag q) (rs.map fun r => (r.1, r.2.1)))
        else Traps (.vqnt q d x md) s 0x09 (fl.zeroExtend 64)))
  ∧ (∀ (s : State) (ty : FpTy) (d a : RowRef), s.issuing → s.usable a →
    let x := s.me
    let k := fpFmt ty
    let tag := laneTag (.fp ty)
    let m := spanLen tag ((s.row a).tag == 13)
    let at_ (i : Nat) : RowRef := rowOf (rowTile d) (rowNum d + i)
    let rs := (blockCodes (s.row a)).map fun e => cvtF k (s.mode .none) (scaledValue (s.row a).tag e.1 e.2)
    let fl : Flags := rs.foldl (fun u r => u ||| r.2) 0
    (blockTag (s.row a).tag = false → s.writable d k.width → Traps (.vdq ty d (some a)) s 0x0A (a.zeroExtend 64))
      ∧ (blockTag (s.row a).tag = true → 64 < rowNum d + m → Traps (.vdq ty d (some a)) s 0x02 (s.baseAddr.zeroExtend 64))
      ∧ (blockTag (s.row a).tag = true → rowNum d + m ≤ 64 → (∀ i, i < m → s.writable (at_ i) k.width) →
        if fl &&& x.st.te = 0#5 then
          Effect (.vdq ty d (some a)) s (s.putLanes k.width tag (spanRows d m) (rs.map (·.1)))
            { x with st := { x.st with fl := x.st.fl ||| fl }, pc := s.nextPc }
        else Traps (.vdq ty d (some a)) s 0x09 (fl.zeroExtend 64)))

/-- R42, R102, R178: an instruction that needs an operand prefix and has none traps with cause 0x02 and the base word's
address. -/
def Obligations.MissingOperand : Prop :=
∀ (s : State) (ty : LaneTy) (it : IntTy) (ft : FpTy) (lw : LongWidth) (o : MemOp) (md : MD) (d : RowRef) (p : PReg)
    (w : PermWidth) (a : RowRef) (lo : BitVec 10) (off : W64) (c : Option VCond) (k : BitVec 6) (skew : Bool), s.issuing →
    let refused (i : Instr) : Prop := Traps i s 0x02 (s.baseAddr.zeroExtend 64)
    (∀ i, i ∈ [Instr.vadd ty d none none md, .vsub ty d none none md, .vmul ty d none none md, .vmin ty d none none,
        .vmax ty d none none, .vfma ft d none none md, .vfma ft d (some a) none md, .vfms ft d none none md,
        .vfms ft d (some a) none md, .vand it d none, .vor it d none, .vxor it d none, .vshl it d none, .vshr it d none,
        .vsar it d none, .vcmp ty d none c, .vcmp ty d (some a) none, .vsel ty d none none, .vsel ty d (some a) none,
        .vcvt ty d none md, .vperm w d none none, .vperm w d (some a) none, .vdq ft d none, .mdrain d none,
        .fma lw o none md, .amocas lw o none md, .fnew p none, .fprf p none, .fsend p none, .ftake p none, .lcast p none,
        .candle none none off, .candle (some lo) none off] → refused i)
      ∧ (s.me.st.cd = 0#3 → refused (.mrot skew k none))

/-! ### The matrix unit -/

/-- R202, R204, R205: a matrix command that passes its checks has K a positive multiple of its format's K-step within
the limit; the format of all but MLDB is the latch's; one that multiplies names an ungated tile of the right element
size that the thread may use, and its K and the columns are those of the latch; MLDB names the columns of the format;
the panel that a rotating command forwards ends inside the scratchpad. R153, R155, R201, R205 to R207, R211, R213, R214:
MLDB, MMA, MMROT and MROT whose command passes its checks are accepted, but wait while a row store that is an acquire is
outstanding, unless every page of the operand is of class U (R322, R323): the operation joins the core's outstanding ones,
MLDB counts as a load and the others as tile operations, and one that rotates takes the next round; inside a candle the
rotating ones trap with cause 0x10. -/
def Obligations.MatrixCommands : Prop :=
  (∀ (s : State) (c : MatCmd) (p : PReg) (r : MatChecked), s.matCheck c p = .ok r →
    let blk := r.blk
    ∃ info, matInfo blk.fmt = some info ∧ 0 < blk.k ∧ blk.k % info.step = 0 ∧ blk.k ≤ info.kmax
      ∧ (c.multiplies = true →
        let t := s.myCore.tile blk.tile
        t.alloc = true ∧ t.banks = 0xF#4 ∧ t.size = info.size ∧ s.mayUse t = true
          ∧ s.myCore.latch.k = blk.k ∧ s.myCore.latch.n = matCols info.size)
      ∧ (c ≠ .mldb → s.latchTag = blk.fmt) ∧ (c = .mldb → blk.n = matCols info.size)
      ∧ (c.rotates = true → blk.afwd + 64 * blk.astr ≤ s.spmSize s.here))
  ∧ (∀ (s : State) (p : PReg) (skew : Bool) (row : BitVec 6) (r : MatChecked), s.issuing →
    let x := s.me
    let c := s.myCore
    let blk := r.blk
    let o := orderOf (strongestClass r.parts) MD.zero
    let op (kind : EngKind) (rows : List RowRef) : EngOp := {
      kind := kind, slot := s.cur, rows := rows, latch := true, fmt := blk.fmt, geo := blk.geo, 
      bytes := s.ahead (aliasOf r.keys), blk := blk, round := s.nextRound, strong := o.strong, scope := o.scope,
      unord := strongestClass r.parts == .unordered, holds := o.acq, pages := pageClasses r.parts,
      via := viaOf s.space r.parts, born := s.nd, seq := none, since := s.hist.length }
    let waits := s.acquirePending = true ∧ ∃ q, q ∈ r.parts ∧ q.at_.cls ≠ .unordered
    let takes (i : Instr) (t : State) (y : Slot) : Prop := (waits → Parks i s s) ∧ (¬waits → Effect i s t y)
    let all := (upto 64).map (rowOf blk.tile)
    let tileOp : Slot := { x with tiles := x.tiles + 1, pc := s.nextPc }
    let next := aset 0 c.rounds x.launch (s.nextRound + 1)
    let mrot := Instr.mrot skew row (some p)
    (s.matCheck .mldb p = .ok r → takes (.mldb p)
        (s.setMyCore { c with ops := c.ops ++ [op .mldb []] }) { x with loads := x.loads + 1, pc := s.nextPc })
      ∧ (s.matCheck .mma p = .ok r → takes (.mma p) (s.setMyCore { c with ops := c.ops ++ [op .mma all] }) tileOp)
      ∧ (x.st.cd = 0#3 → s.matCheck .mmrot p = .ok r → takes (.mmrot p)
        (s.setMyCore { c with rounds := next, ops := c.ops ++ [op .mmrot all] }) tileOp)
      ∧ (x.st.cd = 0#3 → s.matCheck .mrot p = .ok r → takes mrot
        (s.setMyCore { c with rounds := next, ops := c.ops ++ [op (if skew then .mrotSkew else .mrotStep) []] }) tileOp)
      ∧ (x.st.cd ≠ 0#3 → Traps (.mmrot p) s 0x10 0 ∧ Traps mrot s 0x10 0))

/-- R216, R217: MZERO of the rows from d on, as many as its field says or to the end of the tile, and MDRAIN of the rows
to the end of the tile with the bytes of each row as its page stores it, each row to be stored as the classes of its own
pages say (R315), are accepted and counted. R200, R218: MSTAT of
a tile that the thread may use gives its flags in [4:0], whether an operation on it is outstanding in [5], its element
size, its ungated banks, the format and K of the latch and its count of K-steps in [63:32]; with clr it zeroes flags and
count. That the operations counted in [5] take in the row loads and stores of the tile is the model's reading (DEDUCED,
log 68). -/
def Obligations.MatrixRowsAndStatus : Prop :=
  (∀ (s : State) (d : RowRef) (n : Option (BitVec 6)) (p : PReg), s.issuing →
    let x := s.me
    let c := s.myCore
    let k := match n with | some m => m.toNat + 1 | none => 64 - rowNum d
    let rows (k : Nat) := (List.range k).map fun i => rowOf (rowTile d) (rowNum d + i)
    let v := x.ptrs.get p
    let a : VA := v.extractLsb' 0 48
    let step := (v.extractLsb' 48 16).toInt
    (64 < rowNum d + k → Traps (.mzero d n) s 0x02 ((if n.isSome then s.opx1Addr else s.baseAddr).zeroExtend 64))
      ∧ (rowNum d + k ≤ 64 → (∀ r, r ∈ rows k → s.usable r) →
        (15 ≤ x.tiles → Parks (.mzero d n) s s)
          ∧ (x.tiles < 15 → Effect (.mzero d n) s (s.setMyCore { c with ops := c.ops ++ [{
              kind := .mzero, slot := s.cur, rows := rows k, born := s.nd, seq := none, since := s.hist.length }] })
              { x with tiles := x.tiles + 1, pc := s.nextPc }))
      ∧ ∀ (f : Part) (fs : List Part) (xs : List RowAccess) (bytes : Bytes), x.st.lh.getLsbD p.toNat = false →
        (∀ r, r ∈ rows (64 - rowNum d) → s.usable r) → x.stores < 15 → x.holding = false → x.drain = [] →
        s.access .write a 1 = .ok (f :: fs) →
        s.drainRows a step f.at_.fmt f.at_.geo 0 (rows (64 - rowNum d)) = .ok (xs, bytes) →
        let cs := xs.map fun r => partsClass r.parts
        Effect (.mdrain d (some p)) s (s.setMyCore { c with ops := c.ops ++ [{
            kind := .mdrain, slot := s.cur, rows := rows (64 - rowNum d), fmt := f.at_.fmt, geo := f.at_.geo, bytes := bytes,
            unord := cs.all (· == .unordered), acq := cs.contains .strong, va := a, step := step,
            lens := xs.map (·.all.length), rowCls := cs, via := viaOf s.space (xs.flatMap (·.parts)), born := s.nd, seq := none,
            since := s.hist.length }] })
          { x with stores := x.stores + 1, pc := s.nextPc,
                   ptrs := x.ptrs.set p (v.extractLsb' 48 16 ++ rowAddr a f.at_.fmt f.at_.geo (step * (64 - rowNum d : Nat))) })
  ∧ (∀ (s : State) (t : BitVec 2) (v : W64), s.issuing →
    let x := s.me
    let k := s.myCore.tile t
    let row0 : RowRef := t ++ 0#6
    let busy := s.myCore.ops.any fun o => o.rows.any fun r => rowTile r == t
    s.rowGated row0 = false → s.mayUse k = true →
    v.extractLsb' 0 5 = k.flags → v.getLsbD 5 = busy → v.extractLsb' 6 4 = 0#4 →
    v.extractLsb' 10 2 = (match k.size with | .e16 => 0#2 | .e32 => 1#2 | .e64 => 2#2) → v.extractLsb' 12 4 = k.banks →
    v.extractLsb' 16 4 = s.latchTag → v.extractLsb' 20 9 = BitVec.ofNat 9 s.myCore.latch.k → v.extractLsb' 29 3 = 0#3 →
    v.extractLsb' 32 32 = k.ks →
    Completes (.mstat t false) s { x with a := v, pc := s.nextPc }
      ∧ Effect (.mstat t true) s (s.setMyCore (s.myCore.setTile t { k with ks := 0, flags := 0 }))
        { x with a := v, pc := s.nextPc })

/-- R94: the I8 products: an accumulator of K-steps j0 to j0 + n − 1 gains the exact sum of the products of the
elements, modulo 2^32, and raises nothing. -/
def Obligations.IntegerProducts : Prop :=
∀ (a b : List Nat) (sa sb : List (BitVec 8)) (j0 n acc : Nat), 32 * (j0 + n) ≤ a.length → 32 * (j0 + n) ≤ b.length →
    let e (xs : List Nat) (i : Nat) : Int := (BitVec.ofNat 8 (xs.getD i 0)).toInt
    let sum := (List.range (32 * n)).foldl (fun t i => t + e a (32 * j0 + i) * e b (32 * j0 + i)) (acc : Int)
    0 < n → accumulate 1#4 32 (a, sa) (b, sb) (span j0 n) acc = ((BitVec.ofInt 32 sum).toNat, 0)

/-! ### Formes and candles -/

/-- R265, R271, R272: FNEW takes the lowest Free entry for size × 16 bytes from the address in A, puts its compose
handle into Pn and clears Z; with no Free entry it sets Z alone. FPRF puts a proof handle with cursor 0 for the forme of
another register into Pn. R274, R277, R278: FLOCK of a compose handle, once the thread's earlier accesses and the writes
that it has acquired have been performed, locks its forme up and empties the register; FDROP of a proof handle empties
the register; with retire, by a thread of the launch that owns a locked forme, it frees the entry as well, and its
generation rises; where other packages know the forme they are told. -/
def Obligations.FormeHandles : Prop :=
  (∀ (s : State) (p q : PReg) (size : BitVec 10) (ps : List Part), s.issuing →
    let x := s.me
    let n := 16 * (size.toNat + 1)
    let a : VA := x.a.extractLsb' 0 48
    let i := Instr.fnew p (some size)
    let kn := clusterOf s.here
    let k := s.cluster kn
    let base : VA := if inAlias a then 0xFF0000000000 + BitVec.ofNat 48 (cidx s.here * 0x80000 + aliasOff a) else a
    let held (v : W64) (st : Status) : Slot := { x with
      ptrs := x.ptrs.set p v, st := { st with lh := st.lh ||| (1#8 <<< p.toNat) }, phase := none, pc := s.nextPc }
    let v := x.ptrs.get q
    (x.st.lh.getLsbD p.toNat = true → Traps i s 0x07 0)
      ∧ (x.st.lh.getLsbD p.toNat = false → x.stage = true → Traps i s 0x1A (0x07#8 ++ 0#56))
      ∧ (x.st.lh.getLsbD p.toNat = false → x.stage = false → a.toNat % 256 ≠ 0 → Traps i s 0x06 (a.zeroExtend 64))
      ∧ (x.st.lh.getLsbD p.toNat = false → x.stage = false → a.toNat % 256 = 0 → s.access .write a n = .ok ps →
        (∀ r, r ∈ ps → keyIsUnbounded r.at_.key = false ∧ keyIsMbox r.at_.key = false) →
        ((∀ e, e < 256 → (k.forme e).state ≠ .free) → Completes i s { x with st := { x.st with z := true }, pc := s.nextPc })
          ∧ ∀ e, e < 256 → (k.forme e).state = .free → (∀ f, f < e → (k.forme f).state ≠ .free) →
            let h : W64 := 1#1 ++ 0x5A#7 ++ s.regs.pkgid ++ BitVec.ofNat 4 kn ++ (k.forme e).gen ++ BitVec.ofNat 8 e ++ 0#26
            Effect i s (s.setCluster kn (k.setForme e {
                state := .composing, gen := (k.forme e).gen, base := base, size := n, tenant := x.tenant,
                ownerDie := (s.launch x.launch).die, ownerSerial := x.serial, octet := octetOf s.here, root := x.tbase,
                holder := some (s.threadId s.cur) }))
              (held h { x.st with z := false }))
      ∧ (p = q → Traps (.fprf p (some q)) s 0x02 (s.opx1Addr.zeroExtend 64))
      ∧ (p ≠ q → x.st.lh.getLsbD q.toNat = true → x.st.lh.getLsbD p.toNat = false → s.formeLive v →
        Completes (.fprf p (some q)) s (held (0#1 ++ v.extractLsb' 14 49 ++ 0#14) x.st)))
  ∧ (∀ (s : State) (p : PReg), s.issuing →
    let x := s.me
    let h := x.ptrs.get p
    let e := s.formeOf h
    let dropped : Slot := { x with
      ptrs := x.ptrs.set p 0, st := { x.st with lh := x.st.lh &&& ~~~(1#8 <<< p.toNat) }, phase := none, pc := s.nextPc }
    x.st.lh.getLsbD p.toNat = true → x.phase = none →
    (isCompose h = true → x.holding = false → s.formeLive h → e.state = .composing →
        (s.lockReady = false → Parks (.flock p) s (s.setMe { x with phase := some 0 }))
          ∧ (s.lockReady = true → Effect (.flock p) s
            ((s.formeEvent (s.tableOf h) (handleEntry h) e .locked).setFormeOf h
              { e with state := .locked, holder := none, ina := false }) dropped))
      ∧ (isCompose h = false → Completes (.fdrop p) s dropped)
      ∧ (isCompose h = true → Traps (.fdrop p) s 0x07 0 ∧ Traps (.fdropRetire p) s 0x07 0)
      ∧ (isCompose h = false → x.holding = false → s.formeLive h → s.ownsForme h = true → e.state = .locked →
        Effect (.fdropRetire p) s ((s.formeEvent (s.tableOf h) (handleEntry h) e .freed).setFormeOf h
          { state := .free, gen := e.gen + 1 }) dropped)
      ∧ (isCompose h = false → x.holding = false → s.formeLive h → s.ownsForme h = false → Traps (.fdropRetire p) s 0x19 h))

/-- R273, R275: CST through a compose handle stores the low bytes of A, or a row, at the cursor; PLD through a proof handle
loads them once the forme is locked, and parks while it is being composed; the cursor moves on by the bytes moved. R276:
FSEND to an empty word of a scratchpad that no other waits to fill before it, once the thread's earlier accesses have been
performed at cluster scope, of class S at system scope (R315), stores the handle there, makes the word full, records the
transfer in the entry and empties the register, with V cleared; FTAKE of such a word, full and first waited for, takes the
handle, empties the word and makes the thread the holder. That the pointer of the word steps before the handle is installed,
where both are one register, is the model's choice (DEDUCED, log 88). -/
def Obligations.FormeAccessAndTransfer : Prop :=
  (∀ (s : State) (p : PReg) (ps : List Part), s.issuing →
    let x := s.me
    let h := x.ptrs.get p
    let o := orderOf (partsClass ps) MD.zero
    let moved (n : Nat) (y : Slot) : Slot := { y with
      ptrs := y.ptrs.set p (h.extractLsb' 14 50 ++ (h.extractLsb' 0 14 + BitVec.ofNat 14 n)),
      st := { y.st with lh := y.st.lh ||| (1#8 <<< p.toNat) }, phase := none, pc := s.nextPc }
    x.st.lh.getLsbD p.toNat = true → s.formeLive h →
    (∀ sel, isCompose h = true → s.storage h sel .write = .ok ps → x.holding = false → x.drain = [] →
        s.awaitRelease o.rel o.scope = .ok () →
        CompletesStore (.cst p sel) s (moved (selBytes sel) x) (partKeys ps) (match sel with
          | .scalar w => toBytes w.bytes x.a.toNat
          | .row r => toBytes 256 (s.row r).elems.toNat))
      ∧ (∀ sel, isCompose h = true → s.storage h sel .write = .ok ps → x.holding = true → x.pubq.length < 32 →
        Completes (.cst p sel) s (moved (selBytes sel) { x with pubq := x.pubq ++ [{
          level := x.st.cd.toNat - 1, strong := o.strong, scope := o.scope, born := s.nd, made := s.nd,
          vas := ps.map (fun q => (q.va.toNat, q.n)), via := viaOf { s.space with root := (s.formeOf h).root } ps,
          unord := partsClass ps == .unordered, bytes := zipBytes (partKeys ps) (match sel with
            | .scalar w => toBytes w.bytes x.a.toNat
            | .row r => toBytes 256 (s.row r).elems.toNat) }] }))
      ∧ (∀ sel, isCompose h = false → (s.formeOf h).state = .composing → Parks (.pld p sel) s (s.setMe { x with phase := some 0 }))
      ∧ (∀ w, isCompose h = false → (s.formeOf h).state = .locked → s.storage h (.scalar w) .read = .ok ps →
        s.awaitRelease o.rel o.scope = .ok () → ∃ r : BitVec w.bits,
          r = BitVec.ofNat w.bits (ofBytes (((s.acquired .system).orderPoint s.cur .system true).loadBytes ps o))
          ∧ Completes (.pld p (.scalar w)) s
            (moved w.bytes { x with a := r.signExtend 64, st := { x.st with n := r.msb, z := r == 0#w.bits } }))
      ∧ (∀ r, isCompose h = false → (s.formeOf h).state = .locked → s.storage h (.row r) .read = .ok ps →
        s.awaitRelease o.rel o.scope = .ok () → ∃ b, CompletesRow (.pld p (.row r)) s { moved 256 x with busy := b } r {
          tag := (match ps with | q :: _ => q.at_.fmt | [] => 0), scales := 0,
          elems := BitVec.ofNat 2048 (ofBytes (((s.acquired .system).orderPoint s.cur .system true).loadBytes ps o)) }))
  ∧ (∀ (s : State) (p : PReg) (o : MemOp) (ps : List Part) (k : Nat) (ks : List Nat), s.issuing →
    let x := s.me
    let a := s.ea o 8
    let h := x.ptrs.get p
    x.st.lh.getLsbD o.p.toNat = false → x.holding = false → partKeys ps = k :: ks → firstKey ps = k →
    keyIsPeer k = false → syncAddress a = true →
    (x.st.lh.getLsbD p.toNat = true → isCompose h = true → s.formeLive h → x.lan = .idle → x.drain = [] → x.phase = none →
        s.taggedWord o .write = .ok (a, ps) →
        let settled := s.settled false (if partsClass ps = .strong then .system else .cluster)
        (settled = false → Parks (.fsend p (some o)) s (s.setMe { x with phase := some 0 }))
          ∧ (settled = true → s.isFull k = true ∨ ¬s.firstAt k false →
            Parks (.fsend p (some o)) s ((s.waitsAt k false).setMe { x with phase := some 0 }))
          ∧ (settled = true → s.isFull k = false → s.firstAt k false → ∃ t b, exec (.fsend p (some o)) s = .next t
            ∧ t.me = { x with ptrs := (x.ptrs.set p 0).set o.p (steppedOf ((x.ptrs.set p 0).get o.p) x.xi.mask o.am 8),
                              st := { x.st with lh := x.st.lh &&& ~~~(1#8 <<< p.toNat), v := false }, phase := none,
                              pc := s.nextPc, busy := b }
            ∧ t.mem = setBytes s.mem (zipBytes (k :: ks) (toBytes 8 h.toNat)) ∧ t.isFull k = true
            ∧ t.formeOf h = { s.formeOf h with holder := none, xfr := true, target := k, ina := false }
            ∧ SameThreads s t ∧ SameRows s t))
      ∧ ∀ v : W64, x.st.lh.getLsbD p.toNat = false → x.stage = false → s.taggedWord o .read = .ok (a, ps) →
        let ord := orderOf (partsClass ps) MD.zero
        (s.isFull k = false ∨ ¬s.firstAt k true → Parks (.ftake p (some o)) s (s.waitsAt k true))
          ∧ (s.isFull k = true → s.firstAt k true → s.awaitRelease ord.rel ord.scope = .ok () →
            v = BitVec.ofNat 64 (ofBytes (s.loadBytes ps { ord with strong := true })) →
            (isHandle v = false ∨ isCompose v = false → Traps (.ftake p (some o)) s 0x19 v)
              ∧ (isHandle v = true → isCompose v = true → (x.st.cd = 0#3 ∨ handlePkg v = s.regs.pkgid.toNat) →
                let e := s.formeOf v
                e.state = .composing → e.xfr = true → e.target = k → e.gen = handleGen v →
                ∃ t b, exec (.ftake p (some o)) s = .next t
                  ∧ t.me = { x with ptrs := (x.ptrs.set o.p (steppedOf (x.ptrs.get o.p) x.xi.mask o.am 8)).set p v,
                                    st := { x.st with lh := x.st.lh ||| (1#8 <<< p.toNat) }, phase := none,
                                    pc := s.nextPc, busy := b }
                  ∧ t.isFull k = false
                  ∧ t.formeOf v = { e with holder := some (s.threadId s.cur), xfr := false, target := 0 }
                  ∧ SameMemory s t ∧ SameThreads s t ∧ SameRows s t)))

/-- R126, R132, R133: CANDLE of valid bounds, at full clock and with fewer than four candles open, opens a frame with
the present time, the bounds, and the two numbers that the record of its handler gives; it traps with cause 0x10
otherwise. -/
def Obligations.CandleOpen : Prop :=
∀ (s : State) (lo hi : BitVec 10) (off : W64) (ps qs : List Part), s.issuing →
    let x := s.me
    let i := Instr.candle (some lo) (some hi) off
    let ns (b : BitVec 10) : Nat := (b.extractLsb' 0 8).toNat
      * (if b.extractLsb' 8 2 = 0#2 then 1 else if b.extractLsb' 8 2 = 1#2 then 16 else if b.extractLsb' 8 2 = 2#2 then 256 else 4096)
    let rec_ : VA := s.nextPc + BitVec.ofNat 48 (off.toNat * 2)
    let o := orderOf (partsClass (ps ++ qs)) MD.zero
    let bs := s.loadBytes (ps ++ qs) o
    let hlo := ofBytes (bs.take 4)
    let hhi := ofBytes ((bs.drop 4).take 4)
    (s.candleHeldBack = true → Parks i s s)
      ∧ (s.candleHeldBack = false → s.myCore.clock ≠ .full ∨ x.st.cd = 4#3 ∨ ns hi = 0 ∨ ns hi < ns lo → Traps i s 0x10 0)
      ∧ (s.candleHeldBack = false → s.myCore.clock = .full → x.st.cd ≠ 4#3 → 0 < ns hi → ns lo ≤ ns hi →
        s.access .read rec_ 4 = .ok ps → s.access .read (rec_ + 4) 4 = .ok qs →
        s.candleClass ps (rec_.zeroExtend 64) = .ok () → s.candleClass qs ((rec_ + 4).zeroExtend 64) = .ok () →
        s.awaitRelease o.rel o.scope = .ok () →
        (hhi = 0 ∨ 1048575 < hhi ∨ hhi < hlo ∨ hlo % 16 ≠ 0 → Traps i s 0x10 (rec_.zeroExtend 64))
          ∧ (0 < hhi → hhi ≤ 1048575 → hlo ≤ hhi → hlo % 16 = 0 → Completes i s { x with
              st := { x.st with cd := x.st.cd + 1 }, pc := s.nextPc,
              frames := x.frames ++ [{ t0 := s.timeb, tlf := x.st.tl, hhi := BitVec.ofNat 20 hhi, hrec := rec_,
                                       hi := BitVec.ofNat 20 (ns hi), lo := BitVec.ofNat 20 (ns lo),
                                       hlo := BitVec.ofNat 16 (hlo / 16) }] }))

/-- R134 to R136: SNUFF waits for the low bound of the innermost candle; then it closes it, and the stores held pass to
the candle around it, or from the outermost on to be published. DOUSE closes it and drops the stores of its level. With
no candle of the thread's trap level open both trap with cause 0x10. R137, R138: TIME gives the time base, or the
opening time or the time left of the innermost candle; PACE waits until the time base reaches A plus its immediate. -/
def Obligations.CandleCloseAndTime : Prop :=
  (∀ (s : State) (f : Frame), s.issuing →
    let x := s.me
    let l := x.st.cd.toNat - 1
    let closed : Slot := { x with frames := x.frames.dropLast, st := { x.st with cd := x.st.cd - 1 }, pc := s.nextPc }
    let none_ := x.frames = [] ∨ x.st.cd = 0#3 ∨ (x.frames.getLast? = some f ∧ f.tlf ≠ x.st.tl)
    (none_ → Traps .snuff s 0x10 0 ∧ Traps .douse s 0x10 0)
      ∧ (x.frames.getLast? = some f → x.st.cd ≠ 0#3 → f.tlf = x.st.tl →
        (s.timeb.toNat < f.t0.toNat + f.lo.toNat → Parks .snuff s s)
          ∧ (f.t0.toNat + f.lo.toNat ≤ s.timeb.toNat → l = 0 → Completes .snuff s { closed with
              pubq := [], drain := x.drain ++ x.pubq.map fun h => { h with born := s.nd } })
          ∧ (f.t0.toNat + f.lo.toNat ≤ s.timeb.toNat → l ≠ 0 → Completes .snuff s { closed with
              pubq := x.pubq.map fun h => if l ≤ h.level then { h with level := l - 1 } else h })
          ∧ Completes .douse s { closed with pubq := x.pubq.filter fun h => h.level < l }))
  ∧ (∀ (s : State) (imm : W64), s.issuing →
    let x := s.me
    let gives (sel : TimeSel) (v : W64) : Prop := Completes (.time sel) s { x with a := v, pc := s.nextPc }
    gives .now s.timeb
      ∧ (∀ f, x.frames.getLast? = some f → gives .t0 f.t0 ∧ gives .rem (f.t0 + f.hi.zeroExtend 64 - s.timeb))
      ∧ (x.frames = [] → Traps (.time .t0) s 0x10 0 ∧ Traps (.time .rem) s 0x10 0)
      ∧ (s.timeb.toNat < (x.a + imm).toNat → Parks (.pace imm) s s)
      ∧ ((x.a + imm).toNat ≤ s.timeb.toNat → Completes (.pace imm) s { x with pc := s.nextPc }))

/-! ### Barriers, copies, memory order -/

/-- R246, R248, R249: BARM joins and leaves trees as A[15:0] says and gives the old memberships in A; it names only
trees granted to the launch, else it traps with cause 0x02, and it parks while the slot's arrival on a tree that it
would join or leave has not been released. R247, R248, R250, R251: ARRIVE of a member puts the slot among those that
have arrived, with A[0] to join the tree's OR when the arrival is signalled; a slot that is no member goes on; one whose
last arrival has not been released parks. BWAIT parks as long, and then gives the value of the last release in A, N and
Z. A tree that is not granted traps both. -/
def Obligations.Barriers : Prop :=
  (∀ (s : State), s.issuing →
    let x := s.me
    let kn := clusterOf s.here
    let tree (u : State) (b : Nat) : Tree := (u.cluster kn).tree b
    let m := s.cur % 3072
    let want (b : Nat) : Bool := x.a.getLsbD b
    let refused := ∃ b, b < 16 ∧ want b = true ∧ (tree s b).owner ≠ some x.launch
    let waits := ∃ b, b < 16 ∧ want b ≠ (tree s b).members.contains m ∧ m ∈ (tree s b).arrived
    (refused → Traps .barm s 0x02 (s.baseAddr.zeroExtend 64)) ∧ (¬refused → waits → Parks .barm s s)
      ∧ (¬refused → ¬waits → ∃ t old, exec .barm s = .next t ∧ t.me = { x with a := old, pc := s.nextPc } ∧ t.cur = s.cur
        ∧ (∀ b, b < 16 → old.getLsbD b = (tree s b).members.contains m) ∧ old.toNat < 65536
        ∧ (∀ b, b < 16 → ((tree t b).members.contains m = want b)
          ∧ (∀ q, q ≠ m → (q ∈ (tree t b).members ↔ q ∈ (tree s b).members))
          ∧ (tree t b).owner = (tree s b).owner ∧ (tree t b).arrived = (tree s b).arrived)
        ∧ (∀ k, k ≠ kn → t.cluster k = s.cluster k) ∧ (t.cluster kn).formes = (s.cluster kn).formes
        ∧ SameThreads s t ∧ SameMemory s t ∧ SameRows s t ∧ SameUnits s t ∧ SamePackage s t))
  ∧ (∀ (s : State) (b : BitVec 4), s.issuing →
    let x := s.me
    let kn := clusterOf s.here
    let t := (s.cluster kn).tree b.toNat
    let m := s.cur % 3072
    let v : W64 := if t.v then 1 else 0
    (t.owner ≠ some x.launch → Traps (.arrive b) s 0x02 (s.baseAddr.zeroExtend 64)
        ∧ Traps (.bwait b) s 0x02 (s.baseAddr.zeroExtend 64))
      ∧ (t.owner = some x.launch → m ∉ t.members → Completes (.arrive b) s { x with pc := s.nextPc })
      ∧ (t.owner = some x.launch → m ∈ t.members → m ∈ t.arrived → Parks (.arrive b) s s)
      ∧ (t.owner = some x.launch → m ∈ t.members → m ∉ t.arrived → x.replay = [] →
        Effect (.arrive b) s (s.setCluster kn ((s.cluster kn).setTree b.toNat
            { t with arrived := nput t.arrived m,
                     awaits := t.awaits ++ [{ slot := s.cur, uid := x.uid, born := s.nd, bit := x.a.getLsbD 0 }] }))
          { x with pc := s.nextPc })
      ∧ (t.owner = some x.launch → m ∈ t.arrived → Parks (.bwait b) s s)
      ∧ (t.owner = some x.launch → m ∉ t.arrived → Completes (.bwait b) s { x with
          a := v, st := { x.st with n := false, z := !t.v }, pc := s.nextPc }))

/-- R255 to R257: COPY of a valid descriptor puts its command at the end of the channel's queue, counts it, and gives
the ticket of its end in A with the octet's number in [52:48]; it parks while the queue holds 8 commands or the thread
has 4 copies outstanding. R255, R260: WPTR gives the octet's number and the write pointer of its channel in A; CWAIT
waits until the pointer has reached the ticket in A[47:0], and tells in V whether a killed copy took it past. An octet
number of 24 and above traps with cause 0x02, an octet that the mask of the own one does not permit with 0x1C. That the
command in progress counts among the 8 is the model's choice (DESIGN CHOICE, log 104). -/
def Obligations.Copies : Prop :=
  (∀ (s : State) (p : PReg) (c : BitVec 2) (ps srcs : List Part) (dsts : List (List Part)) (bs : List (BitVec 8)) (s1 : State),
    s.issuing →
    let x := s.me
    let a : VA := (x.ptrs.get p).extractLsb' 0 48
    let f (off n : Nat) : Nat := ofBytes ((bs.drop off).take n)
    let n := f 0x10 4
    let targets : List VA := if f 0x14 1 % 2 = 1
      then ((List.range 192).filter fun k => (f 0x18 24).testBit k).map fun k =>
        0xFF0000000000 + BitVec.ofNat 48 (k * 0x80000 + f 8 8)
      else [BitVec.ofNat 48 (f 8 8)]
    let o := s.octet (octetOf s.here)
    let ch := o.chan c.toNat
    let e := ch.last + BitVec.ofNat 48 n
    let cmd : CopyCmd := {
      owner := { launch := x.launch, uid := x.uid }, core := s.here, slot := s.cur, born := s.nd, seq := none,
      via := viaOf s.space (srcs ++ dsts.flatten), src := partKeys srcs, srcCls := partClasses srcs, dst := dsts.map partKeys,
      dstCls := dsts.map partClasses, align := f 8 8 % 64, stop := e }
    x.st.lh.getLsbD p.toNat = false → a.toNat % 64 = 0 → x.holding = false → s.access .read a 64 = .ok ps →
    s.candleClass ps (a.zeroExtend 64) = .ok () → s.readBlock ps = .ok (bs, s1) →
    (∀ off, badCopy bs = some off → Traps (.copy p c) s 0x02 ((a + BitVec.ofNat 48 off).zeroExtend 64))
      ∧ (badCopy bs = none → s.judgedParts .read (n / 4096 + 2) (BitVec.ofNat 48 (f 0 8)) n = .ok srcs →
        s.copyDests n targets = .ok dsts →
        (8 ≤ ch.queue.length → Parks (.copy p c) s s)
          ∧ (ch.queue.length < 8 → x.replay = [] → 4 ≤ x.copies → Parks (.copy p c) s s)
          ∧ (ch.queue.length < 8 → x.replay = [] → x.copies < 4 →
            Effect (.copy p c) s (s.setOctet (octetOf s.here) (o.setChan c.toNat { ch with queue := ch.queue ++ [cmd], last := e }))
              { x with copies := x.copies + 1, a := BitVec.ofNat 16 (octetOf s.here % 24) ++ e, pc := s.nextPc })))
  ∧ (∀ (s : State) (c : BitVec 2), s.issuing →
    let x := s.me
    let o := (x.a.extractLsb' 48 5).toNat
    let q := 24 * clusterOf s.here + o
    let ch := (s.octet q).chan c.toNat
    let ticket := x.a.extractLsb' 0 48
    let permitted := q = octetOf s.here ∨ s.permits (octetOf s.here) q = true
    let badv : W64 := BitVec.ofNat 64 (0xFFC000000000 + o * 0x1000 + 0x100 + 8 * c.toNat)
    let both (p : Instr → Prop) : Prop := p (.wptr c) ∧ p (.cwait c)
    (24 ≤ o → both fun i => Traps i s 0x02 (s.baseAddr.zeroExtend 64))
      ∧ (o < 24 → ¬permitted → both fun i => Traps i s 0x1C badv)
      ∧ (o < 24 → permitted → Completes (.wptr c) s { x with a := BitVec.ofNat 16 o ++ ch.wp, pc := s.nextPc })
      ∧ (o < 24 → permitted → 2 ^ 47 ≤ (ch.wp - ticket).toNat → Parks (.cwait c) s s)
      ∧ (o < 24 → permitted → (ch.wp - ticket).toNat < 2 ^ 47 → Completes (.cwait c) s { x with
          st := { x.st with v := (ch.dt - ticket).toNat < 2 ^ 47 && (ticket - ch.dp - 1).toNat < 2 ^ 47 }, pc := s.nextPc }))

/-- R325, R336, R337: WBACK of cached memory is accepted as a store of its line at its scope, by default system; of
other memory it does nothing. DISCARD changes no byte where the own cache holds no dirty copy of the line or other
caches hold copies; of a line dirty in the own cache alone it leaves the bytes of the next level, or keeps them, since the
line may have been written back before: the model's reading (R337; DEDUCED, log 24). FENCE waits until the loads and stores
counted and every earlier access have been performed at its scope, below system scope but for those to peers (R415). -/
def Obligations.LinesAndFences : Prop :=
∀ (s : State) (p : PReg) (sc : Option Scope) (ps : List Part) (k : Nat) (ks : List Nat), s.issuing →
    let x := s.me
    let c := s.myCore
    let line : VA := (x.ptrs.get p).extractLsb' 0 48 &&& ~~~0x3F#48
    let cached := (k :: ks).all keyIsCached
    let alone (r : L1Line) : Prop := r.heldBy (s.cacheOf s.here) = true ∧ r.isDirty = true
      ∧ ∀ q, q ∈ r.copies → q.cache = s.cacheOf s.here
    (x.st.lh.getLsbD p.toNat = false → x.holding = false → partKeys ps = k :: ks →
      s.candleClass ps (line.zeroExtend 64) = .ok () → x.drain = [] →
      (s.access .read line 64 = .ok ps →
        (cached = false → Completes (.wback p sc) s { x with pc := s.nextPc })
          ∧ (cached = true → 15 ≤ x.stores → Parks (.wback p sc) s s)
          ∧ (cached = true → x.stores < 15 → Effect (.wback p sc) s (s.setMyCore { c with ops := c.ops ++ [{
              kind := .wback, slot := s.cur, src := k :: ks, scope := sc.getD .system, born := s.nd, seq := none,
              since := s.hist.length, via := viaOf s.space ps }] })
              { x with stores := x.stores + 1, pc := s.nextPc }))
        ∧ (s.access .write line 64 = .ok ps → cached = false ∨ (∀ r, s.lineEntry (lineOf k) = some r → ¬alone r) →
          Completes (.discard p) s { x with pc := s.nextPc })
        ∧ (∀ r, s.access .write line 64 = .ok ps → cached = true → s.lineEntry (lineOf k) = some r → alone r →
          ∃ t b, exec (.discard p) s = .next t ∧ t.me = { x with pc := s.nextPc, busy := b }
            ∧ (t.mem = s.mem ∨ t.mem = setBytes s.mem r.below) ∧ SameThreads s t ∧ SameRows s t ∧ SameUnits s t))
      ∧ ∀ f : Scope,
        let peers (kind : EngKind → Bool) : Nat := if f = .system then 0 else
          (c.ops.filter fun o => o.slot == s.cur && o.seq.isNone && kind o.kind && o.toPeer).length
        let done := x.loads = peers EngKind.isLoad ∧ x.stores = peers EngKind.isStore ∧ s.settled true f = true
        (¬done → Parks (.fence f) s s) ∧ (done → Completes (.fence f) s { x with pc := s.nextPc })

/-- R329, R331, R332: an integer atomic gives the old value in A, N and Z, and writes the new one in the same step: the
sum, the bits, the smaller or larger, or the low bits of A. R329, R330, R332: AMOCAS writes its second operand where the
old value equals the low bits of A, and tells so in Z; AFADD, AFMIN and AFMAX write the rounded sum, the smaller or
larger, keep the exceptions without a trap, and give the old value zero-extended. Of memory outside the package that this
package has not written the old value is open (DEDUCED, log 63). -/
def Obligations.Atomics : Prop :=
  (∀ (s : State) (w : LongWidth) (o : MemOp) (md : MD) (ps : List Part), s.issuing →
    let n := w.width.bits
    let x := s.me
    let e := s.ea o w.width.bytes
    let ord := atomicOrder (partsClass ps) md
    let keys := partKeys ps
    let old := BitVec.ofNat n (ofBytes (keys.map s.content))
    let a := BitVec.ofNat n x.a.toNat
    x.st.lh.getLsbD o.p.toNat = false → e.toNat % w.width.bytes = 0 → s.access .atomic e w.width.bytes = .ok ps →
    (∀ k, k ∈ keys → keyIsMbox k = false) → keys.length = w.width.bytes → x.holding = false →
        s.candleClass ps (e.zeroExtend 64) = .ok () → x.replay = [] →
    s.awaitRelease ord.rel ord.scope = .ok () → x.drain = [] →
    let runs (i : Instr) (new : BitVec n) : Prop :=
      CompletesStore i s { x with a := old.signExtend 64, st := x.st.flagsOf old,
                                  ptrs := s.steppedPtrs o w.width.bytes, pc := s.nextPc } keys (toBytes w.width.bytes new.toNat)
    runs (.amoadd w o md) (old + a) ∧ runs (.amoand w o md) (old &&& a) ∧ runs (.amoor w o md) (old ||| a)
      ∧ runs (.amoxor w o md) (old ^^^ a) ∧ runs (.amoswap w o md) a
      ∧ runs (.amomin w o md) (if old.toInt ≤ a.toInt then old else a)
      ∧ runs (.amomax w o md) (if old.toInt ≤ a.toInt then a else old)
      ∧ runs (.amominu w o md) (if old.toNat ≤ a.toNat then old else a)
      ∧ runs (.amomaxu w o md) (if old.toNat ≤ a.toNat then a else old))
  ∧ (∀ (s : State) (w : LongWidth) (o q : MemOp) (md : MD) (ps qs : List Part) (y : Nat) (s1 : State), s.issuing →
    let nb := w.width.bytes
    let n := w.width.bits
    let x := s.me
    let e := s.ea o nb
    let ord := atomicOrder (partsClass ps) md
    let keys := partKeys ps
    let old := ofBytes (keys.map s.content)
    let a := x.a.toNat % 2 ^ n
    let k := longFmt w
    x.st.lh.getLsbD o.p.toNat = false → e.toNat % nb = 0 → s.access .atomic e nb = .ok ps →
        (∀ k, k ∈ keys → keyIsMbox k = false) → keys.length = nb →
    x.holding = false → s.candleClass ps (e.zeroExtend 64) = .ok () → x.replay = [] →
    s.awaitRelease ord.rel ord.scope = .ok () → x.drain = [] →
    (let runs (i : Instr) (r : Nat × Flags) : Prop :=
        CompletesStore i s { x with a := zext64 n old, st := { x.st with fl := x.st.fl ||| r.2 },
                                    ptrs := s.steppedPtrs o nb, pc := s.nextPc } keys (toBytes nb r.1)
     runs (.afadd w o md) (addF k (s.mode md.rnd) (unpackF k old) (unpackF k a))
        ∧ runs (.afmin w o md) (minmaxF k false old a) ∧ runs (.afmax w o md) (minmaxF k true old a))
      ∧ (x.st.lh.getLsbD q.p.toNat = false → s.access .read (s.ea q nb) nb = .ok qs →
        s.candleClass qs ((s.ea q nb).zeroExtend 64) = .ok () →
        s.loadOperand { ea := s.ea q nb, parts := qs } MD.zero = .ok (y, s1) →
        let old := ofBytes (keys.map s1.content)
        let ptrs := s.steppedPtrs o nb
        let after (z : Bool) : Slot := { x with
          a := sext64 n old, st := { x.st with z := z }, pc := s.nextPc,
          ptrs := ptrs.set q.p (steppedOf (ptrs.get q.p) x.xi.mask q.am nb) }
        (old = a → CompletesStore (.amocas w o (some q) md) s (after true) keys (toBytes nb y))
          ∧ (old ≠ a → Completes (.amocas w o (some q) md) s (after false))))

/-- R333 to R335: LDFUT of a DRAM word loads its value once it differs from the low bits of A; while it is equal the
thread waits, with an entry in the park table of the word's die where one is free, else until its next try 1 µs of the time
base later (R432).
STFUT stores and wakes the waiters of the word. -/
def Obligations.Futures : Prop :=
∀ (s : State) (w : LongWidth) (o : MemOp) (md : MD) (ps : List Part), s.issuing →
    let nb := w.width.bytes
    let n := w.width.bits
    let x := s.me
    let word := futureWord ps
    let die := wordDie word
    let ld := s.futureOrder (partsClass ps) md false
    let st := s.futureOrder (partsClass ps) md true
    let v := ofBytes (s.loadBytes ps ld)
    let r := BitVec.ofNat n v
    x.replay = [] →
    (s.futureOperand o nb .read = .ok (s.ea o nb, ps) → (∀ q, q ∈ s.waiters → q.slot ≠ s.cur) →
      (∀ due, x.retry = some due → due ≤ s.timeb.toNat) → s.awaitRelease ld.rel ld.scope = .ok () →
      (v ≠ x.a.toNat % 2 ^ n → Completes (.ldfut w o md) s { x with
          retry := none, a := r.signExtend 64, st := x.st.flagsOf r, ptrs := s.steppedPtrs o nb, pc := s.nextPc })
        ∧ (v = x.a.toNat % 2 ^ n → (s.waiters.filter fun q => q.die == die).length < 4096 →
          Effect (.ldfut w o md) s { s with waiters := s.waiters ++ [{ die := die, word := word, slot := s.cur }] }
            { x with retry := none, park := some (.ldfut w o md, s.chain) })
        ∧ (v = x.a.toNat % 2 ^ n → 4096 ≤ (s.waiters.filter fun q => q.die == die).length →
          Completes (.ldfut w o md) s { x with retry := some (s.timeb.toNat + 1000), park := some (.ldfut w o md, s.chain) }))
      ∧ (s.futureOperand o nb .write = .ok (s.ea o nb, ps) → s.awaitRelease st.rel st.scope = .ok () → x.drain = [] →
        ∃ t b, exec (.stfut w o md) s = .next t
          ∧ t.me = { x with wake := some word, ptrs := s.steppedPtrs o nb, pc := s.nextPc, busy := b }
          ∧ t.mem = setBytes s.mem (zipBytes (partKeys ps) (toBytes nb x.a.toNat))
          ∧ t.waiters = s.waiters.filter (fun q => q.word != word) ∧ SameThreads s t ∧ SameRows s t ∧ SameUnits s t)

/-! ### Lanthorn and galleys -/

/-- R435 to R438, R439: LPOST of a member of a group, of a tenant with a log, sends its event once the earlier accesses
have been performed and the order port has room (R427), and gives the event's number in A when it has been applied;
LWAIT waits until the log has reached A; LSEQ gives how far the log has got. A package that is no member and a tenant
without a log trap with cause 0x1B. -/
def Obligations.LanthornLog : Prop :=
∀ (s : State) (p : PReg) (ps : List Part) (bs : List (BitVec 8)) (s1 : State), s.issuing →
    let x := s.me
    let a : VA := (x.ptrs.get p).extractLsb' 0 48
    let member := s.lan.lstat = .member
    let log := (s.lan.logSize x.tenant).isSome = true
    let applied := aget 0 s.lan.lapp x.tenant.toNat
    let f (off n : Nat) : Nat := ofBytes ((bs.drop off).take n)
    let body := OrderBody.post x.tenant (BitVec.ofNat 16 (f 8 2)) (BitVec.ofNat 384 (f 16 48))
    (¬member → Traps .lwait s 0x1B (0x01#8 ++ 0#56) ∧ Traps .lseq s 0x1B (0x01#8 ++ 0#56))
      ∧ (member → ¬log → Traps .lwait s 0x1B (0x02#8 ++ BitVec.ofNat 56 x.tenant.toNat)
        ∧ Traps .lseq s 0x1B (0x02#8 ++ BitVec.ofNat 56 x.tenant.toNat))
      ∧ (member → log → Completes .lseq s { x with a := applied, pc := s.nextPc })
      ∧ (member → log → applied.toNat < x.a.toNat → Parks .lwait s s)
      ∧ (member → log → x.a.toNat ≤ applied.toNat → Completes .lwait s { x with pc := s.nextPc })
      ∧ (∀ v, x.lan = .done v → Completes (.lpost p) s { x with lan := .idle, a := v, pc := s.nextPc })
      ∧ (member → log → x.lan = .idle → s.lanBlock p = .ok (a, ps) → s.readBlock ps = .ok (bs, s1) →
        (f 0 8 ≠ 0 ∨ f 10 6 ≠ 0 → Traps (.lpost p) s 0x1B (0x06#8 ++ BitVec.ofNat 56 a.toNat))
          ∧ (f 0 8 = 0 → f 10 6 = 0 → s1.settled false .system = false ∨ 32 ≤ s.lan.oq.length → Parks (.lpost p) s s1)
          ∧ (f 0 8 = 0 → f 10 6 = 0 → s1.settled false .system = true → s.lan.oq.length < 32 → ∃ t, exec (.lpost p) s = .next t
            ∧ t.me = { x with lan := .queued, park := some (.lpost p, s.chain) }
            ∧ t.lan = { s.lan with oq := s.lan.oq ++ [{ slot := some s.cur, body := body }] }
            ∧ SameThreads s t ∧ SameMemory s t ∧ SameRows s t ∧ SameUnits s t))

/-- R435, R437, R440: LCAST to an open plane of the tenant puts the bytes that its block names into the plane's queue,
which holds 32 requests (R427), and completes once they have been applied; a plane that is not open traps with cause
0x1B and reason 0x05. R430, R435, R437, R441: LBRED sends its contribution, and once every member has contributed to its
round writes the result at its destination and keeps the exceptions; a round that has lost a member traps with cause
0x1B and reason 0x07. That its destination is translated before the contribution is sent, and that of its block no bits but
those the rule lists are checked, is the model's reading (DEDUCED, log 50); so is that a contribution of an LBRED whose park
was cut off is taken up again by one at its PC with its block (DEDUCED, log 112). -/
def Obligations.LanthornBulkAndReduce : Prop :=
  (∀ (s : State) (p : PReg) (n : BitVec 5) (ps qs : List Part) (bs data : List (BitVec 8)) (s1 s2 : State), s.issuing →
    let x := s.me
    let a : VA := (x.ptrs.get p).extractLsb' 0 48
    let i := Instr.lcast p (some n)
    let f (off k : Nat) : Nat := ofBytes ((bs.drop off).take k)
    let src : VA := BitVec.ofNat 48 (f 0 6)
    let bad := f 6 2 ≠ 0 ∨ f 16 48 ≠ 0 ∨ f 8 4 = 0 ∨ 4096 < f 8 4 ∨ f 12 4 % 64 ≠ 0 ∨ 65536 < f 12 4 + f 8 4
    let queue := aget [] s.lan.bq n.toNat
    (∀ v, x.lan = .done v → Completes i s { x with lan := .idle, pc := s.nextPc })
      ∧ (x.lan = .idle → s.lanBlock p = .ok (a, ps) → s.lan.lstat = .member →
        (s.lan.planeOpen n.toNat x.tenant = false → Traps i s 0x1B (0x05#8 ++ BitVec.ofNat 56 n.toNat))
          ∧ (s.lan.planeOpen n.toNat x.tenant = true → s.readBlock ps = .ok (bs, s1) →
            (bad → Traps i s 0x1B (0x06#8 ++ BitVec.ofNat 56 a.toNat))
              ∧ (¬bad → s1.judgedParts .read (f 8 4 / 4096 + 2) src (f 8 4) = .ok qs →
                s1.readBlock qs = .ok (data, s2) →
                if s2.settled false .system = false ∨ 32 ≤ queue.length then Parks i s s2 else ∃ t, exec i s = .next t
                  ∧ t.me = { x with lan := .queued, park := some (i, s.chain) }
                  ∧ t.lan = { s.lan with bq := aset [] s.lan.bq n.toNat (queue ++ [{
                      slot := s.cur, tenant := x.tenant, body := { off := f 12 4, bytes := data } }]) }
                  ∧ SameThreads s t ∧ SameMemory s t ∧ SameRows s t ∧ SameUnits s t))))
  ∧ (∀ (s : State) (p : PReg) (ps qs : List Part) (bs : List (BitVec 8)) (s1 : State) (id : BitVec 16) (dst : VA) (n : Nat),
    s.issuing →
    let x := s.me
    let a : VA := (x.ptrs.get p).extractLsb' 0 48
    let i := Instr.lbred p
    let f (off k : Nat) : Nat := ofBytes ((bs.drop off).take k)
    let ty : BitVec 4 := BitVec.ofNat 4 (f 15 1)
    let bad := f 6 2 ≠ 0 ∨ f 0 1 % 64 ≠ 0 ∨ (ty ≠ 3 ∧ ty ≠ 4 ∧ ty ≠ 7 ∧ ty ≠ 8)
    let dest : VA := BitVec.ofNat 48 (f 0 6)
    let body := OrderBody.reduce x.tenant (BitVec.ofNat 16 (f 8 2)) ty (BitVec.ofNat 384 (f 16 48))
    let result := s.roundResult (s.lan.roundOf x.tenant id n)
    let lost : Prop := exec i s = .next ((s.setMe { x with lred := none }).takeTrap s.cur x.pc s.chain.len
      { code := 0x1B, badv := 0x07#8 ++ BitVec.ofNat 56 id.toNat })
    (x.lred = none → (∀ r, r ∈ x.lkept → r.pc ≠ x.pc ∨ r.block ≠ a) → s.lanBlock p = .ok (a, ps) → s.lan.lstat = .member → s.readBlock ps = .ok (bs, s1) →
        (bad → Traps i s 0x1B (0x06#8 ++ BitVec.ofNat 56 a.toNat))
          ∧ (¬bad → s1.access .write dest 48 = .ok qs → s1.candleClass qs (dest.zeroExtend 64) = .ok () →
            if s1.settled false .system = false ∨ 32 ≤ s.lan.oq.length then Parks i s s1 else ∃ t, exec i s = .next t
              ∧ t.me = { x with lan := .queued, lred := some { id := BitVec.ofNat 16 (f 8 2), dst := dest, pc := x.pc, block := a },
                                park := some (i, s.chain) }
              ∧ t.lan = { s.lan with oq := s.lan.oq ++ [{ slot := some s.cur, body := body }] }
              ∧ SameThreads s t ∧ SameMemory s t ∧ SameRows s t ∧ SameUnits s t))
      ∧ (∀ pc block, x.lred = some { round := some n, id := id, dst := dst, pc := pc, block := block } →
        (s.lan.lostRounds.contains (x.tenant, id, n) = true → lost)
          ∧ (s.lan.lostRounds.contains (x.tenant, id, n) = false → s.lan.roundComplete x.tenant id n = false → Parks i s s)
          ∧ (s.lan.lostRounds.contains (x.tenant, id, n) = false → s.lan.roundComplete x.tenant id n = true → x.drain = [] →
            s.access .write dst 48 = .ok qs → s.candleClass qs (dst.zeroExtend 64) = .ok () → ∃ t b, exec i s = .next t
              ∧ t.me = { x with lred := none, st := { x.st with fl := x.st.fl ||| result.2 }, pc := s.nextPc, busy := b }
              ∧ t.mem = setBytes s.mem (zipBytes (partKeys qs) result.1) ∧ SameThreads s t ∧ SameRows s t ∧ SameUnits s t)))

/-- R363, R373, R374: GBIND of a valid descriptor, by a thread that is no stage thread, binds the tag once for the
launch and gives each home an entry of its core's store, with Z cleared; with a full store at a home it sets Z and binds
nothing; an invalid descriptor and a tag already bound are galley faults. R362, R364, R373, R375: GEMIT of a slug of a
bound tag sends it to the home of its key, once the thread's earlier accesses have been performed at die scope, and
waits there; a stage thread emits only tags above its own and times not before its slug's, any other thread only times
not yet closed. That a GEMIT or GCLOSE counts as the launch's first when it has completed or while it waits is the model's
reading (DEDUCED, log 111). -/
def Obligations.GalleyStages : Prop :=
  (∀ (s : State) (p : PReg) (ps : List Part) (bs : List (BitVec 8)) (s1 : State) (regions : List (List Part)), s.issuing →
    let x := s.me
    let a : VA := (x.ptrs.get p).extractLsb' 0 48
    let b := bindingOf x.launch bs
    let homes := (List.range b.homes).map fun i => 768 * dieOf s.here + b.d0 + i
    let bad := badDescriptor bs = true ∨ 768 < b.d0 + b.homes
      ∨ ∃ c, c ∈ homes ∧ octetOf c ≠ octetOf s.here ∧ s.permits (octetOf s.here) (octetOf c) = false
    let taken := (s.binding x.launch b.tag).isSome = true ∨ s.hasIssued x.launch = true
    s.galleyBlock p 64 64 .read false = .ok (a, ps) → s.readBlock ps = .ok (bs, s1) →
    (x.stage = true → Traps (.gbind p) s 0x1A (0x07#8 ++ 0#56))
      ∧ (x.stage = false → bad → Traps (.gbind p) s 0x1A (0x01#8 ++ BitVec.ofNat 56 a.toNat))
      ∧ (x.stage = false → ¬bad → taken → Traps (.gbind p) s 0x1A (0x02#8 ++ BitVec.ofNat 56 b.tag.toNat))
      ∧ (x.stage = false → ¬bad → ¬taken → s.accessAll .write b.regions = .ok regions →
        ((∃ c, c ∈ homes ∧ 16 ≤ (s.core c).stages.length) →
          Completes (.gbind p) s { x with st := { x.st with z := true }, pc := s.nextPc })
          ∧ ((∀ c, c ∈ homes → (s.core c).stages.length < 16) → ∃ t u, exec (.gbind p) s = .next t
            ∧ t.me = { x with st := { x.st with z := false }, pc := s.nextPc, busy := u }
            ∧ t.bindings = s.bindings ++ [{ b with extents := (regions.headD []).map fun q => (q.at_.key, q.n) }]
            ∧ (∀ c, (t.core c).stages =
                if c ∈ homes then (s.core c).stages ++ [{ launch := b.launch, tag := b.tag }] else (s.core c).stages)
            ∧ SameThreads s t ∧ SameMemory s t ∧ SameRows s t ∧ SameTiles s t ∧ SamePackage s t)))
  ∧ (∀ (s : State) (p : PReg) (ps : List Part) (bs : List (BitVec 8)) (s1 : State) (b : Binding), s.issuing →
    let x := s.me
    let a : VA := (x.ptrs.get p).extractLsb' 0 48
    let v := slugOf bs
    let home := 768 * (s.launch x.launch).die + b.d0 + ((v.key * 0x5A3C96E14B27D0F3).toNat / 2 ^ 32 * b.homes) / 2 ^ 32
    let least := if x.stage then (match x.slug with | some y => y.time.toNat | none => 0) else x.sealT
    let fault (r : BitVec 8) (d : Nat) : Prop := Traps (.gemit p) s 0x1A (r ++ BitVec.ofNat 56 d)
    let bad := v.wt = 0 ∨ ofBytes ((bs.drop 26).take 2) ≠ 0 ∨ ofBytes ((bs.drop 28).take 4) ≠ 0
    (∀ f, f ∈ s.flights → f.slot ≠ s.cur) → s.galleyBlock p 32 32 .read true = .ok (a, ps) → s.readBlock ps = .ok (bs, s1) →
    (bad → fault 0x03 a.toNat) ∧ (¬bad → s.binding x.launch v.tag = none → fault 0x04 v.tag.toNat)
      ∧ (¬bad → s.binding x.launch v.tag = some b →
        (x.stage = true → v.tag ≤ x.stag → fault 0x05 v.tag.toNat)
          ∧ ((x.stage = true → x.stag < v.tag) → v.time.toNat < least → fault 0x06 v.time.toNat)
          ∧ ((x.stage = true → x.stag < v.tag) → least ≤ v.time.toNat → s.settled false .die = true →
            ∃ t, exec (.gemit p) s = .next t ∧ t.me = { x with park := some (.gemit p, s.chain) }
              ∧ t.flights = s.flights ++ [{ launch := x.launch, slug := v, slot := s.cur, home := home }]
              ∧ t.launches = s.launches ∧ SameThreads s t ∧ SameMemory s t ∧ SameRows s t ∧ SameUnits s t)))

/-- R365, R372, R377: CASEADD, at the home of its key by a stage thread of the tag, adds its weight to the record of
that identity: a record whose weight becomes 0 goes, a new one comes where the partition has room. R378, R379, R381:
CASEGET gives in A the sum of the weights that it observes under its key at times not after its own, with N and Z;
CASENXT stores the next record that it observes in the order of home, key, value and time at Pn and clears Z, a 33rd
held store trapping with cause 0x12 (R130), or sets Z where there is none. R380, R381: GCLOSE seals the times up to
A[31:0] for its thread and waits until every stage of the launch has closed them, and a galley fault while it waits leaves
the seal as it was (R373); GFRONT gives the front of the tag in A; a broken tag makes both galley faults. -/
def Obligations.GalleyCases : Prop :=
  (∀ (s : State) (p : PReg) (ps : List Part) (bs : List (BitVec 8)) (s1 : State) (b : Binding), s.issuing →
    let x := s.me
    let a : VA := (x.ptrs.get p).extractLsb' 0 48
    let v := slugOf bs
    let i := homeIndex v.key b.homes
    let same (r : Nat × Slug) : Bool := r.1 == i && sameSlug r.2 { v with tag := b.tag }
    let old : Int := match b.cases.find? same with | some r => r.2.wt.toInt | none => 0
    let sum := old + v.wt.toInt
    let full := b.cases.find? same = none ∧ b.csz / 32 - 2 ≤ (b.cases.filter fun r => r.1 == i).length
    let outside := sum < -2147483648 ∨ 2147483647 < sum
    let others := b.cases.filter fun r => !same r
    let fault (r : BitVec 8) (d : Nat) : Prop := Traps (.caseadd p) s 0x1A (r ++ BitVec.ofNat 56 d)
    s.galleyBlock p 32 32 .read true = .ok (a, ps) → s.readBlock ps = .ok (bs, s1) → s.binding x.launch v.tag = some b →
    (x.stage = false ∨ x.stag ≠ v.tag ∨ s.homeCore b i ≠ s.here → fault 0x07 0)
      ∧ (x.stage = true → x.stag = v.tag → s.homeCore b i = s.here → v.wt = 0 → fault 0x03 a.toNat)
      ∧ (x.stage = true → x.stag = v.tag → s.homeCore b i = s.here → v.wt ≠ 0 → i ∉ b.spoilt →
        s.caseAccess b .rmw [i] = .ok .done →
        (outside → fault 0x09 a.toNat)
          ∧ (¬outside → full → fault 0x08 (b.caseVa + BitVec.ofNat 48 (i * b.csz)).toNat)
          ∧ (¬outside → ¬full → ∃ t u, exec (.caseadd p) s = .next t ∧ t.me = { x with pc := s.nextPc, busy := u }
            ∧ (∃ c, t.binding x.launch v.tag = some c ∧ c.front = b.front ∧ c.broken = b.broken ∧ c.cases =
                if sum = 0 then others else others ++ [(i, { v with tag := b.tag, wt := BitVec.ofInt 32 sum, merged := false })])
            ∧ SameThreads s t ∧ SameMemory s t ∧ SameRows s t ∧ SameUnits s t ∧ SamePackage s t)))
  ∧ (∀ (s : State) (p : PReg) (val : Bool) (ps qs : List Part) (bs cs : List (BitVec 8)) (s1 s2 : State) (b : Binding), s.issuing →
    let x := s.me
    let a : VA := (x.ptrs.get p).extractLsb' 0 48
    (let v := slugOf bs
     let i := homeIndex v.key b.homes
     let hit (r : Nat × Slug) : Bool := r.1 == i && r.2.key == v.key && r.2.time ≤ v.time && (!val || r.2.val == v.val)
     let sum : Int := ((s.caseView b).filter hit).foldl (fun n r => n + r.2.wt.toInt) 0
     let w := BitVec.ofInt 64 sum
     s.galleyBlock p 32 32 .read false = .ok (a, ps) → s.readBlock ps = .ok (bs, s1) → s.binding x.launch v.tag = some b →
     (b.csz = 0 → Traps (.caseget p val) s 0x1A (0x04#8 ++ BitVec.ofNat 56 v.tag.toNat))
       ∧ (b.csz ≠ 0 → i ∉ b.spoilt → s.caseAccess b .read [i] = .ok .done →
         Completes (.caseget p val) s { x with a := w, st := x.st.flagsOf w, pc := s.nextPc }))
      ∧ ∀ first : Bool,
        let v := slugOf cs
        let h := homeIndex v.key b.homes
        let start := if first then 0 else h
        let found := (caseOrder (s.caseView b)).find? fun r => first || h < r.1 || (h == r.1 && v.position < r.2.position)
        s.galleyBlock p 32 32 .rmw false = .ok (a, qs) → s.readBlock qs = .ok (cs, s2) → s.binding x.launch v.tag = some b →
        b.csz ≠ 0 → b.spoilt = [] →
        (found = none → s.caseAccess b .read (span start (b.homes - start)) = .ok .done → 0 < b.homes →
          Completes (.casenxt p first) s { x with st := { x.st with z := true }, pc := s.nextPc })
          ∧ (∀ r, found = some r → s.caseAccess b .read (span start (r.1 + 1 - start)) = .ok .done →
            x.holding = true → 32 ≤ x.pubq.length → Traps (.casenxt p first) s 0x12 (a.zeroExtend 64))
          ∧ (∀ r, found = some r → s.caseAccess b .read (span start (r.1 + 1 - start)) = .ok .done →
            x.holding = false → x.drain = [] →
                CompletesStore (.casenxt p first) s { x with st := { x.st with z := false }, pc := s.nextPc }
              ((partKeys qs).take 24) (toBytes 8 r.2.key.toNat ++ toBytes 8 r.2.val.toNat ++ toBytes 4 r.2.time.toNat
                ++ toBytes 4 r.2.wt.toNat)))
  ∧ (∀ (s : State), s.issuing →
    let x := s.me
    let t := x.a.toNat % 2 ^ 32
    let mine := s.bindings.filter fun b => b.launch == x.launch
    let sealed : Slot := { x with sealT := max x.sealT (t + 1) }
    let unsealed := match x.sealWas with | some k => s.setMe { x with sealT := k, sealWas := none } | none => s
    let g : BitVec 16 := x.a.extractLsb' 0 16
    (x.stage = true → Traps .gclose s 0x1A (0x07#8 ++ 0#56))
      ∧ (x.stage = false → ∀ b, b ∈ mine → b.broken = true →
        (∀ c, c ∈ mine → c.broken = true → b.tag.toNat ≤ c.tag.toNat) →
        exec .gclose s = .next (unsealed.takeTrap s.cur x.pc s.chain.len
          { code := 0x1A, badv := 0x0A#8 ++ BitVec.ofNat 56 b.tag.toNat }))
      ∧ (x.stage = false → (∀ b, b ∈ mine → b.broken = false) →
        ((∃ b, b ∈ mine ∧ b.front ≤ t) → ∃ u, exec .gclose s = .next u
          ∧ u.me = { sealed with sealWas := some (x.sealWas.getD x.sealT), park := some (.gclose, s.chain) } ∧ SameThreads s u ∧ SameMemory s u ∧ SameCases s u)
        ∧ ((∀ b, b ∈ mine → t < b.front) → ∃ u, exec .gclose s = .next u
          ∧ u.me = { sealed with sealWas := none, pc := s.nextPc } ∧ SameThreads s u ∧ SameMemory s u ∧ SameCases s u ∧ SameRows s u))
      ∧ (s.binding x.launch g = none → Traps .gfront s 0x1A (0x04#8 ++ BitVec.ofNat 56 g.toNat))
      ∧ (∀ b, s.binding x.launch g = some b → b.broken = true → Traps .gfront s 0x1A (0x0A#8 ++ BitVec.ofNat 56 g.toNat))
      ∧ (∀ b, s.binding x.launch g = some b → b.broken = false →
        Completes .gfront s { x with a := BitVec.ofNat 64 b.front, pc := s.nextPc }))

/-! ### Events: threads and engines -/

/-- R58, R135, R140, R153, R228, R303, R327, R333: a parked instruction, a future's next try among them, is performed
from its thread's state when its turn comes; a thread at a boundary whose outermost due frame is in its candle enters
the gutter, one whose pre-emption is due its save routine, its sequences set aside, but a stage thread of which the
record cannot be written breaks its tag (R371); an access completes, and one on its way is performed then (R143, R151),
when being left open; published stores are performed in their order,
those that an earlier thread of the slot has left first, and then the oldest write that some agent does not observe
reaches every agent; the entries of a replay queue are tried again, each staying until its write has been performed for
every agent, and one that has waited 50 µs kills the fault domain. -/
def Obligations.ThreadEvents : Prop :=
∀ (s : State) (t : Nat),
    let x := s.slot t
    let l := x.st.tl + 1
    let at_ : State := { s with cur := t, inSeq := none }
    let again (e : Instr) (p : Instr × Chain) : Prop := Leads e s fun u =>
      exec p.1 (({ at_ with chain := p.2 } : State).setSlot t { x with park := none }) = .next u
    (∀ p, x.park = some p → isEvent p.1 = false → s.boundaryTrap t = none → x.mode = .running → x.busy = false →
        again (.parkResume t) p ∧ ∀ due, x.retry = some due → due ≤ s.timeb.toNat → again (.ldfutRetry t) p)
      ∧ (∀ n f, s.atBoundary t = true → s.gutterDue t = some (n, f) → x.st.tl.toNat < 2 → f.g = false →
        Leads (.gutterTrap t) s fun u =>
          let y := u.slot t
          y.bank l = { epc := x.pc &&& ~~~1#48, cause := { ppl := x.st.pl, code := 0x13 }, badv := BitVec.ofNat 64 f.close }
            ∧ y.st = { x.st with tl := l, cd := BitVec.ofNat 3 (n + 1), fl := x.st.fl ||| x.seqFlags }
            ∧ y.pc = (f.hrec + 8) &&& ~~~1#48 ∧ y.a = x.a ∧ y.ptrs = x.ptrs ∧ y.park = none ∧ SameMemory s u
            ∧ y.frames = x.frames.take n ++ [{ f with
                t0 := s.timeb, lo := BitVec.ofNat 20 (16 * f.hlo.toNat), hi := f.hhi, hhi := 0, hlo := 0, g := true, tlf := l }]
            ∧ y.pubq = x.pubq.map fun h => if n < h.level then { h with level := n } else h)
      ∧ (∀ why, s.atBoundary t = true → s.gutterDue t = none → x.seqFault = none → s.preemptDue t = some why →
        x.st.tl.toNat < 2 → Leads (.preemptionTrap t) s fun u =>
          let y := u.slot t
          (x.stage = true ∧ ∀ b, b ∈ u.bindings → b.launch = x.launch → x.stag ≤ b.tag → b.broken = true) ∨
          (y.bank l = { epc := x.pc &&& ~~~1#48, cause := { ppl := x.st.pl, code := 0x17 }, badv := BitVec.ofNat 64 why }
            ∧ y.st = { x.st with tl := l, pl := 1, fl := x.st.fl ||| x.seqFlags }
            ∧ y.pc = (s.launch x.launch).f.srtn &&& ~~~1#48 ∧ y.a = x.a ∧ y.ptrs = x.ptrs ∧ y.preempted = true
            ∧ y.saved = x.saved ++ (s.core (coreOf t)).seqs.filter (fun q => q.slot == t)
            ∧ ∀ q, q ∈ (u.core (coreOf t)).seqs → q.slot ≠ t))
      ∧ (let settled (u : State) : Prop := ∀ w, w ∈ u.hist → w.writer = some t → w.kind = .access → w.done = true
         (x.busy = false → Leads (.memoryAccessComplete t) s fun u => u.slots = s.slots ∧ SameMemory s u)
          ∧ (x.busy = true → (∀ v, v ∈ s.invals → v.slot ≠ some t) →
            (∀ o, o ∈ (s.core (coreOf t)).ops → o.slot = t → o.holds = false) →
            (x.flight = none → Leads (.memoryAccessComplete t) s fun u =>
              u.slot t = { x with busy := false, wake := none } ∧ SameMemory s u ∧ settled u)
            ∧ ∀ f v, x.flight = some f → isEvent f.instr = false →
              exec f.instr (({ at_ with chain := f.chain } : State).setSlot t { x with busy := false }) = .next v →
              Leads (.memoryAccessComplete t) s fun u =>
                u.slot t = { v.slot t with busy := false, wake := none, flight := none } ∧ SameMemory v u ∧ settled u))
      ∧ (∀ g, s.ghosts.find? (fun g => g.slot == t) = some g → Leads (.publishEntry t) s fun u =>
          u.ghosts = s.ghosts.erase g ∧ u.slots = s.slots ∧ u.mem = setBytes s.mem g.store.bytes)
      ∧ (∀ h rest, s.ghosts.find? (fun g => g.slot == t) = none → x.drain = h :: rest → x.publishWaits h = false →
        Leads (.publishEntry t) s fun u => u.slot t = { x with drain := rest } ∧ u.mem = setBytes s.mem h.bytes)
      ∧ (∀ (i : Nat) (w : WriteRec), s.publishNext t = none → (s.hist.filter (s.completesAlone t)).getLast? = some w →
          s.hist[i]? = some w →
        Leads (.publishEntry t) s fun u =>
          u.hist[i]? = some { w with done := true, firm := w.firm || (w.kind == WriteKind.retried) } ∧ u.mem = s.mem
            ∧ (∀ v, v ≠ t → u.slot v = s.slot v)
            ∧ ∃ rs, u.slot t = { x with replay := rs } ∧ ∀ r, r ∈ x.replay → r.written = false → r ∈ rs)
      ∧ (x.replayDue = true → Leads (.replayRetry t) s fun u =>
          (u.slot t).replayDue = false
            ∧ (∀ r, r ∈ (u.slot t).replay → ∃ q, q ∈ x.replay ∧ (r = q ∨ r = { q with written := true }))
            ∧ ∀ r ps, x.replay = [r] → r.written = false → x.drain = [] →
              at_.parts at_.space .write 3 r.va r.bytes.length = .ok ps →
              ((u.slot t).replay = [] ∨ (u.slot t).replay = [{ r with written := true }])
                ∧ u.mem = setBytes s.mem (zipBytes (partKeys ps) r.bytes))
      ∧ ∀ r, r ∈ x.replay → r.written = false → r.since + 70000 ≤ s.cycle → Leads (.replayTimeout t) s fun u => u = s.killSlotDomain t 2

/-- R155, R182, R184, R206, R207, R216, R337: an engine's operation is done, and leaves its core's outstanding ones as the
counter of its thread falls. A row load writes its row from the bytes it observes; a store sets its bytes, that of an MDRAIN
row by row (R217), and stays outstanding until it is performed for every agent; a WBACK leaves no dirty copy of its line, at
a scope wider than a die neither in the L2; MLDB fills the latch with the columns of its panel, its format, K, N and the
serial; MMA writes the rows of its tile, element by element, adds its K-steps to the tile's count and its exceptions to the
tile's flags; MZERO zeroes its rows. R211 to R214, R220: MMROT multiplies alike and keeps the panel it has read, with its
tag (R86); once the operation of every core of the sub-torus stands at its unit's head with its multiply done, the panels
are sent, each to the AFWD of its receiver; and then, each agent observing them from then on, every operation of the round
leaves its core, and each latch becomes that of its source core, the serial staying. -/
def Obligations.EngineEvents : Prop :=
  (∀ (s : State) (c i : Nat) (o : EngOp), (s.core c).ops[i]? = some o →
    let k := s.core c
    let x := s.slot o.slot
    let gone (u : State) : Prop := (u.core c).ops = ldel k.ops i
    let counted (y : Slot) : Slot := if o.seq.isSome then x else y
    let goesOn := x.busy && !o.holds
    let store : Slot := counted { x with stores := x.stores - 1 }
    let tile : Slot := counted { x with tiles := x.tiles - 1, busy := goesOn }
    let head := k.unitHead = some (i, o)
    let ready := s.storeReady o = true
    let its (w : WriteRec) : Prop := w.writer = some o.slot ∧ w.born = o.born
    let held (r : RowRef) : Prop := (k.tile (rowTile r)).alloc = true ∧ (k.tile (rowTile r)).banks.getLsbD (rowNum r / 16) = true
    let b := o.blk
    (∀ r rs, o.kind = .vld → o.rows = r :: rs → held r → Leads (.vldComplete c i) s fun u =>
        gone u ∧ u.slot o.slot = counted { x with loads := x.loads - 1, busy := goesOn } ∧ SameMemory s u
          ∧ (u.core c).row r = loadedRow o.fmt o.geo ((o.src.zip (s.engineRead o o.src)).map fun e =>
              if keyIsMboxReg e.1 then s.mboxByte true e.1 else e.2)
          ∧ ∀ q, q ≠ r → (u.core c).row q = k.row q)
      ∧ (o.kind = .vst → o.written = false → ready → o.bytes ≠ [] → (∀ w, w ∈ s.hist → its w → w.done = true) →
        Leads (.storePerformed c i) s fun u => u.mem = setBytes s.mem o.bytes ∧ SameRows s u
          ∧ (if o.strong = true ∧ o.scope = .system then gone u ∧ u.slot o.slot = store
             else (u.core c).ops[i]? = some { o with written := true } ∧ u.slot o.slot = x))
      ∧ (o.kind = .mdrain → head → o.written = false → s.rowReady o = true → Leads (.storePerformed c i) s fun u =>
          let row := (o.bytes.drop (o.lens.take o.kdone).sum).take (o.lens.getD o.kdone 0)
          let left := o.rowCls.drop (o.kdone + 1)
          let finished := left = [] ∧ ∀ w, w ∈ u.hist → its w → w.done = true
          u.mem = setBytes s.mem row ∧ SameRows s u ∧ (finished → gone u ∧ u.slot o.slot = store)
            ∧ (¬finished → u.slot o.slot = x ∧ (u.core c).ops[i]? = some { o with
                kdone := o.kdone + 1, written := left.isEmpty, unord := left.all (· == .unordered), acq := left.contains .strong }))
      ∧ (o.kind = .vst ∨ o.kind = .mdrain → o.written = true → Leads (.storePerformed c i) s fun u =>
          gone u ∧ u.slot o.slot = store ∧ SameMemory s u ∧ SameRows s u)
      ∧ (o.kind = .wback → s.writeBackReady c o = true → Leads (.storePerformed c i) s fun u =>
          gone u ∧ u.slot o.slot = store ∧ SameMemory s u ∧ ∀ a as, o.src = a :: as →
            (∀ r, u.lineEntry (lineOf a) = some r → r.isDirty = false)
              ∧ (scopeRank .die < scopeRank o.scope → ∀ e, e ∈ u.l2 → e.2.line = lineOf a → e.2.dirty = false))
      ∧ (∀ info, o.kind = .mldb → head → ready → matInfo o.fmt = some info → b.k % info.step = 0 → b.k ≤ info.kmax →
        b.n ≤ matCols info.size → Leads (.mldbComplete c) s fun u =>
          gone u ∧ SameMemory s u ∧ SameRows s u ∧ u.slot o.slot = counted { x with loads := x.loads - 1, busy := goesOn }
            ∧ (let m := (u.core c).latch
               m.tag = o.fmt ∧ m.k = b.k ∧ m.n = b.n ∧ m.serial = x.serial
                ∧ ∀ n, n < b.n → m.column n = panelRow o.fmt o.geo b.k (s.engineRead o
                    (span ((Loc.spm c 0).key + (b.boff + n * b.bstr) % 0x80000) (panelLen o.fmt o.geo b.k)))))
      ∧ (o.kind = .mzero → head → (∀ r, r ∈ o.rows → held r) → Leads (.matrixOpComplete c) s fun u =>
          gone u ∧ u.slot o.slot = tile ∧ SameMemory s u ∧ (∀ r, r ∈ o.rows → (u.core c).row r = {})
            ∧ ∀ r, r ∉ o.rows → (u.core c).row r = k.row r)
      ∧ ∀ info, head → ready → matInfo o.fmt = some info → o.kdone = 0 → (k.tile b.tile).alloc = true →
        (k.tile b.tile).banks = 0xF#4 →
        let w := if info.size = .e64 then 64 else 32
        let steps := b.k / info.step
        let old (m n : Nat) : Nat := (k.row (rowOf b.tile m)).elems.toNat / 2 ^ (w * n) % 2 ^ w
        let elem (m n : Nat) : Nat × Flags :=
          if b.tri = true ∧ (n : Int) > m + b.diag then (b.mask.toNat % 2 ^ w, 0)
          else accumulate o.fmt info.step (panelRow o.fmt o.geo b.k (s.aRow c o m)) (k.latch.column n) (span 0 steps)
            (if b.zero then 0 else old m n)
        let raised : Flags := (List.range 64).foldl (fun f m => (List.range (2048 / w)).foldl (fun f n => f ||| (elem m n).2) f) 0
        let multiplied (u : State) : Prop := SameMemory s u
          ∧ (let t := k.tile b.tile
             (u.core c).tile b.tile = { t with ks := t.ks + BitVec.ofNat 32 steps, flags := t.flags ||| raised })
          ∧ (∀ r, rowTile r ≠ b.tile → (u.core c).row r = k.row r)
          ∧ ∀ m n : Nat, m < 64 → n < 2048 / w → ((u.core c).row (rowOf b.tile m)).tag = info.acc
            ∧ ((u.core c).row (rowOf b.tile m)).elems.toNat / 2 ^ (w * n) % 2 ^ w = (elem m n).1 % 2 ^ w
        (o.kind = .mma → Leads (.matrixOpComplete c) s fun u => gone u ∧ u.slot o.slot = tile ∧ multiplied u)
          ∧ (o.kind = .mmrot → o.mulDone = false → Leads (.matrixOpComplete c) s fun u =>
            multiplied u ∧ u.slot o.slot = x ∧ (u.core c).astage = s.stagedPanel c o ∧ (u.core c).atag = o.fmt
              ∧ (u.core c).ops[i]? = some { o with kdone := steps, mulDone := true }))
  ∧ (∀ (s : State) (c i : Nat) (o : EngOp) (ops : RoundOps), (s.core c).unitHead = some (i, o) → o.inRound = true →
    let f := (s.launch (s.slot o.slot).launch).f
    let writes := s.roundWrites f.subW f.subH ops s.sentRow
    (torusOf c f.subW f.subH).Nodup → s.roundOps c o o.written = some ops →
    (o.written = false →
        (∀ e d m b, e ∈ writes → d ∈ ops → m < 64 → b ∈ e.2 → b.1 ∉ aKeys d.1 d.2.2 m) →
        Leads (.operandRoundTransfer c) s fun u =>
          u.mem = writes.foldl (fun m e => setBytes m e.2) s.mem ∧ u.slots = s.slots
            ∧ ∀ e, e ∈ ops → (u.core e.1).ops = lset (s.core e.1).ops e.2.1 { e.2.2 with written := true }
              ∧ (u.core e.1).astage = [] ∧ (u.core e.1).atag = 0 ∧ (u.core e.1).latch = (s.core e.1).latch)
      ∧ (o.written = true → Leads (.operandRoundTransfer c) s fun u => SameMemory s u
          ∧ (∀ w e, w ∈ u.hist → e ∈ ops → w.kind = .panel → w.writer = some e.2.2.slot → w.born = e.2.2.born → w.done = true)
          ∧ (∀ e, e ∈ ops → (u.core e.1).ops = ldel (s.core e.1).ops e.2.1
            ∧ (u.core e.1).latch = { (s.core (roundSources e.1 f.subW f.subH (e.2.2.kind == .mrotSkew)).2).latch with
                serial := (s.core e.1).latch.serial })
          ∧ ((ops.map fun e => e.2.2.slot).Nodup → ∀ e, e ∈ ops → u.slot e.2.2.slot =
              (let x := s.slot e.2.2.slot
               if e.2.2.seq.isSome then x else { x with tiles := x.tiles - 1, busy := x.busy && !e.2.2.holds }))))

/-- R154, R169, R171, R195, R247, R250, R255, R258, R261: the units that cores share. The special function that has
reached its unit first is evaluated, and its instruction completes with the result; an agreement gives every participant
the largest of the maxima sent; a tree whose members have all arrived, with each arrival signalled, releases with the OR
of their bits; the copy hart writes the bytes of a beat that it reads at every destination, and then, each agent
observing them, moves its write pointer on, or gives a killed command up, its channels taking turns; that a beat is two
events, its write and its end, is the model's (DEDUCED, log 75). R318, R320, R352, R354, R399: a write becomes
performed with respect to one more agent, or in one instant to the instance that it is to reach, once the writes that must
precede it have been; where no agent sees it and a newer write to its bytes yet, it may take its place in the coherence order
behind them; an invalidation completes once
the requests and operations translated by what it covers are done: no write before it is used for a translation any
more, the thread that waits for it goes on, and one of the host's counts in S2DONE and makes replay queues try again
(R327). -/
def Obligations.UnitEvents : Prop :=
  (∀ (s : State),
    (∀ o r rest, (s.octet o).sfu = r :: rest → r.arrives ≤ s.cycle →
        let s1 : State := s.setOctet o { s.octet o with sfu := rest }
        (r.live = false → Leads (.sfuResult o) s fun u => u = s1)
          ∧ ∀ p, r.live = true → (s.slot r.slot).park = some p → isEvent p.1 = false → s1.boundaryTrap r.slot = none →
            (s.slot r.slot).mode = .running → (s.slot r.slot).busy = false → Leads (.sfuResult o) s fun u =>
              exec p.1 (({ s1 with cur := r.slot, chain := p.2, inSeq := none } : State).setSlot r.slot { s.slot r.slot with
                park := none, sfu := some (sfuRow r.fn ((s.core (coreOf r.slot)).row r.row)) }) = .next u)
      ∧ (∀ t, let ts := s.agreeSlots t
        let sent := ts.map fun u => (s.slot u).vsent.getD []
        t ∈ ts → (s.slot t).vmax = none →
        (∀ u, u ∈ ts → (s.slot u).vsent.isSome = true ∧ (s.slot u).launch = (s.slot t).launch
          ∧ (s.slot u).vround = (s.slot t).vround ∧ ((s.slot u).vsent.getD []).headD 0 = (sent.headD []).headD 0) →
        Leads (.vqmxAgreement t) s fun u => SameMemory s u ∧ ∀ w, w ∈ ts → ∃ v, u.slot w = { s.slot w with vmax := some v }
          ∧ v.length = 8 ∧ ∀ g, g < 8 →
            v.getD g 0 = BitVec.ofNat 64 ((sent.map fun m => ((m.drop 1).getD g 0).toNat).foldl Nat.max 0))
      ∧ (∀ cl b, let t := (s.cluster cl).tree b
        t.arrived ≠ [] → (∀ m, m ∈ t.members → m ∈ t.arrived) → (∀ a, a ∈ t.awaits → s.signalled a = true) →
        Leads (.barrierRelease cl b) s fun u => u = s.setCluster cl ((s.cluster cl).setTree b
            { t with arrived := [], awaits := [], orBit := false, v := t.orBit || t.awaits.any (·.bit), phase := t.phase + 1 }))
      ∧ ∀ o ch m rest, ((s.octet o).chan ch).queue = m :: rest →
        let k := (s.octet o).chan ch
        let hart := (Agent.hart o).num
        let counts (u : State) : Prop := ∀ t, s.ownerSlot m = some t → m.seq = none → (s.slot t).copyBase ≤ m.born →
          u.slot t = { s.slot t with copies := (s.slot t).copies - 1 } ∧ SameMemory s u
        let ended (b : Nat) (u : State) : Prop :=
          (∀ w, w ∈ u.hist → w.writer = some hart → w.born = b → w.done = true)
            ∧ if m.moved + m.beat < m.src.length then
                (u.octet o).chan ch = { k with wp := k.wp + BitVec.ofNat 48 m.beat,
                                               queue := { m with moved := m.moved + m.beat, written := none } :: rest }
                  ∧ SameMemory s u
              else (u.octet o).chan ch = { k with wp := k.wp + BitVec.ofNat 48 m.beat, d := false, done := m.stop, queue := rest }
                ∧ counts u
        (m.written = none → s.beatReady m = true → s.channelTurn o ch = true → m.dst.length = m.dstCls.length →
          Leads (.copyBeat o ch) s fun u =>
            let s0 := if m.moved = 0 then s.orderPoint hart .system false else s
            let bytes := s0.hartBytes o m ((m.src.drop m.moved).take m.beat) ((m.srcCls.drop m.moved).take m.beat)
            u.mem = m.dst.foldl (fun a d => setBytes a (zipBytes ((d.drop m.moved).take m.beat) bytes)) s.mem
              ∧ u.slots = s.slots ∧ (u.octet o).turn = (ch + 1) % 4
              ∧ (u.octet o).chan ch = { k with queue := { m with
                  written := some s.nd
                  olds := s0.oldsOf m (m.dst.flatMap fun d => (d.drop m.moved).take m.beat) } :: rest })
          ∧ (∀ b, m.written = some b → Leads (.copyBeat o ch) s (ended b)
            ∧ (m.killed = true → Leads (.copyDiscard o ch) s (ended b)))
          ∧ (m.killed = true → m.written = none → Leads (.copyDiscard o ch) s fun u => counts u
            ∧ (u.octet o).chan ch = { k with dp := k.wp, wp := m.stop, dt := m.stop, d := true, done := m.stop, queue := rest }))
  ∧ (∀ (s : State),
    (∀ i a w, s.hist[i]? = some w → w.performedAt a = false →
        (∀ v, v ∈ s.hist.drop (i + 1) → v.precedes w = true → v.performedAt a = true) →
      let seen (v : WriteRec) : WriteRec := match v.reach with
        | some sc => { v with upto := widerScope v.upto sc, done := v.done || sc == .system, reach := none }
        | none => { v with seenBy := a :: v.seenBy }
      Leads (.weakWritePropagation i a) s fun u => u = { s with hist := lset s.hist i (seen w) }
        ∨ (s.mayFollow i w = true ∧ u.mem = setBytes s.mem w.new ∧ u.slots = s.slots ∧ u.cores = s.cores
          ∧ u.hist.length = s.hist.length
          ∧ u.hist.head? = some (seen { w with old := w.new.map fun b => (b.1, s.content b.1) })))
    ∧ ∀ i v, s.invals.find? (fun v => v.id == i) = some v → s.invalReady v = true →
      Leads (.invalidationComplete i) s fun u =>
        (∀ w, w ∈ u.invals → w.id ≠ i) ∧ (∀ w, w ∈ u.hist → v.cover ∈ w.covers) ∧ SameMemory s u
          ∧ (∀ t, v.slot = some t → (u.slot t).busy = false)
          ∧ (v.cover.stage2 = false → u.regs = s.regs ∧ ∀ t, v.slot = some t → u.slot t = { s.slot t with busy := false })
          ∧ (v.cover.stage2 = true → u.regs = { s.regs with s2done := s.regs.s2done + 1 }
            ∧ ∀ t, (u.slot t).replayDue = ((s.slot t).replayDue || !(s.slot t).replay.isEmpty)))

/-! ### Events: kills, slices and launches -/

/-- R17, R231, R279: a thread that is killed leaves its slot empty; its engine operations and its sequences are gone,
its copy commands are stopped, the formes that it composes are pied; other threads stay as they are, but for those of a
slice that ends with it. R34, R238: the trap banks of the slot keep what they hold. R16, R311, R401: the kill of a fault
domain raises event 5 with its reason; a group that is a domain by itself is killed whole, and of a launch that is one,
every thread, while STATUS is written later. -/
def Obligations.Kills : Prop :=
(∀ (s : State) (t : Nat), (s.slot t).mode ≠ .gated →
    let x := s.slot t
    let u := s.killThread t
    u.slot t = { bank1 := x.bank1, bank2 := x.bank2, ready := x.ready } ∧ (∀ o, o ∈ (u.core (coreOf t)).ops → o.slot ≠ t)
      ∧ (∀ q, q ∈ (u.core (coreOf t)).seqs → q.slot ≠ t)
      ∧ (∀ v, v ≠ t → u.slot v = s.slot v ∨ ((s.slot v).mode = .yielded ∧ u.slot v = { s.slot v with mode := .suspended }))
      ∧ (∀ o k m, o ∈ u.octets → k ∈ o.2.ch → m ∈ k.2.queue → m.owner = x.copyOwner → m.killed = true)
      ∧ ∀ k e, (u.cluster k).forme e =
        if ((s.cluster k).forme e).state = .composing ∧ ((s.cluster k).forme e).holder = some (s.threadId t)
        then { (s.cluster k).forme e with state := .pied, holder := none } else (s.cluster k).forme e)
  ∧ ∀ (s : State) (i g why : Nat),
    let l := s.launch i
    let u := s.killDomain i g why
    launchEvent l 5 (BitVec.ofNat 64 why) 0 ∈ u.events
      ∧ (l.f.fdp = 0 → (u.launch i).kd = true ∧ ∀ t, t ∈ s.groupSlots i g → (u.slot t).mode = .gated)
      ∧ (l.f.fdp = 1 → l.state.open_ = true → l.domainKilled = false →
        (u.launch i).kd = true ∧ (u.launch i).domainKilled = true ∧ (u.launch i).state = l.state
          ∧ ∀ e, e ∈ s.slots → (s.slot e.1).launch = i → (u.slot e.1).mode = .gated)

/-- R31, R225, R295, R299: a group that is placed for the first time runs its threads on the cores of its octet, thread
n on core n mod 8, each with A = group × 65536 + thread, P0 = ARG, the PC at the entry and every other register 0, ST
with TL and PL 0, TVB, TBASE and RCBP as its region gives them; its slice begins with a budget of SLICE. R296 to R298: a
decision of a die's lamplighter. Where no launch has a group to place, nothing happens; where the first in order has
some whose projected energy is at hand, they are placed on octets that fit, and where none fits while the slices after
it in the order hold enough, those are pre-empted; where the energy is not at hand, it waits. -/
def Obligations.Placement : Prop :=
  (∀ (s : State) (i g o : Nat),
    let l := s.launch i
    let u := s.placeFresh i g o
    l.f.threads ≤ 128 → (∀ x, x ∈ l.groups → x.index ≠ g) → (∀ e, e ∈ s.slots → octetOf (coreOf e.1) ≠ o) →
    (u.launch i).state = .running ∧ (u.launch i).next = g + 1
      ∧ (∃ x, (u.launch i).group? g = some x ∧ x.state = .placed ∧ x.octet = o ∧ x.due = none ∧ x.budget = Nat.max 1000 l.f.slice
        ∧ (1 ≤ l.f.threads → s.phase7 < 7 → (∀ c, octetOf c = o → (s.core c).next ≤ s.cycle) → x.start = s.timeb.toNat))
      ∧ ∀ n, n < l.f.threads → let t := 16 * (8 * o + n % 8) + n / 8
        let record := l.f.save + BitVec.ofNat 48 (0x400 * (g * l.f.threads + n))
        u.slot t = {
          mode := .running, a := BitVec.ofNat 64 (g * 65536 + n), ptrs := { p0 := l.f.arg.zeroExtend 64 },
          pc := l.f.entry &&& ~~~1#48, savp := record, record := record, uid := (s.nd + 1) * 2 ^ 16 + t,
          group := BitVec.ofNat 32 g, thread := BitVec.ofNat 7 n, serial := l.serial, tenant := l.f.ten, key := l.f.key,
          tvb := l.f.tvb, tbase := l.f.root, rcbp := l.rcb, launch := i, gidx := g })
  ∧ (∀ (s : State) (d : Nat), s.decide.contains d = true →
    let s1 : State := ({ s with decide := ndel s.decide d } : State).lampAnswered d
    ((∀ e, e ∈ s1.candidates d → s1.oilState e.1 = (s1, true) ∧ s1.nextGroups (s1.launch e.1) = .none) →
        Leads (.lamplighterDecide d) s fun u => u = s1)
      ∧ ∀ i c rest gs limit, s1.candidates d = (i, c) :: rest → s1.oilState i = (s1, true) →
        let l := s1.launch i
        let need : Int := ((gs.map l.project).foldl (· + ·) 0 : Nat)
        s1.nextGroups l = .groups gs limit → (l.f.cdl = true → s1.cdlHeld d = false) →
        (rest = [] → 1000 * s1.regs.eleft < need → Leads (.lamplighterDecide d) s fun u => u = s1)
          ∧ (∀ g o, need ≤ 1000 * s1.regs.eleft → rest = [] → gs = [g] → limit = l.f.maxg →
            s1.choose [] i l gs = some [o] →
            (let p := s1.placeGroup i g o
             p.nextGroups (p.launch i) = .none →
             Leads (.lamplighterDecide d) s fun u => u = p))
          ∧ (∀ vs, need ≤ 1000 * s1.regs.eleft → s1.choose [] i l gs = none → s1.room i l gs (s1.victims d l) [] = some vs →
            Leads (.lamplighterDecide d) s fun u => u = vs.foldl (fun s v => s.preempt v.1 v.2 s.now 2) s1))

/-- R298 to R303, R327: pre-emption falls due when a slice's budget has passed or its launch's oil is used up; a group that
that has not been saved 50 µs later is killed with its fault domain; a deadline that passes marks the launch. R296, R299,
R300, R305, R307, R308: a group whose slice has ended is stored and its slots are gated; a placed group whose threads stand
in retention begins its slice again where it stood, with the registers of its region loaded and the debt of its record,
unless its launch is Dry; both are scheduling events; a context that migrates takes the lowest free slot of its core, and
its message is counted. The start of a slice is the first cycle in which one of its threads may issue (R299, R152); where
the record of its debt cannot be read, the debt is the model's (DEDUCED, log 98). R127: a thread of a region that declares
candles is not received by a core whose clock is lowered while a slice runs there. -/
def Obligations.Slices : Prop :=
  (∀ (s : State) (i g : Nat),
    let l := s.launch i
    let runs (x : Group) : Prop := x.state = .placed ∧ x.due = none ∧ x.restoring = false
    (∀ x, l.group? g = some x → runs x → x.start + x.budget ≤ s.timeb.toNat → Leads (.budgetExpiry i g) s fun u =>
        (u.launch i).group? g = some { x with state := .saving, due := some (x.start + x.budget, 1) }
          ∧ u.slots = s.slots ∧ u.mem = s.mem)
      ∧ (l.state = .running → l.domainKilled = false → l.f.oil ≠ 0 → 1000 * l.f.oil ≤ l.oilc → Leads (.oilExhausted i) s fun u =>
          (u.launch i).state = .dry ∧ u.slots = s.slots
            ∧ (∀ x, l.group? g = some x → runs x →
              (u.launch i).group? g = some { x with state := .saving, due := some (s.timeb.toNat, 3) })
            ∧ u.events = s.events ++ (if l.f.ntf then
              [launchEvent l 8 (BitVec.ofNat 64 (l.oilc / 1000)) (BitVec.ofNat 64 l.f.oil)] else []))
      ∧ (∀ x at_ why, l.group? g = some x → x.state = .saving → x.due = some (at_, why) → at_ + 50000 ≤ s.timeb.toNat →
        Leads (.watchdogExpiry i g) s fun u => u = s.killDomain i g 1)
      ∧ (l.state ≠ .unwalked → l.state ≠ .ended → l.f.dln ≠ 0 → l.f.dln ≤ s.timeb.toNat → l.dlnDone ≠ some l.f.dln →
        Leads (.deadlinePassed i) s fun u => u.launch i = { l with miss := true, dlnDone := some l.f.dln } ∧ u.slots = s.slots
            ∧ u.events = s.events ++ (if l.f.ntf then [launchEvent l 2 (BitVec.ofNat 64 l.f.dln) 0] else [])))
  ∧ (∀ (s : State) (i g : Nat),
    let l := s.launch i
    (s.canSave i g = true → Leads (.sliceSave i g) s fun u =>
        (∃ x, (u.launch i).group? g = some x ∧ x.saved = true)
          ∧ l.die ∈ u.decide ∧ ∀ t, t ∈ s.ordinarySlots i g → let x := s.slot t
            u.slot t = { bank1 := x.bank1, bank2 := x.bank2, ready := x.ready }
              ∧ ∃ m, m ∈ u.stored ∧ m.ctx = { x with copies := 0 } ∧ m.slot = t)
      ∧ (∀ x, l.group? g = some x → x.state = .placed → x.restoring = true → l.f.gang = true → l.state ≠ .dry →
        Leads (.sliceRestore i g) s fun u => u =
          ((l.groups.filter fun q => q.state == .placed && q.restoring).map (·.index)).foldl (fun v q => v.restoreGroup i q)
            (s.lampAnswered l.die))
      ∧ (∀ x, l.group? g = some x → x.state = .placed → x.restoring = true → x.saved = false → l.state ≠ .dry →
        (l.f.gang = true → (l.groups.filter fun q => q.state == .placed && q.restoring).map (·.index) = [g]) →
        (∀ e, e ∈ s.slots → e.2.stage = false) → s.restoringSlots i g ≠ [] →
        (∀ t, t ∈ s.restoringSlots i g → (s.slot t).saved = [] ∧ (s.slot t).savedOps = []) →
        Leads (.sliceRestore i g) s fun u =>
          (∃ y, (u.launch i).group? g = some y ∧ y.state = .placed ∧ y.restoring = false
            ∧ y.start = s.sliceStart (s.ordinarySlots i g)
            ∧ y.budget = Nat.max 1000 (l.f.slice - s.recordDebt l x)) ∧ l.die ∈ u.decide
            ∧ ∀ t, t ∈ s.restoringSlots i g → let y := s.slot t
              let z := u.slot t
              z.mode = .running ∧ z.tvb = l.f.tvb ∧ z.tbase = l.f.root ∧ z.rcbp = l.rcb ∧ z.a = y.a ∧ z.ptrs = y.ptrs
                ∧ z.pc = y.pc ∧ z.st = y.st ∧ z.lk = y.lk ∧ z.xi = y.xi ∧ z.bank1 = y.bank1 ∧ z.bank2 = y.bank2
                ∧ z.park = y.park)
      ∧ (∀ x, l.group? g = some x → x.state = .placed → x.restoring = true → l.state = .dry →
        Leads (.sliceRestore i g) s fun u => u = s)
      ∧ ∀ n m t, s.migrants[n]? = some m → s.freeSlot m.core = some t → (s.slot t).mode = .gated →
        let r := s.launch m.ctx.launch
        let slow := r.f.cdl = true ∧ (s.core m.core).clock ≠ .full
        (slow → s.coreBusy m.core = true → Leads (.migrationArrival n) s fun u => u = s)
          ∧ ((slow → s.coreBusy m.core = false) → Leads (.migrationArrival n) s fun u =>
            u.slot t = { m.ctx with tvb := r.f.tvb, tbase := r.f.root, rcbp := r.rcb, ready := (s.slot t).ready }
              ∧ u.migrants = ldel s.migrants n ∧ (r.f.cdl = true → (u.core m.core).clock = .full)
              ∧ ((u.core m.core).count m.ctx.launch).rcvd = ((s.core m.core).count m.ctx.launch).rcvd + 1))

/-- R292 to R294, R308 to R311: a write to a watched node has its subtree walked; a launch node that is walked first
gets its die's next serial, its fields as its path resolves them, and is Waiting, or Rejected with the code of R293. Two
sweeps in turn that find a closing launch idle with the same equal sums put its lights out: it is Ended, or Killed, and
no core holds it. R308, R365, R368, R370, R375: a slug that arrives merges into its home's buffer, where its GEMIT
completes and its message is counted; the next ripe entry of a home starts a stage thread there with the slug in its
frame, A the weight, P0 the frame, P1 the stage's argument and the PC at its entry. -/
def Obligations.LaunchesAndSlugs : Prop :=
  (∀ (s : State) (d : Nat),
    (∀ rcb, s.snoops.contains (d, rcb) = true → (∀ n, n ∈ s.nodes → n.die = d → n.rcb = rcb → n.old = false) →
        Leads (.rcbSnoopWalk d rcb) s fun u =>
          u = (({ s with snoops := s.snoops.filter fun n => n != (d, rcb) } : State).lampAnswered d).walkFrom d rcb)
      ∧ (∀ rcb im, let n := s.freeSerial d
        let path := s.fixedPath d rcb
        let now := fieldsOf (s.livePath rcb)
        let code := s.rejectCode d im path (s.livePath rcb)
        let u := s.firstWalk d rcb im
        aget 1 u.serials d = n + 1 ∧ u.launch (4 * n + d) = {
          die := d, serial := BitVec.ofNat 32 n, rcb := rcb, parent := rcbLink im 0, reject := code,
          f := { fieldsOf path with prio := now.prio, dln := now.dln, slice := now.slice, oil := now.oil },
          state := if code = 0 then .waiting else .rejected })
      ∧ ((∀ e, e ∈ s.launches → e.2.die = d → e.2.state.open_ = true → e.2.serial ≠ BitVec.ofNat 32 (aget 1 s.serials d)) →
        s.freeSerial d = aget 1 s.serials d)
      ∧ ∀ i n, let l := s.launch i
        (s.launches.filter fun e => e.2.die == d && e.2.state.open_).map (·.1) = [i] →
        (l.state = .closing ∧ l.finished = true) ∨ l.domainKilled = true → s.idle i = true → s.sums i = (n, n) →
        Leads (.lightsOutSweep d) s fun u =>
          (l.sums = none → u.launch i = { l with sums := some (n, n) })
            ∧ (l.sums = some (n, n) → (u.launch i).state = (if l.domainKilled then .killed else .ended)
              ∧ ∀ c, i ∉ (u.core c).held))
  ∧ (∀ (s : State),
    (∀ i f p es, let x := s.slot f.slot
        s.flights[i]? = some f → s.inSeq = none → s.boundaryTrap f.slot = none → x.mode = .running → x.park = some p →
        takeSlug f.launch f.slug (s.core f.home).consol = some es →
          (s.comesLate f = true → Leads (.slugArrival i) s fun u => u = s)
            ∧ (s.comesLate f = false → Leads (.slugArrival i) s fun u =>
              (u.core f.home).consol = es ∧ u.flights = ldel s.flights i ∧ SameMemory s u
                ∧ u.slot f.slot = { x with park := none, pc := x.pc + BitVec.ofNat 48 (2 * p.2.len) }
                ∧ (u.launch f.launch).emitted = true
                ∧ ((u.core f.home).count f.launch).rcvd = ((s.core f.home).count f.launch).rcvd + 1
                ∧ ((u.core (coreOf f.slot)).count f.launch).sent = ((s.core (coreOf f.slot)).count f.launch).sent + 1))
      ∧ (∀ c e x, s.nextSlug c = some e → (s.launch e.launch).hostOn (octetOf c) = some x →
        s.coreTakes [] [] e.launch (s.launch e.launch) x.index c = true → (s.core c).held.contains e.launch = true →
        s.coreBusy c = true → s.receiveStage e.launch (s.launch e.launch) x.index c = some s)
      ∧ ∀ c e b x t s1 ps, s.nextSlug c = some e → s.binding e.launch e.slug.tag = some b →
        let l := s.launch e.launch
        let n := 16 * (c - s.homeCore b 0) + t % 16
        let frame := b.slugb + BitVec.ofNat 48 (32 * n)
        let record := b.ssav + BitVec.ofNat 48 (0x400 * n)
        let k := s1.core c
        let rest := k.consol.erase e
        l.hostOn (octetOf c) = some x → s.freeSlot c = some t →
        ((s.clearSlot t).bind fun s0 => s0.receiveStage e.launch (s0.launch e.launch) x.index c) = some s1 →
        s1.launch e.launch = l →
        (s1.setCore c { k with consol := rest }).parts { l.space with core := c } .write 2 frame 32 = .ok ps →
        Leads (.stageDispatch c) s fun u =>
          (u.core c).consol = rest ∧ u.mem = setBytes s1.mem (zipBytes (partKeys ps) (slugBytes e.slug))
            ∧ (∀ w, w ∈ u.hist.head? → t ∈ w.seenAcquire)
            ∧ u.slot t = {
              mode := .running, a := e.slug.wt.signExtend 64, ptrs := { p0 := frame.zeroExtend 64, p1 := b.arg },
              pc := b.entry &&& ~~~1#48, savp := record, record := record, uid := (s.nd + 1) * 2 ^ 16 + t, group := BitVec.ofNat 32 x.index,
              thread := BitVec.ofNat 7 (t % 16), stage := true, serial := l.serial, stag := b.tag, tenant := l.f.ten,
              key := l.f.key, tvb := l.f.tvb, tbase := l.f.root, rcbp := l.rcb, launch := b.launch, gidx := x.index,
              slug := some e.slug, ready := (s1.slot t).ready })

/-! ### Events: the package, its host, the fabric, the Lanthorn -/

/-- R400, R404 to R407: energy is charged to the launches that are open, what is not goes to EUNATT, and ELEFT is filled
with CAP up to BURST and less the total; an event that the arbiter accepts is written to the log with its number, and
signalled; a machine check raises event 6, and one of the whole package makes it fail; a corrected error is counted.
R394, R401, R408 to R410: from 95 °C on a die is throttled, with event 7, and its idle cores leave the full clock;
below, the throttle ends with event 7 and a decision; at 105 °C the package fails. Reset leaves the registers at the
values of R394 and no thread, tile or launch; bring-up ends in Ready or Failed; the management port reads the state,
stages images and attests them. Of these the model's own are, and no rule of the spec: C of the throttle's event, the
decision at a recovery and its event's C (DEDUCED, log 60); the shares in µJ that a charge names (DESIGN CHOICE, log 61);
that memory outside the package stays over a reset (DEDUCED, log 59); the words of a management reply and their order, the
length of an attestation, and that an image's number gives its kind (DESIGN CHOICE, log 62); that a report names no image
before the package has been Ready (DEDUCED, log 124). -/
def Obligations.PackageEvents : Prop :=
  (∀ (s : State),
    (∀ shares unatt, let sum (xs : List (Nat × Nat)) : Nat := (xs.map (·.2)).sum
      let lost := sum (shares.filter fun e => !(s.launch e.1).state.open_)
      let r := s.regs
      Leads (.energyCharge shares unatt) s fun u =>
        u.power = unatt + sum shares ∧ u.regs.eunatt = r.eunatt + (unatt + lost)
          ∧ u.regs.eleft = min (r.eleft + r.capNow.toNat) (1000 * r.burstNow.toNat) - (unatt + sum shares : Nat)
          ∧ u.regs.capNow = r.cap ∧ u.regs.burstNow = r.burst
          ∧ ∀ i, (u.launch i).oilc = (s.launch i).oilc
            + (if (s.launch i).state.open_ then sum (shares.filter fun e => e.1 == i) else 0))
      ∧ (∀ i e, s.events[i]? = some e → s.regs.evb ≠ 0 → (s.regs.evp - s.regs.evc).toNat ≠ 2 ^ s.regs.logBits →
        (∀ q, q ∈ s.events.take i → q.source ≠ e.source) → Leads (.eventRecord i) s fun u =>
          u.mem = setBytes s.mem (zipBytes
              (span (hostBase + s.regs.evb.toNat + 64 * (s.regs.evp.toNat % 2 ^ s.regs.logBits)) 64) (e.record s.timeb s.evseq))
            ∧ u.events = ldel s.events i ∧ u.evseq = s.evseq + 1 ∧ u.regs = { s.regs with evp := s.regs.evp + 1 }
            ∧ u.msix = s.msix ++ (s.regs.vector e).toList)
      ∧ (∀ f kind addr, Leads (.machineCheck f kind addr) s fun u =>
          packageEvent 6 (Config.unitId f) (BitVec.ofNat 64 kind) (BitVec.ofNat 64 addr) ∈ u.events
            ∧ u.regs = (if f = .packageWide then { s.regs with devst := .failed } else s.regs))
      ∧ Leads .correctableError s fun u => u = { s with corrected := s.corrected + 1 })
  ∧ (∀ (s : State) (d temp : Nat),
    let x := aget {} s.thermal d
    let heat (c : W64) : Event := { packageEvent 7 (BitVec.ofNat 64 d) (BitVec.ofNat 64 temp) c with die := d, source := 3072 + d }
    (95 ≤ temp → Leads (.thermalThrottle d temp) s fun u =>
        aget {} u.thermal d = { x with temp := temp, throttled := true }
          ∧ u.events = s.events ++ (if x.throttled then [] else [heat (if s.hasCandles d then 2 else 1)])
          ∧ (x.throttled = false → ∀ c, c / 768 = d → s.coreBusy c = false → (u.core c).clock ≠ .full))
      ∧ (temp < 95 → x.throttled = true → Leads (.thermalRecovery d temp) s fun u =>
          aget {} u.thermal d = { x with temp := temp, throttled := false } ∧ d ∈ u.decide
            ∧ ∃ c, u.events = s.events ++ [heat c])
      ∧ (105 ≤ temp → Leads (.thermalTrip d temp) s fun u =>
          (aget {} u.thermal d).tripped = true ∧ u.regs = { s.regs with devst := .failed }
            ∧ (x.tripped = false → ∃ pre, u.events = pre ++ [heat 3]))
      ∧ (Leads .reset s fun u =>
          u.regs = {} ∧ (∃ e w, u.fab = { era := e, wrote := w }) ∧ u.lan = {} ∧ u.timeb = 0 ∧ u.slots = [] ∧ u.cores = [] ∧ u.octets = [] ∧ u.clusters = []
            ∧ u.launches = [] ∧ u.nodes = [] ∧ u.events = [] 
            ∧ u.images = ((List.range 3).map fun k => (s.staged.reverse.find? fun n => n % 3 == k).getD (s.images.getD k k))
            ∧ ∀ k, keyIsUnbounded k = true → (∀ r, r ∈ s.lines → r.isDirty = true → r.line ≠ lineOf k) →
              (∀ e, e ∈ s.l2 → e.2.dirty = true → e.2.line ≠ lineOf k) → u.byte k = s.byte k)
      ∧ (∀ ok, s.regs.devst = .reset ∨ s.regs.devst = .firmware → Leads (.bringupComplete ok) s fun u =>
          u = { s with regs := { s.regs with devst := if ok then .ready else .failed, beenReady := ok } })
      ∧ (Leads (.managementRequest .readStatus) s fun u => ∃ v,
          u = { s with mgmt := v } ∧ v[0]? = some (BitVec.ofNat 64 (16 * s.regs.devst.code))
            ∧ (∀ e, e < 4 → v[e + 1]? = some (BitVec.ofNat 64 (aget {} s.thermal e).temp))
            ∧ v[5]? = some (BitVec.ofNat 64 s.power) ∧ v[6]? = some (BitVec.ofNat 64 s.corrected)
            ∧ ∀ k n, s.images[k]? = some n → v[k + 7]? = some (Config.firmwareVersion n))
      ∧ (∀ n, Leads (.managementRequest (.stageImage n)) s fun u => u = { s with staged := s.staged ++ [n] })
      ∧ Leads (.managementRequest .attest) s fun u => ∃ v,
        u = { s with mgmt := v } ∧ v.length = 8 * (if s.regs.beenReady then s.images.length else 0) + 17)

/-- R391 to R394, R398, R399, R417, R418, R433, R450: a register that the host writes in a Ready package holds the
fields written; until the package is Ready nothing is written. R395 to R397: the host reads the bytes that memory holds,
writes bytes, and performs atomics, each at once; a snoop leaves no dirty copy of its line, and one that invalidates
opens the bytes of that line alone. That a write of LGRP with EN = 0 leaves the group, of a member too, is the model's reading
(DEDUCED, log 47), and so are the bytes that an invalidating snoop opens (DEDUCED, log 63). -/
def Obligations.HostEvents : Prop :=
  (∀ (s : State) (v : W64),
    let r := s.regs
    let page : BitVec 52 := v.extractLsb' 12 40 ++ 0#12
    (r.beenReady = false → ∀ i, (∃ d bar off k q n, i ∈ [Instr.rootWrite d v, .llrootWrite v, .omapWrite q n, .kctlWrite k v,
        .lgrpWrite v, .hostRegisterWrite bar off v]) → Leads i s fun u => u = s)
      ∧ (r.beenReady = true →
        (∀ d, d < 4 → let root : VA := v.extractLsb' 8 40 ++ 0#8
          (r.devst = .failed → Leads (.rootWrite d v) s fun u => u = s)
          ∧ (r.devst ≠ .failed → Leads (.rootWrite d v) s fun u => u.regs.rooted = true ∧ aget 0 u.regs.roots d = root
            ∧ (root ≠ 0 → root ≠ aget 0 r.roots d → d ∈ u.decide) ∧ (root = aget 0 r.roots d →
              u = { s with regs := { r with rooted := true } })))
        ∧ (Leads (.llrootWrite v) s fun u => let s1 : State := { s with regs := { r with llroot := page } }
            u = { s1 with nodes := s.nodes.map fun n => { n with loc := (s1.llLoc n.rcb true).getD n.loc } })
        ∧ (∀ q (n : BitVec 8), q < 384 → Leads (.omapWrite q n) s fun u =>
            u = { s with regs := { r with omap := aset 0 r.omap q (n &&& 0x8F#8) } })
        ∧ (∀ k, k < 256 → let x : FabricKey := aget {} s.fab.keys k
          Leads (.kctlWrite k v) s fun u => aget {} u.fab.keys k = (if v.getLsbD 63
            then { x with valid := true, tenant := v.extractLsb' 0 4, current := some x.staging, previous := x.current }
            else { x with valid := false, tenant := v.extractLsb' 0 4, current := none, previous := none }))
        ∧ (let reg : W64 := v &&& 0x8000000000003F3F#64
          Leads (.lgrpWrite v) s fun u => if v.getLsbD 63
            then (if s.lan.lstat = .member then u = s else u.lan = { s.lan with lgrp := reg, lstat := .aligning })
            else u.lan.lgrp = reg ∧ u.lan.oq = [] ∧ u.lan.bq = []
              ∧ u.lan.lstat = (if s.lan.lstat = .off then .off else .left))
        ∧ (∀ t (p : BitVec 40), (s.invals.filter fun q => q.cover.stage2).length < 9 →
          let sent (c : Option (Nat × Nat)) (u : State) : Prop := u.invNext = s.invNext + 1
            ∧ u.invals = s.invals ++ [{ cover := { stage2 := true, die := 0, tenant := t, root := 0, page := c }, slot := none,
                                        id := s.invNext }]
          (Leads (.s2reqPage t p) s fun u => sent (some (s.ipaPages t p.toNat)) u ∧ u.regs.s2req = 0#12 ++ p ++ t ++ 1#8)
            ∧ Leads (.s2reqAll t) s fun u => sent none u ∧ u.regs.s2req = 0#52 ++ t ++ 3#8)
        ∧ (let to0 (off : Nat) (p : HostRegs → Prop) : Prop := Leads (.hostRegisterWrite 0 off v) s fun u => p u.regs
          (r.rooted = false → v.extractLsb' 0 10 ≠ 1023#10 → to0 8 fun q => q.pkgid = v.extractLsb' 0 10)
            ∧ (r.rooted = true → to0 8 fun q => q = r)
            ∧ (to0 0x38 fun q => q.cap = v.extractLsb' 0 16 ∧ q.burst = v.extractLsb' 32 32 ∧ q.capNow = r.capNow ∧ q.burstNow = r.burstNow) ∧ (to0 0x80 fun q => q.evb = page)
            ∧ (to0 0x88 fun q => q.evctl = v.extractLsb' 0 5) ∧ (to0 0x98 fun q => q.evc = v.extractLsb' 0 32)
            ∧ ∀ t, t < 16 → (Leads (.hostRegisterWrite 0 (0x100 + 16 * t) v) s fun u => aget 0 u.regs.s2root t = page
                ∧ (let old := s.s2root (BitVec.ofNat 4 t)
                   u.oldRoots = if old = 0 ∨ old = page then s.oldRoots
                    else s.oldRoots ++ [{ tenant := BitVec.ofNat 4 t, root := old }]))
              ∧ to0 (0x108 + 16 * t) fun q => aget 0xFFFF q.waym t = v.extractLsb' 0 16)
        ∧ (∀ t, t < 16 → Leads (.hostRegisterWrite 2 (0x100 + 16 * t) v) s fun u => aget {} u.fab.rates t =
            { aget {} s.fab.rates t with red := v.getLsbD 63, floor := v.extractLsb' 32 16 })
        ∧ (∀ n, n < 1023 → Leads (.hostRegisterWrite 2 (0x2000 + 8 * n) v) s fun u => aget 0 u.fab.routes n = v)
        ∧ (∀ t, t < 16 → s.lan.lstat = .off ∨ s.lan.lstat = .left → Leads (.hostRegisterWrite 4 (0x100 + 16 * t) v) s fun u =>
            aget 0 u.lan.llog t = v.truncate 52 &&& 0xFFFFFFFFFF01F#52)))
  ∧ (∀ (s : State) (a : Nat),
    (∀ n, a + n ≤ 0x6000000000 → Leads (.hostMemRead a n) s fun u =>
        u.hostData = (span a n).map (s.visible Agent.host.num 0) ∧ SameMemory s u
          ∧ (s.hist = [] → u.hostData = (span a n).map s.byte))
      ∧ (∀ bytes : List (BitVec 8), a + bytes.length ≤ 0x6000000000 → Leads (.hostMemWrite a bytes) s fun u =>
          u.mem = setBytes s.mem (zipBytes (span a bytes.length) bytes) ∧ u.slots = s.slots ∧ u.cores = s.cores)
      ∧ (∀ fn (w : LongWidth) x y, let n := w.width.bytes
        let old := (span a n).map s.byte
        a + n ≤ 0x6000000000 → a % n = 0 → Leads (.hostAtomic a fn w x y) s fun u =>
          u.hostData = old ∧ u.mem = (match (amoResult fn w .rne (ofBytes old) (x.toNat % 2 ^ (8 * n)) (y.toNat % 2 ^ (8 * n))).1 with
            | some v => setBytes s.mem (zipBytes (span a n) (toBytes n v))
            | none => s.mem))
      ∧ ∀ inv, a < 2 ^ 42 → Leads (.hostSnoop a inv) s fun u =>
          (∀ r, u.lineEntry (lineOf (hostBase + a)) = some r → r.isDirty = false)
            ∧ (∀ e, e ∈ u.l2 → e.2.line = lineOf (hostBase + a) → e.2.dirty = false) ∧ (inv = false → SameMemory s u)
            ∧ SameMemoryBut (span ((hostBase + a) / 64 * 64) 64) s u)

/-- R413, R414, R417, R420, R422, R423: a peer's request is performed once at its home, and one that comes again is not;
a request without a response is sent again after 2 µs, at most eight times in all, and then lost with a machine check,
as is one that its receiver rejects; discarded packets and failed checks are counted; a marked response lowers the
tenant's rate by an eighth, 10 µs with no mark raise it by 160; ports come up and go down. That a home remembers an answered
tag for 22,400 cycles, and performs a request that comes again after that, is the model's choice (DEDUCED, log 64), and so is
that a packet under an identifier without a key fails its check (DEDUCED, log 107). -/
def Obligations.FabricEvents : Prop :=
∀ (s : State),
    (∀ r : FabricReq, let kept := s.fab.answered.filter fun q => decide (s.cycle < q.at_ + 22400)
      let known := kept.any fun q => q.src == r.src && q.tag == r.tag
      let sent := s.fab.countNonce r.key
      (s.fab.hasKey r.key = false → Leads (.fabricRequest r) s fun u => u = { s with fab := { sent with fauth := s.fab.fauth + 1 } })
        ∧ (s.fab.hasKey r.key = true → known = true → Leads (.fabricRequest r) s fun u => u = { s with fab := { sent with
            answered := kept } })
        ∧ (s.fab.hasKey r.key = true → known = false → Leads (.fabricRequest r) s fun u => ∃ resp,
          u.fab.answered = kept ++ [{ src := r.src, tag := r.tag, resp := resp, at_ := s.cycle }]
            ∧ (∀ n, r.op = .read n → r.addr + n ≤ 0x6000000000 → resp = (span r.addr n).map (s.visible (Agent.peer r.src).num 0)
              ∧ SameMemory s u)
            ∧ ∀ bs, r.op = .write bs → r.addr + bs.length ≤ 0x6000000000 →
              u.mem = setBytes s.mem (zipBytes (span r.addr bs.length) bs)))
      ∧ (∀ i o, s.fab.out[i]? = some o →
        let lost (e : Instr) (kind : W64) : Prop := Leads e s fun u =>
          ∃ unit, packageEvent 6 unit kind (BitVec.ofNat 64 o.at_) ∈ u.events
        (o.sent + 2800 ≤ s.cycle → o.sends < 8 → Leads (.fabricResend i) s fun u => u = { s with fab := { s.fab.countNonce o.key with
            out := lset s.fab.out i { o with sends := o.sends + 1, sent := s.cycle, nonce := s.fab.nonceOf o.key }
            fretry := s.fab.fretry + 1 } })
          ∧ (o.sent + 2800 ≤ s.cycle → 8 ≤ o.sends → lost (.fabricResend i) 0x20) ∧ lost (.fabricAuthFail (some i)) 0x21)
      ∧ (Leads (.fabricAuthFail none) s fun u => u = { s with fab := { s.fab with fauth := s.fab.fauth + 1 } })
      ∧ (∀ p, p < 64 → (Leads (.stompedPacket p) s fun u => aget 0 u.fab.stomp p = aget 0 s.fab.stomp p + 1)
        ∧ ∀ up, Leads (.portStateChange p up) s fun u =>
          ∀ q, q < 64 → u.fab.ports.getLsbD q = if q = p then up else s.fab.ports.getLsbD q)
      ∧ ∀ t, t < 16 → let x : Rate := aget {} s.fab.rates t
        let now := s.timeb.toNat
        ((∀ b, x.lastDown = some b → b + 2000 ≤ now) → Leads (.rateDecrease t) s fun u => aget {} u.fab.rates t = { x with
            rate := Nat.max (Nat.max 1 x.floor.toNat) (x.rate - x.rate / 8), lastDown := some now, lastMark := now })
          ∧ (∀ b, x.lastDown = some b → now < b + 2000 → Leads (.rateDecrease t) s fun u =>
            aget {} u.fab.rates t = { x with lastMark := now })
          ∧ (x.lastMark + 10000 ≤ now → Leads (.rateIncrease t) s fun u =>
            aget {} u.fab.rates t = { x with rate := Nat.min 10240 (x.rate + 160), lastMark := now })

/-- R426 to R432, R434, R437, R440: the holder of a flame sends its oldest unit, or none, and the flame passes to the
next member that is not gone; order events are applied in the order of their holds, each counted in LEVT; one that posts
gets its tenant's next number and its LPOST completes; a bulk hold writes its bytes and counts in its sender's header
word; a silent holder is removed after 1 µs; a package that leaves raises a machine check; one that aligns takes member 0's
count. Which member follows where some have not joined, and whether the group forms, no register says (DEDUCED, log 46). -/
def Obligations.LanthornEvents : Prop :=
∀ (s : State),
    (∀ p order bulk, s.lan.lstat = .member → p < 24 →
      let l := s.lan
      let h := aget 0 l.holder p
      let passed (u : State) : Prop := aget 0 u.lan.holder p = s.nextHolder p h ∧ SameMemory s u
      let hold := Instr.flameHold p order bulk
      (p = 0 → h = l.index → l.oq = [] → Leads hold s fun u => passed u ∧ u.lan.holds = l.holds)
        ∧ (∀ q rest, p = 0 → h = l.index → l.oq = q :: rest → Leads hold s fun u =>
          passed u ∧ u.lan.oq = rest ++ l.oqOut.take (32 - rest.length) ∧ u.lan.holds = l.holds ++ [{ sender := h, body := q.body, slot := q.slot }])
        ∧ (∀ b, p = 0 → h ≠ l.index → order = some b → Leads hold s fun u =>
          passed u ∧ u.lan.oq = l.oq ∧ u.lan.holds = l.holds ++ [{ sender := h, body := b, slot := none }])
        ∧ (∀ q rest, p ≠ 0 → h = l.index → aget [] l.bq p = q :: rest → Leads hold s fun u =>
          passed u ∧ aget [] u.lan.bq p = rest
            ∧ aget [] u.lan.bholds p = aget [] l.bholds p ++ [{ sender := h, body := q.body, slot := some q.slot }])
        ∧ (h ≠ l.index → s.cycle < aget 0 l.heard p + 1400 → Leads (.flameTimeout p) s fun u => u = s)
        ∧ (h ≠ l.index → aget 0 l.heard p + 1400 ≤ s.cycle → l.index < l.members → l.index ∉ l.gone → l.index ∉ l.absent →
          Leads (.flameTimeout p) s fun u =>
            h ∈ u.lan.gone ∧ aget 0 u.lan.holder p ∉ u.lan.gone ∧ u.slots = s.slots ∧ u.mem = s.mem))
      ∧ (∀ h rest, s.lan.holds = h :: rest → Leads .orderEventApply s fun u =>
          u.lan.holds = rest ∧ u.lan.levt = s.lan.levt + 1
            ∧ ∀ t ch pay, h.body = .post t ch pay → let n := aget 0 s.lan.tseq t.toNat + 1
              aget 0 u.lan.tseq t.toNat = n ∧ ∀ q, h.slot = some q → u.slot q = { s.slot q with lan := .done n })
      ∧ (∀ p h rest base, aget [] s.lan.bholds p = h :: rest →
        s.sysLoc (BitVec.ofNat 52 (s.lan.region p)) = some (.dram base) → (s.lan.plane p).getLsbD 63 = true →
        let at_ := base + 0x200 + h.body.off
        let head := base + 8 * h.sender
        at_ + h.body.bytes.length ≤ 0x6000000000 → head + 8 ≤ 0x6000000000 → Leads (.bulkHoldApply p) s fun u =>
          let data := setBytes s.mem (zipBytes (span at_ h.body.bytes.length) h.body.bytes)
          aget [] u.lan.bholds p = rest
            ∧ u.mem = setBytes data (zipBytes (span head 8) (toBytes 8 (ofBytes ((span head 8).map (aget 0 data)) + 1)))
            ∧ (∀ w, w ∈ u.waiters → w.word ≠ head / 8)
            ∧ ∀ q, h.slot = some q → u.slot q = { s.slot q with lan := .done 0 })
      ∧ (s.lan.lstat = .member → Leads .lanthornLeave s fun u =>
          u.lan.lstat = .left ∧ ∃ unit, packageEvent 6 unit 0x30 0 ∈ u.events)
      ∧ (s.lan.lstat = .aligning → Leads .lanthornLeave s fun u => u.lan = { s.lan with lstat := .left } ∧ u.slots = s.slots)
      ∧ ∀ v : W64, s.lan.lstat = .aligning → s.aligning = none → s.mayAlign = true → Leads (.timebaseAlign v) s fun u =>
          (v.toNat < s.timeb.toNat → u = { s with aligning := some v })
            ∧ (s.timeb.toNat ≤ v.toNat → u.timeb = v ∧ u.lan.lstat = .member ∧ u.aligning = none
              ∧ (s.formsGroup = true → ∀ n, aget 0 u.lan.holder n = 0 ∧ aget 0 u.lan.tseq n = 0))

/-! ### The whole machine -/

/-- R36 to R45: every well-formed instruction is encoded in one to five halfwords, and decoding them gives it back, with
its length. -/
def Obligations.EncodingRoundTrip : Prop :=
∀ i : Instr, isEvent i = false → wellFormed i = true →
    ∃ ch, decode (encode i) = .ok (i, ch) ∧ ch.len = (encode i).length ∧ 1 ≤ ch.len ∧ ch.len ≤ 5

/-- R40, R47, R57: the decoder gives well-formed instructions alone, and no event. -/
def Obligations.DecodedWellFormed : Prop :=
∀ (hs : List Half) (i : Instr) (ch : Chain), decode hs = .ok (i, ch) →
    wellFormed i = true ∧ isEvent i = false ∧ 1 ≤ ch.len ∧ ch.len ≤ 5 ∧ ch.len ≤ hs.length

/-- R49, R63 and the tables of examples of spec/: the halfwords of some instructions of every family, as the tables
write them, decode to these instructions. R40, R47, R49: halfwords whose decoding is a trap: a page prefix that is not
first, a second MD, a fourth IMX, a fifth prefix, an OPX that LD does not accept, page 5, a reserved scope, an
unassigned major. -/
def Obligations.DecodedWords : Prop :=
  (∀ hs i, (hs, i) ∈ ([
      ([0x0370], .ld .w64 { p := 3, am := .post } MD.zero), ([0x0923], .div .w32 { p := 1, am := .plain } MD.zero),
      ([0xFC02, 0x1020], .fadd .l32 { p := 0, am := .plain } { MD.zero with rnd := .rtz }),
      ([0xF002, 0x1B88], .ldi 5000), ([0x48BF], .sar 63), ([0x6AFA], .bnz (-6)), ([0x7064], .call 100),
      ([0x5463], .padda 4 3), ([0x609F], .cvt 0 true false .i64 .f64), ([0x82F9], .wait 2 7 3 1), ([0x8BF1], .rep 15 3 1),
      ([0x9228], .sfuExp2 69), ([0x9D01], .tagf 5), ([0xF880, 0xF402, 0x0703], .tcfg 3 .e64 3 (some (.slot 2))),
      ([0xF880, 0x1391], .vld 3 145 MD.zero),
      ([0xF880, 0xF50C, 0xF4A0, 0x3C8D], .vfma .f32 145 (some 67) (some 40) MD.zero),
      ([0xF900, 0xF40F, 0x0A00], .mzero 64 (some 15)), ([0xF900, 0xF700, 0x0A03], .mrot true 0 (some 6)),
      ([0xF900, 0xF40F, 0x1100], .fnew 1 (some 15)), ([0xF980, 0x00FB], .gutret (-5)), ([0xF980, 0xF001, 0x0824], .trap 100),
      ([0xF980, 0x08D1], .mts 17), ([0xF980, 0x1045], .arrive 5), ([0xF980, 0xF401, 0x1A00], .copy 2 1),
      ([0xF980, 0x2806], .fence .system), ([0xF980, 0xF580, 0x3129],
        .amocas .l32 { p := 1, am := .plain } (some { p := 3, am := .plain }) MD.zero),
      ([0xF980, 0x3A31], .stfut .l64 { p := 2, am := .plain } MD.zero), ([0xFA00, 0xF401, 0x0104], .caseget 1 true)]
      : List (List Half × Instr)) → ∃ ch, decode hs = .ok (i, ch) ∧ ch.len = hs.length)
  ∧ (∀ hs e, (hs, e) ∈ ([
      ([0xF002, 0xF880, 0x3C8D], .illegalPrefix 1), ([0xFC02, 0xFC00, 0x1020], .illegalPrefix 1),
      ([0xF002, 0xF002, 0xF002, 0xF002, 0x1896], .illegalPrefix 3),
      ([0xF880, 0xF002, 0xF002, 0xF620, 0xFC00, 0x0000], .illegalPrefix 4), ([0xF620, 0x0370], .illegalPrefix 0),
      ([0xFA80, 0x0000], .reserved 0 2), ([0xFCF0, 0x0230], .reserved 0 2), ([0xA000], .reserved 0 1)]
      : List (List Half × DecodeError)) → decode hs = .error e)

/-- R46 to R48, R152: a step takes the first event that waits. With none left it is the turn of the next slot that issues:
the instruction that the halfwords at its PC decode to is performed from the state in which the turn has been marked, the
core having issued in this cycle and the slot waiting until its next turn; a load of page 0 or an atomic may instead set out
there, hold its thread, and be performed when its access completes, which is left open (R143, R151); where they cannot be
fetched or decoded, the trap is taken. Every step is numbered. -/
def Obligations.StepRuns : Prop :=
∀ (s : State),
    let counts (o : Outcome) (t : State) : Prop := o = .next t → step s = .next { t with nd := t.nd + 1 }
    (∀ i rest, s.inputs = i :: rest → isEvent i = true → ∀ t, counts (exec i { s with inputs := rest }) t)
      ∧ (s.inputs = [] → s.nextIssue = none → ∀ t, counts (.next s.tick) t)
      ∧ ∀ t, s.inputs = [] → s.nextIssue = some t → s.boundaryTrap t = none →
        let x := s.slot t
        let c := s.core (coreOf t)
        let s1 : State := { ((s.setSlot t { x with ready := c.clock.after s.cycle 8 }).setCore (coreOf t)
          { c with last := some (t % 16), next := c.clock.after s.cycle 1, passed := s.passedBy t }) with
            cur := t, chain := {}, inSeq := none }
        (∀ (hs : List Half) i ch, decode hs = .ok (i, ch) → hs.length = ch.len →
            (∀ n, n < hs.length → s1.fetchHalf (x.pc + BitVec.ofNat 48 (2 * n)) = .ok (hs.getD n 0)) →
            (s1.fetchMisses x.pc ch.len = [] → ∀ u,
                let s2 : State := { s1.served with chain := ch }
                (s2.flightOf i = none → counts (exec i s2) u)
                  ∧ ∀ f, s2.flightOf i = some f → f.instr = i ∧ f.chain = ch ∧ flyingOps i ≠ []
                    ∧ counts (.next (s2.setMe { s2.me with busy := true, flight := some f })) u)
              ∧ (s1.fetchMisses x.pc ch.len ≠ [] → ∀ u, counts (.next (s1.bring (s1.fetchMisses x.pc ch.len))) u))
          ∧ ∀ f n, s1.fetchInstr x.pc = .trap f n → ∀ u, counts (.next (s1.takeTrap t x.pc n f)) u

/-- R152: a core issues from the first ready slot in rotation after the slot that issued last, once in a cycle. That among at
most 8 contending slots one whose 8 cycles end in this very cycle goes first, so that its turn is exactly 8 cycles (R143,
R150), until a slot has been passed over in the cycle in which it was due, is the model's reading (DEDUCED, log 92). R125,
R126, R149: with no alignment under way, seven cycles of 1.4 GHz add 5 ns to the time base, at the end of the last of
them, and change no thread, no core and no byte of memory. -/
def Obligations.IssueAndCycles : Prop :=
  (∀ (s : State) (c k : Nat), k < 16 →
    let first := match (s.core c).last with | some n => n + 1 | none => 0
    let slot (j : Nat) : Nat := 16 * c + (first + j) % 16
    let exact_ : Prop := ((List.range 16).filter fun j => s.contends (slot j)).length ≤ 8
      ∧ ∀ j, j < 16 → s.contends (slot j) = true → (first + j) % 16 ∉ (s.core c).passed
    (s.cycle < (s.core c).next → s.coreIssue c = none)
      ∧ ((s.core c).next ≤ s.cycle → exact_ → s.slotDue (slot k) = true → (∀ j, j < k → s.slotDue (slot j) = false) →
        s.coreIssue c = some (slot k))
      ∧ ((s.core c).next ≤ s.cycle → (exact_ → ∀ j, j < 16 → s.slotDue (slot j) = false) → s.slotReady (slot k) = true →
        (∀ j, j < k → s.slotReady (slot j) = false) → s.coreIssue c = some (slot k)))
  ∧ (∀ (s : State), s.aligning = none → s.tick.timeb = s.timeb + (if s.phase7 = 6 then 5 else 0))
  ∧ (∀ (s : State), s.aligning = none → s.phase7 < 7 →
    let t := s.tick.tick.tick.tick.tick.tick.tick
    t.timeb = s.timeb + 5 ∧ t.cycle = s.cycle + 7 ∧ t.phase7 = s.phase7 ∧ t.slots = s.slots ∧ t.cores = s.cores
      ∧ t.mem = s.mem)

/-- R58: every instruction and every event is answered with a next state; a step stops only where what waits as an input
is no event. -/
def Obligations.Answers : Prop :=
(∀ (i : Instr) (s : State), ∃ t, exec i s = .next t)
    ∧ ∀ s : State, (∃ t, step s = .next t)
      ∨ (step s = .fault .notAnEvent ∧ ∃ i rest, s.inputs = i :: rest ∧ isEvent i = false)

/-- Every step keeps memory in its canonical form, and the inputs that wait events; so a run from such a state never
stops. -/
def Obligations.SafeKept : Prop :=
(∀ s : State, s.safe = true → ∃ t, step s = .next t ∧ t.safe = true) ∧ ∀ (k : Nat) (s : State), s.safe = true → safeRun k s

/-- The state after reset is safe: nothing is listed in memory, and nothing waits. R394: after reset DEVST shows reset,
PKGID, the roots, LLROOT, the energy counts, the time base, the event and second-stage registers, OMAP, the cause table,
the fabric's and the Lanthorn's registers read 0, PCAP and ELEFT their values and WAYM 0xFFFF. -/
def Obligations.ResetState : Prop :=
  (State.reset.safe = true)
  ∧ (let r := State.reset.regs
  r.devst = .reset ∧ r.pkgid = 0 ∧ r.llroot = 0 ∧ r.cap = 3200 ∧ r.burst = 32000 ∧ r.eleft = 1000 * 32000 ∧ r.eunatt = 0
    ∧ State.reset.timeb = 0 ∧ r.evb = 0 ∧ r.evctl = 0 ∧ r.logBits = 8 ∧ r.evp = 0 ∧ r.evc = 0 ∧ r.s2req = 0 ∧ r.s2done = 0
    ∧ State.reset.lan.lgrp = 0 ∧ State.reset.lan.lstat = .off
    ∧ ∀ n, State.reset.rootOf n = 0 ∧ aget 0 r.s2root n = 0 ∧ r.waymOf n = 0xFFFF ∧ r.omapOf n = 0 ∧ aget 0 r.ctab n = 0
      ∧ aget 0 State.reset.fab.routes n = 0 ∧ (aget {} State.reset.fab.keys n).valid = false
      ∧ (aget {} State.reset.fab.rates n).red = false ∧ (aget {} State.reset.fab.rates n).floor = 0
      ∧ aget 0 State.reset.lan.llog n = 0 ∧ aget 0 State.reset.lan.lpln n = 0)

/-- R22, R228, R230, R233: an instruction of a thread at user privilege leaves it at user privilege, or its thread has
taken a trap and stands one trap level higher. -/
def Obligations.PrivilegeRises : Prop :=
∀ (i : Instr) (s t : State), isEvent i = false → s.inSeq = none → s.me.st.pl = 0#2 → exec i s = .next t →
    (t.slot s.cur).st.pl = 0#2 ∨ (t.slot s.cur).st.tl = s.me.st.tl + 1
end

