-- ==== Sys2Proof/Laws/Assoc.lean ====
section
/-! SUPPORT. Sparse data: reading after setting, and that setting keeps the canonical form. -/

namespace Sys2Proof.Machine

variable {β : Type}

@[simp] theorem aget_nil (d : β) (i : Nat) : aget d [] i = d := rfl

theorem aget_cons (d : β) (k : Nat) (v : β) (m : Assoc β) (i : Nat) :
    aget d ((k, v) :: m) i = if k = i then v else aget d m i := rfl

/-- Removing a key leaves the default there. -/
theorem aget_aerase (d : β) (m : Assoc β) (i j : Nat) :
    aget d (aerase m i) j = if j = i then d else aget d m j := by
  induction m with
  | nil => simp [aerase]
  | cons e m ih =>
    obtain ⟨k, v⟩ := e
    unfold aerase at ih ⊢
    by_cases hk : k = i
    · subst hk
      rw [List.filter_cons_of_neg (by simp), ih, aget_cons]
      by_cases hj : j = k
      · simp [hj]
      · simp [hj, Ne.symm hj]
    · rw [List.filter_cons_of_pos (by simpa using hk), aget_cons, aget_cons, ih]
      by_cases hkj : k = j
      · subst hkj; simp [hk]
      · simp [hkj]

/-- Putting an entry is read at its key and nowhere else. -/
theorem aget_aput (d : β) (m : Assoc β) (i : Nat) (x : β) (j : Nat) :
    aget d (aput m i x) j = if j = i then x else aget d m j := by
  induction m with
  | nil =>
    by_cases h : i = j
    · simp [aput, aget_cons, h]
    · simp [aput, aget_cons, h, Ne.symm h]
  | cons e m ih =>
    obtain ⟨k, v⟩ := e
    unfold aput
    by_cases hk : k = i
    · subst hk
      simp only [if_pos, aget_cons]
      by_cases hj : k = j
      · simp [hj]
      · simp [hj, Ne.symm hj]
    · by_cases hlt : i < k
      · simp only [if_neg hk, if_pos hlt, aget_cons]
        by_cases hj : i = j
        · simp [hj]
        · simp [hj, Ne.symm hj]
      · simp only [if_neg hk, if_neg hlt, aget_cons, ih]
        by_cases hj : k = j
        · subst hj; simp [hk]
        · simp [hj]

/-- Reading after setting. -/
@[simp] theorem aget_aset [DecidableEq β] (d : β) (m : Assoc β) (i : Nat) (x : β) (j : Nat) :
    aget d (aset d m i x) j = if j = i then x else aget d m j := by
  unfold aset
  split
  · next h => rw [aget_aerase, h]
  · rw [aget_aput]

/-! ### The canonical form -/

theorem risesFrom_le {m : Assoc β} {a b : Nat} (h : risesFrom b m = true) (hab : a ≤ b) : risesFrom a m = true := by
  cases m with
  | nil => rfl
  | cons e m =>
    simp only [risesFrom, Bool.and_eq_true, decide_eq_true_eq] at h ⊢
    exact ⟨Nat.le_trans hab h.1, h.2⟩

theorem risesFrom_filter {m : Assoc β} (p : Nat × β → Bool) :
    ∀ {a : Nat}, risesFrom a m = true → risesFrom a (m.filter p) = true := by
  induction m with
  | nil => intro a h; exact h
  | cons e m ih =>
    intro a h
    simp only [risesFrom, Bool.and_eq_true, decide_eq_true_eq] at h
    by_cases hp : p e
    · rw [List.filter_cons_of_pos hp]
      simp only [risesFrom, Bool.and_eq_true, decide_eq_true_eq]
      exact ⟨h.1, ih h.2⟩
    · rw [List.filter_cons_of_neg hp]
      exact ih (risesFrom_le h.2 (by omega))

theorem risesFrom_aput {m : Assoc β} {i : Nat} {x : β} :
    ∀ {a : Nat}, risesFrom a m = true → a ≤ i → risesFrom a (aput m i x) = true := by
  induction m with
  | nil => intro a _ ha; simp [aput, risesFrom, ha]
  | cons e m ih =>
    obtain ⟨k, v⟩ := e
    intro a h ha
    simp only [risesFrom, Bool.and_eq_true, decide_eq_true_eq] at h
    unfold aput
    split
    · next hk => subst hk; simp [risesFrom, h.1, h.2]
    · next hk =>
      split
      · next hlt =>
        simp only [risesFrom, Bool.and_eq_true, decide_eq_true_eq]
        exact ⟨ha, by omega, h.2⟩
      · next hlt =>
        simp only [risesFrom, Bool.and_eq_true, decide_eq_true_eq]
        exact ⟨h.1, ih h.2 (by omega)⟩

theorem mem_aput {m : Assoc β} {i : Nat} {x : β} {e : Nat × β} (h : e ∈ aput m i x) : e = (i, x) ∨ e ∈ m := by
  induction m with
  | nil => simpa [aput] using h
  | cons f m ih =>
    obtain ⟨k, v⟩ := f
    unfold aput at h
    split at h
    · rcases List.mem_cons.1 h with h | h
      · exact .inl h
      · exact .inr (List.mem_cons_of_mem _ h)
    · split at h
      · rcases List.mem_cons.1 h with h | h
        · exact .inl h
        · exact .inr h
      · rcases List.mem_cons.1 h with h | h
        · exact .inr (h ▸ List.mem_cons_self ..)
        · rcases ih h with h | h
          · exact .inl h
          · exact .inr (List.mem_cons_of_mem _ h)

theorem awf_iff [DecidableEq β] (d : β) (m : Assoc β) :
    awf d m = true ↔ risesFrom 0 m = true ∧ ∀ e ∈ m, e.2 ≠ d := by
  simp [awf, List.all_eq_true]

@[simp] theorem awf_nil [DecidableEq β] (d : β) : awf d ([] : Assoc β) = true := rfl

theorem awf_filter [DecidableEq β] {d : β} {m : Assoc β} (p : Nat × β → Bool) (h : awf d m = true) :
    awf d (m.filter p) = true := by
  rw [awf_iff] at h ⊢
  exact ⟨risesFrom_filter p h.1, fun e he => h.2 e (List.mem_filter.1 he).1⟩

/-- Setting keeps the canonical form. -/
theorem awf_aset [DecidableEq β] {d : β} {m : Assoc β} (i : Nat) (x : β) (h : awf d m = true) :
    awf d (aset d m i x) = true := by
  unfold aset
  split
  · exact awf_filter _ h
  · next hx =>
    rw [awf_iff] at h ⊢
    refine ⟨risesFrom_aput h.1 (Nat.zero_le _), fun e he => ?_⟩
    rcases mem_aput he with he | he
    · rw [he]; exact hx
    · exact h.2 e he

/-! ### Sets of numbers -/

@[simp] theorem mem_nput {m : List Nat} {i j : Nat} : j ∈ nput m i ↔ j = i ∨ j ∈ m := by
  induction m with
  | nil => simp [nput]
  | cons k m ih =>
    unfold nput
    split
    · next h => subst h; simp
    · split
      · simp
      · simp [ih, or_left_comm]

@[simp] theorem mem_ndel {m : List Nat} {i j : Nat} : j ∈ ndel m i ↔ j ≠ i ∧ j ∈ m := by
  simp [ndel, and_comm]

end Sys2Proof.Machine
end

