-- ==== Sys2Proof/Laws/State.lean ====
section
/-! SUPPORT. What each plain update of the state leaves unchanged, field by field, and what is read after it. -/

namespace Sys2Proof.Machine
open Sys2Proof

/-! ### Fields that an update leaves alone -/

@[simp] theorem setSlot_mem (s : State) (i : Nat) (x : Slot) : (s.setSlot i x).mem = s.mem := rfl
@[simp] theorem setSlot_hist (s : State) (i : Nat) (x : Slot) : (s.setSlot i x).hist = s.hist := rfl
@[simp] theorem setSlot_lines (s : State) (i : Nat) (x : Slot) : (s.setSlot i x).lines = s.lines := rfl
@[simp] theorem setSlot_l2 (s : State) (i : Nat) (x : Slot) : (s.setSlot i x).l2 = s.l2 := rfl
@[simp] theorem setSlot_ghosts (s : State) (i : Nat) (x : Slot) : (s.setSlot i x).ghosts = s.ghosts := rfl
@[simp] theorem setSlot_syncs (s : State) (i : Nat) (x : Slot) : (s.setSlot i x).syncs = s.syncs := rfl
@[simp] theorem setSlot_oldRoots (s : State) (i : Nat) (x : Slot) : (s.setSlot i x).oldRoots = s.oldRoots := rfl
@[simp] theorem setSlot_invals (s : State) (i : Nat) (x : Slot) : (s.setSlot i x).invals = s.invals := rfl
@[simp] theorem setSlot_invNext (s : State) (i : Nat) (x : Slot) : (s.setSlot i x).invNext = s.invNext := rfl
@[simp] theorem setSlot_cores (s : State) (i : Nat) (x : Slot) : (s.setSlot i x).cores = s.cores := rfl
@[simp] theorem setSlot_octets (s : State) (i : Nat) (x : Slot) : (s.setSlot i x).octets = s.octets := rfl
@[simp] theorem setSlot_clusters (s : State) (i : Nat) (x : Slot) : (s.setSlot i x).clusters = s.clusters := rfl
@[simp] theorem setSlot_waiters (s : State) (i : Nat) (x : Slot) : (s.setSlot i x).waiters = s.waiters := rfl
@[simp] theorem setSlot_launches (s : State) (i : Nat) (x : Slot) : (s.setSlot i x).launches = s.launches := rfl
@[simp] theorem setSlot_nodes (s : State) (i : Nat) (x : Slot) : (s.setSlot i x).nodes = s.nodes := rfl
@[simp] theorem setSlot_snoops (s : State) (i : Nat) (x : Slot) : (s.setSlot i x).snoops = s.snoops := rfl
@[simp] theorem setSlot_serials (s : State) (i : Nat) (x : Slot) : (s.setSlot i x).serials = s.serials := rfl
@[simp] theorem setSlot_decide (s : State) (i : Nat) (x : Slot) : (s.setSlot i x).decide = s.decide := rfl
@[simp] theorem setSlot_bindings (s : State) (i : Nat) (x : Slot) : (s.setSlot i x).bindings = s.bindings := rfl
@[simp] theorem setSlot_flights (s : State) (i : Nat) (x : Slot) : (s.setSlot i x).flights = s.flights := rfl
@[simp] theorem setSlot_migrants (s : State) (i : Nat) (x : Slot) : (s.setSlot i x).migrants = s.migrants := rfl
@[simp] theorem setSlot_stored (s : State) (i : Nat) (x : Slot) : (s.setSlot i x).stored = s.stored := rfl
@[simp] theorem setSlot_regs (s : State) (i : Nat) (x : Slot) : (s.setSlot i x).regs = s.regs := rfl
@[simp] theorem setSlot_fab (s : State) (i : Nat) (x : Slot) : (s.setSlot i x).fab = s.fab := rfl
@[simp] theorem setSlot_lan (s : State) (i : Nat) (x : Slot) : (s.setSlot i x).lan = s.lan := rfl
@[simp] theorem setSlot_thermal (s : State) (i : Nat) (x : Slot) : (s.setSlot i x).thermal = s.thermal := rfl
@[simp] theorem setSlot_events (s : State) (i : Nat) (x : Slot) : (s.setSlot i x).events = s.events := rfl
@[simp] theorem setSlot_evseq (s : State) (i : Nat) (x : Slot) : (s.setSlot i x).evseq = s.evseq := rfl
@[simp] theorem setSlot_msix (s : State) (i : Nat) (x : Slot) : (s.setSlot i x).msix = s.msix := rfl
@[simp] theorem setSlot_corrected (s : State) (i : Nat) (x : Slot) : (s.setSlot i x).corrected = s.corrected := rfl
@[simp] theorem setSlot_power (s : State) (i : Nat) (x : Slot) : (s.setSlot i x).power = s.power := rfl
@[simp] theorem setSlot_images (s : State) (i : Nat) (x : Slot) : (s.setSlot i x).images = s.images := rfl
@[simp] theorem setSlot_staged (s : State) (i : Nat) (x : Slot) : (s.setSlot i x).staged = s.staged := rfl
@[simp] theorem setSlot_mgmt (s : State) (i : Nat) (x : Slot) : (s.setSlot i x).mgmt = s.mgmt := rfl
@[simp] theorem setSlot_hostData (s : State) (i : Nat) (x : Slot) : (s.setSlot i x).hostData = s.hostData := rfl
@[simp] theorem setSlot_timeb (s : State) (i : Nat) (x : Slot) : (s.setSlot i x).timeb = s.timeb := rfl
@[simp] theorem setSlot_phase7 (s : State) (i : Nat) (x : Slot) : (s.setSlot i x).phase7 = s.phase7 := rfl
@[simp] theorem setSlot_cycle (s : State) (i : Nat) (x : Slot) : (s.setSlot i x).cycle = s.cycle := rfl
@[simp] theorem setSlot_aligning (s : State) (i : Nat) (x : Slot) : (s.setSlot i x).aligning = s.aligning := rfl
@[simp] theorem setSlot_inputs (s : State) (i : Nat) (x : Slot) : (s.setSlot i x).inputs = s.inputs := rfl
@[simp] theorem setSlot_cur (s : State) (i : Nat) (x : Slot) : (s.setSlot i x).cur = s.cur := rfl
@[simp] theorem setSlot_chain (s : State) (i : Nat) (x : Slot) : (s.setSlot i x).chain = s.chain := rfl
@[simp] theorem setSlot_inSeq (s : State) (i : Nat) (x : Slot) : (s.setSlot i x).inSeq = s.inSeq := rfl
@[simp] theorem setSlot_nd (s : State) (i : Nat) (x : Slot) : (s.setSlot i x).nd = s.nd := rfl

@[simp] theorem setMe_mem (s : State) (x : Slot) : (s.setMe x).mem = s.mem := rfl
@[simp] theorem setMe_hist (s : State) (x : Slot) : (s.setMe x).hist = s.hist := rfl
@[simp] theorem setMe_lines (s : State) (x : Slot) : (s.setMe x).lines = s.lines := rfl
@[simp] theorem setMe_l2 (s : State) (x : Slot) : (s.setMe x).l2 = s.l2 := rfl
@[simp] theorem setMe_ghosts (s : State) (x : Slot) : (s.setMe x).ghosts = s.ghosts := rfl
@[simp] theorem setMe_syncs (s : State) (x : Slot) : (s.setMe x).syncs = s.syncs := rfl
@[simp] theorem setMe_oldRoots (s : State) (x : Slot) : (s.setMe x).oldRoots = s.oldRoots := rfl
@[simp] theorem setMe_invals (s : State) (x : Slot) : (s.setMe x).invals = s.invals := rfl
@[simp] theorem setMe_invNext (s : State) (x : Slot) : (s.setMe x).invNext = s.invNext := rfl
@[simp] theorem setMe_cores (s : State) (x : Slot) : (s.setMe x).cores = s.cores := rfl
@[simp] theorem setMe_octets (s : State) (x : Slot) : (s.setMe x).octets = s.octets := rfl
@[simp] theorem setMe_clusters (s : State) (x : Slot) : (s.setMe x).clusters = s.clusters := rfl
@[simp] theorem setMe_waiters (s : State) (x : Slot) : (s.setMe x).waiters = s.waiters := rfl
@[simp] theorem setMe_launches (s : State) (x : Slot) : (s.setMe x).launches = s.launches := rfl
@[simp] theorem setMe_nodes (s : State) (x : Slot) : (s.setMe x).nodes = s.nodes := rfl
@[simp] theorem setMe_snoops (s : State) (x : Slot) : (s.setMe x).snoops = s.snoops := rfl
@[simp] theorem setMe_serials (s : State) (x : Slot) : (s.setMe x).serials = s.serials := rfl
@[simp] theorem setMe_decide (s : State) (x : Slot) : (s.setMe x).decide = s.decide := rfl
@[simp] theorem setMe_bindings (s : State) (x : Slot) : (s.setMe x).bindings = s.bindings := rfl
@[simp] theorem setMe_flights (s : State) (x : Slot) : (s.setMe x).flights = s.flights := rfl
@[simp] theorem setMe_migrants (s : State) (x : Slot) : (s.setMe x).migrants = s.migrants := rfl
@[simp] theorem setMe_stored (s : State) (x : Slot) : (s.setMe x).stored = s.stored := rfl
@[simp] theorem setMe_regs (s : State) (x : Slot) : (s.setMe x).regs = s.regs := rfl
@[simp] theorem setMe_fab (s : State) (x : Slot) : (s.setMe x).fab = s.fab := rfl
@[simp] theorem setMe_lan (s : State) (x : Slot) : (s.setMe x).lan = s.lan := rfl
@[simp] theorem setMe_thermal (s : State) (x : Slot) : (s.setMe x).thermal = s.thermal := rfl
@[simp] theorem setMe_events (s : State) (x : Slot) : (s.setMe x).events = s.events := rfl
@[simp] theorem setMe_evseq (s : State) (x : Slot) : (s.setMe x).evseq = s.evseq := rfl
@[simp] theorem setMe_msix (s : State) (x : Slot) : (s.setMe x).msix = s.msix := rfl
@[simp] theorem setMe_corrected (s : State) (x : Slot) : (s.setMe x).corrected = s.corrected := rfl
@[simp] theorem setMe_power (s : State) (x : Slot) : (s.setMe x).power = s.power := rfl
@[simp] theorem setMe_images (s : State) (x : Slot) : (s.setMe x).images = s.images := rfl
@[simp] theorem setMe_staged (s : State) (x : Slot) : (s.setMe x).staged = s.staged := rfl
@[simp] theorem setMe_mgmt (s : State) (x : Slot) : (s.setMe x).mgmt = s.mgmt := rfl
@[simp] theorem setMe_hostData (s : State) (x : Slot) : (s.setMe x).hostData = s.hostData := rfl
@[simp] theorem setMe_timeb (s : State) (x : Slot) : (s.setMe x).timeb = s.timeb := rfl
@[simp] theorem setMe_phase7 (s : State) (x : Slot) : (s.setMe x).phase7 = s.phase7 := rfl
@[simp] theorem setMe_cycle (s : State) (x : Slot) : (s.setMe x).cycle = s.cycle := rfl
@[simp] theorem setMe_aligning (s : State) (x : Slot) : (s.setMe x).aligning = s.aligning := rfl
@[simp] theorem setMe_inputs (s : State) (x : Slot) : (s.setMe x).inputs = s.inputs := rfl
@[simp] theorem setMe_cur (s : State) (x : Slot) : (s.setMe x).cur = s.cur := rfl
@[simp] theorem setMe_chain (s : State) (x : Slot) : (s.setMe x).chain = s.chain := rfl
@[simp] theorem setMe_inSeq (s : State) (x : Slot) : (s.setMe x).inSeq = s.inSeq := rfl
@[simp] theorem setMe_nd (s : State) (x : Slot) : (s.setMe x).nd = s.nd := rfl

@[simp] theorem setCore_mem (s : State) (i : Nat) (x : Core) : (s.setCore i x).mem = s.mem := rfl
@[simp] theorem setCore_hist (s : State) (i : Nat) (x : Core) : (s.setCore i x).hist = s.hist := rfl
@[simp] theorem setCore_lines (s : State) (i : Nat) (x : Core) : (s.setCore i x).lines = s.lines := rfl
@[simp] theorem setCore_l2 (s : State) (i : Nat) (x : Core) : (s.setCore i x).l2 = s.l2 := rfl
@[simp] theorem setCore_ghosts (s : State) (i : Nat) (x : Core) : (s.setCore i x).ghosts = s.ghosts := rfl
@[simp] theorem setCore_syncs (s : State) (i : Nat) (x : Core) : (s.setCore i x).syncs = s.syncs := rfl
@[simp] theorem setCore_oldRoots (s : State) (i : Nat) (x : Core) : (s.setCore i x).oldRoots = s.oldRoots := rfl
@[simp] theorem setCore_invals (s : State) (i : Nat) (x : Core) : (s.setCore i x).invals = s.invals := rfl
@[simp] theorem setCore_invNext (s : State) (i : Nat) (x : Core) : (s.setCore i x).invNext = s.invNext := rfl
@[simp] theorem setCore_slots (s : State) (i : Nat) (x : Core) : (s.setCore i x).slots = s.slots := rfl
@[simp] theorem setCore_octets (s : State) (i : Nat) (x : Core) : (s.setCore i x).octets = s.octets := rfl
@[simp] theorem setCore_clusters (s : State) (i : Nat) (x : Core) : (s.setCore i x).clusters = s.clusters := rfl
@[simp] theorem setCore_waiters (s : State) (i : Nat) (x : Core) : (s.setCore i x).waiters = s.waiters := rfl
@[simp] theorem setCore_launches (s : State) (i : Nat) (x : Core) : (s.setCore i x).launches = s.launches := rfl
@[simp] theorem setCore_nodes (s : State) (i : Nat) (x : Core) : (s.setCore i x).nodes = s.nodes := rfl
@[simp] theorem setCore_snoops (s : State) (i : Nat) (x : Core) : (s.setCore i x).snoops = s.snoops := rfl
@[simp] theorem setCore_serials (s : State) (i : Nat) (x : Core) : (s.setCore i x).serials = s.serials := rfl
@[simp] theorem setCore_decide (s : State) (i : Nat) (x : Core) : (s.setCore i x).decide = s.decide := rfl
@[simp] theorem setCore_bindings (s : State) (i : Nat) (x : Core) : (s.setCore i x).bindings = s.bindings := rfl
@[simp] theorem setCore_flights (s : State) (i : Nat) (x : Core) : (s.setCore i x).flights = s.flights := rfl
@[simp] theorem setCore_migrants (s : State) (i : Nat) (x : Core) : (s.setCore i x).migrants = s.migrants := rfl
@[simp] theorem setCore_stored (s : State) (i : Nat) (x : Core) : (s.setCore i x).stored = s.stored := rfl
@[simp] theorem setCore_regs (s : State) (i : Nat) (x : Core) : (s.setCore i x).regs = s.regs := rfl
@[simp] theorem setCore_fab (s : State) (i : Nat) (x : Core) : (s.setCore i x).fab = s.fab := rfl
@[simp] theorem setCore_lan (s : State) (i : Nat) (x : Core) : (s.setCore i x).lan = s.lan := rfl
@[simp] theorem setCore_thermal (s : State) (i : Nat) (x : Core) : (s.setCore i x).thermal = s.thermal := rfl
@[simp] theorem setCore_events (s : State) (i : Nat) (x : Core) : (s.setCore i x).events = s.events := rfl
@[simp] theorem setCore_evseq (s : State) (i : Nat) (x : Core) : (s.setCore i x).evseq = s.evseq := rfl
@[simp] theorem setCore_msix (s : State) (i : Nat) (x : Core) : (s.setCore i x).msix = s.msix := rfl
@[simp] theorem setCore_corrected (s : State) (i : Nat) (x : Core) : (s.setCore i x).corrected = s.corrected := rfl
@[simp] theorem setCore_power (s : State) (i : Nat) (x : Core) : (s.setCore i x).power = s.power := rfl
@[simp] theorem setCore_images (s : State) (i : Nat) (x : Core) : (s.setCore i x).images = s.images := rfl
@[simp] theorem setCore_staged (s : State) (i : Nat) (x : Core) : (s.setCore i x).staged = s.staged := rfl
@[simp] theorem setCore_mgmt (s : State) (i : Nat) (x : Core) : (s.setCore i x).mgmt = s.mgmt := rfl
@[simp] theorem setCore_hostData (s : State) (i : Nat) (x : Core) : (s.setCore i x).hostData = s.hostData := rfl
@[simp] theorem setCore_timeb (s : State) (i : Nat) (x : Core) : (s.setCore i x).timeb = s.timeb := rfl
@[simp] theorem setCore_phase7 (s : State) (i : Nat) (x : Core) : (s.setCore i x).phase7 = s.phase7 := rfl
@[simp] theorem setCore_cycle (s : State) (i : Nat) (x : Core) : (s.setCore i x).cycle = s.cycle := rfl
@[simp] theorem setCore_aligning (s : State) (i : Nat) (x : Core) : (s.setCore i x).aligning = s.aligning := rfl
@[simp] theorem setCore_inputs (s : State) (i : Nat) (x : Core) : (s.setCore i x).inputs = s.inputs := rfl
@[simp] theorem setCore_cur (s : State) (i : Nat) (x : Core) : (s.setCore i x).cur = s.cur := rfl
@[simp] theorem setCore_chain (s : State) (i : Nat) (x : Core) : (s.setCore i x).chain = s.chain := rfl
@[simp] theorem setCore_inSeq (s : State) (i : Nat) (x : Core) : (s.setCore i x).inSeq = s.inSeq := rfl
@[simp] theorem setCore_nd (s : State) (i : Nat) (x : Core) : (s.setCore i x).nd = s.nd := rfl

@[simp] theorem setMyCore_mem (s : State) (x : Core) : (s.setMyCore x).mem = s.mem := rfl
@[simp] theorem setMyCore_hist (s : State) (x : Core) : (s.setMyCore x).hist = s.hist := rfl
@[simp] theorem setMyCore_lines (s : State) (x : Core) : (s.setMyCore x).lines = s.lines := rfl
@[simp] theorem setMyCore_l2 (s : State) (x : Core) : (s.setMyCore x).l2 = s.l2 := rfl
@[simp] theorem setMyCore_ghosts (s : State) (x : Core) : (s.setMyCore x).ghosts = s.ghosts := rfl
@[simp] theorem setMyCore_syncs (s : State) (x : Core) : (s.setMyCore x).syncs = s.syncs := rfl
@[simp] theorem setMyCore_oldRoots (s : State) (x : Core) : (s.setMyCore x).oldRoots = s.oldRoots := rfl
@[simp] theorem setMyCore_invals (s : State) (x : Core) : (s.setMyCore x).invals = s.invals := rfl
@[simp] theorem setMyCore_invNext (s : State) (x : Core) : (s.setMyCore x).invNext = s.invNext := rfl
@[simp] theorem setMyCore_slots (s : State) (x : Core) : (s.setMyCore x).slots = s.slots := rfl
@[simp] theorem setMyCore_octets (s : State) (x : Core) : (s.setMyCore x).octets = s.octets := rfl
@[simp] theorem setMyCore_clusters (s : State) (x : Core) : (s.setMyCore x).clusters = s.clusters := rfl
@[simp] theorem setMyCore_waiters (s : State) (x : Core) : (s.setMyCore x).waiters = s.waiters := rfl
@[simp] theorem setMyCore_launches (s : State) (x : Core) : (s.setMyCore x).launches = s.launches := rfl
@[simp] theorem setMyCore_nodes (s : State) (x : Core) : (s.setMyCore x).nodes = s.nodes := rfl
@[simp] theorem setMyCore_snoops (s : State) (x : Core) : (s.setMyCore x).snoops = s.snoops := rfl
@[simp] theorem setMyCore_serials (s : State) (x : Core) : (s.setMyCore x).serials = s.serials := rfl
@[simp] theorem setMyCore_decide (s : State) (x : Core) : (s.setMyCore x).decide = s.decide := rfl
@[simp] theorem setMyCore_bindings (s : State) (x : Core) : (s.setMyCore x).bindings = s.bindings := rfl
@[simp] theorem setMyCore_flights (s : State) (x : Core) : (s.setMyCore x).flights = s.flights := rfl
@[simp] theorem setMyCore_migrants (s : State) (x : Core) : (s.setMyCore x).migrants = s.migrants := rfl
@[simp] theorem setMyCore_stored (s : State) (x : Core) : (s.setMyCore x).stored = s.stored := rfl
@[simp] theorem setMyCore_regs (s : State) (x : Core) : (s.setMyCore x).regs = s.regs := rfl
@[simp] theorem setMyCore_fab (s : State) (x : Core) : (s.setMyCore x).fab = s.fab := rfl
@[simp] theorem setMyCore_lan (s : State) (x : Core) : (s.setMyCore x).lan = s.lan := rfl
@[simp] theorem setMyCore_thermal (s : State) (x : Core) : (s.setMyCore x).thermal = s.thermal := rfl
@[simp] theorem setMyCore_events (s : State) (x : Core) : (s.setMyCore x).events = s.events := rfl
@[simp] theorem setMyCore_evseq (s : State) (x : Core) : (s.setMyCore x).evseq = s.evseq := rfl
@[simp] theorem setMyCore_msix (s : State) (x : Core) : (s.setMyCore x).msix = s.msix := rfl
@[simp] theorem setMyCore_corrected (s : State) (x : Core) : (s.setMyCore x).corrected = s.corrected := rfl
@[simp] theorem setMyCore_power (s : State) (x : Core) : (s.setMyCore x).power = s.power := rfl
@[simp] theorem setMyCore_images (s : State) (x : Core) : (s.setMyCore x).images = s.images := rfl
@[simp] theorem setMyCore_staged (s : State) (x : Core) : (s.setMyCore x).staged = s.staged := rfl
@[simp] theorem setMyCore_mgmt (s : State) (x : Core) : (s.setMyCore x).mgmt = s.mgmt := rfl
@[simp] theorem setMyCore_hostData (s : State) (x : Core) : (s.setMyCore x).hostData = s.hostData := rfl
@[simp] theorem setMyCore_timeb (s : State) (x : Core) : (s.setMyCore x).timeb = s.timeb := rfl
@[simp] theorem setMyCore_phase7 (s : State) (x : Core) : (s.setMyCore x).phase7 = s.phase7 := rfl
@[simp] theorem setMyCore_cycle (s : State) (x : Core) : (s.setMyCore x).cycle = s.cycle := rfl
@[simp] theorem setMyCore_aligning (s : State) (x : Core) : (s.setMyCore x).aligning = s.aligning := rfl
@[simp] theorem setMyCore_inputs (s : State) (x : Core) : (s.setMyCore x).inputs = s.inputs := rfl
@[simp] theorem setMyCore_cur (s : State) (x : Core) : (s.setMyCore x).cur = s.cur := rfl
@[simp] theorem setMyCore_chain (s : State) (x : Core) : (s.setMyCore x).chain = s.chain := rfl
@[simp] theorem setMyCore_inSeq (s : State) (x : Core) : (s.setMyCore x).inSeq = s.inSeq := rfl
@[simp] theorem setMyCore_nd (s : State) (x : Core) : (s.setMyCore x).nd = s.nd := rfl

@[simp] theorem setOctet_mem (s : State) (i : Nat) (x : Octet) : (s.setOctet i x).mem = s.mem := rfl
@[simp] theorem setOctet_hist (s : State) (i : Nat) (x : Octet) : (s.setOctet i x).hist = s.hist := rfl
@[simp] theorem setOctet_lines (s : State) (i : Nat) (x : Octet) : (s.setOctet i x).lines = s.lines := rfl
@[simp] theorem setOctet_l2 (s : State) (i : Nat) (x : Octet) : (s.setOctet i x).l2 = s.l2 := rfl
@[simp] theorem setOctet_ghosts (s : State) (i : Nat) (x : Octet) : (s.setOctet i x).ghosts = s.ghosts := rfl
@[simp] theorem setOctet_syncs (s : State) (i : Nat) (x : Octet) : (s.setOctet i x).syncs = s.syncs := rfl
@[simp] theorem setOctet_oldRoots (s : State) (i : Nat) (x : Octet) : (s.setOctet i x).oldRoots = s.oldRoots := rfl
@[simp] theorem setOctet_invals (s : State) (i : Nat) (x : Octet) : (s.setOctet i x).invals = s.invals := rfl
@[simp] theorem setOctet_invNext (s : State) (i : Nat) (x : Octet) : (s.setOctet i x).invNext = s.invNext := rfl
@[simp] theorem setOctet_slots (s : State) (i : Nat) (x : Octet) : (s.setOctet i x).slots = s.slots := rfl
@[simp] theorem setOctet_cores (s : State) (i : Nat) (x : Octet) : (s.setOctet i x).cores = s.cores := rfl
@[simp] theorem setOctet_clusters (s : State) (i : Nat) (x : Octet) : (s.setOctet i x).clusters = s.clusters := rfl
@[simp] theorem setOctet_waiters (s : State) (i : Nat) (x : Octet) : (s.setOctet i x).waiters = s.waiters := rfl
@[simp] theorem setOctet_launches (s : State) (i : Nat) (x : Octet) : (s.setOctet i x).launches = s.launches := rfl
@[simp] theorem setOctet_nodes (s : State) (i : Nat) (x : Octet) : (s.setOctet i x).nodes = s.nodes := rfl
@[simp] theorem setOctet_snoops (s : State) (i : Nat) (x : Octet) : (s.setOctet i x).snoops = s.snoops := rfl
@[simp] theorem setOctet_serials (s : State) (i : Nat) (x : Octet) : (s.setOctet i x).serials = s.serials := rfl
@[simp] theorem setOctet_decide (s : State) (i : Nat) (x : Octet) : (s.setOctet i x).decide = s.decide := rfl
@[simp] theorem setOctet_bindings (s : State) (i : Nat) (x : Octet) : (s.setOctet i x).bindings = s.bindings := rfl
@[simp] theorem setOctet_flights (s : State) (i : Nat) (x : Octet) : (s.setOctet i x).flights = s.flights := rfl
@[simp] theorem setOctet_migrants (s : State) (i : Nat) (x : Octet) : (s.setOctet i x).migrants = s.migrants := rfl
@[simp] theorem setOctet_stored (s : State) (i : Nat) (x : Octet) : (s.setOctet i x).stored = s.stored := rfl
@[simp] theorem setOctet_regs (s : State) (i : Nat) (x : Octet) : (s.setOctet i x).regs = s.regs := rfl
@[simp] theorem setOctet_fab (s : State) (i : Nat) (x : Octet) : (s.setOctet i x).fab = s.fab := rfl
@[simp] theorem setOctet_lan (s : State) (i : Nat) (x : Octet) : (s.setOctet i x).lan = s.lan := rfl
@[simp] theorem setOctet_thermal (s : State) (i : Nat) (x : Octet) : (s.setOctet i x).thermal = s.thermal := rfl
@[simp] theorem setOctet_events (s : State) (i : Nat) (x : Octet) : (s.setOctet i x).events = s.events := rfl
@[simp] theorem setOctet_evseq (s : State) (i : Nat) (x : Octet) : (s.setOctet i x).evseq = s.evseq := rfl
@[simp] theorem setOctet_msix (s : State) (i : Nat) (x : Octet) : (s.setOctet i x).msix = s.msix := rfl
@[simp] theorem setOctet_corrected (s : State) (i : Nat) (x : Octet) : (s.setOctet i x).corrected = s.corrected := rfl
@[simp] theorem setOctet_power (s : State) (i : Nat) (x : Octet) : (s.setOctet i x).power = s.power := rfl
@[simp] theorem setOctet_images (s : State) (i : Nat) (x : Octet) : (s.setOctet i x).images = s.images := rfl
@[simp] theorem setOctet_staged (s : State) (i : Nat) (x : Octet) : (s.setOctet i x).staged = s.staged := rfl
@[simp] theorem setOctet_mgmt (s : State) (i : Nat) (x : Octet) : (s.setOctet i x).mgmt = s.mgmt := rfl
@[simp] theorem setOctet_hostData (s : State) (i : Nat) (x : Octet) : (s.setOctet i x).hostData = s.hostData := rfl
@[simp] theorem setOctet_timeb (s : State) (i : Nat) (x : Octet) : (s.setOctet i x).timeb = s.timeb := rfl
@[simp] theorem setOctet_phase7 (s : State) (i : Nat) (x : Octet) : (s.setOctet i x).phase7 = s.phase7 := rfl
@[simp] theorem setOctet_cycle (s : State) (i : Nat) (x : Octet) : (s.setOctet i x).cycle = s.cycle := rfl
@[simp] theorem setOctet_aligning (s : State) (i : Nat) (x : Octet) : (s.setOctet i x).aligning = s.aligning := rfl
@[simp] theorem setOctet_inputs (s : State) (i : Nat) (x : Octet) : (s.setOctet i x).inputs = s.inputs := rfl
@[simp] theorem setOctet_cur (s : State) (i : Nat) (x : Octet) : (s.setOctet i x).cur = s.cur := rfl
@[simp] theorem setOctet_chain (s : State) (i : Nat) (x : Octet) : (s.setOctet i x).chain = s.chain := rfl
@[simp] theorem setOctet_inSeq (s : State) (i : Nat) (x : Octet) : (s.setOctet i x).inSeq = s.inSeq := rfl
@[simp] theorem setOctet_nd (s : State) (i : Nat) (x : Octet) : (s.setOctet i x).nd = s.nd := rfl

@[simp] theorem setCluster_mem (s : State) (i : Nat) (x : Cluster) : (s.setCluster i x).mem = s.mem := rfl
@[simp] theorem setCluster_hist (s : State) (i : Nat) (x : Cluster) : (s.setCluster i x).hist = s.hist := rfl
@[simp] theorem setCluster_lines (s : State) (i : Nat) (x : Cluster) : (s.setCluster i x).lines = s.lines := rfl
@[simp] theorem setCluster_l2 (s : State) (i : Nat) (x : Cluster) : (s.setCluster i x).l2 = s.l2 := rfl
@[simp] theorem setCluster_ghosts (s : State) (i : Nat) (x : Cluster) : (s.setCluster i x).ghosts = s.ghosts := rfl
@[simp] theorem setCluster_syncs (s : State) (i : Nat) (x : Cluster) : (s.setCluster i x).syncs = s.syncs := rfl
@[simp] theorem setCluster_oldRoots (s : State) (i : Nat) (x : Cluster) : (s.setCluster i x).oldRoots = s.oldRoots := rfl
@[simp] theorem setCluster_invals (s : State) (i : Nat) (x : Cluster) : (s.setCluster i x).invals = s.invals := rfl
@[simp] theorem setCluster_invNext (s : State) (i : Nat) (x : Cluster) : (s.setCluster i x).invNext = s.invNext := rfl
@[simp] theorem setCluster_slots (s : State) (i : Nat) (x : Cluster) : (s.setCluster i x).slots = s.slots := rfl
@[simp] theorem setCluster_cores (s : State) (i : Nat) (x : Cluster) : (s.setCluster i x).cores = s.cores := rfl
@[simp] theorem setCluster_octets (s : State) (i : Nat) (x : Cluster) : (s.setCluster i x).octets = s.octets := rfl
@[simp] theorem setCluster_waiters (s : State) (i : Nat) (x : Cluster) : (s.setCluster i x).waiters = s.waiters := rfl
@[simp] theorem setCluster_launches (s : State) (i : Nat) (x : Cluster) : (s.setCluster i x).launches = s.launches := rfl
@[simp] theorem setCluster_nodes (s : State) (i : Nat) (x : Cluster) : (s.setCluster i x).nodes = s.nodes := rfl
@[simp] theorem setCluster_snoops (s : State) (i : Nat) (x : Cluster) : (s.setCluster i x).snoops = s.snoops := rfl
@[simp] theorem setCluster_serials (s : State) (i : Nat) (x : Cluster) : (s.setCluster i x).serials = s.serials := rfl
@[simp] theorem setCluster_decide (s : State) (i : Nat) (x : Cluster) : (s.setCluster i x).decide = s.decide := rfl
@[simp] theorem setCluster_bindings (s : State) (i : Nat) (x : Cluster) : (s.setCluster i x).bindings = s.bindings := rfl
@[simp] theorem setCluster_flights (s : State) (i : Nat) (x : Cluster) : (s.setCluster i x).flights = s.flights := rfl
@[simp] theorem setCluster_migrants (s : State) (i : Nat) (x : Cluster) : (s.setCluster i x).migrants = s.migrants := rfl
@[simp] theorem setCluster_stored (s : State) (i : Nat) (x : Cluster) : (s.setCluster i x).stored = s.stored := rfl
@[simp] theorem setCluster_regs (s : State) (i : Nat) (x : Cluster) : (s.setCluster i x).regs = s.regs := rfl
@[simp] theorem setCluster_fab (s : State) (i : Nat) (x : Cluster) : (s.setCluster i x).fab = s.fab := rfl
@[simp] theorem setCluster_lan (s : State) (i : Nat) (x : Cluster) : (s.setCluster i x).lan = s.lan := rfl
@[simp] theorem setCluster_thermal (s : State) (i : Nat) (x : Cluster) : (s.setCluster i x).thermal = s.thermal := rfl
@[simp] theorem setCluster_events (s : State) (i : Nat) (x : Cluster) : (s.setCluster i x).events = s.events := rfl
@[simp] theorem setCluster_evseq (s : State) (i : Nat) (x : Cluster) : (s.setCluster i x).evseq = s.evseq := rfl
@[simp] theorem setCluster_msix (s : State) (i : Nat) (x : Cluster) : (s.setCluster i x).msix = s.msix := rfl
@[simp] theorem setCluster_corrected (s : State) (i : Nat) (x : Cluster) : (s.setCluster i x).corrected = s.corrected := rfl
@[simp] theorem setCluster_power (s : State) (i : Nat) (x : Cluster) : (s.setCluster i x).power = s.power := rfl
@[simp] theorem setCluster_images (s : State) (i : Nat) (x : Cluster) : (s.setCluster i x).images = s.images := rfl
@[simp] theorem setCluster_staged (s : State) (i : Nat) (x : Cluster) : (s.setCluster i x).staged = s.staged := rfl
@[simp] theorem setCluster_mgmt (s : State) (i : Nat) (x : Cluster) : (s.setCluster i x).mgmt = s.mgmt := rfl
@[simp] theorem setCluster_hostData (s : State) (i : Nat) (x : Cluster) : (s.setCluster i x).hostData = s.hostData := rfl
@[simp] theorem setCluster_timeb (s : State) (i : Nat) (x : Cluster) : (s.setCluster i x).timeb = s.timeb := rfl
@[simp] theorem setCluster_phase7 (s : State) (i : Nat) (x : Cluster) : (s.setCluster i x).phase7 = s.phase7 := rfl
@[simp] theorem setCluster_cycle (s : State) (i : Nat) (x : Cluster) : (s.setCluster i x).cycle = s.cycle := rfl
@[simp] theorem setCluster_aligning (s : State) (i : Nat) (x : Cluster) : (s.setCluster i x).aligning = s.aligning := rfl
@[simp] theorem setCluster_inputs (s : State) (i : Nat) (x : Cluster) : (s.setCluster i x).inputs = s.inputs := rfl
@[simp] theorem setCluster_cur (s : State) (i : Nat) (x : Cluster) : (s.setCluster i x).cur = s.cur := rfl
@[simp] theorem setCluster_chain (s : State) (i : Nat) (x : Cluster) : (s.setCluster i x).chain = s.chain := rfl
@[simp] theorem setCluster_inSeq (s : State) (i : Nat) (x : Cluster) : (s.setCluster i x).inSeq = s.inSeq := rfl
@[simp] theorem setCluster_nd (s : State) (i : Nat) (x : Cluster) : (s.setCluster i x).nd = s.nd := rfl

@[simp] theorem setLaunch_mem (s : State) (i : Nat) (x : Launch) : (s.setLaunch i x).mem = s.mem := rfl
@[simp] theorem setLaunch_hist (s : State) (i : Nat) (x : Launch) : (s.setLaunch i x).hist = s.hist := rfl
@[simp] theorem setLaunch_lines (s : State) (i : Nat) (x : Launch) : (s.setLaunch i x).lines = s.lines := rfl
@[simp] theorem setLaunch_l2 (s : State) (i : Nat) (x : Launch) : (s.setLaunch i x).l2 = s.l2 := rfl
@[simp] theorem setLaunch_ghosts (s : State) (i : Nat) (x : Launch) : (s.setLaunch i x).ghosts = s.ghosts := rfl
@[simp] theorem setLaunch_syncs (s : State) (i : Nat) (x : Launch) : (s.setLaunch i x).syncs = s.syncs := rfl
@[simp] theorem setLaunch_oldRoots (s : State) (i : Nat) (x : Launch) : (s.setLaunch i x).oldRoots = s.oldRoots := rfl
@[simp] theorem setLaunch_invals (s : State) (i : Nat) (x : Launch) : (s.setLaunch i x).invals = s.invals := rfl
@[simp] theorem setLaunch_invNext (s : State) (i : Nat) (x : Launch) : (s.setLaunch i x).invNext = s.invNext := rfl
@[simp] theorem setLaunch_slots (s : State) (i : Nat) (x : Launch) : (s.setLaunch i x).slots = s.slots := rfl
@[simp] theorem setLaunch_cores (s : State) (i : Nat) (x : Launch) : (s.setLaunch i x).cores = s.cores := rfl
@[simp] theorem setLaunch_octets (s : State) (i : Nat) (x : Launch) : (s.setLaunch i x).octets = s.octets := rfl
@[simp] theorem setLaunch_clusters (s : State) (i : Nat) (x : Launch) : (s.setLaunch i x).clusters = s.clusters := rfl
@[simp] theorem setLaunch_waiters (s : State) (i : Nat) (x : Launch) : (s.setLaunch i x).waiters = s.waiters := rfl
@[simp] theorem setLaunch_nodes (s : State) (i : Nat) (x : Launch) : (s.setLaunch i x).nodes = s.nodes := rfl
@[simp] theorem setLaunch_snoops (s : State) (i : Nat) (x : Launch) : (s.setLaunch i x).snoops = s.snoops := rfl
@[simp] theorem setLaunch_serials (s : State) (i : Nat) (x : Launch) : (s.setLaunch i x).serials = s.serials := rfl
@[simp] theorem setLaunch_decide (s : State) (i : Nat) (x : Launch) : (s.setLaunch i x).decide = s.decide := rfl
@[simp] theorem setLaunch_bindings (s : State) (i : Nat) (x : Launch) : (s.setLaunch i x).bindings = s.bindings := rfl
@[simp] theorem setLaunch_flights (s : State) (i : Nat) (x : Launch) : (s.setLaunch i x).flights = s.flights := rfl
@[simp] theorem setLaunch_migrants (s : State) (i : Nat) (x : Launch) : (s.setLaunch i x).migrants = s.migrants := rfl
@[simp] theorem setLaunch_stored (s : State) (i : Nat) (x : Launch) : (s.setLaunch i x).stored = s.stored := rfl
@[simp] theorem setLaunch_regs (s : State) (i : Nat) (x : Launch) : (s.setLaunch i x).regs = s.regs := rfl
@[simp] theorem setLaunch_fab (s : State) (i : Nat) (x : Launch) : (s.setLaunch i x).fab = s.fab := rfl
@[simp] theorem setLaunch_lan (s : State) (i : Nat) (x : Launch) : (s.setLaunch i x).lan = s.lan := rfl
@[simp] theorem setLaunch_thermal (s : State) (i : Nat) (x : Launch) : (s.setLaunch i x).thermal = s.thermal := rfl
@[simp] theorem setLaunch_events (s : State) (i : Nat) (x : Launch) : (s.setLaunch i x).events = s.events := rfl
@[simp] theorem setLaunch_evseq (s : State) (i : Nat) (x : Launch) : (s.setLaunch i x).evseq = s.evseq := rfl
@[simp] theorem setLaunch_msix (s : State) (i : Nat) (x : Launch) : (s.setLaunch i x).msix = s.msix := rfl
@[simp] theorem setLaunch_corrected (s : State) (i : Nat) (x : Launch) : (s.setLaunch i x).corrected = s.corrected := rfl
@[simp] theorem setLaunch_power (s : State) (i : Nat) (x : Launch) : (s.setLaunch i x).power = s.power := rfl
@[simp] theorem setLaunch_images (s : State) (i : Nat) (x : Launch) : (s.setLaunch i x).images = s.images := rfl
@[simp] theorem setLaunch_staged (s : State) (i : Nat) (x : Launch) : (s.setLaunch i x).staged = s.staged := rfl
@[simp] theorem setLaunch_mgmt (s : State) (i : Nat) (x : Launch) : (s.setLaunch i x).mgmt = s.mgmt := rfl
@[simp] theorem setLaunch_hostData (s : State) (i : Nat) (x : Launch) : (s.setLaunch i x).hostData = s.hostData := rfl
@[simp] theorem setLaunch_timeb (s : State) (i : Nat) (x : Launch) : (s.setLaunch i x).timeb = s.timeb := rfl
@[simp] theorem setLaunch_phase7 (s : State) (i : Nat) (x : Launch) : (s.setLaunch i x).phase7 = s.phase7 := rfl
@[simp] theorem setLaunch_cycle (s : State) (i : Nat) (x : Launch) : (s.setLaunch i x).cycle = s.cycle := rfl
@[simp] theorem setLaunch_aligning (s : State) (i : Nat) (x : Launch) : (s.setLaunch i x).aligning = s.aligning := rfl
@[simp] theorem setLaunch_inputs (s : State) (i : Nat) (x : Launch) : (s.setLaunch i x).inputs = s.inputs := rfl
@[simp] theorem setLaunch_cur (s : State) (i : Nat) (x : Launch) : (s.setLaunch i x).cur = s.cur := rfl
@[simp] theorem setLaunch_chain (s : State) (i : Nat) (x : Launch) : (s.setLaunch i x).chain = s.chain := rfl
@[simp] theorem setLaunch_inSeq (s : State) (i : Nat) (x : Launch) : (s.setLaunch i x).inSeq = s.inSeq := rfl
@[simp] theorem setLaunch_nd (s : State) (i : Nat) (x : Launch) : (s.setLaunch i x).nd = s.nd := rfl

@[simp] theorem setByte_hist (s : State) (i : Nat) (x : BitVec 8) : (s.setByte i x).hist = s.hist := rfl
@[simp] theorem setByte_lines (s : State) (i : Nat) (x : BitVec 8) : (s.setByte i x).lines = s.lines := rfl
@[simp] theorem setByte_l2 (s : State) (i : Nat) (x : BitVec 8) : (s.setByte i x).l2 = s.l2 := rfl
@[simp] theorem setByte_ghosts (s : State) (i : Nat) (x : BitVec 8) : (s.setByte i x).ghosts = s.ghosts := rfl
@[simp] theorem setByte_syncs (s : State) (i : Nat) (x : BitVec 8) : (s.setByte i x).syncs = s.syncs := rfl
@[simp] theorem setByte_oldRoots (s : State) (i : Nat) (x : BitVec 8) : (s.setByte i x).oldRoots = s.oldRoots := rfl
@[simp] theorem setByte_invals (s : State) (i : Nat) (x : BitVec 8) : (s.setByte i x).invals = s.invals := rfl
@[simp] theorem setByte_invNext (s : State) (i : Nat) (x : BitVec 8) : (s.setByte i x).invNext = s.invNext := rfl
@[simp] theorem setByte_slots (s : State) (i : Nat) (x : BitVec 8) : (s.setByte i x).slots = s.slots := rfl
@[simp] theorem setByte_cores (s : State) (i : Nat) (x : BitVec 8) : (s.setByte i x).cores = s.cores := rfl
@[simp] theorem setByte_octets (s : State) (i : Nat) (x : BitVec 8) : (s.setByte i x).octets = s.octets := rfl
@[simp] theorem setByte_clusters (s : State) (i : Nat) (x : BitVec 8) : (s.setByte i x).clusters = s.clusters := rfl
@[simp] theorem setByte_waiters (s : State) (i : Nat) (x : BitVec 8) : (s.setByte i x).waiters = s.waiters := rfl
@[simp] theorem setByte_launches (s : State) (i : Nat) (x : BitVec 8) : (s.setByte i x).launches = s.launches := rfl
@[simp] theorem setByte_nodes (s : State) (i : Nat) (x : BitVec 8) : (s.setByte i x).nodes = s.nodes := rfl
@[simp] theorem setByte_snoops (s : State) (i : Nat) (x : BitVec 8) : (s.setByte i x).snoops = s.snoops := rfl
@[simp] theorem setByte_serials (s : State) (i : Nat) (x : BitVec 8) : (s.setByte i x).serials = s.serials := rfl
@[simp] theorem setByte_decide (s : State) (i : Nat) (x : BitVec 8) : (s.setByte i x).decide = s.decide := rfl
@[simp] theorem setByte_bindings (s : State) (i : Nat) (x : BitVec 8) : (s.setByte i x).bindings = s.bindings := rfl
@[simp] theorem setByte_flights (s : State) (i : Nat) (x : BitVec 8) : (s.setByte i x).flights = s.flights := rfl
@[simp] theorem setByte_migrants (s : State) (i : Nat) (x : BitVec 8) : (s.setByte i x).migrants = s.migrants := rfl
@[simp] theorem setByte_stored (s : State) (i : Nat) (x : BitVec 8) : (s.setByte i x).stored = s.stored := rfl
@[simp] theorem setByte_regs (s : State) (i : Nat) (x : BitVec 8) : (s.setByte i x).regs = s.regs := rfl
@[simp] theorem setByte_fab (s : State) (i : Nat) (x : BitVec 8) : (s.setByte i x).fab = s.fab := rfl
@[simp] theorem setByte_lan (s : State) (i : Nat) (x : BitVec 8) : (s.setByte i x).lan = s.lan := rfl
@[simp] theorem setByte_thermal (s : State) (i : Nat) (x : BitVec 8) : (s.setByte i x).thermal = s.thermal := rfl
@[simp] theorem setByte_events (s : State) (i : Nat) (x : BitVec 8) : (s.setByte i x).events = s.events := rfl
@[simp] theorem setByte_evseq (s : State) (i : Nat) (x : BitVec 8) : (s.setByte i x).evseq = s.evseq := rfl
@[simp] theorem setByte_msix (s : State) (i : Nat) (x : BitVec 8) : (s.setByte i x).msix = s.msix := rfl
@[simp] theorem setByte_corrected (s : State) (i : Nat) (x : BitVec 8) : (s.setByte i x).corrected = s.corrected := rfl
@[simp] theorem setByte_power (s : State) (i : Nat) (x : BitVec 8) : (s.setByte i x).power = s.power := rfl
@[simp] theorem setByte_images (s : State) (i : Nat) (x : BitVec 8) : (s.setByte i x).images = s.images := rfl
@[simp] theorem setByte_staged (s : State) (i : Nat) (x : BitVec 8) : (s.setByte i x).staged = s.staged := rfl
@[simp] theorem setByte_mgmt (s : State) (i : Nat) (x : BitVec 8) : (s.setByte i x).mgmt = s.mgmt := rfl
@[simp] theorem setByte_hostData (s : State) (i : Nat) (x : BitVec 8) : (s.setByte i x).hostData = s.hostData := rfl
@[simp] theorem setByte_timeb (s : State) (i : Nat) (x : BitVec 8) : (s.setByte i x).timeb = s.timeb := rfl
@[simp] theorem setByte_phase7 (s : State) (i : Nat) (x : BitVec 8) : (s.setByte i x).phase7 = s.phase7 := rfl
@[simp] theorem setByte_cycle (s : State) (i : Nat) (x : BitVec 8) : (s.setByte i x).cycle = s.cycle := rfl
@[simp] theorem setByte_aligning (s : State) (i : Nat) (x : BitVec 8) : (s.setByte i x).aligning = s.aligning := rfl
@[simp] theorem setByte_inputs (s : State) (i : Nat) (x : BitVec 8) : (s.setByte i x).inputs = s.inputs := rfl
@[simp] theorem setByte_cur (s : State) (i : Nat) (x : BitVec 8) : (s.setByte i x).cur = s.cur := rfl
@[simp] theorem setByte_chain (s : State) (i : Nat) (x : BitVec 8) : (s.setByte i x).chain = s.chain := rfl
@[simp] theorem setByte_inSeq (s : State) (i : Nat) (x : BitVec 8) : (s.setByte i x).inSeq = s.inSeq := rfl
@[simp] theorem setByte_nd (s : State) (i : Nat) (x : BitVec 8) : (s.setByte i x).nd = s.nd := rfl

@[simp] theorem raise_mem (s : State) (x : Event) : (s.raise x).mem = s.mem := rfl
@[simp] theorem raise_hist (s : State) (x : Event) : (s.raise x).hist = s.hist := rfl
@[simp] theorem raise_lines (s : State) (x : Event) : (s.raise x).lines = s.lines := rfl
@[simp] theorem raise_l2 (s : State) (x : Event) : (s.raise x).l2 = s.l2 := rfl
@[simp] theorem raise_ghosts (s : State) (x : Event) : (s.raise x).ghosts = s.ghosts := rfl
@[simp] theorem raise_syncs (s : State) (x : Event) : (s.raise x).syncs = s.syncs := rfl
@[simp] theorem raise_oldRoots (s : State) (x : Event) : (s.raise x).oldRoots = s.oldRoots := rfl
@[simp] theorem raise_invals (s : State) (x : Event) : (s.raise x).invals = s.invals := rfl
@[simp] theorem raise_invNext (s : State) (x : Event) : (s.raise x).invNext = s.invNext := rfl
@[simp] theorem raise_slots (s : State) (x : Event) : (s.raise x).slots = s.slots := rfl
@[simp] theorem raise_cores (s : State) (x : Event) : (s.raise x).cores = s.cores := rfl
@[simp] theorem raise_octets (s : State) (x : Event) : (s.raise x).octets = s.octets := rfl
@[simp] theorem raise_clusters (s : State) (x : Event) : (s.raise x).clusters = s.clusters := rfl
@[simp] theorem raise_waiters (s : State) (x : Event) : (s.raise x).waiters = s.waiters := rfl
@[simp] theorem raise_launches (s : State) (x : Event) : (s.raise x).launches = s.launches := rfl
@[simp] theorem raise_nodes (s : State) (x : Event) : (s.raise x).nodes = s.nodes := rfl
@[simp] theorem raise_snoops (s : State) (x : Event) : (s.raise x).snoops = s.snoops := rfl
@[simp] theorem raise_serials (s : State) (x : Event) : (s.raise x).serials = s.serials := rfl
@[simp] theorem raise_decide (s : State) (x : Event) : (s.raise x).decide = s.decide := rfl
@[simp] theorem raise_bindings (s : State) (x : Event) : (s.raise x).bindings = s.bindings := rfl
@[simp] theorem raise_flights (s : State) (x : Event) : (s.raise x).flights = s.flights := rfl
@[simp] theorem raise_migrants (s : State) (x : Event) : (s.raise x).migrants = s.migrants := rfl
@[simp] theorem raise_stored (s : State) (x : Event) : (s.raise x).stored = s.stored := rfl
@[simp] theorem raise_regs (s : State) (x : Event) : (s.raise x).regs = s.regs := rfl
@[simp] theorem raise_fab (s : State) (x : Event) : (s.raise x).fab = s.fab := rfl
@[simp] theorem raise_lan (s : State) (x : Event) : (s.raise x).lan = s.lan := rfl
@[simp] theorem raise_thermal (s : State) (x : Event) : (s.raise x).thermal = s.thermal := rfl
@[simp] theorem raise_evseq (s : State) (x : Event) : (s.raise x).evseq = s.evseq := rfl
@[simp] theorem raise_msix (s : State) (x : Event) : (s.raise x).msix = s.msix := rfl
@[simp] theorem raise_corrected (s : State) (x : Event) : (s.raise x).corrected = s.corrected := rfl
@[simp] theorem raise_power (s : State) (x : Event) : (s.raise x).power = s.power := rfl
@[simp] theorem raise_images (s : State) (x : Event) : (s.raise x).images = s.images := rfl
@[simp] theorem raise_staged (s : State) (x : Event) : (s.raise x).staged = s.staged := rfl
@[simp] theorem raise_mgmt (s : State) (x : Event) : (s.raise x).mgmt = s.mgmt := rfl
@[simp] theorem raise_hostData (s : State) (x : Event) : (s.raise x).hostData = s.hostData := rfl
@[simp] theorem raise_timeb (s : State) (x : Event) : (s.raise x).timeb = s.timeb := rfl
@[simp] theorem raise_phase7 (s : State) (x : Event) : (s.raise x).phase7 = s.phase7 := rfl
@[simp] theorem raise_cycle (s : State) (x : Event) : (s.raise x).cycle = s.cycle := rfl
@[simp] theorem raise_aligning (s : State) (x : Event) : (s.raise x).aligning = s.aligning := rfl
@[simp] theorem raise_inputs (s : State) (x : Event) : (s.raise x).inputs = s.inputs := rfl
@[simp] theorem raise_cur (s : State) (x : Event) : (s.raise x).cur = s.cur := rfl
@[simp] theorem raise_chain (s : State) (x : Event) : (s.raise x).chain = s.chain := rfl
@[simp] theorem raise_inSeq (s : State) (x : Event) : (s.raise x).inSeq = s.inSeq := rfl
@[simp] theorem raise_nd (s : State) (x : Event) : (s.raise x).nd = s.nd := rfl

@[simp] theorem setA_mem (s : State) (x : W64) : (s.setA x).mem = s.mem := rfl
@[simp] theorem setA_hist (s : State) (x : W64) : (s.setA x).hist = s.hist := rfl
@[simp] theorem setA_lines (s : State) (x : W64) : (s.setA x).lines = s.lines := rfl
@[simp] theorem setA_l2 (s : State) (x : W64) : (s.setA x).l2 = s.l2 := rfl
@[simp] theorem setA_ghosts (s : State) (x : W64) : (s.setA x).ghosts = s.ghosts := rfl
@[simp] theorem setA_syncs (s : State) (x : W64) : (s.setA x).syncs = s.syncs := rfl
@[simp] theorem setA_oldRoots (s : State) (x : W64) : (s.setA x).oldRoots = s.oldRoots := rfl
@[simp] theorem setA_invals (s : State) (x : W64) : (s.setA x).invals = s.invals := rfl
@[simp] theorem setA_invNext (s : State) (x : W64) : (s.setA x).invNext = s.invNext := rfl
@[simp] theorem setA_cores (s : State) (x : W64) : (s.setA x).cores = s.cores := rfl
@[simp] theorem setA_octets (s : State) (x : W64) : (s.setA x).octets = s.octets := rfl
@[simp] theorem setA_clusters (s : State) (x : W64) : (s.setA x).clusters = s.clusters := rfl
@[simp] theorem setA_waiters (s : State) (x : W64) : (s.setA x).waiters = s.waiters := rfl
@[simp] theorem setA_launches (s : State) (x : W64) : (s.setA x).launches = s.launches := rfl
@[simp] theorem setA_nodes (s : State) (x : W64) : (s.setA x).nodes = s.nodes := rfl
@[simp] theorem setA_snoops (s : State) (x : W64) : (s.setA x).snoops = s.snoops := rfl
@[simp] theorem setA_serials (s : State) (x : W64) : (s.setA x).serials = s.serials := rfl
@[simp] theorem setA_decide (s : State) (x : W64) : (s.setA x).decide = s.decide := rfl
@[simp] theorem setA_bindings (s : State) (x : W64) : (s.setA x).bindings = s.bindings := rfl
@[simp] theorem setA_flights (s : State) (x : W64) : (s.setA x).flights = s.flights := rfl
@[simp] theorem setA_migrants (s : State) (x : W64) : (s.setA x).migrants = s.migrants := rfl
@[simp] theorem setA_stored (s : State) (x : W64) : (s.setA x).stored = s.stored := rfl
@[simp] theorem setA_regs (s : State) (x : W64) : (s.setA x).regs = s.regs := rfl
@[simp] theorem setA_fab (s : State) (x : W64) : (s.setA x).fab = s.fab := rfl
@[simp] theorem setA_lan (s : State) (x : W64) : (s.setA x).lan = s.lan := rfl
@[simp] theorem setA_thermal (s : State) (x : W64) : (s.setA x).thermal = s.thermal := rfl
@[simp] theorem setA_events (s : State) (x : W64) : (s.setA x).events = s.events := rfl
@[simp] theorem setA_evseq (s : State) (x : W64) : (s.setA x).evseq = s.evseq := rfl
@[simp] theorem setA_msix (s : State) (x : W64) : (s.setA x).msix = s.msix := rfl
@[simp] theorem setA_corrected (s : State) (x : W64) : (s.setA x).corrected = s.corrected := rfl
@[simp] theorem setA_power (s : State) (x : W64) : (s.setA x).power = s.power := rfl
@[simp] theorem setA_images (s : State) (x : W64) : (s.setA x).images = s.images := rfl
@[simp] theorem setA_staged (s : State) (x : W64) : (s.setA x).staged = s.staged := rfl
@[simp] theorem setA_mgmt (s : State) (x : W64) : (s.setA x).mgmt = s.mgmt := rfl
@[simp] theorem setA_hostData (s : State) (x : W64) : (s.setA x).hostData = s.hostData := rfl
@[simp] theorem setA_timeb (s : State) (x : W64) : (s.setA x).timeb = s.timeb := rfl
@[simp] theorem setA_phase7 (s : State) (x : W64) : (s.setA x).phase7 = s.phase7 := rfl
@[simp] theorem setA_cycle (s : State) (x : W64) : (s.setA x).cycle = s.cycle := rfl
@[simp] theorem setA_aligning (s : State) (x : W64) : (s.setA x).aligning = s.aligning := rfl
@[simp] theorem setA_inputs (s : State) (x : W64) : (s.setA x).inputs = s.inputs := rfl
@[simp] theorem setA_cur (s : State) (x : W64) : (s.setA x).cur = s.cur := rfl
@[simp] theorem setA_chain (s : State) (x : W64) : (s.setA x).chain = s.chain := rfl
@[simp] theorem setA_inSeq (s : State) (x : W64) : (s.setA x).inSeq = s.inSeq := rfl
@[simp] theorem setA_nd (s : State) (x : W64) : (s.setA x).nd = s.nd := rfl

@[simp] theorem setSt_mem (s : State) (x : Status → Status) : (s.setSt x).mem = s.mem := rfl
@[simp] theorem setSt_hist (s : State) (x : Status → Status) : (s.setSt x).hist = s.hist := rfl
@[simp] theorem setSt_lines (s : State) (x : Status → Status) : (s.setSt x).lines = s.lines := rfl
@[simp] theorem setSt_l2 (s : State) (x : Status → Status) : (s.setSt x).l2 = s.l2 := rfl
@[simp] theorem setSt_ghosts (s : State) (x : Status → Status) : (s.setSt x).ghosts = s.ghosts := rfl
@[simp] theorem setSt_syncs (s : State) (x : Status → Status) : (s.setSt x).syncs = s.syncs := rfl
@[simp] theorem setSt_oldRoots (s : State) (x : Status → Status) : (s.setSt x).oldRoots = s.oldRoots := rfl
@[simp] theorem setSt_invals (s : State) (x : Status → Status) : (s.setSt x).invals = s.invals := rfl
@[simp] theorem setSt_invNext (s : State) (x : Status → Status) : (s.setSt x).invNext = s.invNext := rfl
@[simp] theorem setSt_cores (s : State) (x : Status → Status) : (s.setSt x).cores = s.cores := rfl
@[simp] theorem setSt_octets (s : State) (x : Status → Status) : (s.setSt x).octets = s.octets := rfl
@[simp] theorem setSt_clusters (s : State) (x : Status → Status) : (s.setSt x).clusters = s.clusters := rfl
@[simp] theorem setSt_waiters (s : State) (x : Status → Status) : (s.setSt x).waiters = s.waiters := rfl
@[simp] theorem setSt_launches (s : State) (x : Status → Status) : (s.setSt x).launches = s.launches := rfl
@[simp] theorem setSt_nodes (s : State) (x : Status → Status) : (s.setSt x).nodes = s.nodes := rfl
@[simp] theorem setSt_snoops (s : State) (x : Status → Status) : (s.setSt x).snoops = s.snoops := rfl
@[simp] theorem setSt_serials (s : State) (x : Status → Status) : (s.setSt x).serials = s.serials := rfl
@[simp] theorem setSt_decide (s : State) (x : Status → Status) : (s.setSt x).decide = s.decide := rfl
@[simp] theorem setSt_bindings (s : State) (x : Status → Status) : (s.setSt x).bindings = s.bindings := rfl
@[simp] theorem setSt_flights (s : State) (x : Status → Status) : (s.setSt x).flights = s.flights := rfl
@[simp] theorem setSt_migrants (s : State) (x : Status → Status) : (s.setSt x).migrants = s.migrants := rfl
@[simp] theorem setSt_stored (s : State) (x : Status → Status) : (s.setSt x).stored = s.stored := rfl
@[simp] theorem setSt_regs (s : State) (x : Status → Status) : (s.setSt x).regs = s.regs := rfl
@[simp] theorem setSt_fab (s : State) (x : Status → Status) : (s.setSt x).fab = s.fab := rfl
@[simp] theorem setSt_lan (s : State) (x : Status → Status) : (s.setSt x).lan = s.lan := rfl
@[simp] theorem setSt_thermal (s : State) (x : Status → Status) : (s.setSt x).thermal = s.thermal := rfl
@[simp] theorem setSt_events (s : State) (x : Status → Status) : (s.setSt x).events = s.events := rfl
@[simp] theorem setSt_evseq (s : State) (x : Status → Status) : (s.setSt x).evseq = s.evseq := rfl
@[simp] theorem setSt_msix (s : State) (x : Status → Status) : (s.setSt x).msix = s.msix := rfl
@[simp] theorem setSt_corrected (s : State) (x : Status → Status) : (s.setSt x).corrected = s.corrected := rfl
@[simp] theorem setSt_power (s : State) (x : Status → Status) : (s.setSt x).power = s.power := rfl
@[simp] theorem setSt_images (s : State) (x : Status → Status) : (s.setSt x).images = s.images := rfl
@[simp] theorem setSt_staged (s : State) (x : Status → Status) : (s.setSt x).staged = s.staged := rfl
@[simp] theorem setSt_mgmt (s : State) (x : Status → Status) : (s.setSt x).mgmt = s.mgmt := rfl
@[simp] theorem setSt_hostData (s : State) (x : Status → Status) : (s.setSt x).hostData = s.hostData := rfl
@[simp] theorem setSt_timeb (s : State) (x : Status → Status) : (s.setSt x).timeb = s.timeb := rfl
@[simp] theorem setSt_phase7 (s : State) (x : Status → Status) : (s.setSt x).phase7 = s.phase7 := rfl
@[simp] theorem setSt_cycle (s : State) (x : Status → Status) : (s.setSt x).cycle = s.cycle := rfl
@[simp] theorem setSt_aligning (s : State) (x : Status → Status) : (s.setSt x).aligning = s.aligning := rfl
@[simp] theorem setSt_inputs (s : State) (x : Status → Status) : (s.setSt x).inputs = s.inputs := rfl
@[simp] theorem setSt_cur (s : State) (x : Status → Status) : (s.setSt x).cur = s.cur := rfl
@[simp] theorem setSt_chain (s : State) (x : Status → Status) : (s.setSt x).chain = s.chain := rfl
@[simp] theorem setSt_inSeq (s : State) (x : Status → Status) : (s.setSt x).inSeq = s.inSeq := rfl
@[simp] theorem setSt_nd (s : State) (x : Status → Status) : (s.setSt x).nd = s.nd := rfl

/-! ### Reads that an update leaves alone -/

@[simp] theorem setSlot_core (s : State) (i : Nat) (x : Slot) (j : Nat) : (s.setSlot i x).core j = s.core j := rfl
@[simp] theorem setSlot_octet (s : State) (i : Nat) (x : Slot) (j : Nat) : (s.setSlot i x).octet j = s.octet j := rfl
@[simp] theorem setSlot_cluster (s : State) (i : Nat) (x : Slot) (j : Nat) : (s.setSlot i x).cluster j = s.cluster j := rfl
@[simp] theorem setSlot_launch (s : State) (i : Nat) (x : Slot) (j : Nat) : (s.setSlot i x).launch j = s.launch j := rfl
@[simp] theorem setSlot_byte (s : State) (i : Nat) (x : Slot) (j : Nat) : (s.setSlot i x).byte j = s.byte j := rfl
@[simp] theorem setSlot_here (s : State) (i : Nat) (x : Slot) : (s.setSlot i x).here = s.here := rfl
@[simp] theorem setSlot_myCore (s : State) (i : Nat) (x : Slot) : (s.setSlot i x).myCore = s.myCore := rfl
@[simp] theorem setSlot_now (s : State) (i : Nat) (x : Slot) : (s.setSlot i x).now = s.now := rfl
@[simp] theorem setSlot_isFull (s : State) (i : Nat) (x : Slot) (j : Nat) : (s.setSlot i x).isFull j = s.isFull j := rfl

@[simp] theorem setMe_core (s : State) (x : Slot) (j : Nat) : (s.setMe x).core j = s.core j := rfl
@[simp] theorem setMe_octet (s : State) (x : Slot) (j : Nat) : (s.setMe x).octet j = s.octet j := rfl
@[simp] theorem setMe_cluster (s : State) (x : Slot) (j : Nat) : (s.setMe x).cluster j = s.cluster j := rfl
@[simp] theorem setMe_launch (s : State) (x : Slot) (j : Nat) : (s.setMe x).launch j = s.launch j := rfl
@[simp] theorem setMe_byte (s : State) (x : Slot) (j : Nat) : (s.setMe x).byte j = s.byte j := rfl
@[simp] theorem setMe_here (s : State) (x : Slot) : (s.setMe x).here = s.here := rfl
@[simp] theorem setMe_myCore (s : State) (x : Slot) : (s.setMe x).myCore = s.myCore := rfl
@[simp] theorem setMe_now (s : State) (x : Slot) : (s.setMe x).now = s.now := rfl
@[simp] theorem setMe_isFull (s : State) (x : Slot) (j : Nat) : (s.setMe x).isFull j = s.isFull j := rfl

@[simp] theorem setCore_slot (s : State) (i : Nat) (x : Core) (j : Nat) : (s.setCore i x).slot j = s.slot j := rfl
@[simp] theorem setCore_octet (s : State) (i : Nat) (x : Core) (j : Nat) : (s.setCore i x).octet j = s.octet j := rfl
@[simp] theorem setCore_cluster (s : State) (i : Nat) (x : Core) (j : Nat) : (s.setCore i x).cluster j = s.cluster j := rfl
@[simp] theorem setCore_launch (s : State) (i : Nat) (x : Core) (j : Nat) : (s.setCore i x).launch j = s.launch j := rfl
@[simp] theorem setCore_byte (s : State) (i : Nat) (x : Core) (j : Nat) : (s.setCore i x).byte j = s.byte j := rfl
@[simp] theorem setCore_here (s : State) (i : Nat) (x : Core) : (s.setCore i x).here = s.here := rfl
@[simp] theorem setCore_me (s : State) (i : Nat) (x : Core) : (s.setCore i x).me = s.me := rfl
@[simp] theorem setCore_now (s : State) (i : Nat) (x : Core) : (s.setCore i x).now = s.now := rfl
@[simp] theorem setCore_nextPc (s : State) (i : Nat) (x : Core) : (s.setCore i x).nextPc = s.nextPc := rfl

@[simp] theorem setMyCore_slot (s : State) (x : Core) (j : Nat) : (s.setMyCore x).slot j = s.slot j := rfl
@[simp] theorem setMyCore_octet (s : State) (x : Core) (j : Nat) : (s.setMyCore x).octet j = s.octet j := rfl
@[simp] theorem setMyCore_cluster (s : State) (x : Core) (j : Nat) : (s.setMyCore x).cluster j = s.cluster j := rfl
@[simp] theorem setMyCore_launch (s : State) (x : Core) (j : Nat) : (s.setMyCore x).launch j = s.launch j := rfl
@[simp] theorem setMyCore_byte (s : State) (x : Core) (j : Nat) : (s.setMyCore x).byte j = s.byte j := rfl
@[simp] theorem setMyCore_here (s : State) (x : Core) : (s.setMyCore x).here = s.here := rfl
@[simp] theorem setMyCore_me (s : State) (x : Core) : (s.setMyCore x).me = s.me := rfl
@[simp] theorem setMyCore_now (s : State) (x : Core) : (s.setMyCore x).now = s.now := rfl
@[simp] theorem setMyCore_nextPc (s : State) (x : Core) : (s.setMyCore x).nextPc = s.nextPc := rfl

@[simp] theorem setOctet_slot (s : State) (i : Nat) (x : Octet) (j : Nat) : (s.setOctet i x).slot j = s.slot j := rfl
@[simp] theorem setOctet_core (s : State) (i : Nat) (x : Octet) (j : Nat) : (s.setOctet i x).core j = s.core j := rfl
@[simp] theorem setOctet_cluster (s : State) (i : Nat) (x : Octet) (j : Nat) : (s.setOctet i x).cluster j = s.cluster j := rfl
@[simp] theorem setOctet_launch (s : State) (i : Nat) (x : Octet) (j : Nat) : (s.setOctet i x).launch j = s.launch j := rfl
@[simp] theorem setOctet_byte (s : State) (i : Nat) (x : Octet) (j : Nat) : (s.setOctet i x).byte j = s.byte j := rfl
@[simp] theorem setOctet_here (s : State) (i : Nat) (x : Octet) : (s.setOctet i x).here = s.here := rfl
@[simp] theorem setOctet_me (s : State) (i : Nat) (x : Octet) : (s.setOctet i x).me = s.me := rfl
@[simp] theorem setOctet_myCore (s : State) (i : Nat) (x : Octet) : (s.setOctet i x).myCore = s.myCore := rfl
@[simp] theorem setOctet_now (s : State) (i : Nat) (x : Octet) : (s.setOctet i x).now = s.now := rfl
@[simp] theorem setOctet_isFull (s : State) (i : Nat) (x : Octet) (j : Nat) : (s.setOctet i x).isFull j = s.isFull j := rfl
@[simp] theorem setOctet_nextPc (s : State) (i : Nat) (x : Octet) : (s.setOctet i x).nextPc = s.nextPc := rfl

@[simp] theorem setCluster_slot (s : State) (i : Nat) (x : Cluster) (j : Nat) : (s.setCluster i x).slot j = s.slot j := rfl
@[simp] theorem setCluster_core (s : State) (i : Nat) (x : Cluster) (j : Nat) : (s.setCluster i x).core j = s.core j := rfl
@[simp] theorem setCluster_octet (s : State) (i : Nat) (x : Cluster) (j : Nat) : (s.setCluster i x).octet j = s.octet j := rfl
@[simp] theorem setCluster_launch (s : State) (i : Nat) (x : Cluster) (j : Nat) : (s.setCluster i x).launch j = s.launch j := rfl
@[simp] theorem setCluster_byte (s : State) (i : Nat) (x : Cluster) (j : Nat) : (s.setCluster i x).byte j = s.byte j := rfl
@[simp] theorem setCluster_here (s : State) (i : Nat) (x : Cluster) : (s.setCluster i x).here = s.here := rfl
@[simp] theorem setCluster_me (s : State) (i : Nat) (x : Cluster) : (s.setCluster i x).me = s.me := rfl
@[simp] theorem setCluster_myCore (s : State) (i : Nat) (x : Cluster) : (s.setCluster i x).myCore = s.myCore := rfl
@[simp] theorem setCluster_now (s : State) (i : Nat) (x : Cluster) : (s.setCluster i x).now = s.now := rfl
@[simp] theorem setCluster_isFull (s : State) (i : Nat) (x : Cluster) (j : Nat) : (s.setCluster i x).isFull j = s.isFull j := rfl
@[simp] theorem setCluster_nextPc (s : State) (i : Nat) (x : Cluster) : (s.setCluster i x).nextPc = s.nextPc := rfl

@[simp] theorem setLaunch_slot (s : State) (i : Nat) (x : Launch) (j : Nat) : (s.setLaunch i x).slot j = s.slot j := rfl
@[simp] theorem setLaunch_core (s : State) (i : Nat) (x : Launch) (j : Nat) : (s.setLaunch i x).core j = s.core j := rfl
@[simp] theorem setLaunch_octet (s : State) (i : Nat) (x : Launch) (j : Nat) : (s.setLaunch i x).octet j = s.octet j := rfl
@[simp] theorem setLaunch_cluster (s : State) (i : Nat) (x : Launch) (j : Nat) : (s.setLaunch i x).cluster j = s.cluster j := rfl
@[simp] theorem setLaunch_byte (s : State) (i : Nat) (x : Launch) (j : Nat) : (s.setLaunch i x).byte j = s.byte j := rfl
@[simp] theorem setLaunch_here (s : State) (i : Nat) (x : Launch) : (s.setLaunch i x).here = s.here := rfl
@[simp] theorem setLaunch_me (s : State) (i : Nat) (x : Launch) : (s.setLaunch i x).me = s.me := rfl
@[simp] theorem setLaunch_myCore (s : State) (i : Nat) (x : Launch) : (s.setLaunch i x).myCore = s.myCore := rfl
@[simp] theorem setLaunch_now (s : State) (i : Nat) (x : Launch) : (s.setLaunch i x).now = s.now := rfl
@[simp] theorem setLaunch_isFull (s : State) (i : Nat) (x : Launch) (j : Nat) : (s.setLaunch i x).isFull j = s.isFull j := rfl
@[simp] theorem setLaunch_nextPc (s : State) (i : Nat) (x : Launch) : (s.setLaunch i x).nextPc = s.nextPc := rfl

@[simp] theorem setByte_slot (s : State) (i : Nat) (x : BitVec 8) (j : Nat) : (s.setByte i x).slot j = s.slot j := rfl
@[simp] theorem setByte_core (s : State) (i : Nat) (x : BitVec 8) (j : Nat) : (s.setByte i x).core j = s.core j := rfl
@[simp] theorem setByte_octet (s : State) (i : Nat) (x : BitVec 8) (j : Nat) : (s.setByte i x).octet j = s.octet j := rfl
@[simp] theorem setByte_cluster (s : State) (i : Nat) (x : BitVec 8) (j : Nat) : (s.setByte i x).cluster j = s.cluster j := rfl
@[simp] theorem setByte_launch (s : State) (i : Nat) (x : BitVec 8) (j : Nat) : (s.setByte i x).launch j = s.launch j := rfl
@[simp] theorem setByte_here (s : State) (i : Nat) (x : BitVec 8) : (s.setByte i x).here = s.here := rfl
@[simp] theorem setByte_me (s : State) (i : Nat) (x : BitVec 8) : (s.setByte i x).me = s.me := rfl
@[simp] theorem setByte_myCore (s : State) (i : Nat) (x : BitVec 8) : (s.setByte i x).myCore = s.myCore := rfl
@[simp] theorem setByte_now (s : State) (i : Nat) (x : BitVec 8) : (s.setByte i x).now = s.now := rfl
@[simp] theorem setByte_isFull (s : State) (i : Nat) (x : BitVec 8) (j : Nat) : (s.setByte i x).isFull j = s.isFull j := rfl
@[simp] theorem setByte_nextPc (s : State) (i : Nat) (x : BitVec 8) : (s.setByte i x).nextPc = s.nextPc := rfl

@[simp] theorem raise_slot (s : State) (x : Event) (j : Nat) : (s.raise x).slot j = s.slot j := rfl
@[simp] theorem raise_core (s : State) (x : Event) (j : Nat) : (s.raise x).core j = s.core j := rfl
@[simp] theorem raise_octet (s : State) (x : Event) (j : Nat) : (s.raise x).octet j = s.octet j := rfl
@[simp] theorem raise_cluster (s : State) (x : Event) (j : Nat) : (s.raise x).cluster j = s.cluster j := rfl
@[simp] theorem raise_launch (s : State) (x : Event) (j : Nat) : (s.raise x).launch j = s.launch j := rfl
@[simp] theorem raise_byte (s : State) (x : Event) (j : Nat) : (s.raise x).byte j = s.byte j := rfl
@[simp] theorem raise_here (s : State) (x : Event) : (s.raise x).here = s.here := rfl
@[simp] theorem raise_me (s : State) (x : Event) : (s.raise x).me = s.me := rfl
@[simp] theorem raise_myCore (s : State) (x : Event) : (s.raise x).myCore = s.myCore := rfl
@[simp] theorem raise_now (s : State) (x : Event) : (s.raise x).now = s.now := rfl
@[simp] theorem raise_isFull (s : State) (x : Event) (j : Nat) : (s.raise x).isFull j = s.isFull j := rfl
@[simp] theorem raise_nextPc (s : State) (x : Event) : (s.raise x).nextPc = s.nextPc := rfl

@[simp] theorem setA_core (s : State) (x : W64) (j : Nat) : (s.setA x).core j = s.core j := rfl
@[simp] theorem setA_octet (s : State) (x : W64) (j : Nat) : (s.setA x).octet j = s.octet j := rfl
@[simp] theorem setA_cluster (s : State) (x : W64) (j : Nat) : (s.setA x).cluster j = s.cluster j := rfl
@[simp] theorem setA_launch (s : State) (x : W64) (j : Nat) : (s.setA x).launch j = s.launch j := rfl
@[simp] theorem setA_byte (s : State) (x : W64) (j : Nat) : (s.setA x).byte j = s.byte j := rfl
@[simp] theorem setA_here (s : State) (x : W64) : (s.setA x).here = s.here := rfl
@[simp] theorem setA_myCore (s : State) (x : W64) : (s.setA x).myCore = s.myCore := rfl
@[simp] theorem setA_now (s : State) (x : W64) : (s.setA x).now = s.now := rfl
@[simp] theorem setA_isFull (s : State) (x : W64) (j : Nat) : (s.setA x).isFull j = s.isFull j := rfl

@[simp] theorem setSt_core (s : State) (x : Status → Status) (j : Nat) : (s.setSt x).core j = s.core j := rfl
@[simp] theorem setSt_octet (s : State) (x : Status → Status) (j : Nat) : (s.setSt x).octet j = s.octet j := rfl
@[simp] theorem setSt_cluster (s : State) (x : Status → Status) (j : Nat) : (s.setSt x).cluster j = s.cluster j := rfl
@[simp] theorem setSt_launch (s : State) (x : Status → Status) (j : Nat) : (s.setSt x).launch j = s.launch j := rfl
@[simp] theorem setSt_byte (s : State) (x : Status → Status) (j : Nat) : (s.setSt x).byte j = s.byte j := rfl
@[simp] theorem setSt_here (s : State) (x : Status → Status) : (s.setSt x).here = s.here := rfl
@[simp] theorem setSt_myCore (s : State) (x : Status → Status) : (s.setSt x).myCore = s.myCore := rfl
@[simp] theorem setSt_now (s : State) (x : Status → Status) : (s.setSt x).now = s.now := rfl
@[simp] theorem setSt_isFull (s : State) (x : Status → Status) (j : Nat) : (s.setSt x).isFull j = s.isFull j := rfl

/-! ### Reading what has been set -/

@[simp] theorem slot_setSlot (s : State) (t : Nat) (x : Slot) (u : Nat) :
    (s.setSlot t x).slot u = if u = t then x else s.slot u := by simp [State.slot, State.setSlot]
@[simp] theorem slot_setMe (s : State) (x : Slot) (u : Nat) :
    (s.setMe x).slot u = if u = s.cur then x else s.slot u := by simp [State.setMe]
@[simp] theorem me_setMe (s : State) (x : Slot) : (s.setMe x).me = x := by simp [State.me]
@[simp] theorem core_setCore (s : State) (c : Nat) (x : Core) (u : Nat) :
    (s.setCore c x).core u = if u = c then x else s.core u := by simp [State.core, State.setCore]
@[simp] theorem core_setMyCore (s : State) (x : Core) (u : Nat) :
    (s.setMyCore x).core u = if u = s.here then x else s.core u := by simp [State.setMyCore]
@[simp] theorem myCore_setMyCore (s : State) (x : Core) : (s.setMyCore x).myCore = x := by simp [State.myCore]
@[simp] theorem octet_setOctet (s : State) (o : Nat) (x : Octet) (u : Nat) :
    (s.setOctet o x).octet u = if u = o then x else s.octet u := by simp [State.octet, State.setOctet]
@[simp] theorem cluster_setCluster (s : State) (k : Nat) (x : Cluster) (u : Nat) :
    (s.setCluster k x).cluster u = if u = k then x else s.cluster u := by simp [State.cluster, State.setCluster]
@[simp] theorem launch_setLaunch (s : State) (l : Nat) (x : Launch) (u : Nat) :
    (s.setLaunch l x).launch u = if u = l then x else s.launch u := by simp [State.launch, State.setLaunch]
@[simp] theorem byte_setByte (s : State) (k : Nat) (v : BitVec 8) (u : Nat) :
    (s.setByte k v).byte u = if u = k then v else s.byte u := by simp [State.byte, State.setByte]
@[simp] theorem row_setRow (c : Core) (r : RowRef) (x : Row) (u : RowRef) :
    (c.setRow r x).row u = if u = r then x else c.row u := by
  simp [Core.row, Core.setRow, BitVec.toNat_inj]
@[simp] theorem tile_setTile (c : Core) (t : BitVec 2) (x : Tile) (u : BitVec 2) :
    (c.setTile t x).tile u = if u = t then x else c.tile u := by
  simp [Core.tile, Core.setTile, BitVec.toNat_inj]
@[simp] theorem chan_setChan (o : Octet) (c : Nat) (x : Channel) (u : Nat) :
    (o.setChan c x).chan u = if u = c then x else o.chan u := by simp [Octet.chan, Octet.setChan]
@[simp] theorem tree_setTree (k : Cluster) (b : Nat) (x : Tree) (u : Nat) :
    (k.setTree b x).tree u = if u = b then x else k.tree u := by simp [Cluster.tree, Cluster.setTree]
@[simp] theorem forme_setForme (k : Cluster) (e : Nat) (x : Forme) (u : Nat) :
    (k.setForme e x).forme u = if u = e then x else k.forme u := by simp [Cluster.forme, Cluster.setForme]

@[simp] theorem me_setA (s : State) (v : W64) : (s.setA v).me = { s.me with a := v } := by simp [State.setA]
@[simp] theorem me_setSt (s : State) (f : Status → Status) : (s.setSt f).me = { s.me with st := f s.me.st } := by
  simp [State.setSt]

/-! ### Memory -/

/-- The byte at a location after bytes have been set: the last one set there. -/
theorem aget_setBytes (m : Memory) (bs : Bytes) (k : Nat) :
    aget unlistedByte (setBytes m bs) k = (bytesAt bs.reverse k).getD (aget unlistedByte m k) := by
  induction bs generalizing m with
  | nil => rfl
  | cons b bs ih =>
    rw [setBytes, ih, List.reverse_cons]
    simp only [bytesAt, List.find?_append, aget_aset, List.find?_singleton]
    by_cases h : b.1 = k
    · cases List.find? (fun x => x.1 == k) bs.reverse <;> simp [h]
    · cases List.find? (fun x => x.1 == k) bs.reverse <;> simp [h, Ne.symm h]

/-- Setting bytes leaves every other location alone. -/
theorem aget_setBytes_of_not_mem (m : Memory) (bs : Bytes) (k : Nat) (h : k ∉ bs.map (·.1)) :
    aget unlistedByte (setBytes m bs) k = aget unlistedByte m k := by
  induction bs generalizing m with
  | nil => rfl
  | cons b bs ih =>
    simp only [List.map_cons, List.mem_cons, not_or] at h
    rw [setBytes, ih _ h.2, aget_aset, if_neg h.1]

/-- Setting one byte keeps the canonical form. -/
theorem wf_aset {m : Memory} (k : Nat) (v : BitVec 8) (h : m.wf = true) : Memory.wf (aset unlistedByte m k v) = true :=
  awf_aset k v h

/-- Setting bytes keeps the canonical form. -/
theorem wf_setBytes {m : Memory} (bs : Bytes) (h : m.wf = true) : (setBytes m bs).wf = true := by
  induction bs generalizing m with
  | nil => exact h
  | cons b bs ih => exact ih (wf_aset _ _ h)

/-- Taking locations away keeps the canonical form. -/
theorem wf_filter {m : Memory} (p : Nat × BitVec 8 → Bool) (h : m.wf = true) : Memory.wf (m.filter p) = true :=
  awf_filter p h

end Sys2Proof.Machine
end

