-- ==== Sys2Proof/Laws/Frames.lean ====
section
/-! SUPPORT. What the shared operations of Machine/Mem.lean and Machine/Ops.lean leave unchanged. -/

namespace Sys2Proof.Machine
open Sys2Proof

/-! ### Nothing that a program can read changes -/

/-- Only what no program reads changes: the history of writes, cached lines, fabric requests, message counts. -/
structure Hidden (s t : State) : Prop where
  slots   : t.slots = s.slots
  mem     : t.mem = s.mem
  cur     : t.cur = s.cur
  chain   : t.chain = s.chain
  inSeq   : t.inSeq = s.inSeq
  nd      : t.nd = s.nd
  inputs  : t.inputs = s.inputs
  cores   : ∀ c, { t.core c with counts := [] } = { s.core c with counts := [] }
  shared  : SameShared s t
  cases_  : SameCases s t
  package : SamePackage s t

theorem SamePackage.refl (s : State) : SamePackage s s := by simp [SamePackage]
theorem SameShared.refl (s : State) : SameShared s s := by simp [SameShared]

theorem SamePackage.trans {s t u : State} (h : SamePackage s t) (k : SamePackage t u) : SamePackage s u := by
  unfold SamePackage at *
  obtain ⟨h1, h2, h3, h4, h5, h6, h7, h8, h9, h10, h11, h12, h13, h14⟩ := h
  obtain ⟨k1, k2, k3, k4, k5, k6, k7, k8, k9, k10, k11, k12, k13, k14⟩ := k
  exact ⟨k1.trans h1, k2.trans h2, k3.trans h3, k4.trans h4, k5.trans h5, k6.trans h6, k7.trans h7, k8.trans h8,
    k9.trans h9, k10.trans h10, k11.trans h11, k12.trans h12, k13.trans h13, k14.trans h14⟩

theorem SameShared.trans {s t u : State} (h : SameShared s t) (k : SameShared t u) : SameShared s u :=
  ⟨k.1.trans h.1, k.2.1.trans h.2.1, k.2.2.trans h.2.2⟩

theorem Hidden.refl (s : State) : Hidden s s :=
  ⟨rfl, rfl, rfl, rfl, rfl, rfl, rfl, fun _ => rfl, SameShared.refl s, rfl, SamePackage.refl s⟩

theorem Hidden.trans {s t u : State} (h : Hidden s t) (k : Hidden t u) : Hidden s u :=
  ⟨k.slots.trans h.slots, k.mem.trans h.mem, k.cur.trans h.cur, k.chain.trans h.chain, k.inSeq.trans h.inSeq,
    k.nd.trans h.nd, k.inputs.trans h.inputs, fun c => (k.cores c).trans (h.cores c), h.shared.trans k.shared,
    k.cases_.trans h.cases_, h.package.trans k.package⟩

/-- Folding an operation that changes nothing readable changes nothing readable. -/
theorem Hidden.foldl {α : Type} (f : State → α → State) (hf : ∀ s a, Hidden s (f s a)) (xs : List α) (s : State) :
    Hidden s (xs.foldl f s) := by
  induction xs generalizing s with
  | nil => exact Hidden.refl s
  | cons x xs ih => exact (hf s x).trans (ih _)

/-- A change of fields that no program reads. -/
theorem Hidden.of_fields {s t : State} (h : t = { s with hist := t.hist, lines := t.lines, l2 := t.l2, fab := t.fab, snoops := t.snoops }) :
    Hidden s t := by
  rw [h]
  exact ⟨rfl, rfl, rfl, rfl, rfl, rfl, rfl, fun _ => rfl, ⟨rfl, rfl, rfl⟩, rfl, SamePackage.refl s⟩

theorem Hidden.slot {s t : State} (h : Hidden s t) (u : Nat) : t.slot u = s.slot u := by
  simp [State.slot, h.slots]
theorem Hidden.me {s t : State} (h : Hidden s t) : t.me = s.me := by simp [State.me, h.slot, h.cur]
theorem Hidden.here {s t : State} (h : Hidden s t) : t.here = s.here := by simp [State.here, h.cur]
theorem Hidden.byte {s t : State} (h : Hidden s t) (k : Nat) : t.byte k = s.byte k := by simp [State.byte, h.mem]

theorem Hidden.coreParts {s t : State} (h : Hidden s t) (c : Nat) :
    (t.core c).rows = (s.core c).rows ∧ (t.core c).tiles = (s.core c).tiles ∧ (t.core c).latch = (s.core c).latch
      ∧ (t.core c).ops = (s.core c).ops ∧ (t.core c).seqs = (s.core c).seqs ∧ (t.core c).full = (s.core c).full
      ∧ (t.core c).rounds = (s.core c).rounds ∧ (t.core c).stages = (s.core c).stages
      ∧ (t.core c).consol = (s.core c).consol ∧ (t.core c).clock = (s.core c).clock ∧ (t.core c).held = (s.core c).held
      ∧ (t.core c).fused = (s.core c).fused ∧ (t.core c).units = (s.core c).units := by
  have e := h.cores c
  simp only [Core.mk.injEq] at e
  simp [e]

theorem Hidden.units {s t : State} (h : Hidden s t) : SameUnits s t where
  tiles c i := by simp [Core.tile, h.coreParts c]
  latches c := by simp [h.coreParts c]
  engines c := by simp [h.coreParts c]
  full c := by simp [h.coreParts c]

theorem Hidden.quiet {s t : State} (h : Hidden s t) : Quiet s t where
  turn := ⟨h.cur, h.chain, h.inSeq, h.nd, h.inputs⟩
  threads u _ := h.slot u
  memory k := h.byte k
  rows c r := by simp [Core.row, h.coreParts c]
  units := h.units
  shared := h.shared
  cases_ := h.cases_
  package := h.package

/-! ### Quiet and Ran -/

theorem Quiet.refl (s : State) : Quiet s s := (Hidden.refl s).quiet

theorem Quiet.trans {s t u : State} (h : Quiet s t) (k : Quiet t u) : Quiet s u where
  turn := ⟨k.turn.1.trans h.turn.1, k.turn.2.1.trans h.turn.2.1, k.turn.2.2.1.trans h.turn.2.2.1,
    k.turn.2.2.2.1.trans h.turn.2.2.2.1, k.turn.2.2.2.2.trans h.turn.2.2.2.2⟩
  threads v hv := (k.threads v (by rw [h.turn.1]; exact hv)).trans (h.threads v hv)
  memory a := (k.memory a).trans (h.memory a)
  rows c r := (k.rows c r).trans (h.rows c r)
  units := {
    tiles := fun c i => (k.units.tiles c i).trans (h.units.tiles c i)
    latches := fun c => (k.units.latches c).trans (h.units.latches c)
    engines := fun c => by
      obtain ⟨h1, h2, h3, h4, h5, h6, h7, h8, h9⟩ := h.units.engines c
      obtain ⟨k1, k2, k3, k4, k5, k6, k7, k8, k9⟩ := k.units.engines c
      exact ⟨k1.trans h1, k2.trans h2, k3.trans h3, k4.trans h4, k5.trans h5, k6.trans h6, k7.trans h7, k8.trans h8, k9.trans h9⟩
    full := fun c => (k.units.full c).trans (h.units.full c) }
  shared := h.shared.trans k.shared
  cases_ := k.cases_.trans h.cases_
  package := h.package.trans k.package

/-- Setting the issuing thread's context changes nothing else. -/
theorem quiet_setMe (s : State) (x : Slot) : Quiet s (s.setMe x) where
  turn := ⟨rfl, rfl, rfl, rfl, rfl⟩
  threads u hu := by simp [hu]
  memory _ := rfl
  rows _ _ := rfl
  units := ⟨fun _ _ => rfl, fun _ => rfl, fun _ => ⟨rfl, rfl, rfl, rfl, rfl, rfl, rfl, rfl, rfl⟩, fun _ => rfl⟩
  shared := ⟨rfl, rfl, rfl⟩
  cases_ := rfl
  package := SamePackage.refl s

theorem ran_setMe (s : State) (x : Slot) : Ran s (s.setMe x) x := ⟨by simp, quiet_setMe s x⟩

/-- A change that is quiet, and then of the thread's own context. -/
theorem Quiet.ran {s t : State} (h : Quiet s t) (x : Slot) : Ran s (t.setMe x) x :=
  ⟨by simp [h.turn.1], h.trans (quiet_setMe t x)⟩

theorem Ran.me {s t : State} {x : Slot} (h : Ran s t x) : t.me = x := by simp [State.me, h.quiet.turn.1, h.own]
theorem Ran.inSeq {s t : State} {x : Slot} (h : Ran s t x) : t.inSeq = s.inSeq := h.quiet.turn.2.2.1
theorem Ran.cur {s t : State} {x : Slot} (h : Ran s t x) : t.cur = s.cur := h.quiet.turn.1
theorem Ran.chain {s t : State} {x : Slot} (h : Ran s t x) : t.chain = s.chain := h.quiet.turn.2.1

/-! ### The context of an instruction that is not one of a sequence -/

theorem ctx_eq {s : State} (h : s.inSeq = none) : s.ctx = s.me := by simp [State.ctx, State.mySeq, h]
theorem setPtr_eq {s : State} (h : s.inSeq = none) (p : PReg) (v : W64) :
    s.setPtr p v = s.setMe { s.me with ptrs := s.me.ptrs.set p v } := by simp [State.setPtr, h]
theorem orFlags_eq {s : State} (h : s.inSeq = none) (f : BitVec 5) :
    s.orFlags f = s.setMe { s.me with st := { s.me.st with fl := s.me.st.fl ||| f } } := by simp [State.orFlags, h]
theorem advance_eq {s : State} (h : s.inSeq = none) : s.advance = s.setMe { s.me with pc := s.nextPc } := by
  simp [State.advance, h]
theorem setA_eq (s : State) (v : W64) : s.setA v = s.setMe { s.me with a := v } := rfl
theorem setSt_eq (s : State) (f : Status → Status) : s.setSt f = s.setMe { s.me with st := f s.me.st } := rfl

/-! ### What each small update of the issuing thread does to `Ran` -/

theorem Ran.refl (s : State) : Ran s s s.me := ⟨rfl, Quiet.refl s⟩

/-- Changing the thread's context again. -/
theorem Ran.setMe {s t : State} {x : Slot} (h : Ran s t x) (f : Slot → Slot) : Ran s (t.setMe (f t.me)) (f x) := by
  have e := h.quiet.ran (f t.me)
  rw [h.me] at e ⊢
  exact e

theorem Ran.setA {s t : State} {x : Slot} (h : Ran s t x) (v : W64) : Ran s (t.setA v) { x with a := v } :=
  h.setMe fun y => { y with a := v }

theorem Ran.setSt {s t : State} {x : Slot} (h : Ran s t x) (f : Status → Status) :
    Ran s (t.setSt f) { x with st := f x.st } := h.setMe fun y => { y with st := f y.st }

theorem Ran.setPtr {s t : State} {x : Slot} (h : Ran s t x) (hq : s.inSeq = none) (p : PReg) (v : W64) :
    Ran s (t.setPtr p v) { x with ptrs := x.ptrs.set p v } := by
  rw [setPtr_eq (h.inSeq.trans hq)]
  exact h.setMe fun y => { y with ptrs := y.ptrs.set p v }

theorem Ran.orFlags {s t : State} {x : Slot} (h : Ran s t x) (hq : s.inSeq = none) (f : BitVec 5) :
    Ran s (t.orFlags f) { x with st := { x.st with fl := x.st.fl ||| f } } := by
  rw [orFlags_eq (h.inSeq.trans hq)]
  exact h.setMe fun y => { y with st := { y.st with fl := y.st.fl ||| f } }

theorem Ran.step1 {s t : State} {x : Slot} (h : Ran s t x) (hq : s.inSeq = none) (o : MemOp) (w : Nat) :
    Ran s (t.step1 o w)
      { x with ptrs := x.ptrs.set o.p (steppedOf (x.ptrs.get o.p) x.xi.mask o.am w) } := by
  have e := h.setPtr hq o.p (steppedOf (x.ptrs.get o.p) x.xi.mask o.am w)
  unfold State.step1
  rw [ctx_eq (h.inSeq.trans hq), h.me]
  exact e

theorem Ran.nextPc {s t : State} {x : Slot} (h : Ran s t x) (hx : x.pc = s.me.pc) : t.nextPc = s.nextPc := by
  simp [State.nextPc, h.me, h.chain, hx]

theorem Ran.advance {s t : State} {x : Slot} (h : Ran s t x) (hq : s.inSeq = none) (hx : x.pc = s.me.pc) :
    Ran s t.advance { x with pc := s.nextPc } := by
  rw [advance_eq (h.inSeq.trans hq), h.nextPc hx]
  exact h.setMe fun y => { y with pc := s.nextPc }

theorem Ran.jump {s t : State} {x : Slot} (h : Ran s t x) (a : VA) : Ran s (t.jump a) { x with pc := evenAddr a } :=
  h.setMe fun y => { y with pc := evenAddr a }

theorem Ran.hidden {s t u : State} {x : Slot} (h : Ran s t x) (k : Hidden t u) : Ran s u x :=
  ⟨by rw [k.slot, h.own], h.quiet.trans k.quiet⟩

/-! ### Ordering points, cached lines, fabric requests, messages -/

/-- Ordering points change only what loads may yet observe. -/
theorem hidden_orderPoint (s : State) (t : Nat) (sc : Scope) (f : Bool) : Hidden s (s.orderPoint t sc f) := by
  unfold State.orderPoint
  split
  · exact Hidden.refl s
  · exact Hidden.of_fields rfl

theorem hidden_newEra (s : State) : Hidden s s.newEra := Hidden.of_fields rfl

theorem hidden_acquired (s : State) (sc : Scope) : Hidden s (s.acquired sc) := by
  have h := hidden_orderPoint s s.cur sc false
  unfold State.acquired
  dsimp only
  split
  · exact h.trans (hidden_newEra _)
  · exact h

theorem hidden_strongSeen (s : State) (a : Nat) (sc : Scope) (ks : List Nat) : Hidden s (s.strongSeen a sc ks) := by
  unfold State.strongSeen
  split
  · exact Hidden.refl s
  · exact Hidden.of_fields rfl

theorem hidden_raisePublished (s : State) (w : Option Nat) (a : Nat) (sc : Scope) : Hidden s (s.raisePublished w a sc) := by
  unfold State.raisePublished
  split
  · exact Hidden.refl s
  · exact Hidden.of_fields rfl

theorem hidden_forget (s : State) (p : Nat → Bool) : Hidden s (s.forget p) := by
  unfold State.forget
  dsimp only
  split
  · exact Hidden.refl s
  · exact Hidden.of_fields rfl

theorem hidden_finishWrites (s : State) (t : Nat) (p : WriteRec → Bool) : Hidden s (s.finishWrites t p) := by
  unfold State.finishWrites
  split
  · exact Hidden.refl s
  · exact Hidden.of_fields rfl

theorem hidden_post (s : State) (o : Outstanding) : Hidden s (s.post o) := Hidden.of_fields rfl

theorem hidden_postBack (s : State) (l : Nat) (t : BitVec 4) (k : BitVec 8) : Hidden s (s.postBack l t k) :=
  hidden_post ..

theorem hidden_toBacking (s : State) (l : Nat) (t : BitVec 4) (k : BitVec 8) : Hidden s (s.toBacking l t k) := by
  unfold State.toBacking
  split
  · exact hidden_postBack ..
  · exact Hidden.refl s

theorem hidden_dropEntry (s : State) (l : Nat) : Hidden s (s.dropEntry l) := Hidden.of_fields rfl
theorem hidden_setEntry (s : State) (r : L1Line) : Hidden s (s.setEntry r) := Hidden.of_fields rfl

theorem hidden_evictWay (s : State) (w : Nat) : Hidden s (s.evictWay w) := by
  have h : Hidden s { s with l2 := aerase s.l2 w } := Hidden.of_fields rfl
  unfold State.evictWay
  split
  · exact Hidden.refl s
  · dsimp only; split
    · exact h.trans (hidden_toBacking ..)
    · exact h

theorem hidden_fillL2 (s : State) (d l : Nat) (t : BitVec 4) (k : BitVec 8) (b : Bool) : Hidden s (s.fillL2 d l t k b) := by
  unfold State.fillL2
  split
  · dsimp only
    split
    · exact Hidden.trans (Hidden.of_fields rfl) (hidden_toBacking ..)
    · exact Hidden.of_fields rfl
  · split
    · split
      · exact hidden_toBacking ..
      · exact Hidden.refl s
    · exact (hidden_evictWay s _).trans (Hidden.of_fields rfl)

theorem hidden_cleanL2 (s : State) (l : Nat) : Hidden s (s.cleanL2 l) := by
  unfold State.cleanL2
  split
  · exact Hidden.refl s
  · refine Hidden.trans ?_ (hidden_toBacking ..)
    exact Hidden.of_fields rfl

theorem hidden_writeBackL1 (s : State) (l : Nat) : Hidden s (s.writeBackL1 l) := by
  unfold State.writeBackL1
  split
  · split
    · exact Hidden.refl s
    · exact (hidden_setEntry s _).trans (hidden_fillL2 ..)
  · exact Hidden.refl s

/-- A write-back changes only which caches hold the line (R337). -/
theorem hidden_cleanLine (s : State) (l : Nat) : Hidden s (s.cleanLine l) :=
  (hidden_writeBackL1 s l).trans (hidden_cleanL2 _ l)

theorem hidden_dropLine (s : State) (l : Nat) : Hidden s (s.dropLine l) :=
  ((hidden_cleanLine s l).trans (hidden_dropEntry _ l)).trans (Hidden.of_fields rfl)

theorem hidden_rekey (s : State) (k : BitVec 8) (l : Nat) : Hidden s (s.rekey k l) := by
  unfold State.rekey
  split
  · exact hidden_dropLine ..
  · exact Hidden.refl s

theorem hidden_reserveTag (s : State) (d l : Nat) : Hidden s (s.reserveTag d l) := by
  unfold State.reserveTag
  dsimp only
  split
  · exact Hidden.refl s
  · split
    · exact (hidden_writeBackL1 s _).trans (hidden_dropEntry ..)
    · exact Hidden.refl s

/-- An L1 that gives up a line changes only which caches hold lines (R357). -/
theorem hidden_evictCopy (s : State) (c l : Nat) : Hidden s (s.evictCopy c l) := by
  have h (b : Bool) : Hidden s (if b then s.writeBackL1 l else s) := by
    split
    · exact hidden_writeBackL1 s l
    · exact Hidden.refl s
  unfold State.evictCopy
  dsimp only
  split
  · exact (h _).trans (hidden_setEntry ..)
  · exact h _

theorem hidden_makeRoom (s : State) (c l : Nat) : Hidden s (s.makeRoom c l) := by
  unfold State.makeRoom
  dsimp only
  split
  · exact Hidden.refl s
  · split
    · exact hidden_evictCopy ..
    · exact Hidden.refl s

theorem hidden_missLine (s : State) (c l : Nat) (t : BitVec 4) (k : BitVec 8) : Hidden s (s.missLine c l t k) := by
  refine (hidden_makeRoom s c l).trans ?_
  unfold State.missLine
  dsimp only
  split
  · exact hidden_fillL2 ..
  · exact (hidden_reserveTag _ _ _).trans (hidden_fillL2 ..)

theorem hidden_readPast (s : State) (c l : Nat) (t : BitVec 4) (k : BitVec 8) : Hidden s (s.readPast c l t k) := by
  unfold State.readPast
  refine Hidden.trans ?_ (hidden_fillL2 ..)
  split
  · exact hidden_setEntry ..
  · exact Hidden.refl s

theorem hidden_writePast (s : State) (c l : Nat) (t : BitVec 4) (k : BitVec 8) : Hidden s (s.writePast c l t k) :=
  ((hidden_writeBackL1 s l).trans (hidden_dropEntry ..)).trans (hidden_fillL2 ..)

/-- A read of a line changes only which caches hold lines (R357, R358). -/
theorem hidden_readLine (s : State) (t c l : Nat) : Hidden s (s.readLine t c l) := by
  refine (hidden_rekey s (s.slot t).key l).trans ?_
  unfold State.readLine
  dsimp only
  split
  · exact hidden_readPast ..
  · split
    · split
      · exact Hidden.refl _
      · exact (hidden_missLine ..).trans (hidden_setEntry ..)
    · exact (hidden_missLine ..).trans (hidden_setEntry ..)

/-- A write of a line changes only which caches hold lines (R357, R358). -/
theorem hidden_writeLine (s : State) (t c l : Nat) : Hidden s (s.writeLine t c l) := by
  refine (hidden_rekey s (s.slot t).key l).trans ?_
  unfold State.writeLine
  dsimp only
  split
  · exact hidden_writePast ..
  · split
    · split
      · exact hidden_setEntry ..
      · exact (hidden_missLine ..).trans (hidden_setEntry ..)
    · exact (hidden_missLine ..).trans (hidden_setEntry ..)

theorem hidden_readLines (s : State) (t c : Nat) (ks : List Nat) : Hidden s (s.readLines t c ks) :=
  Hidden.foldl _ (fun s l => hidden_readLine s t c l) _ s

theorem hidden_dropCopy (s : State) (c l : Nat) : Hidden s (s.dropCopy c l) := by
  unfold State.dropCopy
  split
  · exact hidden_setEntry ..
  · exact Hidden.refl s

/-- Calling back the copies that other packages hold sends requests and changes nothing else (R413). -/
theorem hidden_callBack (s : State) (l : Nat) (o : Outstanding) (e : Option Nat) : Hidden s (s.callBack l o e) := by
  unfold State.callBack
  split
  · exact Hidden.refl s
  · exact Hidden.trans (Hidden.of_fields rfl) (Hidden.foldl _ (fun s _ => hidden_post s _) _ _)

theorem hidden_acknowledged (s : State) : Hidden s s.acknowledged := by
  unfold State.acknowledged
  dsimp only
  split
  · exact Hidden.of_fields rfl
  · exact Hidden.refl s

theorem hidden_touchLine (s : State) (a : Author) (l : Nat) : Hidden s (s.touchLine a l) := by
  unfold State.touchLine
  split
  · dsimp only
    split
    · exact (hidden_callBack ..).trans (hidden_writeLine ..)
    · exact (hidden_callBack ..).trans (hidden_dropLine ..)
  · exact ((hidden_callBack ..).trans (hidden_acknowledged _)).trans (hidden_dropLine ..)
  · exact ((hidden_callBack ..).trans (hidden_acknowledged _)).trans (hidden_dropLine ..)
  · exact ((hidden_callBack ..).trans (hidden_acknowledged _)).trans (hidden_dropLine ..)
  · exact (hidden_callBack ..).trans (hidden_dropLine ..)
  · exact (hidden_callBack ..).trans (hidden_dropLine ..)

theorem hidden_askPeer (s : State) (d l : Nat) (w : Bool) (o : Outstanding) : Hidden s (s.askPeer d l w o) := by
  refine (hidden_rekey s o.key l).trans ?_
  unfold State.askPeer
  dsimp only
  split
  · exact Hidden.refl _
  · exact hidden_post ..

/-- Requests for peer lines change only the caches and the fabric (R413). -/
theorem hidden_askPeers (s : State) (d : Nat) (ks : List Nat) (w : Bool) (o : Nat → Outstanding) :
    Hidden s (s.askPeers d ks w o) :=
  Hidden.foldl _ (fun s k => hidden_askPeer s d (lineOf k) w (o k)) _ s

theorem hidden_takePeers (s : State) (d : Nat) (ks : List Nat) (t : BitVec 4) (k : BitVec 8) : Hidden s (s.takePeers d ks t k) :=
  Hidden.foldl _ (fun s l => hidden_fillL2 s d l t k false) _ s

theorem hidden_toFabric (s : State) (ks : List Nat) (w : Bool) : Hidden s (s.toFabric ks w) := hidden_askPeers ..

/-- The tables of walks come through the caches and the fabric alone (R413, R419). -/
theorem hidden_bringTables (s : State) (sp : Space) (ps : List Part) (o : Nat → Outstanding) :
    Hidden s (s.bringTables sp ps o) := (hidden_askPeers s _ _ _ _).trans (hidden_takePeers ..)

theorem hidden_walksRead (s : State) (ps : List Part) : Hidden s (s.walksRead ps) :=
  by
  unfold State.walksRead
  split
  · exact Hidden.refl s
  · exact hidden_bringTables ..

theorem hidden_setCounts (s : State) (c : Nat) (x : Assoc Counts) :
    Hidden s (s.setCore c { s.core c with counts := x }) := by
  refine ⟨rfl, rfl, rfl, rfl, rfl, rfl, rfl, fun u => ?_, ⟨rfl, rfl, rfl⟩, rfl, SamePackage.refl s⟩
  rw [core_setCore]
  by_cases h : u = c <;> simp [h]

theorem hidden_msgSent (s : State) (l c : Nat) : Hidden s (s.msgSent l c) := hidden_setCounts ..
theorem hidden_msgRcvd (s : State) (l c : Nat) : Hidden s (s.msgRcvd l c) := hidden_setCounts ..

theorem hidden_roundTrip (s : State) (l a b : Nat) : Hidden s (s.roundTrip l a b) := by
  unfold State.roundTrip
  split
  · exact Hidden.refl s
  · exact (((hidden_msgSent ..).trans (hidden_msgRcvd ..)).trans (hidden_msgSent ..)).trans (hidden_msgRcvd ..)

theorem hidden_remoteMessages (s : State) (l c : Nat) (ks : List Nat) : Hidden s (s.remoteMessages l c ks) :=
  Hidden.foldl _ (fun s d => hidden_roundTrip s l c d) _ s

/-! ### Loads -/

/-- Holding the thread until its access completes sets its busy mark and nothing else. -/
theorem ran_hold (s : State) (ks : List Nat) : ∃ b, Ran s (s.hold ks) { s.me with busy := b } := by
  unfold State.hold
  split
  · exact ⟨s.me.busy, rfl, Quiet.refl s⟩
  · exact ⟨true, ran_setMe s _⟩

/-- A load leaves everything but the thread's busy mark as it was. -/
theorem ran_loaded (s : State) (ps : List Part) (o : Order) : ∃ b, Ran s (s.loaded ps o) { s.me with busy := b } := by
  have step (t : State) (h : Hidden s t) (ks : List Nat) : ∃ b, Ran s (t.hold ks) { s.me with busy := b } := by
    obtain ⟨b, hb⟩ := ran_hold t ks
    exact ⟨b, by rw [← h.cur, ← h.me]; exact hb.own, h.quiet.trans hb.quiet⟩
  unfold State.loaded
  have h1 := (((hidden_walksRead s ps).trans (hidden_toFabric _ (partKeys ps) false)).trans
    (hidden_remoteMessages _ s.me.launch s.here (partKeys ps))).trans (hidden_readLines _ s.cur s.here (partKeys ps))
  dsimp only
  split
  · split
    · exact step _ ((h1.trans (hidden_strongSeen ..)).trans (hidden_acquired ..)) _
    · exact step _ (h1.trans (hidden_acquired ..)) _
  · split
    · exact step _ (h1.trans (hidden_strongSeen ..)) _
    · exact step _ h1 _

/-- The end of an instruction that completes. -/
theorem settle_ok {s t : State} (i : Instr) (h : s.inSeq = none) : settle s i (.ok t) = .next t := by
  simp [settle, h]

theorem settle_trap {s : State} (i : Instr) (h : s.inSeq = none) (c : TrapInfo) :
    settle s i (.error (.trap c)) = .next (s.takeTrap s.cur s.me.pc s.chain.len c) := by
  simp [settle, h]

theorem settle_park {s t : State} (i : Instr) (h : s.inSeq = none) :
    settle s i (.error (.park t)) = .next (t.setMe { t.me with park := some (i, t.chain) }) := by
  simp [settle, h]

theorem loadOperand_ok {s t : State} {p : Operand} {md : MD} {m : Nat} (h : s.loadOperand p md = .ok (m, t)) :
    t = s.loaded p.parts (p.order md) ∧ m = s.operandValue p md := by
  unfold State.loadOperand at h
  simp only [bind, Except.bind] at h
  split at h
  · cases h
  · cases h; exact ⟨rfl, rfl⟩

/-- Reading an operand leaves everything but the thread's busy mark as it was. -/
theorem ran_loadOperand {s t : State} {p : Operand} {md : MD} {m : Nat} (h : s.loadOperand p md = .ok (m, t)) :
    ∃ b, Ran s t { s.me with busy := b } := by
  rw [(loadOperand_ok h).1]; exact ran_loaded ..

end Sys2Proof.Machine
end

