-- ==== Sys2Proof/Laws/Matrix.lean ====
section
/-! SUPPORT. What a command of the matrix unit that passes its checks has gone through. -/

namespace Sys2Proof.Machine
open Sys2Proof

/-- A panel passes once each of its rows does, and its pages are those of its rows (R204). -/
theorem panelRows_ok {s : State} {tag : BitVec 4} {p : Panel} {len : Nat} {f : Nat → List Part} : ∀ {k m : Nat},
    (∀ i, m ≤ i → i < m + k →
      s.panelBytes tag p.base (len / 4096 + 2) (p.base + BitVec.ofNat 48 (i * p.stride)) len = .ok (f i)) →
    s.panelRows tag p len k m = .ok ((span m k).flatMap f)
  | 0, _, _ => rfl
  | k + 1, m, h => by
    have ih := panelRows_ok (k := k) (m := m + 1) fun i hi hk => h i (by omega) (by omega)
    unfold State.panelRows
    rw [h m (Nat.le_refl m) (by omega)]
    simp only [bind, Except.bind, ih]
    simp [span]

/-- A command passes exactly where its three groups of checks do (R205). -/
theorem matCheck_ok {s : State} {c : MatCmd} {p : PReg} {r : MatChecked} :
    s.matCheck c p = .ok r ↔ ∃ q, s.matHead c p = .ok r.head ∧ s.panelCheck (matPanel c r.head) r.head.k = .ok q
      ∧ s.matTail c r.head q.fmt q.geo = .ok (r.blk, r.keys) ∧ r.parts = q.parts := by
  unfold State.matCheck
  constructor
  · intro h
    cases hh : s.matHead c p with
    | error e => rw [hh] at h; cases h
    | ok x =>
      rw [hh] at h
      cases hp : s.panelCheck (matPanel c x) x.k with
      | error e => simp [bind, Except.bind, hp] at h
      | ok y =>
        cases ht : s.matTail c x y.fmt y.geo with
        | error e => simp [bind, Except.bind, hp, ht] at h
        | ok z =>
          simp only [bind, Except.bind, hp, ht] at h
          cases h
          exact ⟨y, rfl, hp, ht, rfl⟩
  · rintro ⟨y, hh, hp, ht, he⟩
    rw [hh]; simp only [bind, Except.bind, hp, ht, ← he]

end Sys2Proof.Machine
end

