-- ==== Sys2Proof/Laws/Stores.lean ====
section
/-! SUPPORT. What a write of memory, of a row or of a full bit does and leaves unchanged: each is an explicit plain update
of the state after which only the issuing thread's own context changes. -/

namespace Sys2Proof.Machine
open Sys2Proof

/-! ### Writes of memory -/

/-- The state with bytes set, and a case whose partition they meet marked as written by another agent (R372). -/
def State.withBytes (s : State) (bs : Bytes) : State :=
  { s with mem := setBytes s.mem bs, bindings := (s.spoil bs).bindings }

/-- A write (R320) sets its bytes, and nothing else that a program can read changes. -/
theorem hidden_write (s : State) (a : Author) (bs : Bytes) : Hidden (s.withBytes bs) (s.write a bs) := by
  have hs : Hidden { s with bindings := (s.spoil bs).bindings } (s.spoil bs) := by
    unfold State.spoil; split <;> exact Hidden.refl _
  have hl : ∀ (ls : List Nat) (s : State), Hidden s (ls.foldl (fun s l => s.touchLine a l) s) :=
    fun ls s => Hidden.foldl _ (fun s l => hidden_touchLine s a l) ls s
  have lift : ∀ {u v : State}, Hidden u v → Hidden { u with mem := setBytes u.mem bs } { v with mem := setBytes v.mem bs } :=
    fun h => ⟨h.slots, congrArg (setBytes · bs) h.mem, h.cur, h.chain, h.inSeq, h.nd, h.inputs, h.cores, h.shared, h.cases_,
      h.package⟩
  unfold State.write State.withBytes
  dsimp only
  generalize firstKeys _ = ls
  refine (lift (hs.trans (hl ls (s.spoil bs)))).trans ?_
  generalize List.foldl _ (s.spoil bs) ls = u
  unfold State.snoop; dsimp only; split <;> exact Hidden.of_fields rfl

/-- Setting bytes reads back at no other location. -/
theorem withBytes_byte {s : State} {bs : Bytes} {k : Nat} (h : k ∉ bs.map (·.1)) : (s.withBytes bs).byte k = s.byte k :=
  aget_setBytes_of_not_mem _ _ _ h

theorem mem_zipBytes {ks : List Nat} {bs : List (BitVec 8)} {k : Nat} (h : k ∉ ks) : k ∉ (zipBytes ks bs).map (·.1) := by
  intro hk
  rw [List.mem_map] at hk
  obtain ⟨e, he, rfl⟩ := hk
  exact h (List.of_mem_zip he).1

/-- A store and then only changes of the thread's context. -/
theorem RanStore.of {s t : State} {x : Slot} {ks : List Nat} {bs : List (BitVec 8)}
    (h : Ran (s.withBytes (zipBytes ks bs)) t x) (ht : t.mem = (s.withBytes (zipBytes ks bs)).mem) : RanStore s t x ks bs where
  own := h.own
  bytes := ht
  memory k hk := (h.quiet.memory k).trans (withBytes_byte (mem_zipBytes hk))
  turn := h.quiet.turn
  threads := h.quiet.threads
  rows := h.quiet.rows
  units := ⟨h.quiet.units.tiles, h.quiet.units.latches, h.quiet.units.engines, h.quiet.units.full⟩
  shared := h.quiet.shared
  cases_ := h.quiet.cases_
  package := h.quiet.package

/-! ### Rows and full bits -/

/-- A row set and then only changes of the thread's context. -/
theorem RanRow.of {s t : State} {x : Slot} {d : RowRef} {r : Row}
    (h : Ran (s.setMyCore (s.myCore.setRow d r)) t x) : RanRow s t x d r where
  own := h.own
  row := by rw [h.quiet.rows]; simp
  turn := h.quiet.turn
  threads := h.quiet.threads
  memory := h.quiet.memory
  rows c e hc := by
    rw [h.quiet.rows, core_setMyCore]
    by_cases h1 : c = s.here
    · subst h1
      rw [if_pos rfl, row_setRow, if_neg fun h2 => hc ⟨rfl, h2⟩]; rfl
    · rw [if_neg h1]
  units := {
    tiles := fun c i => by
      rw [h.quiet.units.tiles, core_setMyCore]; by_cases h1 : c = s.here <;> simp [h1, Core.setRow, Core.tile, State.myCore]
    latches := fun c => by
      rw [h.quiet.units.latches, core_setMyCore]; by_cases h1 : c = s.here <;> simp [h1, Core.setRow, State.myCore]
    engines := fun c => by
      have e := h.quiet.units.engines c
      rw [core_setMyCore] at e
      by_cases h1 : c = s.here <;> simpa [h1, Core.setRow, State.myCore] using e
    full := fun c => by
      rw [h.quiet.units.full, core_setMyCore]; by_cases h1 : c = s.here <;> simp [h1, Core.setRow, State.myCore] }
  shared := h.quiet.shared
  cases_ := h.quiet.cases_
  package := h.quiet.package

theorem isFull_setFull (s : State) (k j : Nat) (b : Bool) : (s.setFull k b).isFull j =
    if spmCore j = spmCore k ∧ spmOff j / 8 = spmOff k / 8 then b else s.isFull j := by
  unfold State.isFull State.setFull
  simp only [core_setCore]
  by_cases h1 : spmCore j = spmCore k
  · by_cases h2 : spmOff j / 8 = spmOff k / 8
    · cases b <;> simp [h1, h2]
    · cases b <;> simp [h1, h2, List.contains_eq_mem]
  · simp [h1]

theorem isFull_congr {s t : State} (h : SameFull s t) (k : Nat) : t.isFull k = s.isFull k := by
  simp [State.isFull, h (spmCore k)]

/-- A full bit set and then only changes of the thread's context. -/
theorem RanFull.of {s t : State} {x : Slot} {k : Nat} {b : Bool} (h : Ran (s.setFull k b) t x) : RanFull s t x k b where
  own := h.own
  full := by rw [isFull_congr h.quiet.units.full, isFull_setFull, if_pos ⟨rfl, rfl⟩]
  others j hj := by rw [isFull_congr h.quiet.units.full, isFull_setFull, if_neg hj]
  turn := h.quiet.turn
  threads := h.quiet.threads
  memory := h.quiet.memory
  rows c r := by
    rw [h.quiet.rows]; unfold State.setFull; rw [core_setCore]
    by_cases h1 : c = spmCore k <;> simp [h1, Core.row]
  tiles c r := by
    rw [h.quiet.units.tiles]; unfold State.setFull; rw [core_setCore]
    by_cases h1 : c = spmCore k <;> simp [h1, Core.tile]
  latches c := by
    rw [h.quiet.units.latches]; unfold State.setFull; rw [core_setCore]; by_cases h1 : c = spmCore k <;> simp [h1]
  engines c := by
    have e := h.quiet.units.engines c
    unfold State.setFull at e
    rw [core_setCore] at e
    by_cases h1 : c = spmCore k <;> simpa [h1] using e
  shared := h.quiet.shared
  cases_ := h.quiet.cases_
  package := h.quiet.package

end Sys2Proof.Machine
end

