-- ==== Sys2Proof/Laws/Memory.lean ====
section
/-! SUPPORT. Every operation that changes memory keeps its canonical form, and a byte that has been set reads back. -/

namespace Sys2Proof.Machine
open Sys2Proof

/-! ### The canonical form -/

theorem wf_reset : State.reset.mem.wf = true := rfl

theorem wf_setByte {s : State} (k : Nat) (v : BitVec 8) (h : s.mem.wf = true) : (s.setByte k v).mem.wf = true :=
  wf_aset k v h

theorem wf_withBytes {s : State} (bs : Bytes) (h : s.mem.wf = true) : (s.withBytes bs).mem.wf = true := wf_setBytes bs h

/-- A write keeps the form (R320). -/
theorem wf_write {s : State} (a : Author) (bs : Bytes) (h : s.mem.wf = true) : (s.write a bs).mem.wf = true := by
  rw [(hidden_write s a bs).mem]; exact wf_withBytes bs h

/-- What changes nothing readable keeps the form. -/
theorem Hidden.wf {s t : State} (k : Hidden s t) (h : s.mem.wf = true) : t.mem.wf = true := by rw [k.mem]; exact h

/-- Clearing a scratchpad keeps the form (R243). -/
theorem wf_clearCore {s : State} (c : Nat) (h : s.mem.wf = true) : (s.clearCore c).mem.wf = true := by
  unfold State.clearCore; rw [(hidden_forget _ _).mem]; exact wf_filter _ h

/-- Dropping a line keeps the form (R337). -/
theorem wf_discardLine {s : State} (c l : Nat) (h : s.mem.wf = true) : (s.discardLine c l).mem.wf = true := by
  unfold State.discardLine
  split
  · exact h
  · dsimp only
    repeat' split
    · exact h
    · rw [((hidden_writeBackL1 s l).trans (hidden_dropCopy _ _ l)).mem]; exact h
    · refine wf_setBytes _ ?_
      rw [((hidden_dropEntry s l).trans (hidden_forget _ _)).mem]; exact h

/-- A program placed for a fetch keeps the form. -/
theorem wf_placed {s : State} (nbits w : Nat) (h : s.mem.wf = true) : (s.placed nbits w).mem.wf = true :=
  wf_setBytes _ h

/-! ### Reading after writing -/

/-- Bytes set at places of their own read back. -/
theorem byte_withBytes (s : State) (bs : Bytes) (k : Nat) :
    (s.withBytes bs).byte k = aget unlistedByte (setBytes s.mem bs) k := rfl

/-- Memory after a write (R320). -/
theorem write_mem (s : State) (a : Author) (bs : Bytes) : (s.write a bs).mem = setBytes s.mem bs := (hidden_write s a bs).mem

/-- A write leaves every location alone that it does not name. -/
theorem byte_write {s : State} (a : Author) {bs : Bytes} {k : Nat} (h : k ∉ bs.map (·.1)) : (s.write a bs).byte k = s.byte k := by
  rw [(hidden_write s a bs).byte]; exact withBytes_byte h

end Sys2Proof.Machine
end

