-- ==== Sys2Proof/Laws/Rows.lean ====
section
/-! SUPPORT. The checks of rows (R178), the lanes of a row (R87), and what writing a row of lanes does. -/

namespace Sys2Proof.Machine
open Sys2Proof

/-! ### Checks -/

theorem trapIf_false (code : BitVec 8) (badv : W64) : trapIf false code badv = .ok () := rfl
theorem trapIf_true (code : BitVec 8) (badv : W64) : trapIf true code badv = .error (.trap { code := code, badv := badv }) := rfl

theorem trapIf_eq_ok {c : Bool} {code : BitVec 8} {badv : W64} (h : c = false) : trapIf c code badv = .ok () := by
  rw [h]; rfl

theorem rowsUngated_ok {s : State} {rs : List RowRef} (h : ∀ r, r ∈ rs → s.rowGated r = false) :
    s.rowsUngated rs = .ok () := by
  induction rs with
  | nil => rfl
  | cons r rs ih =>
    simp only [State.rowsUngated, trapIf_eq_ok (h r (List.mem_cons_self ..)), bind, Except.bind]
    exact ih fun q hq => h q (List.mem_cons_of_mem _ hq)

theorem rowsOwned_ok {s : State} {rs : List RowRef} (h : ∀ r, r ∈ rs → s.mayUse (s.tileOf r) = true) :
    s.rowsOwned rs = .ok () := by
  induction rs with
  | nil => rfl
  | cons r rs ih =>
    simp only [State.rowsOwned, h r (List.mem_cons_self ..), Bool.not_true, trapIf_false, bind, Except.bind]
    exact ih fun q hq => h q (List.mem_cons_of_mem _ hq)

theorem rowsFree_ok {s : State} {rs : List RowRef} (h : ∀ r, r ∈ rs → s.rowPending r = false) : s.rowsFree rs = .ok () := by
  unfold State.rowsFree
  rw [if_neg]
  simpa using h

/-- Checks 4 to 6 of R178 pass on usable rows. -/
theorem rowsReady_ok {s : State} {rs : List RowRef} (h : ∀ r, r ∈ rs → s.usable r) : s.rowsReady rs = .ok () := by
  simp only [State.rowsReady, rowsUngated_ok fun r hr => (h r hr).1, rowsOwned_ok fun r hr => (h r hr).2.1,
    rowsFree_ok fun r hr => (h r hr).2.2, bind, Except.bind]

theorem rowSize_ok {s : State} {r : RowRef} {n : Nat} (h : (s.tileOf r).size = sizeOfBits n) : s.rowSize r n = .ok () :=
  trapIf_eq_ok (by simp [h])

theorem laneSource_ok {s : State} {r : RowRef} {n : Nat} {tag : BitVec 4} (h : s.readable r n tag) :
    s.laneSource r n tag = .ok () := by
  have ht : s.rowTagged r tag = .ok () := trapIf_eq_ok (by
    rcases h.2.2 with e | e <;> simp [e])
  simp only [State.laneSource, rowSize_ok h.2.1, ht, bind, Except.bind]

theorem laneDest_ok {s : State} {r : RowRef} {n : Nat} (h : s.writable r n) : s.laneDest r n = .ok () := by
  unfold State.laneDest
  split
  · rfl
  · rename_i e
    rcases h.2 with h | h | h
    · exact rowSize_ok h
    · simp [h] at e
    · simp [h] at e

/-- Check 7 of R178 passes on readable sources and writable destinations. -/
theorem laneChecks_ok {s : State} {srcs rs : List RowRef} {n : Nat} {tag : BitVec 4}
    (h : ∀ r, r ∈ rs → if r ∈ srcs then s.readable r n tag else s.writable r n) : s.laneChecks srcs n tag rs = .ok () := by
  induction rs with
  | nil => rfl
  | cons r rs ih =>
    have e : (if srcs.contains r then s.laneSource r n tag else s.laneDest r n) = .ok () := by
      have := h r (List.mem_cons_self ..)
      by_cases hr : r ∈ srcs
      · rw [if_pos hr] at this; simpa [hr] using laneSource_ok this
      · rw [if_neg hr] at this; simpa [hr] using laneDest_ok this
    simp only [State.laneChecks, e, bind, Except.bind]
    exact ih fun q hq => h q (List.mem_cons_of_mem _ hq)

/-! ### Lanes -/

theorem length_span (a n : Nat) : (span a n).length = n := by
  induction n generalizing a with
  | zero => rfl
  | succ n ih => simp [span, ih]

theorem getD_span (a n j d : Nat) : (span a n).getD j d = if j < n then a + j else d := by
  induction n generalizing a j with
  | zero => simp [span]
  | succ n ih =>
    cases j with
    | zero => simp [span]
    | succ j => simp only [span, List.getD_cons_succ, ih, Nat.add_lt_add_iff_right]; split <;> omega

theorem mem_span {k a n : Nat} : k ∈ span a n ↔ a ≤ k ∧ k < a + n := by
  induction n generalizing a with
  | zero => simp [span]
  | succ n ih => simp only [span, List.mem_cons, ih]; omega

theorem span_eq_range (a n : Nat) : span a n = (List.range n).map (a + ·) := by
  induction n generalizing a with
  | zero => rfl
  | succ n ih =>
    rw [span, ih, List.range_succ_eq_map, List.map_cons, List.map_map]
    congr 1
    exact List.map_congr_left fun k _ => by simp only [Function.comp, Nat.succ_eq_add_one]; omega

theorem upto_eq_range (n : Nat) : upto n = List.range n := by
  rw [upto, span_eq_range]; simp

theorem laneAt_lane (n : Nat) (r : Row) (j : Nat) : laneAt n r.elems j = (r.lane n j).toNat := by
  simp [laneAt, Row.lane, BitVec.extractLsb'_toNat, Nat.shiftRight_eq_div_pow]

theorem lanesOf_eq (n : Nat) (r : Row) : lanesOf n r.elems = (List.range (2048 / n)).map fun j => (r.lane n j).toNat := by
  rw [lanesOf, upto_eq_range]
  exact List.map_congr_left fun j _ => laneAt_lane n r j

theorem packNat_div (n : Nat) (xs : List Nat) (j : Nat) : packNat n xs / 2 ^ (n * j) % 2 ^ n = xs.getD j 0 % 2 ^ n := by
  induction xs generalizing j with
  | nil => simp [packNat]
  | cons x xs ih =>
    cases j with
    | zero => simp [packNat, Nat.add_mul_mod_self_left]
    | succ j =>
      rw [packNat, Nat.mul_succ, Nat.pow_add, Nat.mul_comm (2 ^ (n * j)), ← Nat.div_div_eq_div_mul,
        Nat.add_mul_div_left _ _ (Nat.two_pow_pos n), Nat.div_eq_of_lt (Nat.mod_lt _ (Nat.two_pow_pos n)), Nat.zero_add, ih]
      rfl

/-- Lane `j` of the row that packs a list of lanes. -/
theorem lane_packLanes (n : Nat) (tag : BitVec 4) (sc : BitVec 64) (xs : List Nat) {j : Nat} (hj : n * j + n ≤ 2048) :
    ({ tag := tag, elems := packLanes n xs, scales := sc } : Row).lane n j = BitVec.ofNat n (xs.getD j 0) := by
  apply BitVec.eq_of_toNat_eq
  rw [Row.lane, BitVec.extractLsb'_toNat, packLanes, BitVec.toNat_ofNat, BitVec.toNat_ofNat, Nat.shiftRight_eq_div_pow,
    ← packNat_div]
  have e : 2 ^ 2048 = 2 ^ (n * j) * 2 ^ (2048 - n * j) := by rw [← Nat.pow_add]; congr 1; omega
  rw [e, Nat.mod_mul_right_div_self, Nat.mod_mod_of_dvd _ (Nat.pow_dvd_pow 2 (by omega))]

theorem lane_fits {n j : Nat} (h : j < 2048 / n) : n * j + n ≤ 2048 := by
  have h0 : 0 < n := by
    rcases Nat.eq_zero_or_pos n with e | e
    · subst e; simp at h
    · exact e
  calc n * j + n = n * (j + 1) := by rw [Nat.mul_succ]
    _ ≤ n * (2048 / n) := Nat.mul_le_mul_left n h
    _ ≤ 2048 := Nat.mul_div_le ..

theorem getD_map_range {α : Type} (f : Nat → α) (n j : Nat) (d : α) (h : j < n) :
    ((List.range n).map f).getD j d = f j := by
  simp [List.getD, h]

/-- The row that packs the lanes `f` holds them. -/
theorem laneRow_holds (n : Nat) (tag : BitVec 4) (f : Nat → Nat) :
    (laneRow n tag ((List.range (2048 / n)).map f)).holds n tag fun j => BitVec.ofNat n (f j) :=
  ⟨rfl, rfl, fun j hj => by rw [laneRow, lane_packLanes n tag 0 _ (lane_fits hj), getD_map_range f _ j 0 hj]⟩

/-! ### Writing a row -/

/-- Setting a row and then the flags and the program counter changes nothing else. -/
theorem ran_setRow {s : State} (h : s.inSeq = none) (d : RowRef) (r : Row) (f : Flags)
    (hr : 1 ≤ r.tag.toNat → r.tag.toNat ≤ 8 → r.scales = 0) :
    RanRow s ((s.setRow d r).orFlags f).advance
      { s.me with st := { s.me.st with fl := s.me.st.fl ||| f }, pc := s.nextPc } d r := by
  have e : s.setRow d r = s.setMyCore (s.myCore.setRow d r) := by
    unfold State.setRow
    congr 2
    rcases r with ⟨tag, el, sc⟩
    simp only at hr ⊢
    split
    · rename_i c; simp at c; rw [hr c.1 c.2]
    · rfl
  rw [e]
  apply RanRow.of
  have h1 : (s.setMyCore (s.myCore.setRow d r)).inSeq = none := h
  exact ((Ran.refl (s.setMyCore (s.myCore.setRow d r))).orFlags h1 f).advance h1 rfl

/-- Writing lanes, or trapping with their exceptions, is `LaneResult`. -/
theorem laneResult_of {s : State} {i : Instr} {d : RowRef} {n : Nat} {tag : BitVec 4} {f : Nat → BitVec n × Flags}
    {xs : List (Nat × Flags)} (hs : s.issuing) (hi : exec i s = settle s i (s.vecResult d n tag (gather xs)))
    (hx : xs = (List.range (2048 / n)).map fun j => ((f j).1.toNat, (f j).2)) : LaneResult i s d n tag f := by
  have hf : (gather xs).2 = (List.range (2048 / n)).foldl (fun fl j => fl ||| (f j).2) 0 := by
    rw [hx, gather, List.foldl_map]
  have h1 : (gather xs).1 = (List.range (2048 / n)).map fun j => (f j).1.toNat := by
    rw [hx, gather, List.map_map]; rfl
  have hh := laneRow_holds n tag fun j => (f j).1.toNat
  unfold LaneResult
  simp only
  rw [← hf]
  split
  · rename_i e
    rw [hi]
    simp only [State.vecResult, State.fpCheck, bind, Except.bind, ctx_eq hs.1]
    rw [trapIf_eq_ok (by simpa using e)]
    refine ⟨_, _, settle_ok i hs.1, ⟨rfl, rfl, fun j hj => ?_⟩, ran_setRow hs.1 d _ _ fun _ _ => rfl⟩
    rw [h1]
    exact (hh.2.2 j hj).trans (by simp)
  · rename_i e
    unfold Traps
    rw [hi]
    simp only [State.vecResult, State.fpCheck, bind, Except.bind, ctx_eq hs.1]
    rw [show trapIf ((gather xs).2 &&& s.me.st.te != 0) causeFp ((gather xs).2.zeroExtend 64)
      = .error (.trap { code := causeFp, badv := (gather xs).2.zeroExtend 64 }) from by
        rw [show ((gather xs).2 &&& s.me.st.te != 0) = true from by simpa using e]; rfl]
    exact settle_trap i hs.1 _

end Sys2Proof.Machine
end

