-- ==== Sys2Proof/Laws/Scalar.lean ====
section
/-! SUPPORT. What the shared operations of the scalar instructions do, once for each: integer and floating-point results,
immediates, pointers, branches. -/

namespace Sys2Proof.Machine
open Sys2Proof

/-! ### Completing and trapping -/

/-- An instruction whose operation succeeds completes. -/
theorem completes_of {s t : State} {i : Instr} {x : Slot} {r : Res} {b : Bool} (hq : s.inSeq = none)
    (he : exec i s = settle s i r) (hr : r = .ok t) (h : Ran s t { x with busy := b }) : Completes i s x :=
  ⟨t, b, by rw [he, hr, settle_ok _ hq], h⟩

/-- An instruction whose operation traps takes that trap. -/
theorem traps_of {s : State} {i : Instr} {r : Res} {c : BitVec 8} {v : W64} (hq : s.inSeq = none)
    (he : exec i s = settle s i r) (hr : r = trapWith c v) : Traps i s c v := by
  unfold Traps; rw [he, hr]; exact settle_trap _ hq _

/-- The check of a pointer's linear-handle bit (R27). -/
theorem notHandle_eq {s : State} (hq : s.inSeq = none) (p : PReg) :
    s.notHandle p = if s.me.st.lh.getLsbD p.toNat then trapWith 0x07 0 else .ok () := by
  simp only [State.notHandle, trapIf, ctx_eq hq, Status.handle]; rfl

/-! ### Integer instructions (R103 to R106) -/

/-- An integer instruction with a readable operand completes. -/
theorem intOp_completes {s : State} {i : Instr} {w : Width} {o : MemOp} {md : MD} {p : Operand} {m : Nat} {z : Bool}
    {f : Nat → Nat → Nat → IntResult} (hs : s.issuing) (hr : s.reads o w.bytes md p m)
    (he : exec i s = settle s i (s.intOp w o md z true f)) (hz : (z && m == 0) = false) :
    let r := f w.bits s.me.a.toNat m
    let y := narrow w.bits (md.sat && r.sat) r.x
    Completes i s { s.me with
      a := sext64 w.bits y, st := { s.me.st.setNZ w.bits y with c := r.c.getD s.me.st.c, v := r.v.getD s.me.st.v },
      ptrs := s.steppedPtrs o w.bytes, pc := s.nextPc } := by
  obtain ⟨hq, -⟩ := hs
  obtain ⟨h1, t, h2⟩ := hr
  obtain ⟨b, hb⟩ := ran_loadOperand h2
  have e : s.intOp w o md z true f
      = .ok ((t.intResult w.bits md.sat (f w.bits s.me.a.toNat m)).step1 o w.bytes).advance := by
    simp [State.intOp, h1, h2, bind, Except.bind, trapIf, hz, ctx_eq hq]
  exact ⟨_, b, by rw [he, e, settle_ok _ hq], (((hb.setA _).setSt _).step1 hq o _).advance hq rfl⟩

/-- CMP with a readable operand completes: A stays. -/
theorem intFlags_completes {s : State} {i : Instr} {w : Width} {o : MemOp} {md : MD} {p : Operand} {m : Nat}
    {f : Nat → Nat → Nat → IntResult} (hs : s.issuing) (hr : s.reads o w.bytes md p m)
    (he : exec i s = settle s i (s.intOp w o md false false f)) :
    let r := f w.bits s.me.a.toNat m
    let y := narrow w.bits false r.x
    Completes i s { s.me with
      st := { s.me.st.setNZ w.bits y with c := r.c.getD s.me.st.c, v := r.v.getD s.me.st.v },
      ptrs := s.steppedPtrs o w.bytes, pc := s.nextPc } := by
  obtain ⟨hq, -⟩ := hs
  obtain ⟨h1, t, h2⟩ := hr
  obtain ⟨b, hb⟩ := ran_loadOperand h2
  have e : s.intOp w o md false false f
      = .ok ((t.intFlags w.bits (f w.bits s.me.a.toNat m)).step1 o w.bytes).advance := by
    simp [State.intOp, h1, h2, bind, Except.bind, trapIf, ctx_eq hq]
  exact ⟨_, b, by rw [he, e, settle_ok _ hq], ((hb.setSt _).step1 hq o _).advance hq rfl⟩

/-- A division by zero traps (R106). -/
theorem intOp_divides {s : State} {i : Instr} {w : Width} {o : MemOp} {md : MD} {p : Operand} {k : Bool}
    {f : Nat → Nat → Nat → IntResult} (hs : s.issuing) (hr : s.reads o w.bytes md p 0)
    (he : exec i s = settle s i (s.intOp w o md true k f)) : Traps i s 0x08 (p.ea.zeroExtend 64) := by
  obtain ⟨hq, -⟩ := hs
  obtain ⟨h1, t, h2⟩ := hr
  exact traps_of hq he (by simp [State.intOp, h1, h2, bind, Except.bind, trapIf]; rfl)

/-- N and Z of a result of n bits (R103). -/
theorem setNZ_flagsOf {n : Nat} (st : Status) (r : BitVec n) : st.setNZ n r.toNat = st.flagsOf r := by
  simp only [Status.setNZ, Status.flagsOf]
  congr 1
  · simp [bit, BitVec.msb_eq_getLsbD_last, BitVec.testBit_toNat]
  · rw [Nat.mod_eq_of_lt r.isLt, Bool.eq_iff_iff, beq_iff_eq, beq_iff_eq, ← BitVec.toNat_inj]; simp

theorem width_pos (w : Width) : 0 < w.bits := by cases w <;> decide

/-! ### Pointers and branches (R118 to R122) -/

/-- A pointer operation on a pointer that holds no handle completes (R118, R119). -/
theorem ptrOp_completes {s : State} {i : Instr} {p : PReg} {f : W64 → W64} (hq : s.inSeq = none)
    (he : exec i s = settle s i (s.ptrOp p f)) (h : s.me.st.lh.getLsbD p.toNat = false) :
    Completes i s { s.me with ptrs := s.me.ptrs.set p (f (s.me.ptrs.get p)), pc := s.nextPc } :=
  completes_of hq he (by simp only [State.ptrOp, notHandle_eq hq, h]; rfl) (((Ran.refl s).setPtr hq p _).advance hq rfl)

/-- A pointer operation on a pointer that holds a handle traps (R119). -/
theorem ptrOp_traps {s : State} {i : Instr} {p : PReg} {f : W64 → W64} (hq : s.inSeq = none)
    (he : exec i s = settle s i (s.ptrOp p f)) (h : s.me.st.lh.getLsbD p.toNat = true) : Traps i s 0x07 0 :=
  traps_of hq he (by simp only [State.ptrOp, notHandle_eq hq, h]; rfl)

/-- The target of an offset in halfwords (R39). -/
theorem evenAddr_target (s : State) (off : W64) :
    evenAddr (s.target off) = (s.nextPc + BitVec.ofNat 48 (off.toNat * 2)) &&& ~~~1#48 := by
  unfold evenAddr State.target
  congr 2
  apply BitVec.eq_of_toNat_eq
  simp [Nat.shiftLeft_eq]

/-- A branch completes, at its target where it is taken (R120). -/
theorem branchOp_completes {s : State} {i : Instr} {taken : Bool} {off : W64} (hq : s.inSeq = none)
    (he : exec i s = settle s i (s.branchOp taken off)) : Completes i s { s.me with
      pc := if taken then (s.nextPc + BitVec.ofNat 48 (off.toNat * 2)) &&& ~~~1#48 else s.nextPc } := by
  cases taken
  · exact completes_of hq he rfl ((Ran.refl s).advance hq rfl)
  · refine completes_of hq he rfl (b := s.me.busy) ?_
    have h := (Ran.refl s).jump (s.target off)
    rw [evenAddr_target] at h
    exact h

/-- An immediate result of 64 bits (R111). -/
theorem immResult_completes {s : State} {i : Instr} {r : W64} (hq : s.inSeq = none)
    (he : exec i s = settle s i (.ok (s.immResult r).advance)) :
    Completes i s { s.me with a := r, st := { s.me.st.flagsOf r with c := s.me.st.c, v := s.me.st.v }, pc := s.nextPc } := by
  refine completes_of hq he rfl (b := s.me.busy) ?_
  have h := (((Ran.refl s).setA r).setSt (fun st => st.setNZ 64 r.toNat)).advance hq rfl
  simp only [setNZ_flagsOf s.me.st r] at h
  exact h

end Sys2Proof.Machine
end

