-- ==== Sys2Proof/Laws/Turns.lean ====
section
/-! SUPPORT. What a turn, an access on its way, a write that takes its place late, and a consultation of a forme table can do. -/

namespace Sys2Proof.Machine
open Sys2Proof

/-- An instruction of a thread is performed as `exec` performs it. -/
theorem issue_eq_exec {i : Instr} (h : isEvent i = false) (s : State) : issue i s = exec i s := by
  cases i <;> first | rfl | exact absurd h (by decide) | (simp [isEvent] at h)

/-! ### Accesses on their way (R143, R151) -/

/-- An access that sets out is that of its instruction under its chain, which is a load or an atomic, and it may wait alone. -/
theorem flightOf_some {s : State} {i : Instr} {f : Flying} (h : s.flightOf i = some f) :
    f.instr = i ∧ f.chain = s.chain ∧ flyingOps i ≠ [] ∧ s.onlyHeld i = true := by
  unfold State.flightOf at h
  split at h
  · cases h
  · rename_i hne
    split at h
    · rename_i hc
      obtain ⟨rs, -, rfl⟩ := Option.map_eq_some_iff.1 h
      simp only [Bool.and_eq_true] at hc
      exact ⟨rfl, rfl, hne, hc.1.2⟩
    · cases h

@[simp] theorem setOut_mem (s : State) (f : Flying) : (s.setOut f).mem = s.mem := rfl
@[simp] theorem setOut_hist (s : State) (f : Flying) : (s.setOut f).hist = s.hist := rfl
@[simp] theorem setOut_cores (s : State) (f : Flying) : (s.setOut f).cores = s.cores := rfl
@[simp] theorem setOut_cur (s : State) (f : Flying) : (s.setOut f).cur = s.cur := rfl
/-- The slot of an access on its way is held; nothing else of it changes. -/
@[simp] theorem setOut_me (s : State) (f : Flying) : (s.setOut f).me = { s.me with busy := true, flight := some f } := by
  simp [State.setOut]

/-! ### Writes that take their place late (R318) -/

@[simp] theorem moveLast_mem (s : State) (i : Nat) (w : WriteRec) : (s.moveLast i w).mem = setBytes s.mem w.new := rfl
@[simp] theorem moveLast_slots (s : State) (i : Nat) (w : WriteRec) : (s.moveLast i w).slots = s.slots := rfl
@[simp] theorem moveLast_cores (s : State) (i : Nat) (w : WriteRec) : (s.moveLast i w).cores = s.cores := rfl

theorem closeGap_length (w : WriteRec) (vs : List WriteRec) : (closeGap w vs).length = vs.length := by
  induction vs with
  | nil => rfl
  | cons v vs ih => simp [closeGap, ih]

/-- No write is lost. -/
theorem moveLast_length {s : State} {i : Nat} (h : i < s.hist.length) (w : WriteRec) :
    (s.moveLast i w).hist.length = s.hist.length := by
  simp only [State.moveLast, List.length_cons, List.length_append, closeGap_length, List.length_take, List.length_drop]
  omega

/-- A write keeps its place or, where its order is still open, comes last. -/
theorem placeLate_cases (s : State) (i : Nat) (w : WriteRec) :
    s.placeLate i w = (i, s) ∨ (s.mayFollow i w = true ∧ s.placeLate i w = (0, s.moveLast i w)) := by
  unfold State.placeLate
  split
  · rename_i h
    simp only [Bool.and_eq_true] at h
    exact .inr ⟨h.1, rfl⟩
  · exact .inl rfl

/-! ### Rows of an MDRAIN (R217) and entries of a forme table (R266, R277) -/

@[simp] theorem drainFrom_bytes (o : EngOp) (k : Nat) : (o.drainFrom k).bytes = o.bytes := rfl
@[simp] theorem drainFrom_rowCls (o : EngOp) (k : Nat) : (o.drainFrom k).rowCls = o.rowCls := rfl
@[simp] theorem drainFrom_kdone (o : EngOp) (k : Nat) : (o.drainFrom k).kdone = k := rfl
/-- Every row has been stored once none is left. -/
theorem drainFrom_written (o : EngOp) (k : Nat) : (o.drainFrom k).written = (o.rowCls.drop k).isEmpty := by
  simp only [EngOp.drainFrom]
  rw [Bool.eq_iff_iff]
  simp

/-- A table of this package answers with its entry. -/
theorem formeAt_own (s : State) {k : Nat} (h : k < 16) (e : Nat) : s.formeAt k e = (s.cluster k).forme e := by
  simp [State.formeAt, h]
/-- A table of another package answers with what an event has told of the entry. -/
theorem formeAt_told {s : State} {k e : Nat} (h : ((s.cluster k).forme e).told = true) : s.formeAt k e = (s.cluster k).forme e := by
  simp [State.formeAt, h]

end Sys2Proof.Machine
end

