-- ==== Sys2Proof/Laws/Vector.lean ====
section
/-! SUPPORT. What the shared operations of the vector instructions do, lane by lane. -/

namespace Sys2Proof.Machine
open Sys2Proof

theorem zipWith_lanes {α : Type} {n : Nat} (r q : Row) (f : Nat → Nat → α) :
    List.zipWith f (lanesOf n r.elems) (lanesOf n q.elems)
      = (List.range (2048 / n)).map fun j => f (r.lane n j).toNat (q.lane n j).toNat := by
  rw [lanesOf_eq, lanesOf_eq, List.zipWith_map, List.zipWith_self]

/-- Results without exceptions. -/
theorem gather_pure (xs : List Nat) : gather (xs.map fun x => (x, (0 : Flags))) = (xs, 0) := by
  have h : ∀ (ys : List Nat), (ys.map fun x => (x, (0 : Flags))).foldl (fun f x => f ||| x.2) 0 = 0 := by
    intro ys
    induction ys with
    | nil => rfl
    | cons y ys ih => simpa using ih
  unfold gather
  rw [h, List.map_map]
  simp [Function.comp_def]

/-- An instruction of one row writes each lane from the lane before (R185, R186). -/
theorem unary_lanes {s : State} {i : Instr} {ty : LaneTy} {d : RowRef} {g : Nat → Nat} (hs : s.issuing)
    (he : exec i s = settle s i (s.unary ty d g)) (hr : s.readable d (laneBits ty) (laneTag ty))
    (hb : ∀ x, g x < 2 ^ laneBits ty) :
    LaneResult i s d (laneBits ty) (laneTag ty) fun j => (BitVec.ofNat _ (g ((s.row d).lane (laneBits ty) j).toNat), 0) := by
  refine laneResult_of hs (xs := ((s.lanes (laneBits ty) d).map g).map fun x => (x, 0)) ?_ ?_
  · rw [gather_pure, he]
    congr 1
    simp only [State.unary, rowsReady_ok (rs := [d]) (by simpa using hr.1), laneSource_ok hr, bind, Except.bind]
  · rw [State.lanes, lanesOf_eq, List.map_map, List.map_map]
    apply List.map_congr_left
    intro j _
    simp [Nat.mod_eq_of_lt (hb _)]

end Sys2Proof.Machine
end

