-- ==== Sys2Proof/Tests/Slice0.lean ====
section
/-! SUPPORT. Tests: ill-formed terms that the checks refuse, words written out from the encodings of spec/, single steps
whose results spec/ gives, and witnesses of the hypotheses of the obligations. -/

namespace Sys2Proof.Tests
open Sys2Proof Sys2Proof.Machine

-- Theorems by kernel evaluation wait for one another: elaborated one after the other, they hold one thread and not many.
set_option Elab.async false

/-! ### Ill-formed terms -/

theorem test_ill_formed_md : ([
    .ld .w64 ⟨0, .plain⟩ { MD.zero with ord := .release }, .st .w64 ⟨0, .plain⟩ { MD.zero with ord := .acquire },
    .ld .w64 ⟨0, .plain⟩ { MD.zero with scope := .cluster }, .add .w8 ⟨0, .plain⟩ { MD.zero with sync := true },
    .and .w8 ⟨0, .plain⟩ { MD.zero with sat := true }, .mul .w8 ⟨0, .plain⟩ { MD.zero with rnd := .rtz },
    .fadd .l32 ⟨0, .plain⟩ { MD.zero with sat := true }, .fma .l32 ⟨0, .plain⟩ none { MD.zero with sync := true },
    .fcmp .l64 ⟨0, .plain⟩ { MD.zero with rnd := .rup }, .vld 0 0 { MD.zero with ord := .release },
    .vst 0 0 { MD.zero with ord := .acquire }, .vadd (.int .i32) 0 none none { MD.zero with rnd := .rdn },
    .vred (.fp .f32) 0 { MD.zero with sat := true }, .vfma .f32 0 none none { MD.zero with sat := true },
    .vcvt (.fp .f32) 0 none { MD.zero with ord := .sc }, .vqnt .e4m3 0 none { MD.zero with sat := true },
    .amoadd .l32 ⟨0, .plain⟩ { MD.zero with rnd := .rna }, .amocas .l32 ⟨0, .plain⟩ none { MD.zero with sat := true },
    .afadd .l64 ⟨0, .plain⟩ { MD.zero with sync := true }, .ldfut .l32 ⟨0, .plain⟩ { MD.zero with ord := .release },
    .stfut .l32 ⟨0, .plain⟩ { MD.zero with ord := .acquire }] : List Instr).all (fun i => !wellFormed i) = true := by
  decide +kernel

theorem test_ill_formed_immediate : ([
    .ldi (2 ^ 41), .addi (-2 ^ 40 - 1), .pset 0 (2 ^ 34), .pstep 0 (2 ^ 24), .b (2 ^ 37), .loop (-2 ^ 37 - 1),
    .call (2 ^ 40), .candle (some 0) (some 0) (2 ^ 15), .gutret (2 ^ 35), .pace (-2 ^ 35 - 1), .trap (2 ^ 35)]
    : List Instr).all (fun i => !wellFormed i) = true := by decide +kernel

theorem test_ill_formed_encoding : ([
    .cvt 6 false false .i32 .f64, .cvt 0 false false .f32 .f32, .cvt 2 false false .i8 .i16, .cvt 0 true true .i8 .i8,
    .cvt 0 true false .f32 .i32, .cvt 0 false true .i32 .f32, .tcfg 0 .e32 0 none,
    .vmin (.int .i16) 0 none (some 1), .vcmp (.fp .f32) 0 (some 1) (some .ltu), .vcmp (.int .i32) 0 (some 1) (some .uo),
    .vcmp (.int .i32) 0 none (some .lt), .vsel (.int .i16) 0 none (some 1), .vperm .w32 0 none (some 1),
    .candle none (some 1) 0, .lcast 0 (some 0), .lcast 0 (some 24)] : List Instr).all (fun i => !wellFormed i) = true := by
  decide +kernel

/-! ### Words from the encoding tables -/

/-- The halfwords decode to the instruction, all of them. -/
def decodesTo (hs : List Half) (i : Instr) : Bool :=
  match decode hs with
  | .ok (j, ch) => j == i && ch.len == hs.length
  | .error _ => false

/-- Every list of halfwords decodes to its instruction. -/
abbrev decodesAll (es : List (List Half × Instr)) : Prop := es.all (fun e => decodesTo e.1 e.2) = true

theorem test_decode_integer : decodesAll
    [([0x0370], .ld .w64 ⟨3, .post⟩ MD.zero), ([0x0251], .st .w16 ⟨2, .post⟩ MD.zero),
    ([0x0122], .add .w32 ⟨1, .plain⟩ MD.zero), ([0xFC08, 0x0102], .add .w8 ⟨1, .plain⟩ { MD.zero with sat := true }),
    ([0x0584], .rsub .w8 ⟨5, .pre⟩ MD.zero), ([0x07FC], .cmp .w64 ⟨7, .circ⟩ MD.zero),
    ([0x0C32], .mulhu .w64 ⟨4, .plain⟩ MD.zero), ([0x0923], .div .w32 ⟨1, .plain⟩ MD.zero),
    ([0xFE00, 0x0530], .ld .w64 ⟨5, .plain⟩ { MD.zero with sync := true }),
    ([0xFD40, 0x0231], .st .w64 ⟨2, .plain⟩ { MD.zero with ord := .release, scope := .die }),
    ([0xFCB0, 0x0230], .ld .w64 ⟨2, .plain⟩ { MD.zero with ord := .acquire, scope := .cluster }),
    ([0xFDE0, 0x0130], .ld .w64 ⟨1, .plain⟩ { MD.zero with ord := .sc, scope := .system }),
    ([0x0463], .sub .w32 ⟨4, .post⟩ MD.zero), ([0x0335], .and .w64 ⟨3, .plain⟩ MD.zero),
    ([0x0126], .or .w32 ⟨1, .plain⟩ MD.zero), ([0x0257], .xor .w16 ⟨2, .post⟩ MD.zero),
    ([0x0108], .min .w8 ⟨1, .plain⟩ MD.zero), ([0x00F9], .max .w64 ⟨0, .circ⟩ MD.zero),
    ([0x072A], .minu .w32 ⟨7, .plain⟩ MD.zero), ([0x023B], .maxu .w64 ⟨2, .plain⟩ MD.zero),
    ([0x0920], .mul .w32 ⟨1, .plain⟩ MD.zero), ([0x0C31], .mulh .w64 ⟨4, .plain⟩ MD.zero),
    ([0x0D14], .divu .w16 ⟨5, .plain⟩ MD.zero), ([0x0EB5], .rem .w64 ⟨6, .pre⟩ MD.zero)] := by decide +kernel

theorem test_decode_float : decodesAll
    [([0xFC02, 0x1020], .fadd .l32 ⟨0, .plain⟩ { MD.zero with rnd := .rtz }),
    ([0xF620, 0x1273], .fma .l64 ⟨2, .post⟩ (some ⟨4, .post⟩) MD.zero),
    ([0xFC04, 0x1674], .fdiv .l64 ⟨6, .post⟩ { MD.zero with rnd := .rup }), ([0x1028], .fcmp .l32 ⟨0, .plain⟩ MD.zero),
    ([0x1121], .fsub .l32 ⟨1, .plain⟩ MD.zero), ([0x1372], .fmul .l64 ⟨3, .post⟩ MD.zero),
    ([0x1235], .fsqrt .l64 ⟨2, .plain⟩ MD.zero), ([0x1426], .fmin .l32 ⟨4, .plain⟩ MD.zero),
    ([0x15F7], .fmax .l64 ⟨5, .circ⟩ MD.zero)] := by decide +kernel

theorem test_decode_immediate : decodesAll
    [([0x1896], .ldi 150), ([0xF002, 0x1B88], .ldi 5000), ([0x2001], .ldih 1), ([0x2FFD], .addi (-3)),
    ([0x30FF], .andi 255), ([0x380F], .ori 15), ([0x47FF], .xori (-1)), ([0x4804], .shl 4), ([0x4845], .shr 5),
    ([0x48BF], .sar 63), ([0x48C7], .rol 7), ([0x5802], .clz .w32), ([0x5841], .ctz .w16), ([0x5883], .popc .w64),
    ([0x58C3], .bswap .w64), ([0x609F], .cvt 0 true false .i64 .f64)] := by decide +kernel

theorem test_decode_pointer : decodesAll
    [([0xF008, 0x5600], .pset 6 0x100), ([0x5322], .pstep 3 2), ([0x5158], .paddi 1 (-8)), ([0x5463], .padda 4 3),
    ([0x5280], .movap 2), ([0x55A0], .movpa 5), ([0x51C2], .pcmp 1 2)] := by decide +kernel

theorem test_decode_control : decodesAll
    [([0x6804], .b 4), ([0x69FE], .bz (-2)), ([0x6AFA], .bnz (-6)), ([0x6B03], .blt 3), ([0x6C7F], .bge 127),
    ([0x6D80], .bltu (-128)), ([0x6E01], .bgeu 1), ([0x6FF6], .loop (-10)), ([0x7064], .call 100), ([0x7800], .ret),
    ([0x7840], .jmpa), ([0x7880], .nop), ([0x78C0], .yield), ([0x7900], .halt), ([0x82F9], .wait 2 7 3 1),
    ([0x871F], .wait 7 0 3 7), ([0x88E0], .rep 3 2 0), ([0x8BF1], .rep 15 3 1), ([0x8FDF], .rep 31 1 15)] := by decide +kernel

theorem test_decode_special : decodesAll
    [([0x9228], .sfuExp2 69), ([0x9231], .sfuLog2 70), ([0x9402], .sfuRcp 128), ([0x91FB], .sfuRsqrt 63),
    ([0x9004], .sfuSin 0), ([0x97FD], .sfuCos 255), ([0x95FE], .sfuTanh 191), ([0x900F], .sfuErf 1), ([0x9B00], .tage 3),
    ([0x9D01], .tagf 5)] := by decide +kernel

theorem test_decode_tile : decodesAll
    [([0xF880, 0x028F], .tcfg 1 .e32 0xF none), ([0xF880, 0xF410, 0x028F], .tcfg 1 .e32 0xF (some .shared)),
    ([0xF880, 0xF402, 0x0703], .tcfg 3 .e64 3 (some (.slot 2))), ([0xF880, 0x0A00], .trel 1),
    ([0xF880, 0x1391], .vld 3 145 MD.zero), ([0xF880, 0x1905], .vst 1 5 MD.zero),
    ([0xF880, 0xFCB0, 0x1240], .vld 2 64 { MD.zero with ord := .acquire, scope := .cluster })] := by decide +kernel

theorem test_decode_vector : decodesAll
    [([0xF880, 0xF500, 0xF600, 0x2205], .vadd (.fp .f32) 64 (some 64) (some 128) MD.zero),
    ([0xF880, 0xF408, 0x2808], .vsub (.int .i16) 1 (some 2) none MD.zero),
    ([0xF880, 0xF418, 0x482E], .vmin (.fp .f64) 5 (some 6) none),
    ([0xF880, 0xF418, 0xF41C, 0x502C], .vmax (.fp .bf16) 5 (some 6) (some 7)),
    ([0xF880, 0xF408, 0xF40C, 0xFC08, 0x3009], .vmul (.int .i32) 1 (some 2) (some 3) { MD.zero with sat := true }),
    ([0xF880, 0xF50C, 0xF4A0, 0x3C8D], .vfma .f32 145 (some 67) (some 40) MD.zero),
    ([0xF880, 0xF50C, 0xF4A0, 0x448B], .vfms .f16 145 (some 67) (some 40) MD.zero),
    ([0xF880, 0x5FFE], .vabs (.fp .f64) 255 MD.zero), ([0xF880, 0x604A], .vneg (.int .i64) 9 MD.zero),
    ([0xF880, 0xF514, 0x6A22], .vand .i64 68 (some 69)), ([0xF880, 0xF514, 0x7221], .vor .i32 68 (some 69)),
    ([0xF880, 0xF514, 0x7A20], .vxor .i16 68 (some 69)), ([0xF880, 0xF403, 0x8001], .vshl .i32 0 (some 3)),
    ([0xF880, 0xF40F, 0x8808], .vshr .i16 1 (some 15)), ([0xF880, 0xF43F, 0x9012], .vsar .i64 2 (some 63)),
    ([0xF880, 0xF420, 0xF402, 0x983D], .vcmp (.fp .f32) 7 (some 8) (some .lt)),
    ([0xF880, 0xF524, 0xF41C, 0xA04D], .vsel (.fp .f32) 9 (some 73) (some 7)),
    ([0xF880, 0xF700, 0xAA05], .vcvt (.fp .f32) 64 (some 192) MD.zero), ([0xF880, 0xB005], .vred (.fp .f32) 0 MD.zero),
    ([0xF880, 0xBE0E], .vbca (.fp .f64) 193), ([0xF880, 0xF405, 0xC011], .vgeta (.int .i32) 2 (some 5)),
    ([0xF880, 0xF404, 0xF408, 0xC801], .vperm .w32 0 (some 1) (some 2)), ([0xF880, 0xD040], .vqmx .e4m3 8),
    ([0xF880, 0xF430, 0xD840], .vqnt .e4m3 8 (some 12) MD.zero), ([0xF880, 0xF420, 0xE205], .vdq .f32 64 (some 8))] := by decide +kernel

theorem test_decode_matrix : decodesAll
    [([0xF900, 0x0200], .mldb 2), ([0xF900, 0x0301], .mma 3), ([0xF900, 0x0402], .mmrot 4),
    ([0xF900, 0xF40F, 0x0A00], .mzero 64 (some 15)), ([0xF900, 0xF6A0, 0x0A01], .mdrain 64 (some 5)),
    ([0xF900, 0xF401, 0x0C02], .mstat 2 true), ([0xF900, 0xF700, 0x0803], .mrot false 0 (some 6)),
    ([0xF900, 0xF700, 0x0A03], .mrot true 0 (some 6))] := by decide +kernel

theorem test_decode_forme : decodesAll
    [([0xF900, 0xF40F, 0x1100], .fnew 1 (some 15)), ([0xF900, 0xF401, 0x1201], .fprf 2 (some 1)),
    ([0xF900, 0x1102], .cst 1 (.scalar .w64)), ([0xF900, 0xF402, 0x1102], .cst 1 (.scalar .w32)),
    ([0xF900, 0xF680, 0x1203], .pld 2 (.row 64)), ([0xF900, 0x1104], .flock 1), ([0xF900, 0x1205], .fdrop 2),
    ([0xF900, 0xF401, 0x1205], .fdropRetire 2), ([0xF900, 0xF700, 0x1106], .fsend 1 (some ⟨6, .plain⟩)),
    ([0xF900, 0xF680, 0x1307], .ftake 3 (some ⟨5, .plain⟩))] := by decide +kernel

theorem test_decode_candle : decodesAll
    [([0xF980, 0xF4C8, 0xF519, 0x0018], .candle (some 200) (some 281) 24), ([0xF980, 0x0040], .snuff),
    ([0xF980, 0x0080], .douse), ([0xF980, 0x00FB], .gutret (-5)), ([0xF980, 0x0102], .time .rem),
    ([0xF980, 0xF001, 0x0164], .pace 100)] := by decide +kernel

theorem test_decode_system : decodesAll
    [([0xF980, 0x0805], .trap 5), ([0xF980, 0xF001, 0x0824], .trap 100), ([0xF980, 0x0840], .rtt),
    ([0xF980, 0x0891], .mfs 17), ([0xF980, 0x08D1], .mts 17), ([0xF980, 0x0900], .tlbiPage),
    ([0xF980, 0x0901], .tlbiSpace), ([0xF980, 0x0940], .gohome), ([0xF980, 0x1000], .barm), ([0xF980, 0x1045], .arrive 5),
    ([0xF980, 0x1085], .bwait 5), ([0xF980, 0x10C2], .wptr 2), ([0xF980, 0x1101], .cwait 1),
    ([0xF980, 0xF401, 0x1A00], .copy 2 1), ([0xF980, 0x1C00], .copy 4 0), ([0xF980, 0x2300], .wback 3 none),
    ([0xF980, 0xFC40, 0x2300], .wback 3 (some .die)), ([0xF980, 0x2301], .discard 3), ([0xF980, 0x2806], .fence .system),
    ([0xF980, 0x2803], .fence .cluster)] := by decide +kernel

theorem test_decode_atomic : decodesAll
    [([0xF980, 0x3230], .amoadd .l64 ⟨2, .plain⟩ MD.zero),
    ([0xF980, 0xFD60, 0x3622], .amoor .l32 ⟨6, .plain⟩ { MD.zero with ord := .release, scope := .system }),
    ([0xF980, 0xFCB0, 0x3538], .amoswap .l64 ⟨5, .plain⟩ { MD.zero with ord := .acquire, scope := .cluster }),
    ([0xF980, 0xF580, 0x3129], .amocas .l32 ⟨1, .plain⟩ (some ⟨3, .plain⟩) MD.zero),
    ([0xF980, 0x347A], .afadd .l64 ⟨4, .post⟩ MD.zero), ([0xF980, 0x302B], .afmin .l32 ⟨0, .plain⟩ MD.zero),
    ([0xF980, 0x3A30], .ldfut .l64 ⟨2, .plain⟩ MD.zero), ([0xF980, 0x3A31], .stfut .l64 ⟨2, .plain⟩ MD.zero),
    ([0xF980, 0x3121], .amoand .l32 ⟨1, .plain⟩ MD.zero), ([0xF980, 0x3273], .amoxor .l64 ⟨2, .post⟩ MD.zero),
    ([0xF980, 0x33A4], .amomin .l32 ⟨3, .pre⟩ MD.zero), ([0xF980, 0x34F5], .amomax .l64 ⟨4, .circ⟩ MD.zero),
    ([0xF980, 0x3526], .amominu .l32 ⟨5, .plain⟩ MD.zero), ([0xF980, 0x3637], .amomaxu .l64 ⟨6, .plain⟩ MD.zero),
    ([0xF980, 0x373C], .afmax .l64 ⟨7, .plain⟩ MD.zero)] := by decide +kernel

theorem test_decode_lanthorn : decodesAll
    [([0xF980, 0x4200], .lpost 2), ([0xF980, 0x4001], .lwait), ([0xF980, 0x4002], .lseq),
    ([0xF980, 0xF405, 0x4303], .lcast 3 (some 5)), ([0xF980, 0x4404], .lbred 4)] := by decide +kernel

theorem test_decode_galley : decodesAll
    [([0xFA00, 0x0200], .gbind 2), ([0xFA00, 0x0301], .gemit 3), ([0xFA00, 0x0002], .gdone),
    ([0xFA00, 0x0103], .caseadd 1), ([0xFA00, 0xF401, 0x0104], .caseget 1 true),
    ([0xFA00, 0xF401, 0x0405], .casenxt 4 true), ([0xFA00, 0x0006], .gclose), ([0xFA00, 0x0007], .gfront)] := by decide +kernel

/-! ### A small state -/

/-- A state with its issuing thread's context changed. -/
def put (s : State) (f : Slot → Slot) : State := s.setMe (f s.me)

/-- One thread, slot 0 of core 0, in user mode, at a NOP at 0x1000. Low addresses are DRAM on C pages, every access
allowed, at the location of the same number; the cluster window is mapped; core 0 holds a launch, with 128 KiB of scratchpad.
The quadword at 0x2000 is 7; P1 points at it with step 1, P2 at a zero after it, P3 and P4 at one word of the scratchpad
through the alias and through the window, P5 at 0x3000, which holds zeros. -/
def rig : State := {
  mem := [(0x1000, 0x80), (0x1001, 0x78), (0x2000, 7), (0x10000, 1), (0x10002, 2), (0x20000, 0x1F), (0x21000, 1),
    (0x21001, 0x20), (0x21002, 2), (0x21FF0, 1), (0x21FF1, 0x20), (0x21FF2, 2), (0x22000, 0x3F), (0x22001, 1)],
  regs := { s2root := [(0, 0x10000)] }, cores := [(0, { held := [0], units := 4 })],
  slots := [(0, { mode := .running, pc := 0x1000, tbase := 0x21000, gidx := 2 ^ 33, a := 5, ptrs := {
    p1 := 0x0001000000002000, p2 := 0x2008, p3 := 0xFF8000000100, p4 := 0xFF0000000100, p5 := 0x3000 } })] }

/-- The rig in supervisor mode. -/
def superRig : State := put rig fun x => { x with st := { x.st with pl := 1 } }

/-- A result is there, and something holds of it. -/
def okAnd {ε α : Type} (e : Except ε α) (p : α → Bool) : Bool :=
  match e with
  | .ok a => p a
  | .error _ => false

/-- A result that is there is one of which something holds. -/
theorem okAnd_iff {ε α : Type} {e : Except ε α} {p : α → Bool} : okAnd e p = true ↔ ∃ a, e = .ok a ∧ p a = true := by
  cases e <;> simp [okAnd]

/-- A result that is there and is `a`. -/
theorem okAnd_eq {ε α : Type} [DecidableEq α] {e : Except ε α} {a : α} (h : okAnd e (fun x => x == a) = true) : e = .ok a := by
  obtain ⟨b, hb, h⟩ := okAnd_iff.1 h
  rw [hb, eq_of_beq h]

/-- A memory operand is readable, with a number. -/
def readsAs (s : State) (o : MemOp) (w : Nat) (md : MD) (m : Nat) : Bool :=
  okAnd (s.readOperand o w md) fun p => okAnd (s.loadOperand p md) fun r => r.1 == m

/-- What `readsAs` tells is the premise of the obligations. -/
theorem readsAs_reads {s : State} {o : MemOp} {w m : Nat} {md : MD} (h : readsAs s o w md m = true) :
    ∃ p, s.reads o w md p m := by
  obtain ⟨p, hp, h⟩ := okAnd_iff.1 h
  obtain ⟨⟨v, t⟩, ht, h⟩ := okAnd_iff.1 h
  exact ⟨p, hp, t, by rw [ht]; exact congrArg (fun n => Except.ok (n, t)) (eq_of_beq h)⟩

/-! ### Witnesses: scalar instructions -/

theorem witness_IntegerArithmetic : rig.issuing ∧ ∃ p, rig.reads ⟨1, .post⟩ 8 { MD.zero with sat := true } p 7 :=
  ⟨by unfold State.issuing; decide +kernel, readsAs_reads (by decide +kernel)⟩

theorem witness_IntegerLogicAndDivide :
    rig.issuing ∧ (∃ p, rig.reads ⟨1, .plain⟩ 1 MD.zero p 7) ∧ ∃ p, rig.reads ⟨2, .plain⟩ 8 MD.zero p 0 :=
  ⟨by unfold State.issuing; decide +kernel, readsAs_reads (by decide +kernel), readsAs_reads (by decide +kernel)⟩

/-- The rig with the scratchpad word of P3 full. -/
def fullRig : State := rig.setFull (spmBase + 0x100) true

/-- The rig in a candle. -/
def candleRig : State := put rig fun x => { x with
  st := { x.st with cd := 1 }, frames := [{ t0 := 0, tlf := 0, hhi := 0x1000, hi := 0x100, lo := 0, hlo := 0, hrec := 0x2000 }] }

/-- The rig with a second stage that admits no write. -/
def readOnlyRig : State := { rig with mem := setBytes rig.mem (entryBytes 0x20000 0x17) }

/-- A synchronised access. -/
def syncMd : MD := { MD.zero with sync := true }

/-- A store operand at a pointer is translated: the location of its first byte, or `none` where the store is replayed. -/
def storesAt (s : State) (p : PReg) (md : MD) (k : Option Nat) : Bool :=
  okAnd (s.storeOperand p (s.ea ⟨p, .plain⟩ 8) 8 md) fun r =>
    match r with
    | .parts ps => (partKeys ps).head? == k && okAnd (s.awaitRelease (orderOf (partsClass ps) md).rel .thread) fun _ => true
    | .replay _ _ => k == none

theorem witness_LoadsAndStores :
    (rig.issuing ∧ (∃ p, rig.reads ⟨1, .plain⟩ 8 MD.zero p 7) ∧ ∃ p, rig.reads ⟨3, .plain⟩ 8 syncMd p 0)
      ∧ rig.isFull (spmBase + 0x100) = false ∧ fullRig.isFull (spmBase + 0x100) = true
      ∧ storesAt rig 1 MD.zero (some 0x2000) ∧ rig.me.holding = false ∧ rig.me.drain = []
      ∧ storesAt candleRig 1 MD.zero (some 0x2000) ∧ candleRig.me.holding = true
      ∧ storesAt rig 3 syncMd (some (spmBase + 0x100)) ∧ storesAt fullRig 4 syncMd (some (spmBase + 0x100))
      ∧ storesAt readOnlyRig 1 MD.zero none :=
  ⟨⟨by unfold State.issuing; decide +kernel, readsAs_reads (by decide +kernel), readsAs_reads (by decide +kernel)⟩,
    by decide +kernel⟩

/-- The rig with another thread that waits for the word of P3. -/
def queueRig (full : Bool) : State := { rig with syncs := [{ word := (spmBase + 0x100) / 8, full := full, slot := 5 }] }

theorem witness_firstAt : (∀ full, rig.firstAt (spmBase + 0x100) full) ∧ fullRig.firstAt (spmBase + 0x100) true
    ∧ ∀ full, ¬(queueRig full).firstAt (spmBase + 0x100) full :=
  ⟨fun _ => trivial, trivial, by intro full h; cases full <;> exact absurd (show (5 : Nat) = 0 from h) (by decide)⟩

theorem witness_FloatingPoint :
    (rig.issuing ∧ ∃ p, rig.reads ⟨1, .plain⟩ 4 MD.zero p 7)
      ∧ (okAnd (rig.notHandle 1) fun _ => okAnd (rig.notHandle 2) fun _ => okAnd (orderedAligned 0x2000 8 MD.zero) fun _ =>
        okAnd (rig.access .read 0x2000 8) fun ps => okAnd (rig.access .read 0x2008 8) fun qs =>
        okAnd (rig.candleClass ps 0x2000) fun _ => okAnd (rig.candleClass qs 0x2008) fun _ =>
        okAnd (rig.loadOperand { ea := 0x2000, parts := ps } MD.zero) fun r =>
        okAnd (r.2.otherChoice.loadOperand { ea := 0x2008, parts := qs } MD.zero) fun q =>
        okAnd (r.2.loadOperand { ea := 0x2008, parts := qs } MD.zero) fun _ => r.1 == 7 && q.1 == 0) :=
  ⟨⟨by unfold State.issuing; decide +kernel, readsAs_reads (by decide +kernel)⟩, by decide +kernel⟩

theorem witness_ImmediatesAndShifts : rig.issuing
    ∧ ((∀ j, j < 8 → 8 - 5 ≤ j → (5#8).getLsbD j = false) ∧ (5#8).getLsbD (8 - 1 - 5) = true)
    ∧ (∀ j, j < 8 → 8 - 8 ≤ j → (0#8).getLsbD j = false) ∧ (5#8).getLsbD 0 = true
    ∧ ∀ i, i < 2 → ∀ j, j < 8 → (0x3412#16).getLsbD (8 * i + j) = (0x1234#16).getLsbD (8 * (2 - 1 - i) + j) :=
  ⟨by unfold State.issuing; decide +kernel, by decide +kernel⟩

theorem witness_Conversion : rig.issuing := by unfold State.issuing; decide +kernel

/-- The rig with a proof handle in P1 and, as a number, one in A. -/
def handleRig : State := put rig fun x => { x with
  a := 0x5A00000000000000, ptrs := { x.ptrs with p1 := 0x5A00000000000000 }, st := { x.st with lh := 2 } }

theorem witness_PointerRegisters :
    rig.issuing ∧ rig.me.st.lh.getLsbD 1 = false ∧ isHandle rig.me.a = false ∧ handleRig.issuing
      ∧ handleRig.me.st.lh.getLsbD 1 = true ∧ isCompose (handleRig.me.ptrs.get 1) = false
      ∧ handleRig.me.st.lh.getLsbD 2 = false ∧ isHandle handleRig.me.a = true ∧ isCompose handleRig.me.a = false := by
  unfold State.issuing; decide +kernel

theorem witness_ControlTransfer : rig.issuing := by unfold State.issuing; decide +kernel

/-- The rig with a loop count. -/
def countRig (n : BitVec 32) : State := put rig fun x => { x with xi := { x.xi with count := n } }

theorem witness_LoopCount : (countRig 2).issuing ∧ (countRig 2).me.xi.count = 2 ∧ (countRig 1).issuing ∧ (countRig 1).me.xi.count = 1
    ∧ (countRig 0).issuing := by unfold State.issuing; decide +kernel

/-- The rig at a trap level and a privilege, with the cause of its level and its frames. -/
def trapRig (tl pl : BitVec 2) (code : BitVec 8) (fs : List Frame) : State := put rig fun x => { x with
  st := { x.st with tl := tl, pl := pl }, bank1 := { cause := { code := code } }, frames := fs }

/-- A frame of trap level 1. -/
def frame1 (g : Bool) : Frame := { t0 := 0, g := g, tlf := 1, hhi := 0, hi := 1, lo := 0, hlo := 0, hrec := 0x2000 }

theorem witness_TrapsAndReturns :
    ((rig.slot 0).st.tl.toNat < 2 ∧ ((trapRig 1 1 0 []).slot 0).st.tl.toNat < 2 ∧ (trapRig 2 1 0 []).me.st.tl = 2#2
      ∧ (trapRig 2 1 0 []).issuing)
    ∧ (rig.me.st.pl ≠ 1#2 ∧ (trapRig 0 1 0 []).me.st.pl = 1#2 ∧ (trapRig 0 1 0 []).me.st.tl = 0#2)
    ∧ ((trapRig 1 1 0x13 []).issuing ∧ ((trapRig 1 1 0x13 []).me.bank 1).cause.code = 0x13#8)
    ∧ ((trapRig 1 1 0x16 [frame1 false]).issuing
      ∧ ((trapRig 1 1 0x16 [frame1 false]).me.frames.any fun f => f.tlf == 1) = true)
    ∧ ((trapRig 1 1 0x16 []).issuing ∧ ((trapRig 1 1 0x16 []).me.bank 1).cause.code ≠ 0x13#8)
    ∧ ((trapRig 1 0 0x13 [frame1 true]).issuing
      ∧ ((trapRig 1 0 0x13 [frame1 true]).me.frames.any fun f => f.g && f.tlf == 1) = true)
    ∧ (trapRig 1 0 0x13 []).issuing := by unfold State.issuing; decide +kernel

/-- A state with a value of A. -/
def withA (s : State) (v : W64) : State := put s fun x => { x with a := v }

theorem witness_SystemRegisters :
    rig.issuing ∧ rig.me.st.pl = 0#2 ∧ superRig.issuing ∧ superRig.me.st.pl ≠ 0#2
      ∧ ((withA rig 0xA00).me.a.extractLsb' 9 3 = 5#3 ∧ (withA rig 0x800).me.a.extractLsb' 9 3 = 4#3)
      ∧ ((withA superRig 0x100000).me.a.extractLsb' 19 2 = 2#2 ∧ (withA superRig 0x80000).me.a.extractLsb' 19 2 = 1#2)
      ∧ (withA superRig 0x800000000).me.a.extractLsb' 34 2 = 2#2 ∧ (withA superRig 0x400000000).me.a.extractLsb' 34 2 = 1#2
      ∧ rig.me.st.cd = 0#3 ∧ (put superRig fun x => { x with st := { x.st with cd := 1 } }).me.st.cd ≠ 0#3 := by
  unfold State.issuing; decide +kernel

/-- The rig with a second thread of its group, and with a stage thread in its place. -/
def pairRig (stage : Bool) : State := (put rig fun x => { x with stage := stage }).setSlot 1 rig.me

/-- The rig with pages that may be moved to, and a launch with a slice on octet 0, which permits itself. -/
def homeRig (perm : BitVec 384) (as : List Group) : State :=
  let s := withA rig 0x8000000
  { s with mem := setBytes s.mem (entryBytes 0x22000 0x1BF), octets := [(0, { perm := perm })],
           launches := [(0, { die := 0, serial := 1, rcb := 0x4000, state := .running, groups := as })] }

/-- That rig with a thread of its group on core 1. -/
def sliceRig : State := (homeRig 1 [{ index := 0, octet := 0 }]).setSlot 16 { mode := .running, gidx := 0 }

/-- What GOHOME's address is: one byte of DRAM that may be moved to, with its core. -/
def homeOf (s : State) : Option (Bool × Nat) :=
  match s.access .read (s.me.a.extractLsb' 0 48) 1 with
  | .ok (q :: _) => some (keyIsDram q.at_.key && q.at_.mh, vaultCore q.at_.key)
  | _ => none

theorem witness_WaitingAndLeaving :
    ((pairRig false).issuing ∧ (pairRig false).me.st.cd = 0#3 ∧ candleRig.me.st.cd ≠ 0#3 ∧ (pairRig false).me.loads = 0
      ∧ 1 ∈ (pairRig false).groupSlots 0 (2 ^ 33) ∧ ((pairRig false).slot 1).mode = .running
      ∧ (pairRig false).holdsCompose = false ∧ (pairRig false).releasesPending = false
        ∧ (put rig fun x => { x with loads := 1 }).me.loads ≠ 0)
    ∧ ((pairRig true).issuing ∧ (pairRig true).me.stage = true ∧ (pairRig true).settled false .die = true)
    ∧ ((trapRig 1 0 0 []).me.st.tl ≠ 0#2
      ∧ (put candleRig fun x => { x with pubq := [{ level := 0, bytes := [], strong := false, scope := .thread }] }).me.pubq ≠ [])
    ∧ (homeOf (withA rig 0x2000) = some (false, 0) ∧ homeOf (withA (homeRig 0 []) 0x2000) = some (true, 0)
      ∧ homeOf (homeRig 0 []) = some (true, 1) ∧ (homeRig 0 []).permits 0 0 = false ∧ (homeRig 1 []).permits 0 0 = true
      ∧ (homeRig 1 [{ index := 0, octet := 0 }]).welcomes 1 = false ∧ sliceRig.welcomes 1 = true
      ∧ sliceRig.roomOn 1 = true ∧ sliceRig.issuing) := by
  unfold State.issuing; decide +kernel

/-! ### Witnesses: sequences, shared units, rows -/

/-- The rig with tile 0 allocated, all banks ungated, and a tag in its rows 0 to 8. -/
def rowRig (size : ElemSize) (tag : BitVec 4) : State :=
  { rig with cores := [(0, { (rig.core 0) with
      tiles := [(0, { alloc := true, size := size, banks := 0xF })],
      rows := (upto 9).map fun i => (i, { tag := tag }) })] }

/-- The rig with a captured VADD behind its instruction. -/
def repRig : State :=
  let s := rowRig .e32 7
  { s with mem := setBytes s.mem (zipBytes (span 0x1002 8) (toBytes 8 0x2205F600F500F880)) }

/-- A sequence of one captured VADD. -/
def seqOne (j : Nat) : Seq := {
  slot := 0, id := 0, addr := 0x1000, start := 0x1002, n := 2, code := 1,
  instrs := [(.vadd (.fp .f32) 0 (some 1) (some 2) MD.zero, { len := 4 })], j := j, ptrs := {}, xi := {}, rm := 0,
  rows := [], latch := false, tiles := [] }

/-- The rig with a sequence in its repeat buffer. -/
def seqRig (j : Nat) : State :=
  { rig with cores := [(0, { (rowRig .e32 7).core 0 with seqs := [seqOne j] })] }

theorem witness_RepeatSequences :
    repRig.issuing ∧ repRig.me.st.cd = 0#3 ∧ candleRig.me.st.cd ≠ 0#3
      ∧ (okAnd (repRig.capture repRig.me.ptrs repRig.me.st.handle 1 repRig.nextPc [] []) fun r =>
        r.1 == 0x100A && r.2.1.length == 1
          && (passRows 2 1 r.2.1 r.2.2).all fun x => !repRig.rowPending x)
      ∧ (repRig.myCore.seqs.length + repRig.seqsReserved repRig.here < 4) ∧ repRig.me.tiles < 15
      ∧ (put repRig fun x => { x with tiles := 15 }).me.tiles = 15
      ∧ ((seqRig 1).core 0).seqs[0]? = some (seqOne 1) ∧ ((seqRig 1).core 0).firstOfSlot (seqOne 1) = true
      ∧ ((seqRig 1).slot 0).seqFault = none ∧ ((seqRig 1).core 0).seqNext ≤ (seqRig 1).cycle
      ∧ ((seqRig 1).core 0).seqHeld (seqOne 1) = false ∧ (seqOne 1).j < (seqOne 1).n ∧ (seqOne 1).instrs[(seqOne 1).i]? ≠ none
      ∧ ((seqRig 2).core 0).seqs[0]? = some (seqOne 2) ∧ (seqOne 2).n ≤ (seqOne 2).j ∧ ((seqRig 2).core 0).ops = []
      ∧ (seqRig 2).octets = [] := by unfold State.issuing; decide +kernel

/-- The row rig with the result of a special function at hand. -/
def sfuRig : State := put (rowRig .e32 7) fun x => { x with sfuSent := true, sfu := some { elems := 0, flags := 1 } }

theorem witness_SpecialFunctions :
    (rowRig .e32 7).issuing ∧ (rowRig .e32 7).me.sfuSent = false ∧ (rowRig .e32 7).readable 0 32 7
      ∧ sfuRig.issuing ∧ sfuRig.me.sfuSent = true ∧ sfuRig.me.sfu = some { elems := 0, flags := 1 } := by
  unfold State.issuing State.readable State.usable; decide +kernel

/-- The address of a pointer translates for writing, and its first location is `k`. -/
def writesAt (s : State) (p : PReg) (k : Nat) : Bool :=
  okAnd (s.access .write ((s.me.ptrs.get p).extractLsb' 0 48) 1) fun ps => (partKeys ps).head? == some k
    && okAnd (s.awaitRelease (orderOf (partsClass ps) MD.zero).rel (orderOf (partsClass ps) MD.zero).scope) fun _ => true

theorem witness_FullBits :
    rig.issuing ∧ rig.me.st.lh.getLsbD 3 = false ∧ writesAt rig 1 0x2000 ∧ writesAt rig 3 (spmBase + 0x100)
      ∧ writesAt rig 4 (spmBase + 0x100) ∧ inAlias 0xFF8000000100 = true ∧ inAlias 0x2000 = false
      ∧ writesAt candleRig 3 (spmBase + 0x100) ∧ candleRig.me.holding = true ∧ rig.me.holding = false
      ∧ rig.me.drain = [] ∧ handleRig.me.st.lh.getLsbD 1 = true
      ∧ rig.wordOutstanding (0x2000 / 8) = false ∧ rig.wordOutstanding ((spmBase + 0x100) / 8) = false
      ∧ ({ rig with cores := [(0, { rig.core 0 with ops := [{ kind := .vld, slot := 0, src := [spmBase + 0x105] }] })] } :
        State).wordOutstanding ((spmBase + 0x100) / 8) = true := by unfold State.issuing; decide +kernel

/-- The row rig with one bank of tile 0 ungated, of an owner. -/
def tileRig (owner : TileOwner) : State := { rig with cores := [(0, { rig.core 0 with
  tiles := [(0, { alloc := true, size := .e32, banks := 1, owner := owner })] })] }

theorem witness_Tiles :
    rig.issuing ∧ ((rig.slot (16 * rig.here + 0)).mode ≠ .gated ∧ (rig.slot 0).launch = rig.me.launch)
      ∧ (rig.slot (16 * rig.here + 5)).mode = .gated ∧ (rig.myCore.tile 0).alloc = false
      ∧ (((tileRig (.slot 0)).myCore.tile 0).launch = (tileRig (.slot 0)).me.launch
        ∧ ((tileRig (.slot 0)).myCore.tile 0).owner = .slot 0
        ∧ ((tileRig (.slot 0)).myCore.tile 0).banks &&& ~~~3#4 = 0#4 ∧ ((tileRig (.slot 0)).myCore.tile 0).banks &&& ~~~2#4 ≠ 0#4)
      ∧ ((tileRig (.slot 5)).myCore.tile 0).owner ≠ .slot 0 ∧ ((tileRig (.slot 5)).myCore.tile 0).alloc = true
      ∧ (tileRig .shared).tilePending 0 = false
      ∧ ({ (tileRig .shared) with cores := [(0, { (tileRig .shared).core 0 with
        ops := [{ kind := .mzero, slot := 0, rows := [0] }] })] } : State).tilePending 0 = true
      ∧ (let s : State := { (tileRig (.slot 0)) with cores := [(0, { (tileRig (.slot 0)).core 0 with
           ops := [{ kind := .vld, slot := 5, rows := [0] }] })] };
         s.issuing ∧ s.me.st.cd = 0#3 ∧ s.releasesPending = true) := by
  unfold State.issuing; decide +kernel

/-- A row access at P5, and what its ordering waits for. -/
def rowAt (s : State) (acc : Access) : Bool :=
  okAnd (s.rowAccess acc 0x3000) fun r => r.all.length == 256 && okAnd (s.candleClass r.parts 0x3000) fun _ =>
    okAnd (s.awaitRelease (orderOf (partsClass r.parts) MD.zero).rel (orderOf (partsClass r.parts) MD.zero).scope) fun _ => true

/-- A held store of no byte. -/
def heldNone : Held := { level := 0, bytes := [], strong := false, scope := .thread }

theorem witness_RowLoadsAndStores :
    (rowRig .e32 7).issuing ∧ (rowRig .e32 7).me.st.lh.getLsbD 5 = false ∧ (rowRig .e32 7).usable 0
      ∧ (rowRig .e32 7).me.loads < 15 ∧ (put (rowRig .e32 7) fun x => { x with loads := 15 }).me.loads = 15
      ∧ rowAt (rowRig .e32 7) .read ∧ (okAnd ((rowRig .e32 7).rowStore 0 0x3000) fun _ => true)
      ∧ (rowRig .e32 7).me.holding = false ∧ (rowRig .e32 7).me.stores < 15 ∧ (rowRig .e32 7).me.drain = []
      ∧ (put (rowRig .e32 7) fun x => { x with stores := 15 }).me.stores = 15
      ∧ (put (rowRig .e32 7) fun _ => candleRig.me).me.holding = true ∧ candleRig.me.pubq.length < 32
      ∧ (put candleRig fun x => { x with pubq := List.replicate 32 heldNone }).me.pubq.length = 32
      ∧ (okAnd ((put (rowRig .e32 7) fun _ => candleRig.me).rowStore 0 0x3000) fun _ => true) := by
  unfold State.issuing State.usable; decide +kernel

/-! ### Witnesses: vector instructions -/

theorem witness_VectorArithmetic :
    (rowRig .e32 7).issuing ∧ (rowRig .e32 7).readable 1 32 7 ∧ (rowRig .e32 7).readable 2 32 7 ∧ (rowRig .e32 7).writable 0 32
      ∧ (rowRig .e32 7).readable 0 32 7 ∧ (rowRig .e16 2).issuing ∧ (rowRig .e16 2).readable 1 16 2
      ∧ (rowRig .e16 2).writable 1 16 := by
  unfold State.issuing State.readable State.writable State.usable; decide +kernel

theorem witness_VectorBitsAndCompare :
    (rowRig .e64 8).issuing ∧ (rowRig .e64 8).readable 0 64 8 ∧ (rowRig .e32 3).issuing ∧ (rowRig .e32 3).readable 0 32 3
      ∧ (rowRig .e32 3).readable 1 32 3 ∧ (rowRig .e32 3).readable 2 32 (intTag 32)
      ∧ VCond.ok .lt (.fp .f32) = true ∧ VCond.ok .uo (.fp .f32) = true ∧ VCond.ok .ltu (.int .i32) = true := by
  unfold State.issuing State.readable State.usable; decide +kernel

theorem witness_VectorConvert :
    (rowRig .e32 7).issuing ∧ (rowRig .e32 7).usable 1 ∧ ((rowRig .e32 7).row 1).tag = laneTag (.fp .f32)
      ∧ ((rowRig .e32 7).tileOf 1).size = sizeOfBits 32 ∧ (rowRig .e32 7).writable 0 32
      ∧ some (LaneTy.fp .f32) ≠ some (.int .i32)
      ∧ ((rowRig .e32 1).row 1).tag = 1#4 ∧ (rowRig .e32 1).usable 1 ∧ (rowRig .e32 1).writable 0 32
      ∧ cvtIntSource none = true ∧ isIntLane (.int .i32) = true ∧ (rowRig .e32 1).issuing := by
  unfold State.issuing State.writable State.usable; decide +kernel

/-- The levels of a pairwise reduction. -/
def redLevels (op : Nat → Nat → Nat × Flags) (l : Nat → Nat) : Nat → Nat → Nat
  | 0, j => l j
  | i + 1, j => (op (redLevels op l i (2 * j)) (redLevels op l i (2 * j + 1))).1

theorem witness_reduction (op : Nat → Nat → Nat × Flags) (l : Nat → Nat) :
    ∃ L : Nat → Nat → Nat, (∀ j, L 0 j = l j) ∧ ∀ i j, L (i + 1) j = (op (L i (2 * j)) (L i (2 * j + 1))).1 :=
  ⟨redLevels op l, fun _ => rfl, fun _ _ => rfl⟩

theorem witness_VectorScalarAndPermute :
    (rowRig .e32 7).issuing ∧ (rowRig .e32 7).readable 0 32 7 ∧ (rowRig .e32 7).writable 0 32
      ∧ (withA (rowRig .e32 7) 3).me.a.toNat % 4 = 3 ∧ (withA (rowRig .e32 7) 0).me.a.toNat % 4 = 0
      ∧ (withA (rowRig .e32 7) 2).me.a.toNat % 4 = 2 ∧ (63#7).toNat < 2048 / 32 ∧ 2048 / 32 ≤ (64#7).toNat
      ∧ (rowRig .e32 3).usable 0 ∧ (rowRig .e32 3).usable 1 ∧ (rowRig .e32 3).readable 2 32 (intTag 32)
      ∧ ((rowRig .e32 3).tileOf 0).size = sizeOfBits 32 ∧ ((rowRig .e32 3).row 0).tag = ((rowRig .e32 3).row 1).tag := by
  unfold State.issuing State.readable State.writable State.usable; decide +kernel

/-- The row rig in a launch whose sub-tori are two cores wide. -/
def wideRig (v : Option (List W64)) : State :=
  { (put (rowRig .e32 7) fun x => { x with vmax := v }) with
    launches := [(0, { die := 0, serial := 1, rcb := 0x4000, state := .running, f := { subW := 2 } })] }

/-- The row rig with F32 numbers in the last rows of tile 0. -/
def edgeRig : State :=
  { rig with cores := [(0, { (rowRig .e32 7).core 0 with rows := (span 60 4).map fun i => (i, { tag := 7 }) })] }

theorem witness_QuantisationTraps :
    edgeRig.issuing ∧ edgeRig.usable 60 ∧ edgeRig.usable 61 ∧ isWide ((edgeRig.row 60).tag) = true
      ∧ 64 ≤ rowNum 60 + spanLen 7 false ∧ 64 < rowNum 61 + spanLen 7 false ∧ (edgeRig.row 61).tag = 7
      ∧ (rowRig .e32 3).issuing ∧ (rowRig .e32 3).usable 0 ∧ (rowRig .e32 3).usable 1 ∧ isWide ((rowRig .e32 3).row 0).tag = false
      ∧ edgeRig.usable 0 ∧ (edgeRig.tileOf 60).size = sizeOfBits 32
      ∧ blockTag ((rowRig .e32 3).row 8).tag = false ∧ (rowRig .e32 3).usable 8 ∧ (rowRig .e32 3).writable 0 32
      ∧ (∀ i, i < 5 → (rowRig .e32 7).usable (rowOf 0 i) ∧ ((rowRig .e32 7).tileOf (rowOf 0 i)).size = sizeOfBits 32
        ∧ ((rowRig .e32 7).row (rowOf 0 i)).tag = 7) := by
  unfold State.issuing State.writable State.usable; decide +kernel

theorem witness_Quantisation :
    (rowRig .e32 7).issuing ∧ isWide 7 = true ∧ rowNum 0 + spanLen 7 false < 64
      ∧ (∀ i, i < 4 → (rowRig .e32 7).usable (rowOf 0 i) ∧ ((rowRig .e32 7).tileOf (rowOf 0 i)).size = sizeOfBits 32
        ∧ ((rowRig .e32 7).row (rowOf 0 i)).tag = 7)
      ∧ spanLen 7 false = 4 ∧ (rowRig .e32 7).writable (rowOf 0 4) 32 ∧ ((rowRig .e32 7).agreeSlots 0).length = 1
      ∧ 1 < ((wideRig none).agreeSlots 0).length ∧ (wideRig none).me.vmax = none ∧ (wideRig (some [7])).me.vmax = some [7]
      ∧ (wideRig none).issuing ∧ rowNum (rowOf 0 60) + spanLen 7 false = 64
      ∧ blockTag 9 = true ∧ (rowRig .e32 9).usable 8 ∧ ((rowRig .e32 9).row 8).tag = 9
      ∧ (∀ i, i < 4 → (rowRig .e32 9).writable (rowOf 0 i) 32) := by
  unfold State.issuing State.writable State.usable; decide +kernel

theorem witness_MissingOperand : rig.issuing ∧ rig.me.st.cd = 0#3 := by unfold State.issuing; decide +kernel

/-! ### Witnesses: the matrix unit -/

/-- The row rig with I8 pages over the local alias, a latch of 64 columns of 32 elements, and a command block at P3: A at
0x1000 of the scratchpad, B at 0x2000, each row and column the same 32 bytes, K = 32, 64 columns, the forwarded panel at
0x4000. -/
def matRig : State :=
  { rowRig .e32 3 with
    mem := [(0x10000, 1), (0x10002, 2), (0x20000, 0x1F), (0x21000, 1), (0x21001, 0x20), (0x21002, 2), (0x21FF8, 1),
      (0x21FF9, 0x30), (0x21FFA, 2), (0x22000, 0x3F), (0x22001, 1), (0x23000, 0x3F), (0x23001, 8), (0x23006, 0x10),
      (spmBase + 0x101, 0x10), (spmBase + 0x104, 0x80), (spmBase + 0x105, 0xFF),
      (spmBase + 0x10C, 32), (spmBase + 0x121, 0x20), (spmBase + 0x124, 0x80), (spmBase + 0x125, 0xFF),
      (spmBase + 0x12C, 64), (spmBase + 0x131, 0x40)],
    cores := [(0, { (rowRig .e32 3).core 0 with latch := { tag := 1, k := 32, n := 64 } })] }

/-- The matrix rig with its block, at P4, on a U page, and with a row store outstanding that is an acquire. -/
def acquiringRig : State :=
  { matRig with mem := setBytes matRig.mem [(0x21FF0, 1), (0x21FF1, 0x20), (0x21FF2, 2), (0x22001, 2)], cores := [(0, { matRig.core 0 with
      ops := [{ kind := .vst, slot := 0, bytes := [(0x2000, 1)], strong := true, scope := .system, acq := true }] })] }

/-- A panel whose rows all stand at its base passes; a page of it is not of class U. -/
theorem matRig_panel {s : State} {a : VA} {k : Nat} (h : okAnd (s.place s.space .read a) (fun b => b.fmt == 1 && b.geo == 2) = true)
    (hb : okAnd (s.panelBytes 1 a (panelLen 1 2 k / 4096 + 2) a (panelLen 1 2 k)) (·.any (·.at_.cls != .unordered)) = true) :
    ∃ q, s.panelCheck { base := a, stride := 0, count := 64 } k = .ok q ∧ q.fmt = 1 ∧ q.geo = 2
      ∧ ∃ p, p ∈ q.parts ∧ p.at_.cls ≠ .unordered := by
  obtain ⟨b, hp, h⟩ := okAnd_iff.1 h
  simp only [Bool.and_eq_true, beq_iff_eq] at h
  obtain ⟨u, hb, hu⟩ := okAnd_iff.1 hb
  obtain ⟨x, hx, hc⟩ := List.any_eq_true.1 hu
  have hr : s.panelRows 1#4 { base := a, stride := 0, count := 64 } (panelLen 1#4 2#2 k) 64 0
      = .ok ((span 0 64).flatMap fun _ => u) := panelRows_ok fun i _ _ => by simpa using hb
  have e : (matInfo 1#4).isNone = false := rfl
  have z : (blockTag 1#4) = false := by decide
  have q : elemBytes 1#4 = 1 := by decide
  have sp : isSplit 1#4 2#2 = false := by decide
  refine ⟨_, by simp [State.panelCheck, hp, h.1, h.2, e, z, q, sp, trapIf, bind, Except.bind, hr, Nat.mod_one]; rfl, rfl, rfl, x, ?_, by simpa using hc⟩
  exact (List.mem_flatMap (l := span 0 64) (f := fun _ => u)).2 ⟨0, by decide, hx⟩

/-- What the matrix rig's commands copy. -/
def matBlk : MatBlock := { aoff := 0x1000, astr := 0, k := 32, boff := 0x2000, n := 64, afwd := 0x4000, fmt := 1, geo := 2 }

/-- That a panel of the matrix rig, at an address, passes. -/
def panelFits (s : State) (a : VA) : Bool :=
  okAnd (s.place s.space .read a) (fun b => b.fmt == 1 && b.geo == 2)
    && okAnd (s.panelBytes 1 a (panelLen 1 2 32 / 4096 + 2) a (panelLen 1 2 32)) (·.any (·.at_.cls != .unordered))

/-- A command of the matrix rig passes its checks. -/
theorem matRig_passes (s : State) (c : MatCmd) (p : PReg) (ha : panelFits s 0xFF8000001000 = true)
    (hb : panelFits s 0xFF8000002000 = true) (h : okAnd (s.matHead c p) (fun x => x.a == ⟨0xFF8000001000, 0, 64⟩
      && x.b == ⟨0xFF8000002000, 0, 64⟩ && x.k == 32 && okAnd (s.matTail c x 1 2) fun r => r.1 == matBlk) = true) :
    ∃ r, s.matCheck c p = .ok r ∧ r.blk = matBlk ∧ ∃ q, q ∈ r.parts ∧ q.at_.cls ≠ .unordered := by
  obtain ⟨pa, ra⟩ := Bool.and_eq_true_iff.1 ha
  obtain ⟨pb, rb⟩ := Bool.and_eq_true_iff.1 hb
  obtain ⟨x, hx, h⟩ := okAnd_iff.1 h
  simp only [Bool.and_eq_true, beq_iff_eq] at h
  obtain ⟨⟨⟨ea, eb⟩, hk⟩, h⟩ := h
  obtain ⟨⟨blk, keys⟩, ht, h⟩ := okAnd_iff.1 h
  obtain rfl := eq_of_beq h
  have hq : ∃ q, s.panelCheck (matPanel c x) x.k = .ok q ∧ q.fmt = 1 ∧ q.geo = 2
      ∧ ∃ p, p ∈ q.parts ∧ p.at_.cls ≠ .unordered := by
    rw [hk]
    unfold matPanel
    split
    · rw [eb]; exact matRig_panel pb rb
    · rw [ea]; exact matRig_panel pa ra
  obtain ⟨q, hq, hf, hg, hu⟩ := hq
  exact ⟨⟨x, matBlk, keys, q.parts⟩, matCheck_ok.2 ⟨q, hx, hq, by rw [hf, hg]; exact ht, rfl⟩, rfl, hu⟩

theorem witness_MatrixCommands :
    (matRig.issuing ∧ matRig.me.st.cd = 0#3 ∧ candleRig.me.st.cd ≠ 0#3 ∧ matRig.acquirePending = false
      ∧ acquiringRig.issuing ∧ acquiringRig.me.st.cd = 0#3 ∧ acquiringRig.acquirePending = true)
      ∧ (∀ c, ∃ r, matRig.matCheck c 3 = .ok r ∧ r.blk = matBlk ∧ ∃ q, q ∈ r.parts ∧ q.at_.cls ≠ .unordered)
      ∧ ∀ c, ∃ r, acquiringRig.matCheck c 4 = .ok r ∧ r.blk = matBlk ∧ ∃ q, q ∈ r.parts ∧ q.at_.cls ≠ .unordered :=
  ⟨by unfold State.issuing; decide +kernel,
    fun c => matRig_passes matRig c 3 (by decide +kernel) (by decide +kernel) (by cases c <;> decide +kernel),
    fun c => matRig_passes acquiringRig c 4 (by decide +kernel) (by decide +kernel) (by cases c <;> decide +kernel)⟩

/-- The status of tile 0 of the row rig: nothing raised, nothing outstanding, E32, all banks, no latch. -/
def statusWord : W64 := 0xF400

theorem witness_MatrixRowsAndStatus :
    ((rowRig .e32 3).issuing ∧ 64 < rowNum 63 + ((1#6).toNat + 1) ∧ rowNum 62 + ((1#6).toNat + 1) = 64
      ∧ (rowRig .e32 3).usable 62 ∧ (rowRig .e32 3).usable 63 ∧ (rowRig .e32 3).me.tiles < 15
      ∧ (put (rowRig .e32 3) fun x => { x with tiles := 15 }).me.tiles = 15
      ∧ (rowRig .e32 3).me.st.lh.getLsbD 5 = false ∧ (rowRig .e32 3).me.stores < 15 ∧ (rowRig .e32 3).me.holding = false
      ∧ (okAnd ((rowRig .e32 3).access .write 0x3000 1) fun ps => match ps with
          | f :: _ => okAnd ((rowRig .e32 3).drainRows 0x3000 0 f.at_.fmt f.at_.geo 0 [62, 63]) fun _ => true
          | [] => false))
    ∧ ((rowRig .e32 3).rowGated (0#2 ++ 0#6) = false ∧ (rowRig .e32 3).mayUse ((rowRig .e32 3).myCore.tile 0) = true
      ∧ statusWord.extractLsb' 0 5 = ((rowRig .e32 3).myCore.tile 0).flags ∧ (rowRig .e32 3).myCore.ops = []
      ∧ statusWord.getLsbD 5 = false ∧ statusWord.extractLsb' 6 4 = 0#4 ∧ statusWord.extractLsb' 10 2 = 1#2
      ∧ ((rowRig .e32 3).myCore.tile 0).size = .e32 ∧ statusWord.extractLsb' 12 4 = ((rowRig .e32 3).myCore.tile 0).banks
      ∧ statusWord.extractLsb' 16 4 = (rowRig .e32 3).latchTag
      ∧ statusWord.extractLsb' 20 9 = BitVec.ofNat 9 (rowRig .e32 3).myCore.latch.k ∧ statusWord.extractLsb' 29 3 = 0#3
      ∧ statusWord.extractLsb' 32 32 = ((rowRig .e32 3).myCore.tile 0).ks) := by
  unfold State.issuing State.usable; decide +kernel

theorem witness_IntegerProducts : 32 * (0 + 1) ≤ (List.replicate 32 255).length ∧ 0 < 1 := by decide

/-! ### Witnesses: formes and candles -/

/-- The row rig with handles in P1 and P7, the forme-table entry 0 of cluster 0, and octet 0 permitting itself. -/
def formeRig (h : W64) (e : Forme) : State :=
  { (put (rowRig .e32 7) fun x => { x with
      ptrs := { x.ptrs with p1 := h, p7 := 0x5A00000000000000 }, st := { x.st with lh := 0x82 } }) with
    clusters := [(0, { formes := [(0, e)] })], octets := [(0, { perm := 1 })] }

/-- An entry over the page at 0x2000. -/
def entry (st : FormeState) (serial : BitVec 32) : Forme :=
  { state := st, base := 0x2000, size := 4096, ownerSerial := serial, root := 0x21000 }

/-- The proof and the compose handle of the entry, with cursor 0. -/
def proof0 : W64 := 0x5A00000000000000
/-- The compose handle of the entry. -/
def compose0 : W64 := 0xDA00000000000000

/-- An earlier store that waits for its replay. -/
def waiting (s : State) : State := put s fun x => { x with replay := [{ va := 0x2000, bytes := [0], cls := .strong, since := 0 }] }

theorem witness_FormeHandles :
    (rig.issuing ∧ handleRig.me.st.lh.getLsbD 1 = true ∧ rig.me.st.lh.getLsbD 1 = false ∧ rig.me.stage = false
      ∧ (pairRig true).me.stage = true ∧ (withA rig 0x2010).me.a.toNat % 256 ≠ 0 ∧ (withA rig 0x2000).me.a.toNat % 256 = 0
      ∧ (okAnd ((withA rig 0x2000).access .write 0x2000 16) fun ps =>
        ps.all fun r => !keyIsUnbounded r.at_.key && !keyIsMbox r.at_.key)
      ∧ ((rig.cluster 0).forme 0).state = .free
      ∧ (let k : Cluster := { formes := (upto 256).map fun e => (e, { state := .pied }) }
         ∀ e, e < 256 → (k.forme e).state ≠ .free)
      ∧ ((formeRig proof0 (entry .locked 0)).issuing ∧ (formeRig proof0 (entry .locked 0)).me.st.lh.getLsbD 7 = true
        ∧ (formeRig proof0 (entry .locked 0)).me.st.lh.getLsbD 2 = false ∧ (formeRig proof0 (entry .locked 0)).formeLive proof0))
    ∧ ((formeRig compose0 (entry .composing 0)).issuing ∧ (formeRig compose0 (entry .composing 0)).me.st.lh.getLsbD 1 = true
      ∧ (formeRig compose0 (entry .composing 0)).me.phase = none ∧ isCompose compose0 = true
      ∧ (formeRig compose0 (entry .composing 0)).me.holding = false
      ∧ (formeRig compose0 (entry .composing 0)).formeLive compose0
      ∧ (formeRig compose0 (entry .composing 0)).lockReady = true
      ∧ (waiting (formeRig compose0 (entry .composing 0))).lockReady = false
      ∧ isCompose proof0 = false ∧ (formeRig proof0 (entry .locked 0)).ownsForme proof0 = true
      ∧ (formeRig proof0 (entry .locked 9)).ownsForme proof0 = false) := by
  unfold State.issuing State.formeLive; decide +kernel

/-- The storage of an access through the handle of P1 is there, and its ordering waits for nothing. -/
def storedAt (s : State) (sel : FormeSel) (acc : Access) (n : Nat) : Bool :=
  okAnd (s.storage (s.me.ptrs.get 1) sel acc) fun ps => (partKeys ps).length == n
    && okAnd (s.awaitRelease (orderOf (partsClass ps) MD.zero).rel (orderOf (partsClass ps) MD.zero).scope) fun _ => true

/-- The forme rig in a candle. -/
def formeCandle : State :=
  put (formeRig compose0 (entry .composing 0)) fun x => { x with st := { x.st with cd := 1 }, frames := candleRig.me.frames }

/-- The word of P3 or P4 is one to send a handle through. -/
def taggedAt (s : State) (p : PReg) (acc : Access) : Bool :=
  okAnd (s.taggedWord ⟨p, .plain⟩ acc) fun r => r.1 == s.ea ⟨p, .plain⟩ 8 && firstKey r.2 == spmBase + 0x100
    && (partKeys r.2).head? == some (spmBase + 0x100) && !keyIsPeer (firstKey r.2) && syncAddress r.1
    && okAnd (s.awaitRelease (orderOf (partsClass r.2) MD.zero).rel (orderOf (partsClass r.2) MD.zero).scope) fun _ => true

/-- The forme rig with the compose handle in the full word of P3. -/
def sentRig : State :=
  let s := formeRig 0 { entry .composing 0 with xfr := true, target := spmBase + 0x100 }
  (put { s with mem := setBytes s.mem (zipBytes (span (spmBase + 0x100) 8) (toBytes 8 compose0.toNat)) }
    fun x => { x with st := { x.st with lh := 0 } }).setFull (spmBase + 0x100) true

theorem witness_FormeAccessAndTransfer :
    ((formeRig compose0 (entry .composing 0)).issuing ∧ (formeRig compose0 (entry .composing 0)).formeLive compose0
      ∧ storedAt (formeRig compose0 (entry .composing 0)) (.scalar .w8) .write 1
      ∧ storedAt (formeRig compose0 (entry .composing 0)) (.row 0) .write 256
      ∧ formeCandle.issuing ∧ formeCandle.formeLive compose0 ∧ formeCandle.me.holding = true
      ∧ storedAt formeCandle (.scalar .w64) .write 8
      ∧ (formeRig proof0 (entry .composing 0)).formeLive proof0
        ∧ ((formeRig proof0 (entry .composing 0)).formeOf proof0).state = .composing
      ∧ (formeRig proof0 (entry .locked 0)).formeLive proof0 ∧ ((formeRig proof0 (entry .locked 0)).formeOf proof0).state = .locked
      ∧ storedAt (formeRig proof0 (entry .locked 0)) (.scalar .w64) .read 8
      ∧ storedAt (formeRig proof0 (entry .locked 0)) (.row 0) .read 256)
    ∧ (taggedAt (formeRig compose0 (entry .composing 0)) 3 .write ∧ taggedAt (formeRig compose0 (entry .composing 0)) 4 .write
      ∧ (formeRig compose0 (entry .composing 0)).me.lan = .idle
      ∧ (formeRig compose0 (entry .composing 0)).settled false .cluster = true
      ∧ (formeRig compose0 (entry .composing 0)).isFull (spmBase + 0x100) = false
      ∧ ((formeRig compose0 (entry .composing 0)).setFull (spmBase + 0x100) true).isFull (spmBase + 0x100) = true)
    ∧ (sentRig.issuing ∧ sentRig.me.st.lh.getLsbD 1 = false ∧ sentRig.me.stage = false ∧ taggedAt sentRig 3 .read
      ∧ sentRig.isFull (spmBase + 0x100) = true ∧ (sentRig.setFull (spmBase + 0x100) false).isFull (spmBase + 0x100) = false
      ∧ (okAnd (sentRig.taggedWord ⟨3, .plain⟩ .read) fun r =>
        BitVec.ofNat 64 (ofBytes (sentRig.loadBytes r.2 { orderOf (partsClass r.2) MD.zero with strong := true })) == compose0)
      ∧ isHandle compose0 = true ∧ (sentRig.formeOf compose0).state = .composing ∧ (sentRig.formeOf compose0).xfr = true
      ∧ (sentRig.formeOf compose0).target = spmBase + 0x100 ∧ (sentRig.formeOf compose0).gen = handleGen compose0
      ∧ isHandle 7 = false) := by
  unfold State.issuing State.formeLive; decide +kernel

/-- A rig with another thread that waits for the word of P3. -/
def behind (s : State) (full : Bool) : State := { s with syncs := [{ word := (spmBase + 0x100) / 8, full := full, slot := 5 }] }

theorem witness_tagged_queue :
    ((behind (formeRig compose0 (entry .composing 0)) false).issuing
      ∧ taggedAt (behind (formeRig compose0 (entry .composing 0)) false) 3 .write
      ∧ (behind (formeRig compose0 (entry .composing 0)) false).settled false .cluster = true
      ∧ (waiting (formeRig compose0 (entry .composing 0))).settled false .cluster = false
      ∧ taggedAt (waiting (formeRig compose0 (entry .composing 0))) 3 .write
      ∧ (formeRig compose0 (entry .composing 0)).me.phase = none ∧ (behind sentRig true).issuing
        ∧ taggedAt (behind sentRig true) 3 .read)
    ∧ (∀ s full, s.cur = 0 → ¬(behind s full).firstAt (spmBase + 0x100) full)
    ∧ (formeRig compose0 (entry .composing 0)).firstAt (spmBase + 0x100) false ∧ sentRig.firstAt (spmBase + 0x100) true :=
  ⟨by unfold State.issuing; decide +kernel, by intro s full e h; cases full <;> (have h : (5 : Nat) = s.cur := h; omega),
    trivial, trivial⟩

/-- The rig with a handler record at 0x2000: the bounds 16 and 32. -/
def recordRig (lo hi : Nat) : State := { rig with mem := setBytes rig.mem (zipBytes (span 0x2000 8) (toBytes 4 lo ++ toBytes 4 hi)) }

/-- The handler record at 0x2000 is readable, with two numbers. -/
def recordIs (s : State) (lo hi : Nat) : Bool :=
  okAnd (s.access .read 0x2000 4) fun ps => okAnd (s.access .read 0x2004 4) fun qs =>
    okAnd (s.candleClass ps 0x2000) fun _ => okAnd (s.candleClass qs 0x2004) fun _ =>
      let o := orderOf (partsClass (ps ++ qs)) MD.zero
      let bs := s.loadBytes (ps ++ qs) o
      ofBytes (bs.take 4) == lo && ofBytes ((bs.drop 4).take 4) == hi && okAnd (s.awaitRelease o.rel o.scope) fun _ => true

theorem witness_CandleOpen :
    rig.issuing ∧ rig.candleHeldBack = false ∧ ({ rig with lan := { lstat := .aligning } } : State).candleHeldBack = true
      ∧ rig.myCore.clock = .full ∧ ({ rig with cores := [(0, { clock := .mid })] } : State).myCore.clock ≠ .full
      ∧ (put candleRig fun x => { x with st := { x.st with cd := 4 } }).me.st.cd = 4#3 ∧ rig.me.st.cd ≠ 4#3
      ∧ rig.nextPc + BitVec.ofNat 48 (0x7FF * 2) = 0x2000
      ∧ recordIs (recordRig 16 32) 16 32 ∧ recordIs (recordRig 16 1048575) 16 1048575 ∧ recordIs (recordRig 16 1048576) 16 1048576
      ∧ recordIs (recordRig 0 0) 0 0 ∧ recordIs (recordRig 48 32) 48 32 ∧ recordIs (recordRig 8 32) 8 32 := by
  unfold State.issuing; decide +kernel

/-- The rig in one or two candles with a low bound, and a held store. -/
def burning (n : Nat) (lo : BitVec 20) (tlf : BitVec 2) : State := put rig fun x => { x with
  st := { x.st with cd := BitVec.ofNat 3 n }, pubq := [heldNone],
  frames := List.replicate n { t0 := 0, tlf := tlf, hhi := 0x1000, hi := 0x100, lo := lo, hlo := 0, hrec := 0x2000 } }

theorem witness_CandleCloseAndTime :
    (rig.issuing ∧ rig.me.frames = [] ∧ ((burning 1 0 1).me.frames.getLast?.any fun f => f.tlf != (burning 1 0 1).me.st.tl) = true
      ∧ (burning 1 0 0).issuing ∧ (burning 1 0 0).me.st.cd ≠ 0#3
      ∧ ((burning 1 0 0).me.frames.getLast?.any fun f => f.tlf == 0 && decide (f.t0.toNat + f.lo.toNat ≤ (burning 1 0 0).timeb.toNat))
      ∧ ((burning 1 1 0).me.frames.getLast?.any fun f => decide ((burning 1 1 0).timeb.toNat < f.t0.toNat + f.lo.toNat))
      ∧ (burning 1 0 0).me.st.cd.toNat - 1 = 0 ∧ (burning 2 0 0).issuing ∧ (burning 2 0 0).me.st.cd.toNat - 1 ≠ 0)
    ∧ (rig.timeb.toNat < (rig.me.a + 1).toNat ∧ ((withA rig 0).me.a + 0).toNat ≤ rig.timeb.toNat) := by
  unfold State.issuing; decide +kernel

/-! ### Witnesses: barriers, copies, memory order -/

/-- The rig with barrier tree 0 of its cluster. -/
def treeRig (t : Tree) : State := { (withA rig 1) with clusters := [(0, { trees := [(0, t)] })] }

theorem witness_Barriers :
    (treeRig { owner := some 0 }).issuing ∧ (treeRig { owner := some 0 }).me.launch = 0
      ∧ ((treeRig { owner := some 0 }).me.a.getLsbD 0 = true ∧ (treeRig {}).me.a.getLsbD 0 = true)
      ∧ (∀ b, b < 16 → (withA (treeRig { owner := some 0 }) 1).me.a.getLsbD b = true →
        (((treeRig { owner := some 0 }).cluster 0).tree b).owner = some 0)
      ∧ (((treeRig {}).cluster 0).tree 0).owner ≠ some 0
      ∧ 0 ∉ (((treeRig { owner := some 0 }).cluster 0).tree 0).members
      ∧ 0 ∈ (((treeRig { owner := some 0, members := [0], arrived := [0] }).cluster 0).tree 0).arrived
      ∧ ((treeRig { owner := some 0, members := [0], arrived := [0] }).me.a + 1).getLsbD 0 = false
      ∧ 0 ∈ (((treeRig { owner := some 0, members := [0] }).cluster 0).tree 0).members
      ∧ 0 ∉ (((treeRig { owner := some 0, members := [0] }).cluster 0).tree 0).arrived ∧ rig.me.replay = [] := by
  unfold State.issuing; decide +kernel

/-- The rig with a copy descriptor at 0x3000: 64 bytes from 0x2000 to 0x4000; and with one that has no length. -/
def copyRig (n : Nat) (ch : Channel) (copies : Nat) : State :=
  { (put rig fun x => { x with copies := copies }) with
    mem := setBytes rig.mem (zipBytes (span 0x3000 64) (toBytes 8 0x2000 ++ toBytes 8 0x4000 ++ toBytes 48 n)),
    octets := [(0, { ch := [(1, ch)] })] }

/-- A copy command of no byte. -/
def copyNone : CopyCmd :=
  { owner := ⟨0, 0⟩, core := 0, slot := 0, born := 0, src := [], dst := [[]], align := 0, stop := 0 }

/-- The descriptor at P5 is readable, valid or wrong at an offset, and its source and destination translate. -/
def copies (s : State) (bad : Option Nat) : Bool :=
  okAnd (s.access .read 0x3000 64) fun ps => okAnd (s.candleClass ps 0x3000) fun _ => okAnd (s.readBlock ps) fun r =>
    badCopy r.1 == bad && (okAnd (s.judgedParts .read 2 (BitVec.ofNat 48 (ofBytes ((r.1.drop 0).take 8))) 64) fun srcs =>
      (partKeys srcs).length == 64 && okAnd (s.copyDests 64 [0x4000]) fun _ => true)

theorem witness_Copies :
    ((copyRig 64 {} 3).issuing ∧ (copyRig 64 {} 3).me.st.lh.getLsbD 5 = false ∧ (copyRig 64 {} 3).me.holding = false
      ∧ copies (copyRig 64 {} 3) none ∧ copies (copyRig 0 {} 3) (some 0x10)
      ∧ (((copyRig 64 {} 3).octet 0).chan 1).queue.length < 8 ∧ (copyRig 64 {} 3).me.copies < 4 ∧ (copyRig 64 {} 3).me.replay = []
      ∧ (copyRig 64 {} 4).me.copies = 4
      ∧ (((copyRig 64 { queue := List.replicate 8 copyNone } 3).octet 0).chan 1).queue.length = 8)
    ∧ (24 ≤ (((24#16 ++ 0#48).extractLsb' 48 5 : BitVec 5)).toNat ∧ (((23#16 ++ 0#48).extractLsb' 48 5 : BitVec 5)).toNat < 24
      ∧ rig.permits 0 23 = false ∧ octetOf rig.here = 0 ∧ ((0#48 - 1#48).toNat ≥ 2 ^ 47) ∧ (0#48 - 0#48).toNat < 2 ^ 47) := by
  unfold State.issuing; decide +kernel

/-- The line of a pointer translates: whether every byte of it is of cached memory. -/
def lineAt (s : State) (p : PReg) (acc : Access) (cached : Bool) : Bool :=
  let a := (s.me.ptrs.get p).extractLsb' 0 48 &&& ~~~0x3F#48
  okAnd (s.access acc a 64) fun ps => ((partKeys ps).all keyIsCached == cached) && okAnd (s.candleClass ps 0) fun _ => true

/-- The line of P5 in the L1s of some cores, which hold it with an older value below. -/
def lineOne (cs : List Nat) : L1Line := { line := lineOf 0x3000, copies := cs.map fun c => ⟨c, .owned⟩, below := [(0x3000, 9)] }
/-- The rig with that line. -/
def lineRig (cs : List Nat) : State := { rig with lines := [lineOne cs] }

/-- How many counted operations of a kind to peers a FENCE of a scope leaves aside. -/
def peersCounted (s : State) (f : Scope) (kind : EngKind → Bool) : Nat :=
  if f = .system then 0 else (s.myCore.ops.filter fun o => o.slot == s.cur && o.seq.isNone && kind o.kind && o.toPeer).length

theorem witness_LinesAndFences :
    rig.issuing ∧ rig.me.st.lh.getLsbD 5 = false ∧ rig.me.holding = false ∧ rig.me.drain = []
      ∧ lineAt rig 5 .read true ∧ lineAt rig 3 .read false ∧ lineAt rig 5 .write true ∧ lineAt rig 3 .write false
      ∧ rig.me.stores < 15 ∧ (put rig fun x => { x with stores := 15 }).me.stores = 15 ∧ rig.lineEntry (lineOf 0x3000) = none
      ∧ ((lineRig [0]).lineEntry (lineOf 0x3000) = some (lineOne [0]) ∧ (lineOne [0]).heldBy ((lineRig [0]).cacheOf rig.here) = true
        ∧ (lineOne [0]).isDirty = true ∧ ∀ q, q ∈ (lineOne [0]).copies → q.cache = (lineRig [0]).cacheOf rig.here)
      ∧ (lineRig [0, 9]).lineEntry (lineOf 0x3000) = some (lineOne [0, 9])
      ∧ ¬(∀ q, q ∈ (lineOne [0, 9]).copies → q.cache = (lineRig [0, 9]).cacheOf rig.here)
      ∧ rig.me.loads = 0 ∧ rig.me.stores = 0 ∧ rig.settled true .system = true ∧ (waiting rig).settled true .thread = false
      ∧ (∀ f, f ∈ [Scope.thread, .package, .system] → peersCounted rig f EngKind.isLoad = 0 ∧ peersCounted rig f EngKind.isStore = 0)
      ∧ (let s : State := { (put rig fun x => { x with loads := 1 }) with cores := [(0, { rig.core 0 with
           ops := [{ kind := .vld, slot := 0, src := [peerBase] }] })] };
         peersCounted s .package EngKind.isLoad = 1 ∧ s.me.loads = 1 ∧ peersCounted s .system EngKind.isLoad = 0) := by
  unfold State.issuing; decide +kernel

/-- The word of P1 is one for an atomic of four or eight bytes. -/
def atomicAt (s : State) (n : Nat) : Bool :=
  okAnd (s.access .atomic 0x2000 n) fun ps => (partKeys ps).length == n && (partKeys ps).all (fun k => !keyIsMbox k)
    && okAnd (s.candleClass ps 0x2000) fun _ =>
    okAnd (s.awaitRelease (atomicOrder (partsClass ps) MD.zero).rel (atomicOrder (partsClass ps) MD.zero).scope) fun _ =>
      ofBytes ((partKeys ps).map s.byte) == 7

theorem witness_Atomics :
    rig.issuing ∧ rig.me.st.lh.getLsbD 1 = false ∧ atomicAt rig 4 ∧ atomicAt rig 8 ∧ rig.me.holding = false
      ∧ rig.me.replay = [] ∧ rig.me.drain = [] ∧ rig.me.st.lh.getLsbD 2 = false
      ∧ (okAnd (rig.access .read 0x2008 8) fun qs => okAnd (rig.candleClass qs 0x2008) fun _ =>
        okAnd (rig.loadOperand { ea := 0x2008, parts := qs } MD.zero) fun _ => true)
      ∧ (withA rig 7).me.a.toNat % 2 ^ 64 = 7 ∧ rig.me.a.toNat % 2 ^ 64 ≠ 7 := by
  unfold State.issuing; decide +kernel

/-- The word of P1 is one for a future, and holds 7. -/
def futureAt (s : State) (acc : Access) : Bool :=
  okAnd (s.futureOperand ⟨1, .plain⟩ 8 acc) fun r => r.1 == s.ea ⟨1, .plain⟩ 8
    && (let o := s.futureOrder (partsClass r.2) MD.zero (acc == .write)
        okAnd (s.awaitRelease o.rel o.scope) fun _ => ofBytes (s.loadBytes r.2 o) == 7 && wordDie (futureWord r.2) == 0)

theorem witness_Futures :
    (rig.issuing ∧ rig.me.replay = [] ∧ futureAt rig .read ∧ futureAt rig .write ∧ rig.waiters = [] ∧ rig.me.retry = none
      ∧ rig.me.a.toNat % 2 ^ 64 ≠ 7 ∧ (withA rig 7).me.a.toNat % 2 ^ 64 = 7 ∧ futureAt (withA rig 7) .read)
    ∧ ((List.replicate 4096 (⟨0, 9, 5⟩ : Waiter)).filter fun q => q.die == 0).length = 4096
    ∧ ∀ q, q ∈ List.replicate 4096 (⟨0, 9, 5⟩ : Waiter) → q.slot ≠ 0 := by
  refine ⟨by unfold State.issuing; decide +kernel, ?_, fun q hq => ?_⟩
  · have h (n : Nat) : ((List.replicate n (⟨0, 9, 5⟩ : Waiter)).filter fun q => q.die == 0).length = n := by simp
    exact h 4096
  · rw [List.eq_of_mem_replicate hq]; decide

/-! ### Witnesses: Lanthorn and galleys -/

/-- The rig as a member of a group, with a block at P5. -/
def lanRig (block : List (BitVec 8)) (l : Lanthorn) (x : Slot → Slot) : State :=
  { put rig x with mem := setBytes rig.mem (zipBytes (span 0x3000 64) block), lan := { l with lstat := .member } }

/-- A log of 64 entries for tenant 0, of which three have been applied, and plane 1 for tenant 0. -/
def lan0 : Lanthorn := { llog := [(0, 6)], lapp := [(0, 3)], lpln := [(1, 0x8000000000000000)] }

/-- The block at P5 is readable, with its first bytes. -/
def blockIs (s : State) (bs : List (BitVec 8)) : Bool :=
  okAnd (s.lanBlock 5) fun r => r.1 == 0x3000 && okAnd (s.readBlock r.2) fun q => q.1.take bs.length == bs
    && q.2.settled false .system

/-- The block is readable while the thread's earlier accesses wait. -/
def blockWaits (s : State) (bs : List (BitVec 8)) : Bool :=
  okAnd (s.lanBlock 5) fun r => r.1 == 0x3000 && okAnd (s.readBlock r.2) fun q => q.1.take bs.length == bs
    && !q.2.settled false .system

theorem witness_LanthornLog :
    rig.issuing ∧ rig.lan.lstat ≠ .member ∧ (lanRig [] {} id).lan.lstat = .member ∧ ((lanRig [] {} id).lan.logSize 0) = none
      ∧ ((lanRig [] lan0 id).lan.logSize 0).isSome ∧ (lanRig [] lan0 id).issuing
      ∧ (aget 0 (lanRig [] lan0 id).lan.lapp 0).toNat < rig.me.a.toNat
      ∧ ((withA (lanRig [] lan0 id) 3).me.a.toNat ≤ (aget 0 (lanRig [] lan0 id).lan.lapp 0).toNat)
      ∧ (lanRig [] lan0 fun x => { x with lan := .done 9 }).me.lan = .done 9 ∧ rig.me.lan = .idle
      ∧ blockIs (lanRig [] lan0 id) (toBytes 8 0) ∧ blockIs (lanRig [1] lan0 id) [1]
      ∧ blockWaits (waiting (lanRig [] lan0 id)) (toBytes 8 0) ∧ rig.lan.oq.length < 32
      ∧ (let q : OrderReq := { slot := none, body := .post 0 0 0 };
        blockIs (lanRig [] { lan0 with oq := List.replicate 32 q } id) (toBytes 8 0)
          ∧ 32 ≤ (lanRig [] { lan0 with oq := List.replicate 32 q } id).lan.oq.length) := by
  unfold State.issuing; decide +kernel

/-- The block of an LCAST of 64 bytes from 0x2000 to an offset, and of an LBRED of id 5 and F32 to 0x4000. -/
def castBlock (n : Nat) : List (BitVec 8) := toBytes 8 0x2000 ++ toBytes 4 n ++ toBytes 4 64
/-- The block of an LBRED of id 5 and a type to 0x4000. -/
def redBlock (ty : Nat) : List (BitVec 8) := toBytes 8 0x4000 ++ toBytes 2 5 ++ toBytes 5 0 ++ toBytes 1 ty

/-- Bytes that the block names translate and are readable. -/
def namedBytes (s : State) (a : VA) (acc : Access) (n : Nat) : Bool :=
  okAnd (s.access acc a n) fun qs => (partKeys qs).length == n && okAnd (s.candleClass qs (a.zeroExtend 64)) fun _ =>
    okAnd (s.readBlock qs) fun q => q.2.settled false .system

/-- A contribution of member 0 to round 0 of id 5. -/
def contrib0 : Contribution := { tenant := 0, id := 5, round := 0, member := 0, ty := 7, lanes := 0 }
/-- The contribution of an LBRED at 0x1000, with its block at P5, to round 0 of id 5. -/
def reduction5 : Reduction := { round := some 0, id := 5, dst := 0x4000, pc := 0x1000, block := 0x3000 }
/-- A thread that waits for round 0 of id 5. -/
def reducing (x : Slot) : Slot := { x with lred := some reduction5 }

theorem witness_LanthornBulkAndReduce :
    ((lanRig (castBlock 64) lan0 id).issuing ∧ (lanRig (castBlock 64) lan0 id).me.lan = .idle
      ∧ (lanRig (castBlock 64) lan0 id).lan.planeOpen 2 0 = false ∧ (lanRig (castBlock 64) lan0 id).lan.planeOpen 1 0 = true
      ∧ blockIs (lanRig (castBlock 64) lan0 id) (castBlock 64) ∧ namedBytes (lanRig (castBlock 64) lan0 id) 0x2000 .read 64
      ∧ blockIs (lanRig (castBlock 4097) lan0 id) (castBlock 4097) ∧ blockIs (lanRig (castBlock 4096) lan0 id) (castBlock 4096)
      ∧ (lanRig [] lan0 fun x => { x with lan := .done 9 }).me.lan = .done 9)
    ∧ (blockIs (lanRig (redBlock 7) lan0 id) (redBlock 7) ∧ blockIs (lanRig (redBlock 5) lan0 id) (redBlock 5)
      ∧ (lanRig (redBlock 7) lan0 id).me.lred = none ∧ (lanRig (redBlock 7) lan0 id).me.lkept = []
      ∧ (let s := lanRig (redBlock 7) lan0 fun x => { x with lkept := [{ reduction5 with pc := 0x1004 }, { reduction5 with block := 0x3040 }] };
         (∀ r, r ∈ s.me.lkept → r.pc ≠ s.me.pc ∨ r.block ≠ 0x3000) ∧ blockIs s (redBlock 7))
      ∧ blockIs (lanRig (redBlock 7 ++ [1]) lan0 id) (redBlock 7 ++ [1]) ∧ namedBytes (lanRig (redBlock 7) lan0 id) 0x4000 .write 48)
    ∧ ((lanRig [] { lan0 with contribs := [contrib0] } reducing).issuing
      ∧ (lanRig [] { lan0 with contribs := [contrib0] } reducing).me.lred = some reduction5
      ∧ (lanRig [] { lan0 with contribs := [contrib0] } reducing).lan.roundComplete 0 5 0 = true
      ∧ (lanRig [] lan0 reducing).lan.roundComplete 0 5 0 = false ∧ (lanRig [] lan0 reducing).lan.lostRounds.contains (0, 5, 0) = false
      ∧ (lanRig [] { lan0 with lostRounds := [(0, 5, 0)] } reducing).lan.lostRounds.contains (0, 5, 0) = true
      ∧ namedBytes (lanRig [] lan0 reducing) 0x4000 .write 48)
    ∧ (blockWaits (waiting (lanRig (castBlock 64) lan0 id)) (castBlock 64)
      ∧ blockWaits (waiting (lanRig (redBlock 7) lan0 id)) (redBlock 7)
      ∧ (let q : OrderReq := { slot := none, body := .post 0 0 0 };
        let b : BulkReq := { slot := 0, tenant := 0, body := { off := 0, bytes := [] } };
        let l := { lan0 with oq := List.replicate 32 q, bq := [(1, List.replicate 32 b)] };
        32 ≤ (lanRig (redBlock 7) l id).lan.oq.length ∧ blockIs (lanRig (redBlock 7) l id) (redBlock 7)
          ∧ namedBytes (lanRig (redBlock 7) l id) 0x4000 .write 48 ∧ 32 ≤ (aget [] (lanRig (castBlock 64) l id).lan.bq 1).length
          ∧ blockIs (lanRig (castBlock 64) l id) (castBlock 64) ∧ namedBytes (lanRig (castBlock 64) l id) 0x2000 .read 64)) := by
  unfold State.issuing; decide +kernel

/-- A stage descriptor of a tag with one home on core 0: the case at 0x5000, the frames at 0x6000, the records at 0x8000. -/
def stageBlock (tag : Nat) : List (BitVec 8) :=
  toBytes 8 0x1000 ++ toBytes 2 0 ++ toBytes 2 1 ++ toBytes 2 tag ++ toBytes 2 0 ++ toBytes 8 0x5000 ++ toBytes 4 4096
    ++ toBytes 4 0 ++ toBytes 8 0 ++ toBytes 8 0x6000 ++ toBytes 8 0x8000 ++ toBytes 8 0

/-- A slug of key 1, value 2 and time 3. -/
def slugBlock (wt tag : Nat) : List (BitVec 8) :=
  toBytes 8 1 ++ toBytes 8 2 ++ toBytes 4 3 ++ toBytes 4 wt ++ toBytes 2 tag ++ toBytes 2 0 ++ toBytes 4 0

/-- A binding of tag 5 with one home. -/
def bound5 : Binding := { launch := 0, tag := 5, entry := 0x1000, d0 := 0, homes := 1, caseVa := 0x5000, csz := 4096,
                          arg := 0, slugb := 0x6000, ssav := 0x8000 }

/-- The rig with a block at P5, bindings, and the thread as a stage thread or not. -/
def galleyRig (block : List (BitVec 8)) (bs : List Binding) (stage : Bool) : State :=
  { put rig fun x => { x with stage := stage, stag := 5 } with
    mem := setBytes rig.mem (zipBytes (span 0x3000 64) block), bindings := bs }

/-- The block of `n` bytes at P5 passes its checks and is readable. -/
def galleyAt (s : State) (n : Nat) (acc : Access) (bs : List (BitVec 8)) : Bool :=
  okAnd (s.galleyBlock 5 n n acc true) fun r => r.1 == 0x3000 && okAnd (s.readBlock r.2) fun q => q.1 == bs

theorem witness_GalleyStages :
    ((galleyRig (stageBlock 5) [] false).issuing ∧ galleyAt (galleyRig (stageBlock 5) [] false) 64 .read (stageBlock 5)
      ∧ galleyAt (galleyRig (stageBlock 5) [] true) 64 .read (stageBlock 5) ∧ (galleyRig (stageBlock 5) [] true).me.stage = true
      ∧ badDescriptor (stageBlock 0) = true ∧ badDescriptor (stageBlock 5) = false
        ∧ galleyAt (galleyRig (stageBlock 0) [] false) 64 .read (stageBlock 0)
      ∧ bindingOf 0 (stageBlock 5) = bound5 ∧ ((galleyRig (stageBlock 5) [bound5] false).binding 0 5).isSome
      ∧ (okAnd ((galleyRig (stageBlock 5) [] false).accessAll .write bound5.regions) fun rs => rs.length == 3)
      ∧ (galleyRig (stageBlock 5) [] false).binding 0 5 = none ∧ (galleyRig (stageBlock 5) [] false).hasIssued 0 = false
      ∧ (let v := slugOf (slugBlock 1 5);
         ({ galleyRig (stageBlock 5) [] false with flights := [{ launch := 0, slug := v, slot := 0, home := 0 }] } : State).hasIssued 0 = true)
      ∧ (put (galleyRig (stageBlock 5) [] false) fun x => { x with sealWas := some 0 }).hasIssued 0 = true
      ∧ ((galleyRig (stageBlock 5) [] false).core 0).stages.length < 16 ∧ (List.replicate 16 (⟨0, 1⟩ : Stage)).length = 16)
    ∧ (galleyAt (galleyRig (slugBlock 1 5) [bound5] false) 32 .read (slugBlock 1 5) ∧ (slugOf (slugBlock 1 5)).tag = 5
      ∧ galleyAt (galleyRig (slugBlock 0 5) [bound5] false) 32 .read (slugBlock 0 5) ∧ (slugOf (slugBlock 0 5)).wt = 0
      ∧ (galleyRig (slugBlock 1 5) [] false).binding 0 5 = none
      ∧ (galleyRig (slugBlock 1 5) [bound5] false).binding 0 5 = some bound5
      ∧ (galleyRig (slugBlock 1 5) [bound5] true).me.stag = 5 ∧ (galleyRig (slugBlock 1 5) [bound5] false).me.sealT ≤ 3
      ∧ (galleyRig (slugBlock 1 5) [bound5] false).settled false .die = true ∧ (slugOf (slugBlock 1 5)).time.toNat < 4) := by
  unfold State.issuing; decide +kernel

/-- The hardware reaches the partition of home 0 of the binding. -/
def caseAt (s : State) (acc : Access) : Bool :=
  okAnd (s.caseAccess bound5 acc [0]) fun r => match r with | .done => true | .fault _ => false

/-- The binding with a record of the block's slug. -/
def bound5With (wt : BitVec 32) : Binding := { bound5 with cases := [(0, { key := 1, val := 2, time := 3, wt := wt, tag := 5 })] }

theorem witness_GalleyCases :
    ((galleyRig (slugBlock 1 5) [bound5] true).issuing ∧ galleyAt (galleyRig (slugBlock 1 5) [bound5] true) 32 .read (slugBlock 1 5)
      ∧ (galleyRig (slugBlock 1 5) [bound5] true).binding 0 5 = some bound5
      ∧ (galleyRig (slugBlock 1 5) [bound5] true).homeCore bound5 0 = rig.here ∧ homeIndex 1 1 = 0
      ∧ caseAt (galleyRig (slugBlock 1 5) [bound5] true) .rmw ∧ (2147483647#32).toInt + 1 > 2147483647
      ∧ (bound5With 0x7FFFFFFF).cases.find? (fun r => r.1 == 0 && sameSlug r.2 (slugOf (slugBlock 1 5))) ≠ none
      ∧ bound5.csz / 32 - 2 = 126 ∧ bound5.spoilt = [] ∧ 0 ∉ { bound5 with homes := 2, spoilt := [1] }.spoilt)
    ∧ (let b := { bound5With 1 with front := 4 };
      let s := put (galleyRig (slugBlock 1 5) [b] false) fun x =>
        { x with st := { x.st with cd := 1 }, frames := candleRig.me.frames, pubq := List.replicate 32 heldNone };
      s.issuing ∧ s.me.holding = true ∧ 32 ≤ s.me.pubq.length ∧ caseAt s .read
        ∧ (okAnd (s.galleyBlock 5 32 32 .rmw false) fun r => okAnd (s.readBlock r.2) fun q => q.1 == slugBlock 1 5)
        ∧ (caseOrder (s.caseView b)).find? (fun _ => true) ≠ none)
    ∧ (galleyAt (galleyRig (slugBlock 1 5) [bound5With 1] false) 32 .rmw (slugBlock 1 5)
      ∧ caseAt (galleyRig (slugBlock 1 5) [bound5With 1] false) .read ∧ bound5.csz ≠ 0 ∧ { bound5 with csz := 0 }.csz = 0
      ∧ (caseOrder ((galleyRig [] [bound5With 1] false).caseView { bound5With 1 with front := 4 })).find? (fun _ => true) ≠ none
      ∧ (caseOrder ((galleyRig (slugBlock 1 5) [bound5] false).caseView bound5)).find? (fun _ => true) = none)
    ∧ ((galleyRig [] [bound5] false).issuing ∧ (galleyRig [] [bound5] false).me.stage = false
      ∧ (galleyRig [] [bound5] false).me.sealWas = none
        ∧ (put (galleyRig [] [bound5] false) fun x => { x with sealT := 6, sealWas := some 2 }).me.sealWas = some 2
      ∧ (galleyRig [] [bound5] true).me.stage = true ∧ { bound5 with broken := true }.broken = true ∧ bound5.front ≤ 5
      ∧ 5 < { bound5 with front := 6 }.front ∧ (galleyRig [] [bound5] false).binding 0 5 = some bound5
      ∧ (galleyRig [] [] false).binding 0 5 = none) := by
  unfold State.issuing; decide +kernel

/-! ### Witnesses: events -/

/-- A frame whose hold ends at once. -/
def dueFrame : Frame := { t0 := 0, tlf := 0, hhi := 0, hi := 0, lo := 0, hlo := 0, hrec := 0x2000 }

/-- The rig as a thread of group 0 of launch 0, which stands as `x`. -/
def groupRig (x : Group) (f : Fields) : State :=
  { put rig fun y => { y with gidx := 0 } with
    launches := [(0, { die := 0, serial := 1, rcb := 0x4000, state := .running, next := 1, groups := [x], f := f })] }

/-- Group 0 on octet 0, in a state, with a pre-emption that is due. -/
def groupIn (st : GroupState) (due : Option (Nat × Nat)) : Group := { index := 0, octet := 0, state := st, due := due }

/-- A write of byte 0x2000 by slot 0. -/
def writeOf (k : WriteKind) : WriteRec :=
  { old := [(0x2000, 7)], new := [(0x2000, 8)], writer := some 0, agent := 0, upto := .thread, done := false, seenBy := [], kind := k }

/-- A store that waits for its replay. -/
def replayOne : Replay := { va := 0x2000, bytes := [1], cls := .strong, since := 0 }

theorem witness_ThreadEvents :
    (let s := put rig fun x => { x with park := some (.nop, {}), retry := some 0 };
      (s.slot 0).park = some (.nop, {}) ∧ isEvent .nop = false ∧ (s.boundaryTrap 0).isNone ∧ (s.slot 0).mode = .running
        ∧ (s.slot 0).busy = false ∧ (s.slot 0).retry = some 0 ∧ 0 ≤ s.cycle)
    ∧ (let s := put rig fun x => { x with st := { x.st with cd := 1, tl := 1 }, frames := [dueFrame] };
      s.atBoundary 0 = true ∧ s.gutterDue 0 = some (0, dueFrame) ∧ (s.slot 0).st.tl.toNat < 2 ∧ dueFrame.g = false)
    ∧ (let s := groupRig (groupIn .saving (some (0, 1))) {};
      s.atBoundary 0 = true ∧ s.gutterDue 0 = none ∧ (s.slot 0).seqFault = none ∧ s.preemptDue 0 = some 1
        ∧ (s.slot 0).st.tl.toNat < 2)
    ∧ (let s := put rig fun x => { x with busy := true };
      (rig.slot 0).busy = false ∧ (s.slot 0).busy = true ∧ s.invals = [] ∧ (s.core 0).ops = [] ∧ (s.slot 0).flight = none)
    ∧ (let f : Flying := { instr := .ld .w64 ⟨1, .plain⟩ MD.zero, chain := {}, reads := [], via := [] };
      let s := put rig fun x => { x with busy := true, flight := some f };
      (s.slot 0).flight = some f ∧ isEvent f.instr = false
        ∧ (match exec f.instr (({ s with chain := f.chain } : State).setSlot 0 { s.slot 0 with busy := false }) with
           | .next v => v.me.a == 7 | _ => false) = true)
    ∧ (let s := put rig fun x => { x with drain := [heldNone] };
      s.ghosts.find? (fun g => g.slot == 0) = none ∧ (s.slot 0).drain = [heldNone] ∧ (s.slot 0).publishWaits heldNone = false)
    ∧ (let g : Ghost := { slot := 0, launch := 0, store := heldNone };
      ({ rig with ghosts := [g] } : State).ghosts.find? (fun g => g.slot == 0) = some g)
    ∧ (let s : State := { rig with hist := [writeOf .published] };
      (s.publishNext 0).isNone ∧ (s.hist.filter (s.completesAlone 0)).getLast? = some (writeOf .published)
        ∧ s.hist[0]? = some (writeOf .published))
    ∧ (let s := put (groupRig (groupIn .saving (some (0, 1))) {}) fun x => { x with stage := true };
      s.atBoundary 0 = true ∧ s.gutterDue 0 = none ∧ s.preemptDue 0 = some 1)
    ∧ (let s : State := { (put rig fun x => { x with replay := [replayOne], replayDue := true }) with cycle := 70000 };
      (s.slot 0).replayDue = true ∧ (s.slot 0).replay = [replayOne]
        ∧ (okAnd (s.parts s.space .write 3 0x2000 1) fun ps => partKeys ps == [0x2000])
        ∧ replayOne.since + 70000 ≤ s.cycle) := by decide +kernel

/-- The rig with engine operations on core 0. -/
def opRig (os : List EngOp) : State := { rowRig .e32 7 with cores := [(0, { (rowRig .e32 7).core 0 with ops := os })] }

/-- A strong row store to system scope. -/
def storeOp (w : Bool) : EngOp := { kind := .vst, slot := 0, bytes := [(0x2000, 1)], strong := true, scope := .system, written := w }
/-- An MDRAIN of two rows, of which the first has still to be stored. -/
def drainOp : EngOp := { kind := .mdrain, slot := 0, bytes := [(0x2000, 1), (0x3000, 2)], lens := [1, 1],
                         rowCls := [.releaseConsistent, .unordered] }
/-- The same with its second row to be stored. -/
def drainLast : EngOp := { drainOp with kdone := 1 }
/-- A round of MROT on a panel of rows of one step at 0 of the scratchpad, received at 0x1000. -/
def roundOp (w : Bool) : EngOp :=
  { kind := .mrotStep, slot := 0, latch := true, fmt := 1, blk := { k := 32, n := 1, afwd := 0x1000 }, written := w }
/-- The core of the round stands alone in it; what it sends lies below 0x1000 of its scratchpad and what it receives above. -/
def roundApart (s : State) : Bool :=
  match s.roundOps 0 (roundOp false) false with
  | some ops => (ops.map (·.1) == [0]) && (s.roundWrites 1 1 ops s.sentRow).all fun e => e.2.length == 64 * panelLen 1 0 32
      && ops.all fun d => ((upto 64).all fun m => (aKeys d.1 d.2.2 m).all fun k => k < spmBase + 0x1000)
        && e.2.all fun b => spmBase + 0x1000 ≤ b.1
  | none => false

theorem witness_EngineEvents :
    (((opRig [{ kind := .vld, slot := 0, rows := [0] }]).core 0).ops[0]? = some { kind := .vld, slot := 0, rows := [0] }
      ∧ ((opRig [storeOp false]).core 0).ops[0]? = some (storeOp false) ∧ (opRig [storeOp false]).storeReady (storeOp false) = true
      ∧ (storeOp false).bytes ≠ [] ∧ (opRig [storeOp false]).hist = []
      ∧ ((opRig [storeOp true]).core 0).ops[0]? = some (storeOp true)
      ∧ (((opRig []).core 0).tile (rowTile 0)).alloc = true
      ∧ (((opRig []).core 0).tile (rowTile 0)).banks.getLsbD (rowNum 0 / 16) = true
      ∧ ((opRig [drainOp]).core 0).unitHead = some (0, drainOp) ∧ drainOp.written = false ∧ (opRig [drainOp]).rowReady drainOp = true
      ∧ drainOp.rowCls.drop 1 ≠ [] ∧ drainLast.rowCls.drop 2 = [] ∧ (opRig [drainLast]).rowReady drainLast = true
      ∧ ((opRig [drainLast]).core 0).unitHead = some (0, drainLast)
      ∧ (let o := { drainOp with written := true };
        ((opRig [o]).core 0).ops[0]? = some o ∧ o.kind = .mdrain ∧ o.written = true)
      ∧ ((opRig [{ kind := .wback, slot := 0, src := [0x2000] }]).core 0).ops[0]? = some { kind := .wback, slot := 0, src := [0x2000] }
      ∧ (opRig [{ kind := .wback, slot := 0, src := [0x2000] }]).writeBackReady 0 { kind := .wback, slot := 0, src := [0x2000] } = true
      ∧ ((opRig [{ kind := .mldb, slot := 0 }]).core 0).unitHead = some (0, { kind := .mldb, slot := 0 })
      ∧ ((opRig [{ kind := .mzero, slot := 0 }]).core 0).unitHead = some (0, { kind := .mzero, slot := 0 })
      ∧ ((opRig [{ kind := .mma, slot := 0, fmt := 1 }]).core 0).unitHead = some (0, { kind := .mma, slot := 0, fmt := 1 })
      ∧ ((matInfo 1).any fun info => 32 % info.step == 0 && 32 ≤ info.kmax && 1 ≤ matCols info.size) = true
      ∧ (((opRig []).core 0).tile 0).alloc = true ∧ (((opRig []).core 0).tile 0).banks = 0xF)
    ∧ (((opRig [{ kind := .mmrot, slot := 0 }]).core 0).unitHead = some (0, { kind := .mmrot, slot := 0 })
      ∧ (∀ w, ((opRig [roundOp w]).core 0).unitHead = some (0, roundOp w) ∧ (roundOp w).inRound = true
        ∧ ((opRig [roundOp w]).roundOps 0 (roundOp w) w).isSome = true)
      ∧ roundApart (opRig [roundOp false]) = true ∧ torusOf 0 1 1 = [0] ∧ (torusOf 0 1 1).Nodup) := by
  decide +kernel

/-- A request to the special-function unit. -/
def sfuOne (live : Bool) : SfuReq := { slot := 0, row := 0, fn := .rcp, live := live }

/-- The parked rig with a request that its unit holds. -/
def sfuWait (live : Bool) : State :=
  { (put rig fun x => { x with park := some (.nop, {}) }) with octets := [(0, { sfu := [sfuOne live] })] }

/-- A copy command of one byte. -/
def copyOne (killed : Bool) : CopyCmd :=
  { owner := ⟨0, 0⟩, core := 0, slot := 0, born := 0, src := [0x2000], srcCls := [.releaseConsistent], dst := [[0x3000]],
    dstCls := [[.releaseConsistent]], align := 64, stop := 1, killed := killed }
/-- The rig with that command in channel 3 of octet 0, its beat written or not. -/
def beatRig (killed : Bool) (written : Option Nat) : State :=
  { rig with octets := [(0, { ch := [(3, { queue := [{ copyOne killed with written := written }] })] })] }

theorem witness_UnitEvents :
    ((∀ live, ((sfuWait live).octet 0).sfu = [sfuOne live]) ∧ (sfuOne true).arrives ≤ rig.cycle
      ∧ ((sfuWait true).slot 0).park = some (.nop, {})
      ∧ (({ sfuWait true with octets := [] } : State).boundaryTrap 0).isNone ∧ ((sfuWait true).slot 0).mode = .running
      ∧ ((sfuWait true).slot 0).busy = false
      ∧ (let s := put rig fun x => { x with vsent := some [3, 9] };
        s.agreeSlots 0 = [0] ∧ (s.slot 0).vmax = none ∧ (s.slot 0).vsent.isSome = true
          ∧ ((s.slot 0).vsent.getD []).headD 0 = 3)
      ∧ (let t : Tree := { members := [0], arrived := [0], awaits := [{ slot := 0, uid := 0, born := 1, bit := true }] };
        (({ rig with clusters := [(0, { trees := [(0, t)] })] } : State).cluster 0).tree 0 = t
          ∧ rig.signalled { slot := 0, uid := 0, born := 1, bit := true } = true)
      ∧ (∀ killed, (((beatRig killed none).octet 0).chan 3).queue = [copyOne killed])
      ∧ (((beatRig true (some 4)).octet 0).chan 3).queue = [{ copyOne true with written := some 4 }]
      ∧ (beatRig false none).beatReady (copyOne false) = true ∧ (beatRig false none).channelTurn 0 3 = true
      ∧ (copyOne false).dst.length = (copyOne false).dstCls.length
      ∧ (beatRig false none).ownerSlot (copyOne false) = some 0 ∧ (rig.slot 0).copyBase ≤ (copyOne false).born)
    ∧ (let v : Inval := { cover := { stage2 := true, die := 0, tenant := 0, root := 0, page := none }, slot := none, id := 4 };
      let s : State := { rig with hist := [writeOf .access], invals := [v] };
      s.hist[0]? = some (writeOf .access) ∧ (writeOf .access).performedAt 1 = false ∧ s.hist.drop 1 = []
        ∧ (writeOf .access).reach = none
        ∧ (let w := { writeOf .access with reach := some .die };
          ({ rig with hist := [w] } : State).hist[0]? = some w ∧ w.performedAt 1 = false)
        ∧ s.invals.find? (fun v => v.id == 4) = some v ∧ s.invalReady v = true) := by decide +kernel

theorem witness_Kills :
    (rig.slot 0).mode ≠ .gated
      ∧ (let s := groupRig (groupIn .placed none) { fdp := 1 };
        (s.launch 0).f.fdp = 1 ∧ (s.launch 0).state.open_ = true ∧ (s.launch 0).domainKilled = false)
      ∧ (groupRig (groupIn .placed none) {}).groupSlots 0 0 = [0] := by decide +kernel

/-- Group 0 of a launch, whose thread is stored. -/
def storedGroup : Group := { groupIn .suspended none with saved := true }

/-- A launch of one group of one thread. -/
def idleLaunch (x : List Group) : Launch :=
  { die := 0, serial := 1, rcb := 0x4000, next := 1, groups := x, f := { maxg := 1, slice := 1000, prio := 1, tplan := 4, cdl := true } }

/-- A launch of lower priority with a slice on octet 0. -/
def lateLaunch : Launch := { die := 0, serial := 2, rcb := 0x5000, state := .running, next := 1, groups := [groupIn .placed none],
                             f := { maxg := 1, slice := 1000 } }

/-- A die with octet 0 alone, where a decision is due, and an idle launch; a thread of another launch holds tile 0 of core 0,
or not. -/
def dieRig (held : Bool) (eleft : Int) : State :=
  { decide := [0], regs := { eleft := eleft, omap := [(0, 0x80)] },
    launches := (0, idleLaunch [storedGroup]) :: (if held then [(1, lateLaunch)] else []),
    slots := if held then [(0, { mode := .running, launch := 1 })] else [],
    cores := if held then [(0, { tiles := [(0, { alloc := true, launch := 1 })] })] else [],
    stored := [{ ctx := { mode := .running }, slot := 8, id := 2 ^ 20 }] }

/-- The die once its decision has begun. -/
def decideRig (held : Bool) (eleft : Int) : State := { dieRig held eleft with decide := [] }

/-- The groups to place are group 0 alone. -/
def placesOne : NextGroups → Bool
  | .groups [0] 1 => true
  | _ => false
/-- There is nothing to place. -/
def placesNone : NextGroups → Bool
  | .none => true
  | _ => false

theorem witness_Placement :
    (let s : State := { launches := [(0, idleLaunch [])] };
      ((let t : State := { launches := [(0, { idleLaunch [] with f := { (idleLaunch []).f with threads := 1 } })] };
        1 ≤ (t.launch 0).f.threads ∧ t.phase7 < 7 ∧ (∀ e, e ∈ t.cores → octetOf e.1 ≠ 0) ∧ ({} : Core).next ≤ t.cycle
          ∧ ∀ e, e ∈ t.slots → octetOf (coreOf e.1) ≠ 0))
      ∧ (s.launch 0).f.threads ≤ 128 ∧ (s.launch 0).groups = [] ∧ ∀ e, e ∈ s.slots → octetOf (coreOf e.1) ≠ 0)
    ∧ ((dieRig false 8).decide.contains 0 = true ∧ ndel (dieRig false 8).decide 0 = [] ∧ ({ decide := [0] } : State).candidates 0 = []
      ∧ (decideRig false 7).candidates 0 = [(0, idleLaunch [storedGroup])]
      ∧ (decideRig false 7).cdlHeld 0 = false ∧ (decideRig false 7).oilState 0 = (decideRig false 7, true)
      ∧ 1000 * (decideRig false 0).regs.eleft < (idleLaunch [storedGroup]).project 0
      ∧ ((idleLaunch [storedGroup]).project 0 : Int) ≤ 1000 * (decideRig false 1).regs.eleft)
    ∧ ((decideRig true 1).candidates 0 = [(0, idleLaunch [storedGroup])]
      ∧ (decideRig true 1).choose [] 0 (idleLaunch [storedGroup]) [0] = none
      ∧ (decideRig true 1).room 0 (idleLaunch [storedGroup]) [0] ((decideRig true 1).victims 0 (idleLaunch [storedGroup])) []
        = some [(1, 0)]) := by decide +kernel

theorem witness_PlacementTurn :
    (placesOne ((decideRig false 1).nextGroups (idleLaunch [storedGroup]))
      ∧ (let p := (decideRig false 1).placeGroup 0 0 0; placesNone (p.nextGroups (p.launch 0))))
    ∧ (decideRig false 1).choose [] 0 (idleLaunch [storedGroup]) [0] = some [0] := by decide +kernel

theorem witness_Slices :
    (let s := groupRig (groupIn .placed none) { slice := 1000, threads := 1 };
      (s.launch 0).group? 0 = some (groupIn .placed none) ∧ (groupIn .placed none).state = .placed
        ∧ (groupIn .placed none).restoring = false ∧ (groupIn .placed none).start + (groupIn .placed none).budget ≤ s.timeb.toNat)
    ∧ (let s := groupRig (groupIn .placed none) { oil := 1, dln := 1 };
      let l := { s.launch 0 with oilc := 1000 };
      let t : State := { s with launches := [(0, l)], timeb := 1 };
      (t.launch 0).state = .running ∧ (t.launch 0).f.oil ≠ 0 ∧ 1000 * (t.launch 0).f.oil ≤ (t.launch 0).oilc
        ∧ (t.launch 0).domainKilled = false ∧ (t.launch 0).f.dln ≠ 0 ∧ (t.launch 0).f.dln ≤ t.timeb.toNat
        ∧ (t.launch 0).dlnDone ≠ some (t.launch 0).f.dln)
    ∧ (let s : State := { groupRig (groupIn .saving (some (0, 1))) {} with timeb := 50000 };
      (s.launch 0).group? 0 = some (groupIn .saving (some (0, 1))) ∧ 0 + 50000 ≤ s.timeb.toNat)
    ∧ (groupRig (groupIn .suspended none) {}).canSave 0 0 = true
    ∧ (let x : Group := { groupIn .placed none with restoring := true };
      let s := put (groupRig x {}) fun y => { y with mode := .restoring };
      (s.launch 0).group? 0 = some x ∧ (∀ e, e ∈ s.slots → e.2.stage = false) ∧ s.restoringSlots 0 0 = [0]
        ∧ (s.slot 0).saved = [] ∧ (s.slot 0).savedOps = [] ∧ x.saved = false ∧ (s.launch 0).state ≠ .dry
        ∧ (s.launch 0).f.gang = false)
    ∧ (let x : Group := { groupIn .placed none with restoring := true };
      let s := put (groupRig x { subW := 2, subH := 1 }) fun y => { y with mode := .restoring };
      (s.launch 0).group? 0 = some x ∧ (s.launch 0).f.gang = true ∧ (s.launch 0).state ≠ .dry ∧ s.restoringSlots 0 0 = [0]
        ∧ (((s.launch 0).groups.filter fun q => q.state == .placed && q.restoring).map (·.index)) = [0])
    ∧ (let x : Group := { groupIn .placed none with restoring := true };
      let s := groupRig x {};
      let t : State := { s with launches := [(0, { s.launch 0 with state := .dry })] };
      (t.launch 0).group? 0 = some x ∧ (t.launch 0).state = .dry)
    ∧ (let m : Migrant := { ctx := rig.me, core := 0, id := 2 ^ 20 };
      let s : State := { rig with migrants := [m] };
      s.migrants[0]? = some m ∧ s.freeSlot m.core = some 1 ∧ (s.slot 1).mode = .gated)
    ∧ (let s : State := { groupRig (groupIn .placed none) { cdl := true } with cores := [(0, { clock := .mid }), (1, { clock := .mid })] };
      (s.launch 0).f.cdl = true ∧ (s.core 0).clock ≠ .full ∧ (s.core 1).clock ≠ .full ∧ s.coreBusy 0 = true ∧ s.coreBusy 1 = false
        ∧ s.freeSlot 0 = some 1 ∧ s.freeSlot 1 = some 16 ∧ (s.slot 16).mode = .gated) := by decide +kernel

/-- A launch of one group that closes, once a sweep has found its sums, or before. -/
def closingRig (sums : Option (BitVec 32 × BitVec 32)) : State :=
  { launches := [(0, { die := 0, serial := 1, rcb := 0x4000, state := .closing, ended := 1, f := { maxg := 1 }, sums := sums })] }

/-- A sweep of a closing launch has something to find. -/
def closes (sums : Option (BitVec 32 × BitVec 32)) : Bool :=
  let s := closingRig sums
  (s.launches.filter fun e => e.2.die == 0 && e.2.state.open_).map (·.1) == [0] && (s.launch 0).state == .closing
    && (s.launch 0).finished && s.idle 0 && s.sums 0 == (0, 0) && (s.launch 0).sums == sums

/-- A slug on its way from slot 0 to its home on core 1, and the same with room in no buffer. -/
def flightRig : State :=
  { put rig fun x => { x with park := some (.gemit 5, { len := 1 }) } with
    flights := [{ launch := 0, slug := slugOf (slugBlock 1 5), slot := 0, home := 1 }] }

/-- An entry of a consolidation buffer. -/
def ripeEntry : Consol := { launch := 0, slug := slugOf (slugBlock 1 5) }
/-- Core 0 holds a ripe entry. -/
def ripeRig : State :=
  let s := put (groupRig (groupIn .placed none) { root := 0x21000 }) fun x => { x with sealT := 4 }
  { s with bindings := [bound5], cores := [(0, { s.core 0 with consol := [ripeEntry] })] }

theorem witness_LaunchesAndSlugs :
    ((({ rig with snoops := [(0, 0x4000)] } : State).snoops.contains (0, 0x4000) = true ∧ rig.nodes = [])
      ∧ (∀ e, e ∈ (closingRig none).launches →
          e.2.serial ≠ BitVec.ofNat 32 (aget 1 { closingRig none with serials := [(0, 2)] }.serials 0))
      ∧ closes none ∧ closes (some (0, 0)))
    ∧ (flightRig.flights[0]? = some { launch := 0, slug := slugOf (slugBlock 1 5), slot := 0, home := 1 } ∧ flightRig.inSeq = none
      ∧ (flightRig.boundaryTrap 0).isNone ∧ (flightRig.slot 0).mode = .running
      ∧ (flightRig.slot 0).park = some (.gemit 5, { len := 1 }) ∧ takeSlug 0 (slugOf (slugBlock 1 5)) (flightRig.core 1).consol ≠ none
      ∧ 1 ≠ coreOf 0 ∧ flightRig.comesLate { launch := 0, slug := slugOf (slugBlock 1 5), slot := 0, home := 1 } = false
      ∧ ({ flightRig with cores := [(1, { took := [{ launch := 0, slug := slugOf (slugBlock 1 5), slot := 9 }] })] } : State).comesLate
        { launch := 0, slug := slugOf (slugBlock 1 5), slot := 0, home := 1 } = true)
    ∧ (ripeRig.nextSlug 0 = some ripeEntry ∧ ripeRig.binding 0 5 = some bound5
      ∧ (ripeRig.launch 0).hostOn 0 = some (groupIn .placed none) ∧ ripeRig.freeSlot 0 = some 1 ∧ (ripeRig.slot 1).mode = .gated
      ∧ ripeRig.coreTakes [] [] 0 (ripeRig.launch 0) 0 0 = true ∧ (ripeRig.core 0).held.contains 0 = true ∧ ripeRig.coreBusy 0 = true
      ∧ (ripeRig.clearSlot 1 == some ripeRig) = true
      ∧ okAnd ((ripeRig.setCore 0 { ripeRig.core 0 with consol := [] }).parts { (ripeRig.launch 0).space with core := 0 } .write 2
          (bound5.slugb + 32) 32) fun ps => (partKeys ps).length == 32) := by decide +kernel

/-- The rig as a Ready package. -/
def readyRig : State := { rig with regs := { rig.regs with devst := .ready, beenReady := true } }

/-- A package with an event and room in its log, of one record. -/
def eventRig (evc : BitVec 32) : State :=
  { events := [packageEvent 6 0 0x30 0], regs := { evb := 0x1000, evp := 256, evc := evc } }

theorem witness_PackageEvents :
    ((eventRig 1).events[0]? = some (packageEvent 6 0 0x30 0) ∧ (eventRig 1).regs.evb ≠ 0
      ∧ ((eventRig 1).regs.evp - (eventRig 1).regs.evc).toNat ≠ 2 ^ (eventRig 1).regs.logBits
      ∧ ((eventRig 0).regs.evp - (eventRig 0).regs.evc).toNat = 2 ^ (eventRig 0).regs.logBits
      ∧ ∀ q, q ∈ (eventRig 1).events.take 0 → q.source ≠ 0)
    ∧ ((aget {} ({ thermal := [(0, { temp := 95, throttled := true })] } : State).thermal 0).throttled = true
      ∧ (aget {} State.reset.thermal 0).throttled = false ∧ (aget {} State.reset.thermal 0).tripped = false ∧ State.reset.coreBusy 767 = false
      ∧ State.reset.regs.devst = .reset ∧ keyIsUnbounded hostBase = true ∧ keyIsUnbounded (spmBase - 1) = true
      ∧ keyIsUnbounded spmBase = false) := by decide +kernel

theorem witness_HostEvents :
    (State.reset.regs.beenReady = false ∧ readyRig.regs.beenReady = true ∧ readyRig.regs.devst ≠ .failed
      ∧ ({ readyRig.regs with devst := .failed }).beenReady = true ∧ (readyRig.invals.filter fun q => q.cover.stage2).length < 9
      ∧ readyRig.regs.rooted = false ∧ ({ readyRig.regs with rooted := true }).rooted = true
      ∧ (1022#64).extractLsb' 0 10 ≠ 1023#10 ∧ aget 0 readyRig.regs.roots 0 = 0 ∧ (0x100#64).extractLsb' 8 40 ++ 0#8 ≠ 0#48
      ∧ readyRig.s2root 0 = 0x10000 ∧ ({ readyRig with regs := { readyRig.regs with s2root := [] } } : State).s2root 0 = 0
      ∧ readyRig.lan.lstat = .off ∧ ({ lstat := .left } : Lanthorn).lstat = .left ∧ ({ lstat := .member } : Lanthorn).lstat = .member)
    ∧ (0x5FFFFFFFF8 + 8 ≤ 0x6000000000 ∧ 0x5FFFFFFFF8 % 8 = 0 ∧ (2 : Nat) ^ 42 - 1 < 2 ^ 42) := by decide +kernel

/-- A fabric request that has been sent `n` times, at cycle 0. -/
def outOne (n : Nat) : Outstanding := { tag := 0, addr := 0, dest := 0, slot := none, tenant := 0, key := 0, sends := n, sent := 0, writeBack := true }

/-- A package with a request on its way, that has answered one, at a cycle. -/
def fabRig (n cycle : Nat) : State :=
  { cycle := cycle, fab := { out := [outOne n], answered := [{ src := 1, tag := 2, resp := [], at_ := 0 }] } }

theorem witness_FabricEvents :
    (let known (s : State) : Bool := (s.fab.answered.filter fun q => decide (s.cycle < q.at_ + 22400)).any fun q => q.src == 1 && q.tag == 2;
      known (fabRig 1 22399) = true ∧ known (fabRig 1 22400) = false)
    ∧ ((fabRig 1 0).fab.hasKey 0 = false
      ∧ ({ (fabRig 1 0).fab with keys := [(1, { current := some 0 })] } : Fabric).hasKey 1 = true)
    ∧ ((fabRig 7 2800).fab.out[0]? = some (outOne 7) ∧ (outOne 7).sent + 2800 ≤ (fabRig 7 2800).cycle ∧ (outOne 7).sends < 8
      ∧ 8 ≤ (outOne 8).sends ∧ (fabRig 8 2800).fab.out[0]? = some (outOne 8))
    ∧ (0 + 2000 ≤ 2000 ∧ 1999 < 0 + 2000)
    ∧ (({} : Rate).lastMark + 10000 ≤ (10000#64).toNat) := by decide +kernel

/-- A group of four in which member 0 holds the flame of every plane, and this package is member `n`. -/
def flameLan (n : Nat) : Lanthorn := { lstat := .member, lgrp := BitVec.ofNat 64 (3 * 2 ^ 8 + n) }

/-- A bulk hold of 64 bytes at offset 0, of member 1. -/
def bulkHold : BulkHold := { sender := 1, body := { off := 0, bytes := List.replicate 64 9 }, slot := some 0 }

theorem witness_LanthornEvents :
    (let own : Lanthorn := { flameLan 0 with oq := [{ slot := some 0, body := .post 0 1 2 }] };
      let bulk : Lanthorn := { flameLan 0 with bq := [(1, [{ slot := 0, tenant := 0, body := { off := 0, bytes := [] } }])] };
      (flameLan 0).lstat = .member ∧ aget 0 (flameLan 0).holder 0 = (flameLan 0).index ∧ (flameLan 0).oq = []
        ∧ own.oq ≠ [] ∧ aget 0 own.holder 0 = own.index ∧ aget [] bulk.bq 1 ≠ [] ∧ aget 0 bulk.holder 1 = bulk.index)
    ∧ (∃ n, n < 4 ∧ aget 0 (flameLan n).holder 23 ≠ (flameLan n).index ∧ (flameLan n).index < (flameLan n).members
        ∧ (flameLan n).index ∉ (flameLan n).gone ∧ (flameLan n).index ∉ (flameLan n).absent ∧ aget 0 (flameLan n).heard 23 + 1400 ≤ 1400
        ∧ 1399 < aget 0 (flameLan n).heard 23 + 1400)
    ∧ (let l : Lanthorn := { flameLan 0 with holds := [{ sender := 0, body := .post 0 1 2, slot := some 0 }],
                                             bholds := [(1, [bulkHold])], lpln := [(1, 0x8000000000020000)] };
      let s : State := { rig with lan := l };
      s.lan.holds ≠ [] ∧ aget [] s.lan.bholds 1 = [bulkHold] ∧ s.sysLoc (BitVec.ofNat 52 (s.lan.region 1)) = some (.dram 0x20000)
        ∧ (s.lan.plane 1).getLsbD 63 = true ∧ s.lan.lstat = .member)
    ∧ (let s : State := { lan := { lstat := .aligning } };
      s.lan.lstat = .aligning ∧ s.aligning = none ∧ s.mayAlign = true ∧ (0#64).toNat ≤ s.timeb.toNat) := by decide +kernel

/-! ### Witnesses: the whole machine -/

theorem witness_EncodingRoundTrip : isEvent (.ldi (-2 ^ 40)) = false ∧ wellFormed (.ldi (-2 ^ 40)) = true := by decide +kernel

theorem witness_DecodedWellFormed : ∃ r, decode [0xF002, 0xF002, 0x1896] = .ok r :=
  let ⟨r, h, _⟩ := okAnd_iff.1 (by decide +kernel : okAnd (decode [0xF002, 0xF002, 0x1896]) (fun _ => true) = true)
  ⟨r, h⟩

/-- Fetching ends in a trap. -/
def trapped : Fetched → Bool
  | .trap _ _ => true
  | _ => false

/-- The rig with its low addresses in the memory of package 1, to which this package has written the NOP at 0x1000 and the
tables of stage 1, with a key. -/
def farRig : State :=
  let far (k : Nat) : Nat := peerBase + 2 ^ 42 + k
  { rig with
    mem := setBytes rig.mem (entryBytes 0x20000 (0x1F + 2 ^ 42) ++ [(far 0x1000, 0x80), (far 0x1001, 0x78)]
      ++ entryBytes (far 0x21000) 0x22001 ++ entryBytes (far 0x22000) 0x13F)
    fab := { routes := [(1, 1)], keys := [(0, { valid := true, current := some 0 })],
             wrote := span (far 0x1000) 2 ++ span (far 0x21000) 8 ++ span (far 0x22000) 8 } }

theorem witness_StepRuns :
    (({ inputs := [.sfuResult 0] } : State).inputs = [.sfuResult 0] ∧ isEvent (.sfuResult 0) = true)
    ∧ (State.reset.inputs = [] ∧ State.reset.nextIssue = none)
    ∧ (rig.inputs = [] ∧ rig.nextIssue = some 0 ∧ (rig.boundaryTrap 0).isNone ∧ decodesTo [0x7880] .nop
      ∧ okAnd (rig.fetchHalf 0x1000) fun h => h == 0x7880)
    ∧ (rig.atTurn 0).fetchMisses 0x1000 1 = []
    ∧ (farRig.nextIssue = some 0 ∧ (farRig.boundaryTrap 0).isNone
      ∧ (okAnd ((farRig.atTurn 0).fetchHalf 0x1000) fun h => h == 0x7880) ∧ (farRig.atTurn 0).fetchMisses 0x1000 1 ≠ [])
    ∧ (let s := put rig fun x => { x with pc := 0xFFFF00001000 };
      s.nextIssue = some 0 ∧ trapped (s.fetchInstr 0xFFFF00001000) = true)
    ∧ rig.flightOf .nop = none
    ∧ (let s := (rig.setSlot 1 rig.me).atTurn 0;
      let i : Instr := .ld .w64 ⟨1, .plain⟩ MD.zero;
      s.crowded 0 = true ∧ s.onlyHeld i = true ∧ (s.stretchesOf (flyingOps i)).isSome = true) := by
  decide +kernel

theorem witness_IssueAndCycles :
    rig.cycle < ({ rig.core 0 with next := 1 }).next ∧ (rig.core 0).next ≤ rig.cycle ∧ rig.slotReady 0 = true
      ∧ ((rig.setSlot 0 {}).setSlot 15 rig.me).slotReady 15 = true
      ∧ (∀ j, j < 15 → ((rig.setSlot 0 {}).setSlot 15 rig.me).slotReady (0 + j) = false)
      ∧ ((List.range 16).filter fun j => rig.contends j).length ≤ 8 ∧ rig.slotDue 0 = true
      ∧ (rig.core 0).passed = [] ∧ (rig.core 0).last = none
      ∧ (let s : State := { rig with cycle := 1 };
        s.slotReady 0 = true ∧ (∀ j, j < 16 → s.slotDue j = false) ∧ (s.core 0).next ≤ s.cycle)
      ∧ rig.aligning = none ∧ rig.phase7 < 7 ∧ ({ rig with phase7 := 6 } : State).phase7 < 7 := by decide +kernel

theorem witness_SafeKept : State.reset.safe = true ∧ rig.safe = true := by decide +kernel

theorem witness_PrivilegeRises : isEvent .nop = false ∧ rig.inSeq = none ∧ rig.me.st.pl = 0#2 ∧ ∃ t, exec .nop rig = .next t :=
  ⟨rfl, rfl, by decide +kernel, _, rfl⟩

/-! ### Single steps: scalar instructions

Expected results are the worked examples and tables of spec/, or are computed by hand from its rules. -/

/-- The state after an instruction. -/
def after (i : Instr) (s : State) : State :=
  match exec i s with
  | .next t => t
  | _ => s

/-- A state with a doubleword at 0x2000 and a value of A. -/
def withOperand (a m : Nat) : State :=
  { withA rig (BitVec.ofNat 64 a) with mem := setBytes rig.mem (zipBytes (span 0x2000 8) (toBytes 8 m)) }

/-- N, Z, C, V. -/
def nzcv (s : State) : List Bool := let x := s.me.st; [x.n, x.z, x.c, x.v]

/-- A and the flags after an instruction, with a value of A and an operand at P1. -/
def outcome (i : Instr) (a m : Nat) : W64 × List Bool :=
  let s := after i (withOperand a m)
  (s.me.a, nzcv s)

/-- Every instruction gives A and N, Z, C, V. -/
def gives (es : List (Instr × Nat × Nat × W64 × List Bool)) : Prop := es.all (fun e => outcome e.1 e.2.1 e.2.2.1 == e.2.2.2) = true

/-- The operand at P1. -/
def o1 : MemOp := ⟨1, .plain⟩
/-- No, and yes. -/
def f0 : Bool := false
/-- Yes. -/
def t1 : Bool := true

theorem test_integer_memory : gives [
    (.ld .w8 o1 MD.zero, 0, 0x90, 0xFFFFFFFFFFFFFF90, [t1, f0, f0, f0]),
    (.add .w8 o1 MD.zero, 0x70, 0x20, 0xFFFFFFFFFFFFFF90, [t1, f0, f0, t1]),
    (.add .w8 o1 { MD.zero with sat := true }, 0x70, 0x20, 0x7F, [f0, f0, f0, t1]),
    (.sub .w8 o1 MD.zero, 5, 7, 0xFFFFFFFFFFFFFFFE, [t1, f0, f0, f0]),
    (.rsub .w8 o1 MD.zero, 5, 7, 2, [f0, f0, t1, f0]),
    (.and .w8 o1 MD.zero, 0xF0, 0x3C, 0x30, [f0, f0, f0, f0]),
    (.or .w8 o1 MD.zero, 0xF0, 0x0F, 0xFFFFFFFFFFFFFFFF, [t1, f0, f0, f0]),
    (.xor .w8 o1 MD.zero, 0x1FF, 0xFF, 0, [f0, t1, f0, f0]),
    (.min .w8 o1 MD.zero, 0x80, 7, 0xFFFFFFFFFFFFFF80, [t1, f0, f0, f0]), (.max .w8 o1 MD.zero, 0x80, 7, 7, [f0, f0, f0, f0]),
    (.minu .w8 o1 MD.zero, 0x80, 7, 7, [f0, f0, f0, f0]), (.maxu .w8 o1 MD.zero, 0x80, 7, 0xFFFFFFFFFFFFFF80, [t1, f0, f0, f0]),
    (.cmp .w16 o1 MD.zero, 7, 7, 7, [f0, t1, t1, f0]), (.mul .w8 o1 MD.zero, 100, 3, 44, [f0, f0, t1, t1]),
    (.mulh .w8 o1 MD.zero, 0xFF, 7, 0xFFFFFFFFFFFFFFFF, [t1, f0, f0, f0]), (.mulhu .w8 o1 MD.zero, 0xFF, 7, 6, [f0, f0, f0, f0]),
    (.div .w8 o1 MD.zero, 0x80, 0xFF, 0xFFFFFFFFFFFFFF80, [t1, f0, f0, t1]),
    (.div .w8 o1 { MD.zero with sat := true }, 0x80, 0xFF, 0x7F, [f0, f0, f0, t1]),
    (.divu .w8 o1 MD.zero, 200, 7, 28, [f0, f0, f0, f0]), (.rem .w8 o1 MD.zero, 0xF9, 2, 0xFFFFFFFFFFFFFFFF, [t1, f0, f0, f0])] := by
  unfold gives; decide +kernel

theorem test_div_by_zero :
    (let s := after (.div .w8 ⟨1, .post⟩ MD.zero) (withOperand 9 0);
      s.me.pc = 0 ∧ (s.me.bank 1).cause.code = 0x08 ∧ (s.me.bank 1).badv = 0x2000 ∧ s.me.a = 9
        ∧ s.me.ptrs.p1 = 0x0001000000002000 ∧ s.me.st.tl = 1 ∧ s.me.st.pl = 1) := by decide +kernel

theorem test_store : ((after (.st .w16 ⟨1, .post⟩ MD.zero) (withOperand 0x12345 0)).byte 0x2000 = 0x45
    ∧ (after (.st .w16 ⟨1, .post⟩ MD.zero) (withOperand 0x12345 0)).byte 0x2001 = 0x23
    ∧ (after (.st .w16 ⟨1, .post⟩ MD.zero) (withOperand 0x12345 0)).byte 0x2002 = 0
    ∧ (after (.st .w16 ⟨1, .post⟩ MD.zero) (withOperand 0x12345 0)).me.ptrs.p1 = 0x0001000000002002) := by decide +kernel

theorem test_float : gives [
    (.fadd .l32 o1 MD.zero, 0x3F800000, 0x40000000, 0x40400000, [f0, f0, f0, f0]),
    (.fsub .l32 o1 MD.zero, 0x3F800000, 0x40000000, 0xBF800000, [f0, f0, f0, f0]),
    (.fmul .l32 o1 MD.zero, 0x40400000, 0x3F000000, 0x3FC00000, [f0, f0, f0, f0]),
    (.fma .l32 o1 (some o1) MD.zero, 0x3F800000, 0x40000000, 0x40A00000, [f0, f0, f0, f0]),
    (.fdiv .l64 o1 MD.zero, 0x3FF0000000000000, 0, 0x7FF0000000000000, [f0, f0, f0, f0]),
    (.fsqrt .l32 o1 MD.zero, 0, 0x40800000, 0x40000000, [f0, f0, f0, f0]),
    (.fmin .l32 o1 MD.zero, 0x3F800000, 0x40000000, 0x3F800000, [f0, f0, f0, f0]),
    (.fmax .l32 o1 MD.zero, 0x3F800000, 0x40000000, 0x40000000, [f0, f0, f0, f0]),
    (.fcmp .l32 o1 MD.zero, 0x3F800000, 0x40000000, 0x3F800000, [t1, f0, f0, f0]),
    (.fcmp .l32 o1 MD.zero, 0x7FC00000, 0x40000000, 0x7FC00000, [f0, f0, f0, t1])] := by unfold gives; decide +kernel

theorem test_immediates : gives [
    (.ldi (-1), 5, 0, 0xFFFFFFFFFFFFFFFF, [t1, f0, f0, f0]), (.ldih 1, 5, 0, 0x100000005, [f0, f0, f0, f0]),
    (.addi (-3), 5, 0, 2, [f0, f0, t1, f0]), (.andi 0xFF, 0xFFFFFFFFFFFFFFFF, 0, 0xFF, [f0, f0, f0, f0]),
    (.ori 8, 5, 0, 13, [f0, f0, f0, f0]), (.xori 1, 5, 0, 4, [f0, f0, f0, f0]),
    (.shl 1, 0x8000000000000001, 0, 2, [f0, f0, t1, f0]), (.shr 1, 0x8000000000000001, 0, 0x4000000000000000, [f0, f0, t1, f0]),
    (.sar 63, 0x8000000000000001, 0, 0xFFFFFFFFFFFFFFFF, [t1, f0, f0, f0]), (.rol 1, 0x8000000000000001, 0, 3, [f0, f0, t1, f0]),
    (.clz .w8, 0x110, 0, 3, [f0, f0, f0, f0]), (.ctz .w16, 0x10000, 0, 16, [f0, f0, f0, f0]),
    (.popc .w64, 0xFF, 0, 8, [f0, f0, f0, f0]), (.bswap .w16, 0x1234, 0, 0x3412, [f0, f0, f0, f0])] := by
  unfold gives; decide +kernel

/-- The examples of R117: A afterwards, and NX and NV. -/
theorem test_cvt :
    ([(1, f0, 0x4004000000000000, 2, t1, f0), (5, f0, 0x4004000000000000, 3, t1, f0), (2, f0, 0xC004000000000000, 0xFFFFFFFFFFFFFFFE, t1, f0),
      (0, f0, 0x41E65A0BC0000000, 0x7FFFFFFF, f0, t1), (0, t1, 0x41E65A0BC0000000, 0xB2D05E00, f0, f0)]
      : List (BitVec 3 × Bool × Nat × W64 × Bool × Bool)).all (fun e =>
        let s := after (.cvt e.1 false e.2.1 .f64 .i32) (withA rig (BitVec.ofNat 64 e.2.2.1))
        s.me.a == e.2.2.2.1 && s.me.st.fl.getLsbD 0 == e.2.2.2.2.1 && s.me.st.fl.getLsbD 4 == e.2.2.2.2.2) = true := by
  decide +kernel

theorem test_pointers :
    (after (.pset 6 0x100) rig).me.ptrs.p6 = 0x100 ∧ (after (.pstep 3 (-2)) rig).me.ptrs.p3 = 0xFFFEFF8000000100
      ∧ (after (.paddi 1 (-8)) rig).me.ptrs.p1 = 0x0001000000001FF8 ∧ (after (.padda 2 3) rig).me.ptrs.p2 = 0x2030
      ∧ (after (.movap 2) rig).me.ptrs.p2 = 5 ∧ (after (.movpa 1) rig).me.a = 0x0001000000002000
      ∧ nzcv (after (.pcmp 1 2) rig) = [t1, f0, f0, f0] ∧ nzcv (after (.pcmp 2 2) rig) = [f0, t1, t1, f0] := by decide +kernel

/-- The PC after an instruction, with flags. -/
def pcAfter (i : Instr) (n z c v : Bool) : VA := (after i (put rig fun x => { x with st := { x.st with n := n, z := z, c := c, v := v } })).me.pc

theorem test_branches :
    pcAfter (.b (-6)) f0 f0 f0 f0 = 0xFF6 ∧ pcAfter (.bz 1) f0 f0 f0 f0 = 0x1002 ∧ pcAfter (.bz 1) f0 t1 f0 f0 = 0x1004
      ∧ pcAfter (.bnz 1) f0 f0 f0 f0 = 0x1004 ∧ pcAfter (.blt 1) t1 f0 f0 f0 = 0x1004 ∧ pcAfter (.blt 1) t1 f0 f0 t1 = 0x1002
      ∧ pcAfter (.bge 1) t1 f0 f0 t1 = 0x1004 ∧ pcAfter (.bge 1) f0 f0 f0 t1 = 0x1002 ∧ pcAfter (.bltu 1) f0 f0 f0 f0 = 0x1004
      ∧ pcAfter (.bltu 1) f0 f0 t1 f0 = 0x1002 ∧ pcAfter (.bgeu 1) f0 f0 t1 f0 = 0x1004 ∧ pcAfter (.nop) f0 f0 f0 f0 = 0x1002 := by
  decide +kernel

theorem test_transfers :
    (let s := after (.loop (-10)) (countRig 2); s.me.pc = 0xFEE ∧ s.me.xi.count = 1)
    ∧ (let s := after (.loop (-10)) (countRig 1); s.me.pc = 0x1002 ∧ s.me.xi.count = 0)
    ∧ (let s := after (.call 100) rig; s.me.pc = 0x10CA ∧ s.me.lk = 0x1002)
    ∧ (after .ret (put rig fun x => { x with lk := 0x3000 })).me.pc = 0x3000 ∧ (after .jmpa (withA rig 0x2001)).me.pc = 0x2000 := by
  decide +kernel

/-! ### Single steps: rows and tiles -/

/-- The row rig with rows of a tag and content. -/
def rowsRig (rs : List (Nat × BitVec 4 × Nat)) : State :=
  let s := rowRig .e32 7
  { s with cores := [(0, { s.core 0 with rows := rs.map fun r => (r.1, { tag := r.2.1, elems := BitVec.ofNat 2048 r.2.2 }) })] }

/-- Rows 0 to 8: 1.0, 2.0, 3.0 and −1.0 as F32, three I32 numbers, the sum of R96 and an index row. -/
def numbers : State := rowsRig [
  (0, 7, 0x3F800000), (1, 7, 0x40000000), (2, 7, 0x40400000), (3, 7, 0xBF800000), (4, 3, 0x80000000), (5, 3, 0xF0F0F0F0),
  (6, 3, 0x0FF00FF0), (7, 7, 0x3F8000003F8000003F8000004B800000), (8, 3, 0x40)]

/-- Lane 0, and the tag, of row `r` after an instruction. -/
def lane0 (i : Instr) (r : RowRef) : Nat × BitVec 4 :=
  let x := (after i (withA numbers 0)).row r
  ((x.lane 32 0).toNat, x.tag)

theorem test_vector_float :
    ([(.vadd (.fp .f32) 0 (some 1) (some 2) MD.zero, 0, 0x40A00000), (.vsub (.fp .f32) 0 (some 1) none MD.zero, 0, 0xBF800000),
      (.vmul (.fp .f32) 0 (some 1) (some 2) MD.zero, 0, 0x40C00000), (.vfma .f32 0 (some 1) (some 2) MD.zero, 0, 0x40E00000),
      (.vfms .f32 0 (some 1) (some 2) MD.zero, 0, 0xC0A00000), (.vmin (.fp .f32) 0 (some 1) none, 0, 0x3F800000),
      (.vmax (.fp .f32) 0 (some 1) none, 0, 0x40000000), (.vabs (.fp .f32) 3 MD.zero, 3, 0x3F800000),
      (.vneg (.fp .f32) 3 MD.zero, 3, 0x3F800000), (.vsel (.fp .f32) 0 (some 1) (some 5), 0, 0x40000000),
      (.vperm .w32 0 (some 1) (some 8), 0, 0x3F800000)] : List (Instr × RowRef × Nat)).all (fun e =>
        lane0 e.1 e.2.1 == (e.2.2, 7)) = true := by decide +kernel

theorem test_vector_integer :
    ([(.vadd (.int .i32) 4 (some 5) none { MD.zero with sat := true }, 4, 0x80000000), (.vsub (.int .i32) 4 (some 6) none MD.zero, 4, 0x700FF010),
      (.vneg (.int .i32) 4 { MD.zero with sat := true }, 4, 0x7FFFFFFF), (.vabs (.int .i32) 4 MD.zero, 4, 0x80000000),
      (.vand .i32 5 (some 6), 5, 0x00F000F0), (.vor .i32 5 (some 6), 5, 0xFFF0FFF0), (.vxor .i32 5 (some 6), 5, 0xFF00FF00),
      (.vshl .i32 5 (some 4), 5, 0x0F0F0F00), (.vshr .i32 5 (some 4), 5, 0x0F0F0F0F), (.vsar .i32 5 (some 4), 5, 0xFF0F0F0F),
      (.vsar .i32 5 (some 40), 5, 0xFFFFFFFF), (.vshl .i32 5 (some 32), 5, 0), (.vcmp (.fp .f32) 0 (some 1) (some .lt), 0, 0xFFFFFFFF),
      (.vcmp (.int .i32) 4 (some 5) (some .ltu), 4, 0xFFFFFFFF), (.vcvt (.int .i32) 8 (some 2) MD.zero, 8, 3)]
      : List (Instr × RowRef × Nat)).all (fun e => lane0 e.1 e.2.1 == (e.2.2, 3)) = true := by decide +kernel

theorem test_vector_scalar :
    (after (.vred (.fp .f32) 7 MD.zero) (withA numbers 0)).me.a = 0x4B800001
      ∧ (after (.vred (.fp .f32) 7 MD.zero) (withA numbers 2)).me.a = 0x4B800000
      ∧ (after (.vgeta (.int .i32) 4 none) numbers).me.a = 0xFFFFFFFF80000000
      ∧ (after (.vgeta (.fp .f32) 7 (some 1)) numbers).me.a = 0x3F800000
      ∧ ((after (.vbca (.int .i32) 4) numbers).row 4).lane 32 63 = 5 := by decide +kernel

/-- A span whose first granule is that of the example of R90, element 31 being `last`. -/
def granule (last : Nat) : State := rowsRig [
  (0, 7, 0x40400000FF80000042C80000 + last * 2 ^ 992), (1, 7, 0), (2, 7, 0), (3, 7, 0)]

theorem test_quantise :
    (let r := (after (.vqnt .e4m3 0 none MD.zero) (granule 0)).row 0; r.tag = 9 ∧ r.elems = 0x54FE7C ∧ r.scales.extractLsb' 0 8 = 0x7D)
    ∧ (after (.vqnt .e4m3 0 none MD.zero) (granule 0)).me.st.fl = 0b00101
    ∧ (let s := after (.vqnt .e4m3 0 none MD.zero) (granule 0x7FC00000);
      (s.row 0).elems = 0 ∧ (s.row 0).scales.extractLsb' 0 8 = 0xFF ∧ s.me.st.fl = 0)
    ∧ (let s := after (.vdq .f32 0 (some 0)) (after (.vqnt .e4m3 0 none MD.zero) (granule 0));
      ((s.row 0).lane 32 0, (s.row 0).lane 32 1, (s.row 0).lane 32 2) = (0x42C00000, 0xC2E00000, 0x40400000)) := by decide +kernel

theorem test_tiles :
    (let t := ((after (.tcfg 1 .e32 0xF none) rig).core 0).tile 1;
      t.alloc = true ∧ t.size = .e32 ∧ t.banks = 0xF ∧ t.owner = .slot 0)
    ∧ (let s := after (.tcfg 0 .e64 1 none) (tileRig .shared); (s.me.bank 1).cause.code = 0x0D ∧ (s.me.bank 1).badv = 0)
    ∧ ((after (.trel 0) (tileRig .shared)).core 0).tile 0 = {}
    ∧ (let s := after (.vadd (.fp .f32) 16 (some 16) none MD.zero) (tileRig .shared); (s.me.bank 1).cause.code = 0x0B
      ∧ (s.me.bank 1).badv = 16) := by
  decide +kernel

theorem test_full_bits :
    (after (.tagf 3) rig).isFull (spmBase + 0x100) = true ∧ (after (.tage 3) fullRig).isFull (spmBase + 0x100) = false
      ∧ (let s := after (.tagf 1) rig; (s.me.bank 1).cause.code = 0x0E ∧ (s.me.bank 1).badv = 0x2000)
      ∧ (let s := after (.ld .w64 ⟨3, .plain⟩ syncMd) fullRig; s.me.a = 0 ∧ s.isFull (spmBase + 0x100) = false)
      ∧ (after (.st .w64 ⟨3, .plain⟩ syncMd) rig).isFull (spmBase + 0x100) = true := by decide +kernel

theorem test_matrix_rows :
    (let s := after (.mzero 0 (some 2)) (rowRig .e32 7); s.me.tiles = 1
      ∧ ((s.core 0).ops.map fun o => (o.kind, o.rows)) = [(.mzero, [0, 1, 2])])
    ∧ (after (.mstat 0 false) (tileRig .shared)).me.a = 0x1400 := by decide +kernel

/-! ### Single steps: traps, candles, shared units -/

theorem test_trap_and_return :
    (let s := after (.trap 100) { rig with chain := { len := 3 } };
      (s.me.bank 1).cause = { code := 0x16, len := 3 } ∧ (s.me.bank 1).badv = 100 ∧ (s.me.bank 1).epc = 0x1000 ∧ s.me.st.tl = 1
        ∧ s.me.st.pl = 1 ∧ s.me.pc = 0)
    ∧ (let s := after .rtt (put (trapRig 1 1 0x16 []) fun x => { x with bank1 := { x.bank1 with epc := 0x3000 } });
      s.me.pc = 0x3000 ∧ s.me.st.tl = 0 ∧ s.me.st.pl = 0)
    ∧ (let s := after .rtt rig; (s.me.bank 1).cause.code = 0x14 ∧ (s.me.bank 1).badv = 0)
    ∧ (let s := after .rtt superRig; (s.me.bank 1).cause.code = 0x15) := by decide +kernel

theorem test_candle_opens :
    (let s := after (.candle (some 1) (some 2) 0x7FF) (recordRig 16 32);
      s.me.st.cd = 1 ∧ s.me.pc = 0x1002 ∧ s.me.frames.map (fun f => (f.hrec, f.hhi, f.hlo, f.lo, f.hi)) = [(0x2000, 32, 1, 1, 2)])
    ∧ ((after (.candle (some 2) (some 1) 0x7FF) (recordRig 16 32)).me.bank 1).cause.code = 0x10 := by decide +kernel

theorem test_candle_close :
    (let s := after .douse (burning 2 0 0); s.me.st.cd = 1 ∧ s.me.frames.length = 1)
    ∧ (let s := after .snuff (burning 1 0 0); s.me.st.cd = 0 ∧ s.me.pubq = [] ∧ s.me.drain = [heldNone])
    ∧ (after .snuff (burning 1 1 0)).me.park = some (.snuff, {}) ∧ ((after .snuff rig).me.bank 1).cause.code = 0x10
    ∧ (after (.time .now) { rig with timeb := 77 }).me.a = 77 ∧ (after (.time .rem) (burning 1 0 0)).me.a = 0x100
    ∧ (after (.pace 1) rig).me.park = some (.pace 1, {}) ∧ (after (.pace 0) (withA rig 0)).me.pc = 0x1002 := by decide +kernel

/-- The rig in an octet of trees. -/
def memberRig : State := treeRig { owner := some 0, members := [0] }

theorem test_barriers :
    (let s := after .barm (withA (treeRig { owner := some 0 }) 1); s.me.a = 0 ∧ ((s.cluster 0).tree 0).members = [0])
    ∧ ((after (.arrive 0) memberRig).cluster 0).tree 0 = { owner := some 0, members := [0], arrived := [0], awaits := [{ slot := 0, uid := 0, born := 0, bit := true }] }
    ∧ ((after (.arrive 1) memberRig).cluster 0).tree 1 = {}
    ∧ (after (.bwait 0) (treeRig { owner := some 0, members := [0], arrived := [0] })).me.park = some (.bwait 0, {})
    ∧ (let s := after (.bwait 0) (treeRig { owner := some 0, members := [0], v := true }); s.me.a = 1 ∧ nzcv s = [f0, f0, f0, f0]) := by
  decide +kernel

/-- An atomic of 64 bits at P1, where the number `m` stands: A afterwards, and the lowest byte stored. -/
def atomic (i : Instr) (a m : Nat) : W64 × BitVec 8 := let s := after i (withOperand a m); (s.me.a, s.byte 0x2000)

theorem test_atomics :
    ([(.amoadd .l64 o1 MD.zero, 5, 7, 12), (.amoand .l64 o1 MD.zero, 5, 7, 5), (.amoor .l64 o1 MD.zero, 8, 7, 15),
      (.amoxor .l64 o1 MD.zero, 5, 7, 2), (.amomin .l64 o1 MD.zero, 5, 7, 5), (.amomax .l64 o1 MD.zero, 5, 7, 7),
      (.amominu .l64 o1 MD.zero, 2 ^ 64 - 1, 7, 7), (.amomaxu .l64 o1 MD.zero, 2 ^ 64 - 1, 7, 0xFF), (.amoswap .l64 o1 MD.zero, 5, 7, 5),
      (.afadd .l64 o1 MD.zero, 0x3FF0000000000000, 7, 0), (.afmin .l64 o1 MD.zero, 0x3FF0000000000000, 7, 7),
      (.afmax .l64 o1 MD.zero, 0x3FF0000000000000, 7, 0)] : List (Instr × Nat × Nat × BitVec 8)).all (fun e =>
        atomic e.1 e.2.1 e.2.2.1 == (BitVec.ofNat 64 e.2.2.1, e.2.2.2)) = true := by decide +kernel

theorem test_compare_and_swap :
    (let s := after (.amocas .l64 o1 (some ⟨2, .plain⟩) MD.zero) (withOperand 7 7); s.me.a = 7 ∧ s.byte 0x2000 = 0 ∧ s.me.st.z = true)
    ∧ (let s := after (.amocas .l64 o1 (some ⟨2, .plain⟩) MD.zero) (withOperand 6 7); s.me.a = 7 ∧ s.byte 0x2000 = 7
      ∧ s.me.st.z = false)
    ∧ ((after (.amocas .l64 o1 none MD.zero) rig).me.bank 1).cause.code = 0x02 := by decide +kernel

theorem test_futures :
    (let s := after (.ldfut .l64 o1 MD.zero) (withOperand 5 7); s.me.a = 7 ∧ s.me.pc = 0x1002 ∧ s.waiters = [])
    ∧ (let s := after (.ldfut .l64 o1 MD.zero) (withOperand 7 7); s.me.pc = 0x1000
      ∧ s.waiters.map (fun w => (w.die, w.word, w.slot)) = [(0, 0x400, 0)])
    ∧ (let s := after (.stfut .l64 o1 MD.zero) { rig with waiters := [{ die := 0, word := 0x400, slot := 9 }] };
      s.waiters = [] ∧ s.byte 0x2000 = 5) := by decide +kernel

theorem test_fences :
    (after (.fence .system) rig).me.pc = 0x1002 ∧ (after (.fence .system) (waiting rig)).me.park = some (.fence .system, {})
      ∧ (after (.wback 1 none) rig).me.stores = 1 ∧ (after (.discard 3) rig).me.pc = 0x1002 := by decide +kernel

theorem test_formes :
    (let s := after (.fnew 2 (some 0)) (withA rig 0x2000);
      isCompose (s.me.ptrs.get 2) = true ∧ s.me.st.lh = 4 ∧ s.me.st.z = false
        ∧ (let e := (s.cluster 0).forme 0; e.state = .composing ∧ e.base = 0x2000 ∧ e.size = 16))
    ∧ (let s := after (.fprf 2 (some 1)) (formeRig compose0 (entry .composing 0)); s.me.ptrs.p2 = proof0 ∧ s.me.st.lh = 0x86)
    ∧ (let s := after (.flock 1) (formeRig compose0 (entry .composing 0));
      s.me.ptrs.p1 = 0 ∧ s.me.st.lh = 0x80 ∧ ((s.cluster 0).forme 0).state = .locked)
    ∧ (let s := after (.cst 1 (.scalar .w16)) (formeRig compose0 (entry .composing 0));
      s.byte 0x2000 = 5 ∧ s.byte 0x2001 = 0 ∧ s.me.ptrs.p1 = compose0 + 2)
    ∧ (let s := after (.pld 1 (.scalar .w8)) (formeRig proof0 (entry .locked 0)); s.me.a = 7 ∧ s.me.ptrs.p1 = proof0 + 1)
    ∧ (let s := after (.fdrop 1) (formeRig proof0 (entry .pied 0)); s.me.ptrs.p1 = 0 ∧ s.me.st.lh = 0x80)
    ∧ ((after (.fdropRetire 1) (formeRig proof0 (entry .locked 0))).cluster 0).forme 0 = { state := .free, gen := 1 }
    ∧ ((after (.pld 1 (.scalar .w8)) (formeRig proof0 (entry .pied 0))).me.bank 1).cause.code = 0x18 := by decide +kernel

theorem test_wait_and_leave :
    (after (.wait 7 7 3 7) rig).me.pc = 0x1002
      ∧ (after (.wait 0 7 3 7) (put rig fun x => { x with loads := 1 })).me.park = some (.wait 0 7 3 7, {})
      ∧ (let s := after .yield (pairRig false); s.me.pc = 0x1002 ∧ s.me.mode = .yielded)
      ∧ ((after .halt rig).slot 0).mode = .gated := by decide +kernel

theorem test_system_registers :
    (after (.mts 12) (withA rig 0x0000ABCD00000007)).me.xi = { mask := 0xABCD, count := 7 }
      ∧ (let s := after (.mts 11) (withA rig 0xFFFF000000002001); s.me.lk = 0x2001)
      ∧ ((after (.mfs 16) rig).me.bank 1).cause.code = 0x14 ∧ ((after (.mts 14) superRig).me.bank 1).cause.code = 0x02
      ∧ (after (.mfs 16) (put superRig fun x => { x with tvb := 0x8000 })).me.a = 0x8000
      ∧ (after (.mts 16) (withA superRig 0xFFFF000000008039)).me.tvb = 0x8000 ∧ (after (.mfs 23) superRig).me.a = 0x21000
      ∧ (let s := after (.mts 10) (withA superRig 0xF); nzcv s = [t1, t1, t1, t1]) := by decide +kernel

/-- The homes of R364. -/
theorem test_homes : homeIndex 1 4 = 1 ∧ homeIndex 2 4 = 2 ∧ homeIndex 3 4 = 0 := by decide +kernel

theorem test_copy :
    (let s := after (.copy 5 1) (copyRig 64 { wp := 6, last := 6 } 0);
      s.me.a = 70 ∧ s.me.copies = 1 ∧ (((s.octet 0).chan 1).queue.map fun m => (m.src.length, m.stop)) = [(64, 70)])
    ∧ (let s := after (.copy 5 1) (copyRig 0 {} 0); (s.me.bank 1).cause.code = 0x02 ∧ (s.me.bank 1).badv = 0x3010)
    ∧ (let r := withA { rig with octets := [(0, { perm := 1, ch := [(1, { wp := 64 })] })] } 64;
      (after (.cwait 1) r).me.pc = 0x1002 ∧ (after (.cwait 1) r).me.st.v = false
        ∧ (after (.cwait 1) (withA r 65)).me.park = some (.cwait 1, {}) ∧ (after (.wptr 1) r).me.a = 64) := by decide +kernel

theorem test_galleys :
    (let s := after (.gbind 5) (galleyRig (stageBlock 5) [] false);
      s.me.st.z = false ∧ (s.bindings.map fun b => (b.tag, b.entry, b.csz, b.front)) = [(5, 0x1000, 4096, 0)]
        ∧ ((s.core 0).stages = [⟨0, 5⟩]))
    ∧ (let s := after (.gemit 5) (galleyRig (slugBlock 1 5) [bound5] false);
      (s.flights.map fun f => (f.home, f.slug.key, f.slug.wt)) = [(0, 1, 1)])
    ∧ (let s := after (.gemit 5) (galleyRig (slugBlock 0 5) [bound5] false); (s.me.bank 1).cause.code = 0x1A
      ∧ (s.me.bank 1).badv = 0x0300000000003000)
    ∧ (let s := after (.caseadd 5) (galleyRig (slugBlock 1 5) [bound5With 0xFFFFFFFF] true); (s.bindings.map (·.cases)) = [[]])
    ∧ (after (.caseget 5 false) (galleyRig (slugBlock 1 5) [{ bound5With 9 with front := 4 }] false)).me.a = 9
    ∧ (let s := after (.casenxt 5 true) (galleyRig (slugBlock 1 5) [{ bound5With 9 with front := 4 }] false);
      s.me.st.z = false ∧ s.byte 0x3014 = 9)
    ∧ (let s := after .gclose (withA (galleyRig [] [] false) 3); s.me.sealT = 4 ∧ s.me.pc = 0x1002)
    ∧ (after .gfront (withA (galleyRig [] [{ bound5 with front := 6 }] false) 5)).me.a = 6 := by decide +kernel

theorem test_lanthorn :
    (after .lseq (lanRig [] lan0 id)).me.a = 3
      ∧ (let s := after .lwait (withA (lanRig [] lan0 id) 3); s.me.pc = 0x1002 ∧ s.me.a = 3)
      ∧ (after .lwait (withA (lanRig [] lan0 id) 4)).me.park = some (.lwait, {})
      ∧ ((after .lseq rig).me.bank 1).cause.code = 0x1B
      ∧ (let s := after (.lpost 5) (lanRig (toBytes 8 0 ++ toBytes 8 9) lan0 id);
        (s.lan.oq.map (·.body)) = [.post 0 9 0] ∧ s.me.park = some (.lpost 5, {})) := by decide +kernel

end Sys2Proof.Tests
end

section
/-! PROOF. The addressing modes (R24): the address an operand uses and the pointer after it, a mode at a time; the
obligation O3. -/

namespace Sys2Proof.Machine
open Sys2Proof

variable (v : W64) (mask : BitVec 16) (w : Nat)

/-! ### The address used -/

/-- Only the pre-step mode moves the address before its use. -/
theorem eaOf_of_ne_pre {am : AMode} (h : am ≠ .pre) : eaOf v am w = ptrAddr v := by
  cases am with
  | pre => exact absurd rfl h
  | plain | post | circ => rfl

@[simp] theorem eaOf_pre : eaOf v .pre w = ptrAddr v + BitVec.ofInt 48 (ptrStep v * w) := rfl

/-! ### The pointer afterwards -/

@[simp] theorem steppedOf_plain : steppedOf v mask .plain w = v := rfl

/-- R24's table: the pointer of the pre-step mode holds the address used. -/
theorem steppedOf_pre : steppedOf v mask .pre w = withAddr v (eaOf v .pre w) := rfl

/-- Post-step differs from pre-step in the address used alone. -/
theorem steppedOf_post : steppedOf v mask .post w = steppedOf v mask .pre w := rfl

/-- R25: the bits under the wrap mask step, the others stay. -/
theorem steppedOf_circ : steppedOf v mask .circ w =
    withAddr v ((ptrAddr v &&& ~~~mask.zeroExtend 48) ||| (eaOf v .pre w &&& mask.zeroExtend 48)) := rfl

end Sys2Proof.Machine
end

section
open Sys2Proof Sys2Proof.Machine

/-- Settles O3: the encodings, then the address used and the pointer afterwards of each mode. -/
theorem addressingModes : Obligations.AddressingModes := by
  unfold Obligations.AddressingModes
  intro v mask w a next m
  have unmoved {am : AMode} (h : am ≠ .pre) : eaOf v am w = a := eaOf_of_ne_pre v w h
  have moved : eaOf v .pre w = next := eaOf_pre v w
  have pre : steppedOf v mask .pre w = v.extractLsb' 48 16 ++ next := by
    rw [steppedOf_pre, moved, withAddr]
  have post : steppedOf v mask .post w = v.extractLsb' 48 16 ++ next := by
    rw [steppedOf_post, pre]
  have circ : steppedOf v mask .circ w = v.extractLsb' 48 16 ++ ((a &&& ~~~m) ||| (next &&& m)) := by
    rw [steppedOf_circ, moved, withAddr, ptrAddr]
  exact ⟨rfl, rfl, rfl, rfl, unmoved nofun, steppedOf_plain v mask w, unmoved nofun, post, moved, pre,
    unmoved nofun, circ⟩

end

section
/-! PROOF. LOOP (R121): the obligation O10. -/

namespace Sys2Proof.Machine
open Sys2Proof

/-- A branch after a change of the thread's context alone: taken from where the instruction stands (R120). -/
theorem Ran.branchOp {s t : State} {x : Slot} (h : Ran s t x) (hq : s.inSeq = none) (hx : x.pc = s.me.pc)
    (taken : Bool) (off : W64) : ∃ u, t.branchOp taken off = .ok u ∧ Ran s u { x with
      pc := if taken then (s.nextPc + BitVec.ofNat 48 (off.toNat * 2)) &&& ~~~1#48 else s.nextPc } := by
  cases taken with
  | false => exact ⟨_, rfl, h.advance hq hx⟩
  | true =>
    refine ⟨_, rfl, ?_⟩
    rw [← h.nextPc hx, ← evenAddr_target]
    exact h.jump (t.target off)

end Sys2Proof.Machine
end

section
open Sys2Proof Sys2Proof.Machine

/-- Settles O10: LOOP writes the count and then branches, taken from a count of 2 on. -/
theorem loopCount : Obligations.LoopCount := by
  unfold Obligations.LoopCount
  rintro s off ⟨hq, -⟩ c target
  have counted := (Ran.refl s).setMe fun x =>
    { x with xi := { x.xi with count := if 2 ≤ c.toNat then c - 1 else 0 } }
  obtain ⟨u, hu, branched⟩ := counted.branchOp hq rfl (2 ≤ c.toNat) off
  refine completes_of (b := s.me.busy) hq rfl hu ?_
  by_cases h : 2 ≤ c.toNat
  · simpa only [h, if_true, decide_true] using branched
  · simpa only [h, if_false, decide_false, Bool.false_eq_true] using branched

end

section
/-! PROOF. The integer instructions (R103 to R106): the model's results as words, what the logic instructions and the
divisions do, and where the obligation O2 fails. -/

namespace Sys2Proof.Machine
open Sys2Proof

/-! ### Results of n bits -/

/-- The signed reading of a number is that of its low bits. -/
theorem signed_eq_toInt (n k : Nat) : signed n k = (BitVec.ofNat n k).toInt := by
  rw [BitVec.toInt_eq_toNat_cond, BitVec.toNat_ofNat]; rfl

theorem clampTo_false (n : Nat) (x : Int) : clampTo n false x = BitVec.ofInt n x := rfl

theorem outOfRange_eq_not_inSigned (n : Nat) (x : Int) : outOfRange n x = !inSigned n x := by
  unfold outOfRange inSigned
  generalize (2 : Int) ^ (n - 1) = k
  grind

/-- The pattern of the number of one of two words is that word. -/
theorem ofInt_ite_toInt {n : Nat} (c : Prop) [Decidable c] (a b : BitVec n) :
    BitVec.ofInt n (if c then a.toInt else b.toInt) = if c then a else b := by
  split <;> exact BitVec.ofInt_toInt

theorem ofInt_ite_toNat {n : Nat} (c : Prop) [Decidable c] (a b : BitVec n) :
    BitVec.ofInt n ((if c then a.toNat else b.toNat : Nat) : Int) = if c then a else b := by
  split <;> rw [BitVec.ofInt_natCast, BitVec.ofNat_toNat, BitVec.setWidth_eq]

/-- Below the range the model gives its lowest number, above it its highest, inside it the number itself (R105). -/
theorem narrow_eq_clampTo {n : Nat} (hn : 0 < n) (sat : Bool) (x : Int) : narrow n sat x = (clampTo n sat x).toNat := by
  cases sat with
  | false => exact (BitVec.toNat_ofInt x).symm
  | true =>
    have hk : 2 ^ n = 2 * 2 ^ (n - 1) := by rw [← Nat.pow_succ', Nat.succ_eq_add_one, Nat.sub_add_cancel hn]
    have hp : 0 < 2 ^ (n - 1) := Nat.two_pow_pos _
    have hc : (2 : Int) ^ (n - 1) = ((2 ^ (n - 1) : Nat) : Int) := (Int.natCast_pow 2 (n - 1)).symm
    simp only [narrow, clampTo, outOfRange, wrapNat, BitVec.toNat_ofInt, Bool.true_and, if_true, hk, hc,
      Bool.or_eq_true, decide_eq_true_eq]
    generalize 2 ^ (n - 1) = k at *
    have lowest : (-(k : Int) % (2 * k : Nat)).toNat = k := by
      rw [← Int.add_emod_right, Int.emod_eq_of_lt (by omega) (by omega)]; omega
    have highest : (((k : Int) - 1) % (2 * k : Nat)).toNat = k - 1 := by
      rw [Int.emod_eq_of_lt (by omega) (by omega)]; omega
    by_cases low : x < -k
    · rw [if_pos (.inl low), if_pos (by omega), Int.max_eq_left (by omega), lowest]
    by_cases high : (k : Int) - 1 < x
    · rw [if_pos (.inr high), if_neg (by omega), Int.min_eq_left (by omega), Int.max_eq_right (by omega), highest]
    · rw [if_neg (by omega), Int.min_eq_right (by omega), Int.max_eq_right (by omega)]

/-! ### What an integer instruction writes -/

section
variable {s : State} {i : Instr} {w : Width} {o : MemOp} {md : MD} {p : Operand} {m : Nat}
  (hs : s.issuing) (hr : s.reads o w.bytes md p m)
include hs hr

/-- A completed integer instruction writes its clamped result (R103 to R105). -/
theorem intOp_clamps {z : Bool} {f : Nat → Nat → Nat → IntResult}
    (he : exec i s = settle s i (s.intOp w o md z true f)) (hz : (z && m == 0) = false) :
    let r := f w.bits s.me.a.toNat m
    let y := clampTo w.bits (md.sat && r.sat) r.x
    Completes i s { s.me with
      a := y.signExtend 64, st := { s.me.st.flagsOf y with c := r.c.getD s.me.st.c, v := r.v.getD s.me.st.v },
      ptrs := s.steppedPtrs o w.bytes, pc := s.nextPc } := by
  have done := intOp_completes hs hr he hz
  simp only [narrow_eq_clampTo (width_pos w), setNZ_flagsOf, sext64, BitVec.ofNat_toNat, BitVec.setWidth_eq] at done
  exact done

/-- An instruction of N and Z alone writes the pattern of its exact result (R103, R104). -/
theorem plainOp_completes {x : Nat → Nat → Nat → Int} {r : BitVec w.bits}
    (he : exec i s = settle s i (s.intOp w o md false true fun n a m => plainResult (x n a m)))
    (hx : BitVec.ofInt w.bits (x w.bits s.me.a.toNat m) = r) :
    Completes i s { s.me with a := r.signExtend 64, st := s.me.st.flagsOf r,
                              ptrs := s.steppedPtrs o w.bytes, pc := s.nextPc } := by
  have done := intOp_clamps hs hr he rfl
  simp only [plainResult, Bool.and_false, clampTo_false, hx] at done
  exact done

end

/-! ### Operands of as many bytes as were asked for -/

/-- The bytes of parts. -/
def partsSize (ps : List Part) : Nat := (ps.map (·.n)).sum

/-- The translations of an access on its way cover no more bytes than its stretches. -/
def Flying.fits (f : Flying) : Prop := ∀ r ∈ f.reads, partsSize r.2.2 ≤ r.2.1

/-- The issuing thread's access on its way, if there is one, fits. -/
def State.flightFits (s : State) : Prop := ∀ f, s.me.flight = some f → f.fits

/-- A checked operation that succeeds has passed its first step. -/
theorem ok_of_bind {ε α β : Type} {x : Except ε α} {f : α → Except ε β} {b : β} (h : x >>= f = .ok b) :
    ∃ a, x = .ok a ∧ f a = .ok b := by
  cases x with
  | error e => cases h
  | ok a => exact ⟨a, rfl, h⟩

/-- A translation covers no more bytes than were asked for (R100). -/
theorem parts_size_le {s : State} {sp : Space} {acc : Access} {fuel : Nat} {va : VA} {n : Nat} {ps : List Part}
    (h : s.parts sp acc fuel va n = .ok ps) : partsSize ps ≤ n := by
  induction fuel generalizing va n ps with
  | zero => cases h; simp [partsSize]
  | succ fuel ih =>
    unfold State.parts at h
    split at h
    · cases h; simp [partsSize]
    dsimp only at h
    split at h
    · cases h
    split at h
    · cases h
    next rest hrest =>
      cases h
      have := ih hrest
      simp only [partsSize, List.map_cons, List.sum_cons] at this ⊢
      split at this <;> split <;> omega

theorem partsIn_size_le {s : State} (hf : s.flightFits) {sp : Space} {acc : Access} {va : VA} {n : Nat} {ps : List Part}
    (h : s.partsIn sp acc va n = .ok ps) : partsSize ps ≤ n := by
  unfold State.partsIn at h
  split at h
  next r _ found =>
    cases h
    obtain ⟨f, hflight, found⟩ := Option.bind_eq_some_iff.1 found
    have same := List.find?_some found
    simp only [Bool.and_eq_true, beq_iff_eq] at same
    exact same.2 ▸ hf f hflight r (List.mem_of_find?_eq_some found)
  · exact parts_size_le h

theorem access_size_le {s : State} (hf : s.flightFits) {acc : Access} {va : VA} {n : Nat} {ps : List Part}
    (h : s.access acc va n = .ok ps) : partsSize ps ≤ n := by
  obtain ⟨qs, translated, h⟩ := ok_of_bind h
  obtain ⟨-, -, h⟩ := ok_of_bind h
  cases h
  cases hp : s.partsIn s.space acc va n with
  | error e => rw [hp] at translated; cases translated
  | ok rs => rw [hp] at translated; cases translated; exact partsIn_size_le hf hp

/-- An operand that passes its checks is what its access translates to (R102). -/
theorem access_of_readOperand {s : State} {o : MemOp} {w : Nat} {md : MD} {p : Operand}
    (h : s.readOperand o w md = .ok p) : s.access .read (s.ea o w) w = .ok p.parts := by
  obtain ⟨-, -, h⟩ := ok_of_bind h
  obtain ⟨-, -, h⟩ := ok_of_bind h
  obtain ⟨ps, translated, h⟩ := ok_of_bind h
  rw [translated]
  cases hm : md.sync with
  | false =>
    simp only [hm] at h
    obtain ⟨-, -, h⟩ := ok_of_bind h
    cases h; rfl
  | true =>
    simp only [hm] at h
    obtain ⟨-, -, h⟩ := ok_of_bind h
    obtain ⟨-, -, h⟩ := ok_of_bind h
    obtain ⟨-, -, h⟩ := ok_of_bind h
    cases h; rfl

theorem length_loadBytes (s : State) (ps : List Part) (o : Order) : (s.loadBytes ps o).length = partsSize ps := by
  have observed (r : Reading) (ks : List Nat) : (s.observe r ks).length = ks.length := by
    unfold State.observe; split <;> simp
  simp only [State.loadBytes, List.length_map, List.length_zip, observed, partBytes, List.length_flatMap, upto,
    length_span, Nat.min_self, partsSize]

theorem ofBytes_lt (bs : List (BitVec 8)) : ofBytes bs < 256 ^ bs.length := by
  induction bs with
  | nil => decide
  | cons b bs ih =>
    rw [ofBytes, List.length_cons, Nat.pow_succ]
    have := b.isLt
    omega

/-- The number that an operand of a width holds has that width. -/
theorem reads_lt {s : State} {o : MemOp} {w : Width} {md : MD} {p : Operand} {m : Nat} (hf : s.flightFits)
    (hr : s.reads o w.bytes md p m) : m < 2 ^ w.bits := by
  obtain ⟨checked, t, loaded⟩ := hr
  rw [(loadOperand_ok loaded).2]
  calc ofBytes (s.loadBytes p.parts (p.order md))
      < 256 ^ partsSize p.parts := length_loadBytes s p.parts _ ▸ ofBytes_lt _
    _ ≤ 256 ^ w.bytes := Nat.pow_le_pow_right (by decide) (access_size_le hf (access_of_readOperand checked))
    _ = 2 ^ w.bits := by cases w <;> rfl

theorem stretchesOf_size_le {s : State} (hf : s.flightFits) {ops : List (MemOp × Nat × Access)}
    {rs : List (VA × Nat × List Part)} (h : s.stretchesOf ops = some rs) : ∀ r ∈ rs, partsSize r.2.2 ≤ r.2.1 := by
  induction ops generalizing rs with
  | nil => cases h; nofun
  | cons e es ih =>
    unfold State.stretchesOf at h
    dsimp only at h
    split at h
    next ps rest translated others =>
      cases h
      exact List.forall_mem_cons.2 ⟨access_size_le hf translated, ih others⟩
    · cases h

/-- Every access that the model lets set out fits (R143, R151). -/
theorem flightOf_fits {s : State} (hf : s.flightFits) {i : Instr} {f : Flying} (h : s.flightOf i = some f) : f.fits := by
  unfold State.flightOf at h
  split at h
  · cases h
  split at h
  · obtain ⟨rs, stretches, rfl⟩ := Option.map_eq_some_iff.1 h
    exact stretchesOf_size_le hf stretches
  · cases h

/-! ### What holds of the logic instructions and the divisions -/

section
variable {s : State} {w : Width} {o : MemOp} {md : MD} {p : Operand} {m : Nat}
  (hs : s.issuing) (hr : s.reads o w.bytes md p m)
include hs hr

/-- O2's first clause, which holds of every state (R103, R104). -/
theorem logic_completes :
    let n := w.bits
    let a := BitVec.ofNat n s.me.a.toNat
    let b := BitVec.ofNat n m
    let runs (i : Instr) (r : BitVec n) : Prop :=
      Completes i s { s.me with a := r.signExtend 64, st := s.me.st.flagsOf r,
                                ptrs := s.steppedPtrs o w.bytes, pc := s.nextPc }
    runs (.and w o md) (a &&& b) ∧ runs (.or w o md) (a ||| b) ∧ runs (.xor w o md) (a ^^^ b)
      ∧ runs (.min w o md) (if a.toInt ≤ b.toInt then a else b) ∧ runs (.max w o md) (if a.toInt ≤ b.toInt then b else a)
      ∧ runs (.minu w o md) (if a.toNat ≤ b.toNat then a else b) ∧ runs (.maxu w o md) (if a.toNat ≤ b.toNat then b else a)
      ∧ runs (.mulh w o md) (BitVec.ofInt n (a.toInt * b.toInt / 2 ^ n))
      ∧ runs (.mulhu w o md) (BitVec.ofNat n (a.toNat * b.toNat / 2 ^ n)) := by
  intro n a b runs
  refine ⟨plainOp_completes hs hr rfl ?and, plainOp_completes hs hr rfl ?or, plainOp_completes hs hr rfl ?xor,
    plainOp_completes hs hr rfl ?min, plainOp_completes hs hr rfl ?max, plainOp_completes hs hr rfl ?minu,
    plainOp_completes hs hr rfl ?maxu, plainOp_completes hs hr rfl ?mulh, plainOp_completes hs hr rfl ?mulhu⟩
  case and => rw [BitVec.ofInt_natCast, BitVec.ofNat_and]
  case or => rw [BitVec.ofInt_natCast, BitVec.ofNat_or]
  case xor => rw [BitVec.ofInt_natCast, BitVec.ofNat_xor]
  case min => rw [signed_eq_toInt, signed_eq_toInt, Int.min_def, ofInt_ite_toInt]
  case max => rw [signed_eq_toInt, signed_eq_toInt, Int.max_def, ofInt_ite_toInt]
  case minu => rw [← BitVec.toNat_ofNat, ← BitVec.toNat_ofNat, Nat.min_def, ofInt_ite_toNat]
  case maxu => rw [← BitVec.toNat_ofNat, ← BitVec.toNat_ofNat, Nat.max_def, ofInt_ite_toNat]
  case mulh => rw [signed_eq_toInt, signed_eq_toInt]
  case mulhu => rw [BitVec.ofInt_natCast, BitVec.toNat_ofNat, BitVec.toNat_ofNat]

/-- O2's second clause, for a thread whose access on its way fits (R103 to R106). -/
theorem divide_completes (hf : s.flightFits) :
    let n := w.bits
    let a := BitVec.ofNat n s.me.a.toNat
    let b := BitVec.ofNat n m
    let runs (i : Instr) (r : BitVec n) (v : Bool) : Prop :=
      if b = 0#n then Traps i s 0x08 (p.ea.zeroExtend 64)
      else Completes i s { s.me with a := r.signExtend 64, st := { s.me.st.flagsOf r with v := v },
                                     ptrs := s.steppedPtrs o w.bytes, pc := s.nextPc }
    runs (.div w o md) (clampTo n md.sat (a.toInt.tdiv b.toInt)) (!inSigned n (a.toInt.tdiv b.toInt))
      ∧ runs (.divu w o md) (BitVec.ofNat n (a.toNat / b.toNat)) false
      ∧ runs (.rem w o md) (BitVec.ofInt n (a.toInt.tmod b.toInt)) false := by
  intro n a b runs
  have zero : b = 0#n ↔ m = 0 := by
    rw [← BitVec.toNat_inj, BitVec.toNat_ofNat, Nat.mod_eq_of_lt (reads_lt hf hr)]; rfl
  by_cases h : m = 0
  · subst h
    simp only [runs, if_pos (zero.2 rfl)]
    exact ⟨intOp_divides hs hr rfl, intOp_divides hs hr rfl, intOp_divides hs hr rfl⟩
  have nonzero : (true && m == 0) = false := by simpa using h
  have div := intOp_clamps (i := .div w o md) (f := divResult) hs hr rfl nonzero
  have divu := intOp_clamps (i := .divu w o md) (f := divuResult) hs hr rfl nonzero
  have rem := intOp_clamps (i := .rem w o md) (f := remResult) hs hr rfl nonzero
  simp only [divResult, signed_eq_toInt, outOfRange_eq_not_inSigned, Bool.and_true] at div
  simp only [divuResult, Bool.and_false, clampTo_false, BitVec.ofInt_natCast, ← BitVec.toNat_ofNat] at divu
  simp only [remResult, Bool.and_false, clampTo_false, signed_eq_toInt] at rem
  simp only [runs, if_neg (mt zero.1 h)]
  exact ⟨div, divu, rem⟩

end

/-! ### Where O2 fails -/

/-- A trap that does not kill the thread raises its trap level (R228). -/
theorem takeTrap_tl (s : State) (u : Nat) (epc : VA) (n : Nat) (i : TrapInfo) (h : (s.slot u).st.tl ≠ 2#2) :
    ((s.takeTrap u epc n i).slot u).st.tl = (s.slot u).st.tl + 1 := by
  have reported : (s.stage2Event u i false).slot u = s.slot u := by
    unfold State.stage2Event; split <;> rfl
  simp [State.takeTrap, State.enterAt, reported, h]

/-- An instruction that completes at its trap level does not trap. -/
theorem Completes.not_traps {i : Instr} {s : State} {x : Slot} {c : BitVec 8} {v : W64} (h : Completes i s x)
    (hx : x.st.tl = s.me.st.tl) (hl : s.me.st.tl ≠ 2#2) : ¬Traps i s c v := by
  intro trap
  obtain ⟨t, b, completed, ran⟩ := h
  obtain rfl : t = _ := Host.Outcome.next.inj (completed.symm.trans trap)
  have raised := takeTrap_tl s s.cur s.me.pc s.chain.len { code := c, badv := v } hl
  rw [ran.own] at raised
  exact absurd (hx.symm.trans raised) (by simp [State.me])

theorem exec_div (w : Width) (o : MemOp) (md : MD) (s : State) :
    exec (.div w o md) s = settle s (.div w o md) (s.intOp w o md true true divResult) := rfl

/-- The two bytes at location 0 as one part. -/
def twoBytes : Part :=
  { va := 0, n := 2, at_ := { key := 0, fmt := 0, geo := 0, cls := .unordered, mh := false, ipage := none } }

/-- A thread at a DIV of one byte through P0 = 0, with that access on its way but a translation of two bytes recorded for
it; the bytes there are 0 and 1. -/
def unfitRig : State := {
  mem := [(1, 1)]
  slots := [(0, { mode := .running, flight := some {
    instr := .div .w8 ⟨0, .plain⟩ MD.zero, chain := {}, reads := [(0, 1, [twoBytes])], via := [] } })] }

/-- The one-byte operand is read as two bytes. -/
theorem unfitRig_reads : unfitRig.reads ⟨0, .plain⟩ Width.w8.bytes MD.zero { ea := 0, parts := [twoBytes] } 256 :=
  ⟨rfl, _, rfl⟩

end Sys2Proof.Machine
end

section
open Sys2Proof Sys2Proof.Machine

/-- Refutes O2, in its second clause alone: the model tests the loaded number for zero and the statement its low n bits,
and these differ where the translation recorded for an access on its way covers more bytes than the access. Then 256 is
divided by, where the statement asks for the trap of a byte of 0. `logic_completes`, `divide_completes` and
`flightOf_fits` say what holds: the first clause everywhere, the second wherever that access fits, as each does that the
model lets set out. -/
theorem not_integerLogicAndDivide : ¬ Obligations.IntegerLogicAndDivide := by
  unfold Obligations.IntegerLogicAndDivide
  rintro ⟨-, divides⟩
  have issuing : unfitRig.issuing := ⟨rfl, rfl⟩
  have completes := intOp_completes issuing unfitRig_reads (exec_div .w8 ⟨0, .plain⟩ MD.zero unfitRig) (by decide)
  obtain ⟨traps, -, -⟩ := divides unfitRig .w8 ⟨0, .plain⟩ MD.zero _ 256 issuing unfitRig_reads
  rw [if_pos (by decide)] at traps
  exact completes.not_traps rfl (by decide) traps

end
